-- ==== Sys2Proof/Word.lean ====
section
/-! DEFINITION. The word types of the block: bytes, 32-bit words, 64-bit hashes and binary64 values (00_scope R8, R9). -/

namespace Sys2Proof

/-- One byte of LMEM or of a stream (20_memory R200, R202). -/
abbrev Byte := BitVec 8

/-- A 32-bit word: a register, a command word, a sample or a pixel (00_scope R8). -/
abbrev Word := BitVec 32

/-- A 64-bit tile hash (00_scope R8). -/
abbrev Hash64 := BitVec 64

/-- An IEEE 754 binary64 number, held as its 64 bits (00_scope R11). -/
structure F64 where
  /-- sign in bit 63, biased exponent in bits 62:52, fraction in bits 51:0 -/
  bits : BitVec 64
deriving DecidableEq, Repr

end Sys2Proof
end

