-- ==== Sys2Proof/Machine/Bits.lean ====
section
/-! DEFINITION. Fields, signs, byte order and the small integer functions of 00_scope R9, R10 and R13. -/

namespace Sys2Proof

/-- `s32(w)`: the signed value of a word (00_scope R10). -/
def s32 (w : Word) : Int :=
  if w.toNat < 2 ^ 31 then (w.toNat : Int) else (w.toNat : Int) - 2 ^ 32

/-- `u32(v)`: v mod 2^32 as a word (00_scope R10). -/
def u32 (v : Int) : Word := BitVec.ofNat 32 (v % 2 ^ 32).toNat

/-- `v[lo+width-1 : lo]` read as an unsigned integer (00_scope R9). -/
def bitField (v lo width : Nat) : Nat := v / 2 ^ lo % 2 ^ width

/-- `clamp(v, lo, hi)` (00_scope R10). -/
def clamp (v lo hi : Int) : Int := if v < lo then lo else if hi < v then hi else v

/-- `ceil_div(a, b)` (00_scope R10). -/
def ceilDiv (a b : Nat) : Nat := (a + b - 1) / b

/-- The signed 32-bit range of a sample or coefficient (20_memory R204). -/
def inS32 (v : Int) : Bool := -(2 ^ 31) ≤ v && v ≤ 2 ^ 31 - 1

/-- The four bytes of a word, most significant first: `BE32` (20_memory R202, 45_patch R700). -/
def wordBytes (w : Word) : List Byte :=
  [BitVec.ofNat 8 (bitField w.toNat 24 8), BitVec.ofNat 8 (bitField w.toNat 16 8),
   BitVec.ofNat 8 (bitField w.toNat 8 8), BitVec.ofNat 8 (bitField w.toNat 0 8)]

/-- The word whose bytes are these, most significant first (00_scope R13, `MemRead(a, 4)`). -/
def bytesWord (b0 b1 b2 b3 : Byte) : Word :=
  BitVec.ofNat 32 (b0.toNat * 2 ^ 24 + b1.toNat * 2 ^ 16 + b2.toNat * 2 ^ 8 + b3.toNat)

/-- A byte string cut into words, most significant byte first; up to three bytes left over are dropped. -/
def wordsOfBytes : List Byte → List Word
  | b0 :: b1 :: b2 :: b3 :: rest => bytesWord b0 b1 b2 b3 :: wordsOfBytes rest
  | _ => []

/-- `f` of each element in turn, stopping at the first that fails. -/
def mapExcept {ε α β : Type} (f : α → Except ε β) : List α → Except ε (List β)
  | [] => .ok []
  | x :: xs =>
    match f x with
    | .error e => .error e
    | .ok y =>
      match mapExcept f xs with
      | .error e => .error e
      | .ok ys => .ok (y :: ys)

/-- The bytes of a list of words (20_memory R202). -/
def bytesOfWords (ws : List Word) : List Byte := ws.flatMap wordBytes

end Sys2Proof
end

