-- ==== Sys2Proof/Syntax.lean ====
section
/-! DEFINITION. The command set: one constructor per row of spec/opcode_table.json, with the operands of
30_encoding R302 and R304 as the numbers the rules compute with (00_scope R10). -/

namespace Sys2Proof

/-- A descriptor register number, D0 to D15 (10_state R101). -/
abbrev DescReg := Fin 16

/-- The commands of 30_encoding R304, in the table's order. Operands stand in the order of the assembler syntax of
30_encoding R308: header fields, then the immediate, then the argument words. Whether a number fits its field is
`Instr.wellFormed`. -/
inductive Instr where
  | nop
  | halt
  | setd (a : DescReg) (base pitch rows cols len : Nat)
  | csrw (csr : Nat) (value : Word)
  | csrr (csr addr : Nat)
  | setq (q : Nat)
  | absorb
  | fdct (a : DescReg) (row col : Nat)
  | idct (a : DescReg) (row col : Nat)
  | quant (chroma : Bool) (a : DescReg) (row col : Nat)
  | dequant (chroma : Bool) (a : DescReg) (row col : Nat)
  | zigzag (a b : DescReg) (row col index : Nat)
  | unzigzag (a b : DescReg) (index row col : Nat)
  | enc (a b : DescReg) (nblk : Nat)
  | dec (a b : DescReg) (nblk : Nat)
  | rgb2ycc (a b c d : DescReg)
  | ycc2rgb (a b c d : DescReg)
  | scale (a b : DescReg)
  | tenc (a b : DescReg)
  | tdec (a b : DescReg)
  | hash (a : DescReg)
  | diff (a b : DescReg) (ctx : Nat)
  | full (a b : DescReg)
  | hctxrst (ctx : Nat)
  | cvreset
  | cvset (a : DescReg)
  | cvread (a : DescReg) (y x : Nat)
  | stitch (a : DescReg) (x y : Int)
  | apply (a : DescReg)
  | pser (a b : DescReg) (x y w h : Int)
  | phdr (a : DescReg)
deriving DecidableEq, Repr

end Sys2Proof
end

