-- ==== Sys2Proof/WellFormed.lean ====
section
/-! DEFINITION. Which commands have an encoding: every operand fits the field of 30_encoding R300-R302 that holds it. -/

namespace Sys2Proof

/-- an unsigned 8-bit field (IMM8) -/
def fitsU8 (n : Nat) : Bool := n < 2 ^ 8

/-- an unsigned 16-bit field (a half of ROWCOL, DIMS or ORIGIN) -/
def fitsU16 (n : Nat) : Bool := n < 2 ^ 16

/-- an unsigned 32-bit argument word -/
def fitsU32 (n : Nat) : Bool := n < 2 ^ 32

/-- a signed 32-bit argument word (X, Y, W, H) -/
def fitsS32 (v : Int) : Bool := -(2 ^ 31) ≤ v && v < 2 ^ 31

/-- Every operand of the command fits its field (30_encoding R300-R302). Descriptor numbers, T and VALUE fit by
their types. -/
def Instr.wellFormed : Instr → Bool
  | .nop | .halt | .absorb | .cvreset => true
  | .setd _ base pitch rows cols len =>
    fitsU32 base && fitsU32 pitch && fitsU16 rows && fitsU16 cols && fitsU32 len
  | .csrw csr _ => fitsU32 csr
  | .csrr csr addr => fitsU32 csr && fitsU32 addr
  | .setq q => fitsU8 q
  | .fdct _ row col | .idct _ row col => fitsU16 row && fitsU16 col
  | .quant _ _ row col | .dequant _ _ row col => fitsU16 row && fitsU16 col
  | .zigzag _ _ row col index => fitsU16 row && fitsU16 col && fitsU32 index
  | .unzigzag _ _ index row col => fitsU32 index && fitsU16 row && fitsU16 col
  | .enc _ _ nblk | .dec _ _ nblk => fitsU32 nblk
  | .rgb2ycc _ _ _ _ | .ycc2rgb _ _ _ _ => true
  | .scale _ _ | .tenc _ _ | .tdec _ _ | .full _ _ => true
  | .hash _ | .cvset _ | .apply _ | .phdr _ => true
  | .diff _ _ ctx => fitsU8 ctx
  | .hctxrst ctx => fitsU8 ctx
  | .cvread _ y x => fitsU16 y && fitsU16 x
  | .stitch _ x y => fitsS32 x && fitsS32 y
  | .pser _ _ x y w h => fitsS32 x && fitsS32 y && fitsS32 w && fitsS32 h

end Sys2Proof
end

