-- ==== Sys2Proof/Decode.lean ====
section
/-! DEFINITION. The command encoding of 30_encoding R300-R307: the opcode map, the decoder (total on any bytes,
rejecting by name) and the encoder. -/

namespace Sys2Proof

/-- The opcodes of 30_encoding R304, in the table's order. -/
inductive Opcode where
  | nop | halt | setd | csrw | csrr | setq | absorb | fdct | idct | quant | dequant | zigzag | unzigzag | enc | dec | rgb2ycc
  | ycc2rgb | scale | tenc | tdec | hash | diff | full | hctxrst | cvreset | cvset | cvread | stitch | apply | pser | phdr
deriving DecidableEq, Repr

/-- What an opcode uses of IMM8 (30_encoding R301, R305). -/
inductive ImmUse where
  | none    -- the whole of IMM8 is reserved
  | bit0    -- only bit 0 (T) is used; IMM8[7:1] is reserved
  | whole   -- all eight bits are used
deriving DecidableEq, Repr

/-- One row of the opcode map (30_encoding R304). -/
structure OpcodeRow where
  code : Nat
  narg : Nat
  a : Bool
  b : Bool
  c : Bool
  d : Bool
  imm : ImmUse
deriving DecidableEq, Repr

/-- The opcode map of 30_encoding R304: OPC, NARG and the header fields each command uses. -/
def Opcode.row : Opcode → OpcodeRow
  | .nop => ⟨0x00, 0, false, false, false, false, .none⟩
  | .halt => ⟨0x01, 0, false, false, false, false, .none⟩
  | .setd => ⟨0x02, 4, true, false, false, false, .none⟩
  | .csrw => ⟨0x03, 2, false, false, false, false, .none⟩
  | .csrr => ⟨0x04, 2, false, false, false, false, .none⟩
  | .setq => ⟨0x08, 0, false, false, false, false, .whole⟩
  | .absorb => ⟨0x09, 0, false, false, false, false, .none⟩
  | .fdct => ⟨0x10, 1, true, false, false, false, .none⟩
  | .idct => ⟨0x11, 1, true, false, false, false, .none⟩
  | .quant => ⟨0x12, 1, true, false, false, false, .bit0⟩
  | .dequant => ⟨0x13, 1, true, false, false, false, .bit0⟩
  | .zigzag => ⟨0x14, 2, true, true, false, false, .none⟩
  | .unzigzag => ⟨0x15, 2, true, true, false, false, .none⟩
  | .enc => ⟨0x20, 1, true, true, false, false, .none⟩
  | .dec => ⟨0x21, 1, true, true, false, false, .none⟩
  | .rgb2ycc => ⟨0x30, 0, true, true, true, true, .none⟩
  | .ycc2rgb => ⟨0x31, 0, true, true, true, true, .none⟩
  | .scale => ⟨0x32, 0, true, true, false, false, .none⟩
  | .tenc => ⟨0x38, 0, true, true, false, false, .none⟩
  | .tdec => ⟨0x39, 0, true, true, false, false, .none⟩
  | .hash => ⟨0x40, 0, true, false, false, false, .none⟩
  | .diff => ⟨0x41, 0, true, true, false, false, .whole⟩
  | .full => ⟨0x42, 0, true, true, false, false, .none⟩
  | .hctxrst => ⟨0x43, 0, false, false, false, false, .whole⟩
  | .cvreset => ⟨0x50, 0, false, false, false, false, .none⟩
  | .cvset => ⟨0x51, 0, true, false, false, false, .none⟩
  | .cvread => ⟨0x52, 1, true, false, false, false, .none⟩
  | .stitch => ⟨0x53, 2, true, false, false, false, .none⟩
  | .apply => ⟨0x54, 0, true, false, false, false, .none⟩
  | .pser => ⟨0x55, 4, true, true, false, false, .none⟩
  | .phdr => ⟨0x56, 0, true, false, false, false, .none⟩

/-- The opcode whose OPC value is `n`, or none for the illegal values of 30_encoding R306. -/
def Opcode.ofCode (n : Nat) : Option Opcode :=
  match n with
  | 0x00 => some .nop
  | 0x01 => some .halt
  | 0x02 => some .setd
  | 0x03 => some .csrw
  | 0x04 => some .csrr
  | 0x08 => some .setq
  | 0x09 => some .absorb
  | 0x10 => some .fdct
  | 0x11 => some .idct
  | 0x12 => some .quant
  | 0x13 => some .dequant
  | 0x14 => some .zigzag
  | 0x15 => some .unzigzag
  | 0x20 => some .enc
  | 0x21 => some .dec
  | 0x30 => some .rgb2ycc
  | 0x31 => some .ycc2rgb
  | 0x32 => some .scale
  | 0x38 => some .tenc
  | 0x39 => some .tdec
  | 0x40 => some .hash
  | 0x41 => some .diff
  | 0x42 => some .full
  | 0x43 => some .hctxrst
  | 0x50 => some .cvreset
  | 0x51 => some .cvset
  | 0x52 => some .cvread
  | 0x53 => some .stitch
  | 0x54 => some .apply
  | 0x55 => some .pser
  | 0x56 => some .phdr
  | _ => none

/-- The fields of a header word (30_encoding R300). -/
structure Header where
  opc : Nat
  a : DescReg
  b : DescReg
  c : DescReg
  d : DescReg
  imm8 : Nat
deriving DecidableEq, Repr

/-- The fields of the header word `w` (30_encoding R300). -/
def headerFields (w : Word) : Header :=
  { opc := bitField w.toNat 24 8
    a := Fin.ofNat 16 (bitField w.toNat 20 4)
    b := Fin.ofNat 16 (bitField w.toNat 16 4)
    c := Fin.ofNat 16 (bitField w.toNat 12 4)
    d := Fin.ofNat 16 (bitField w.toNat 8 4)
    imm8 := bitField w.toNat 0 8 }

/-- The header word with these fields (30_encoding R300). -/
def headerWord (h : Header) : Word :=
  BitVec.ofNat 32 (h.opc * 2 ^ 24 + h.a * 2 ^ 20 + h.b * 2 ^ 16 + h.c * 2 ^ 12 + h.d * 2 ^ 8 + h.imm8)

/-- Every reserved field of the header is zero (30_encoding R305). -/
def Opcode.reservedClear (op : Opcode) (h : Header) : Bool :=
  (op.row.a || h.a == 0) && (op.row.b || h.b == 0) && (op.row.c || h.c == 0) && (op.row.d || h.d == 0) &&
  (match op.row.imm with
    | .none => h.imm8 == 0
    | .bit0 => h.imm8 / 2 == 0
    | .whole => true)

/-- `a * 2^16 + b`, the word of two 16-bit halves (30_encoding R302: ROWCOL, DIMS, ORIGIN). -/
def halves (hi lo : Nat) : Word := BitVec.ofNat 32 (hi * 2 ^ 16 + lo)

/-- bits 31:16 of an argument word -/
def hiHalf (w : Word) : Nat := bitField w.toNat 16 16

/-- bits 15:0 of an argument word -/
def loHalf (w : Word) : Nat := bitField w.toNat 0 16

/-- The command that an opcode, its header fields and its argument words denote (30_encoding R301, R302). -/
def assemble (op : Opcode) (h : Header) (args : List Word) : Instr :=
  let arg (k : Nat) : Word := args.getD k 0
  match op with
  | .nop => .nop
  | .halt => .halt
  | .setd => .setd h.a (arg 0).toNat (arg 1).toNat (hiHalf (arg 2)) (loHalf (arg 2)) (arg 3).toNat
  | .csrw => .csrw (arg 0).toNat (arg 1)
  | .csrr => .csrr (arg 0).toNat (arg 1).toNat
  | .setq => .setq h.imm8
  | .absorb => .absorb
  | .fdct => .fdct h.a (hiHalf (arg 0)) (loHalf (arg 0))
  | .idct => .idct h.a (hiHalf (arg 0)) (loHalf (arg 0))
  | .quant => .quant (h.imm8 % 2 == 1) h.a (hiHalf (arg 0)) (loHalf (arg 0))
  | .dequant => .dequant (h.imm8 % 2 == 1) h.a (hiHalf (arg 0)) (loHalf (arg 0))
  | .zigzag => .zigzag h.a h.b (hiHalf (arg 0)) (loHalf (arg 0)) (arg 1).toNat
  | .unzigzag => .unzigzag h.a h.b (arg 0).toNat (hiHalf (arg 1)) (loHalf (arg 1))
  | .enc => .enc h.a h.b (arg 0).toNat
  | .dec => .dec h.a h.b (arg 0).toNat
  | .rgb2ycc => .rgb2ycc h.a h.b h.c h.d
  | .ycc2rgb => .ycc2rgb h.a h.b h.c h.d
  | .scale => .scale h.a h.b
  | .tenc => .tenc h.a h.b
  | .tdec => .tdec h.a h.b
  | .hash => .hash h.a
  | .diff => .diff h.a h.b h.imm8
  | .full => .full h.a h.b
  | .hctxrst => .hctxrst h.imm8
  | .cvreset => .cvreset
  | .cvset => .cvset h.a
  | .cvread => .cvread h.a (hiHalf (arg 0)) (loHalf (arg 0))
  | .stitch => .stitch h.a (s32 (arg 0)) (s32 (arg 1))
  | .apply => .apply h.a
  | .pser => .pser h.a h.b (s32 (arg 0)) (s32 (arg 1)) (s32 (arg 2)) (s32 (arg 3))
  | .phdr => .phdr h.a

/-- Why a byte string is not a command (30_encoding R303, R305, R306). -/
inductive DecodeError where
  | shortHeader      -- fewer than four bytes: the header word is not whole
  | illegalOpcode    -- OPC is no opcode of R304
  | shortArgs        -- the argument words are not whole
  | reservedField    -- a reserved header field is not zero
deriving DecidableEq, Repr

/-- The first word of a byte string, and the rest. -/
def takeWord : List Byte → Option (Word × List Byte)
  | b0 :: b1 :: b2 :: b3 :: rest => some (bytesWord b0 b1 b2 b3, rest)
  | _ => none

/-- The first `n` words of a byte string, and the rest. -/
def takeWords : Nat → List Byte → Option (List Word × List Byte)
  | 0, bs => some ([], bs)
  | n + 1, bs =>
    match takeWord bs with
    | none => none
    | some (w, rest) =>
      match takeWords n rest with
      | none => none
      | some (ws, rest') => some (w :: ws, rest')

/-- The command at the front of a byte string, and the rest; the checks run in the order of 30_encoding R303. -/
def decode (bs : List Byte) : Except DecodeError (Instr × List Byte) :=
  match takeWord bs with
  | none => .error .shortHeader
  | some (hdr, rest) =>
    match Opcode.ofCode (headerFields hdr).opc with
    | none => .error .illegalOpcode
    | some op =>
      match takeWords op.row.narg rest with
      | none => .error .shortArgs
      | some (args, rest') =>
        if op.reservedClear (headerFields hdr) then .ok (assemble op (headerFields hdr) args, rest')
        else .error .reservedField

/-- The opcode of a command. -/
def Instr.opcode : Instr → Opcode
  | .nop => .nop
  | .halt => .halt
  | .setd _ _ _ _ _ _ => .setd
  | .csrw _ _ => .csrw
  | .csrr _ _ => .csrr
  | .setq _ => .setq
  | .absorb => .absorb
  | .fdct _ _ _ => .fdct
  | .idct _ _ _ => .idct
  | .quant _ _ _ _ => .quant
  | .dequant _ _ _ _ => .dequant
  | .zigzag _ _ _ _ _ => .zigzag
  | .unzigzag _ _ _ _ _ => .unzigzag
  | .enc _ _ _ => .enc
  | .dec _ _ _ => .dec
  | .rgb2ycc _ _ _ _ => .rgb2ycc
  | .ycc2rgb _ _ _ _ => .ycc2rgb
  | .scale _ _ => .scale
  | .tenc _ _ => .tenc
  | .tdec _ _ => .tdec
  | .hash _ => .hash
  | .diff _ _ _ => .diff
  | .full _ _ => .full
  | .hctxrst _ => .hctxrst
  | .cvreset => .cvreset
  | .cvset _ => .cvset
  | .cvread _ _ _ => .cvread
  | .stitch _ _ _ => .stitch
  | .apply _ => .apply
  | .pser _ _ _ _ _ _ => .pser
  | .phdr _ => .phdr

/-- The length of a command in bytes: 4·(1 + NARG) (30_encoding R307). -/
def Instr.length (i : Instr) : Nat := 4 * (1 + i.opcode.row.narg)

/-- The header fields of a command (30_encoding R300, R301, R308). -/
def Instr.headerOf (i : Instr) : Header :=
  let h (a b c d : DescReg) (imm : Nat) : Header := ⟨i.opcode.row.code, a, b, c, d, imm⟩
  match i with
  | .nop | .halt | .absorb | .cvreset | .csrw _ _ | .csrr _ _ => h 0 0 0 0 0
  | .setd a _ _ _ _ _ => h a 0 0 0 0
  | .setq q => h 0 0 0 0 q
  | .fdct a _ _ | .idct a _ _ => h a 0 0 0 0
  | .quant t a _ _ | .dequant t a _ _ => h a 0 0 0 t.toNat
  | .zigzag a b _ _ _ | .unzigzag a b _ _ _ => h a b 0 0 0
  | .enc a b _ | .dec a b _ => h a b 0 0 0
  | .rgb2ycc a b c d | .ycc2rgb a b c d => h a b c d 0
  | .scale a b | .tenc a b | .tdec a b | .full a b => h a b 0 0 0
  | .hash a | .cvset a | .apply a | .phdr a => h a 0 0 0 0
  | .diff a b ctx => h a b 0 0 ctx
  | .hctxrst ctx => h 0 0 0 0 ctx
  | .cvread a _ _ => h a 0 0 0 0
  | .stitch a _ _ => h a 0 0 0 0
  | .pser a b _ _ _ _ => h a b 0 0 0

/-- The header word of a command (30_encoding R308). -/
def Instr.header (i : Instr) : Word := headerWord i.headerOf

/-- The argument words of a command (30_encoding R302, R304). -/
def Instr.args : Instr → List Word
  | .setd _ base pitch rows cols len =>
    [BitVec.ofNat 32 base, BitVec.ofNat 32 pitch, halves rows cols, BitVec.ofNat 32 len]
  | .csrw csr value => [BitVec.ofNat 32 csr, value]
  | .csrr csr addr => [BitVec.ofNat 32 csr, BitVec.ofNat 32 addr]
  | .fdct _ row col | .idct _ row col => [halves row col]
  | .quant _ _ row col | .dequant _ _ row col => [halves row col]
  | .zigzag _ _ row col index => [halves row col, BitVec.ofNat 32 index]
  | .unzigzag _ _ index row col => [BitVec.ofNat 32 index, halves row col]
  | .enc _ _ nblk | .dec _ _ nblk => [BitVec.ofNat 32 nblk]
  | .cvread _ y x => [halves y x]
  | .stitch _ x y => [u32 x, u32 y]
  | .pser _ _ x y w h => [u32 x, u32 y, u32 w, u32 h]
  | .nop | .halt | .setq _ | .absorb | .rgb2ycc _ _ _ _ | .ycc2rgb _ _ _ _ | .scale _ _ | .tenc _ _
  | .tdec _ _ | .hash _ | .diff _ _ _ | .full _ _ | .hctxrst _ | .cvreset | .cvset _ | .apply _ | .phdr _ => []

/-- The words of a command: its header, then its arguments (30_encoding R300). -/
def encode (i : Instr) : List Word := i.header :: i.args

/-- The bytes of a command, as LMEM stores them (30_encoding R300, 20_memory R202). -/
def encodeBytes (i : Instr) : List Byte := bytesOfWords (encode i)

/-- The first `k` words of an instruction given as one number whose bit 0 is the least significant bit of its first
word, and whose later words' bits count on from it. -/
def tableWords (k w : Nat) : List Word :=
  (List.range k).map (fun j => BitVec.ofNat 32 (bitField w (32 * j) 32))

/-- The five words (the longest command) of an instruction whose `nbits` low bits are those of `w`, the bits above
zero, in the byte order of LMEM. -/
def tableBytes (nbits w : Nat) : List Byte := bytesOfWords (tableWords 5 (w % 2 ^ nbits))

/-- The command the decoder reads from an instruction whose bits are `w`, numbered as spec/opcode_table.json numbers
them. -/
def decodeTableWord (nbits w : Nat) : Option Instr :=
  match decode (tableBytes nbits w) with
  | .ok (i, _) => some i
  | .error _ => none

end Sys2Proof
end

