-- ==== Sys2Proof/Config.lean ====
section
/-! DEFINITION. What an implementation fixes (the parameters of 00_scope R7) and the free values the spec leaves open. -/

namespace Sys2Proof

/-- The parameters of 00_scope R7. The spec has a model take each one as an argument; here they travel in
`State.cfg`, which no step changes (log 1). -/
structure Config where
  /-- size of local memory in bytes -/
  lmemBytes : Nat
  /-- number of hash contexts -/
  nHctx : Nat
  /-- tiles per hash context -/
  maxTiles : Nat
  /-- canvas capacity in rows -/
  canvasMaxH : Nat
  /-- canvas capacity in columns -/
  canvasMaxW : Nat
deriving DecidableEq, Repr

/-- The stated defaults of 00_scope R7. -/
def Config.default : Config :=
  { lmemBytes := 2 ^ 24, nHctx := 4, maxTiles := 4096, canvasMaxH := 4096, canvasMaxW := 4096 }

/-- The legal ranges of 00_scope R7. -/
abbrev Config.legal (c : Config) : Prop :=
  c.lmemBytes % 4 = 0 ∧ 2 ^ 16 ≤ c.lmemBytes ∧ c.lmemBytes ≤ 2 ^ 31 ∧
  1 ≤ c.nHctx ∧ c.nHctx ≤ 256 ∧ 1 ≤ c.maxTiles ∧
  1 ≤ c.canvasMaxH ∧ c.canvasMaxH ≤ 65535 ∧ 1 ≤ c.canvasMaxW ∧ c.canvasMaxW ≤ 65535

/-- FREE VALUE. The byte that LMEM address `a` holds at power-on (20_memory R216: "A model draws every byte as a
free input"). It has no body: nothing constrains it (log 2). -/
opaque Config.powerOnByte (a : Nat) : Byte

/-- FREE VALUE. The byte found at LMEM address `a` after the `n`-th execution fault, for an address of an output
footprint of the faulting command (20_memory R217: "a model draws each such byte"). It has no body (log 4). -/
opaque Config.faultByte (n a : Nat) : Byte

end Sys2Proof
end

