-- ==== Sys2Proof/Machine/F64.lean ====
section
/-! DEFINITION. IEEE 754 binary64 arithmetic, round to nearest, ties to even (00_scope R11), and Round (R12).
Every operation is the exact result, rounded once. PRESUMED (log 27): R11 names IEEE 754 and the rounding mode; the
standard's signed zeros, gradual underflow, overflow to infinity and NaN rules come from the standard itself. -/

namespace Sys2Proof

/-- What the bits of a binary64 number stand for: `fin neg m e` is (−1)^neg · m · 2^e. -/
inductive FVal where
  | nan
  | inf (neg : Bool)
  | fin (neg : Bool) (m : Nat) (e : Int)
deriving DecidableEq, Repr

/-- The value of a bit pattern (IEEE 754 binary64: bias 1023, 52 fraction bits). -/
def F64.view (x : F64) : FVal :=
  let n : Nat := x.bits.toNat
  let neg : Bool := Nat.ble (2 ^ 63) n
  let biased : Nat := n / 2 ^ 52 % 2 ^ 11
  let frac : Nat := n % 2 ^ 52
  if biased = 2047 then (if frac = 0 then .inf neg else .nan)
  else if biased = 0 then .fin neg frac (-1074)
  else .fin neg (2 ^ 52 + frac) ((biased : Int) - 1075)

/-- The bit pattern with sign `neg` and the 63 low bits `mag`. -/
def F64.ofMag (neg : Bool) (mag : Nat) : F64 := ⟨BitVec.ofNat 64 ((if neg then 2 ^ 63 else 0) + mag)⟩

/-- The one NaN that operations answer. It is never stored (43_quant R553; log 13). -/
def F64.nan : F64 := ⟨0x7FF8000000000000⟩

/-- infinity with sign `neg` -/
def F64.inf (neg : Bool) : F64 := F64.ofMag neg (2047 * 2 ^ 52)

/-- `m · 2^e` with its integer part rounded to nearest, ties to even, after division by `2^sh`. -/
def roundShift (m sh : Nat) : Nat :=
  let q := m / 2 ^ sh
  let r := 2 * (m % 2 ^ sh)
  if r < 2 ^ sh then q else if 2 ^ sh < r then q + 1 else if q % 2 = 0 then q else q + 1

/-- The binary64 number nearest to (−1)^neg · m · 2^e, ties to even; too large a magnitude gives an infinity. The
unit in the last place is `2^t`. -/
def F64.ofScaled (neg : Bool) (m : Nat) (e : Int) : F64 :=
  if m = 0 then F64.ofMag neg 0
  else
    let t : Int := max (e + (Nat.log2 m : Int) - 52) (-1074)
    let q : Nat := roundShift (m * 2 ^ (e - t).toNat) (t - e).toNat
    F64.ofMag neg (min ((t + 1074).toNat * 2 ^ 52 + q) (2047 * 2 ^ 52))

/-- (−1)^neg · m -/
def signed (neg : Bool) (m : Nat) : Int := if neg then -(m : Int) else (m : Int)

/-- `f64(n)` (00_scope R11). -/
def F64.ofInt (n : Int) : F64 := F64.ofScaled (n < 0) n.natAbs 0

/-- Negation, exact (00_scope R11). -/
def F64.neg (x : F64) : F64 := ⟨x.bits ^^^ 0x8000000000000000⟩

/-- `x + y` (00_scope R11). -/
def F64.add (x y : F64) : F64 :=
  match x.view, y.view with
  | .nan, _ => F64.nan
  | _, .nan => F64.nan
  | .inf a, .inf b => if a = b then x else F64.nan
  | .inf _, _ => x
  | _, .inf _ => y
  | .fin a m e, .fin b n f =>
    let g : Int := min e f
    let v : Int := signed a (m * 2 ^ (e - g).toNat) + signed b (n * 2 ^ (f - g).toNat)
    if v = 0 then F64.ofMag (a && b) 0 else F64.ofScaled (v < 0) v.natAbs g

/-- `x − y` (00_scope R11). -/
def F64.sub (x y : F64) : F64 := F64.add x y.neg

/-- `x × y` (00_scope R11). -/
def F64.mul (x y : F64) : F64 :=
  match x.view, y.view with
  | .nan, _ => F64.nan
  | _, .nan => F64.nan
  | .inf a, .inf b => F64.inf (a ^^ b)
  | .inf a, .fin b n _ => if n = 0 then F64.nan else F64.inf (a ^^ b)
  | .fin a m _, .inf b => if m = 0 then F64.nan else F64.inf (a ^^ b)
  | .fin a m e, .fin b n f => F64.ofScaled (a ^^ b) (m * n) (e + f)

/-- `x / y` (00_scope R11). The quotient is taken to more than 64 bits; a last bit of 1 stands for a nonzero
remainder, so that rounding once is rounding the exact quotient. -/
def F64.div (x y : F64) : F64 :=
  match x.view, y.view with
  | .nan, _ => F64.nan
  | _, .nan => F64.nan
  | .inf _, .inf _ => F64.nan
  | .inf a, .fin b _ _ => F64.inf (a ^^ b)
  | .fin a _ _, .inf b => F64.ofMag (a ^^ b) 0
  | .fin a m e, .fin b n f =>
    if n = 0 then (if m = 0 then F64.nan else F64.inf (a ^^ b))
    else
      let num := m * 2 ^ 120
      F64.ofScaled (a ^^ b) (2 * (num / n) + (if num % n = 0 then 0 else 1)) (e - f - 121)

/-- Neither NaN nor infinite. -/
def F64.isFinite (x : F64) : Bool :=
  match x.view with
  | .fin _ _ _ => true
  | _ => false

/-- A finite number greater than zero (43_quant R553). -/
def F64.isFinitePos (x : F64) : Bool :=
  match x.view with
  | .fin neg m _ => !neg && m != 0
  | _ => false

/-- `floor(m · 2^e)` for an integer m. -/
def floorScaled (m e : Int) : Int :=
  if 0 ≤ e then m * 2 ^ e.toNat else m / 2 ^ (-e).toNat

/-- `Round(x)` for a finite x: the integer n with n ≤ x + 1/2 < n + 1, on the exact value (00_scope R12). -/
def F64.round (x : F64) : Int :=
  match x.view with
  | .fin neg m e => if 0 ≤ e then floorScaled (signed neg m) e else floorScaled (2 * signed neg m + 2 ^ (-e).toNat) (e - 1)
  | _ => 0

/-- `floor(x)` for a finite x (47_compositor R801). -/
def F64.floor (x : F64) : Int :=
  match x.view with
  | .fin neg m e => floorScaled (signed neg m) e
  | _ => 0

/-- `Round(x)` where x must be finite and the result in the s32 range; `none` is the NUMERIC condition of 42_dct R503,
R504 and 43_quant R554, R555. -/
def F64.roundS32 (x : F64) : Option Int :=
  if x.isFinite && inS32 x.round then some x.round else none

end Sys2Proof
end

