-- ==== Sys2Proof/Machine/ResetTables.lean ====
section
/-! DEFINITION. The base quantization tables and the reset values of SCALE, QTL and QTC, and how a 64-entry table is
made (10_state R111, R112; 43_quant R550; 70_reset R950). -/

namespace Sys2Proof

/-- A table of `n` entries from its entry function. -/
def tabulate {α : Type} (n : Nat) (f : Nat → α) : Vector α n :=
  ⟨⟨(List.range n).map f⟩, by simp⟩

/-- LUMA_BASE in natural order, entry 8i + j (43_quant R550; T.81 Table K.1). -/
def lumaBase : List Nat :=
  [16, 11, 10, 16, 24, 40, 51, 61,
   12, 12, 14, 19, 26, 58, 60, 55,
   14, 13, 16, 24, 40, 57, 69, 56,
   14, 17, 22, 29, 51, 87, 80, 62,
   18, 22, 37, 56, 68, 109, 103, 77,
   24, 35, 55, 64, 81, 104, 113, 92,
   49, 64, 78, 87, 103, 121, 120, 101,
   72, 92, 95, 98, 112, 100, 103, 99]

/-- CHROMA_BASE in natural order, entry 8i + j (43_quant R550; T.81 Table K.2). -/
def chromaBase : List Nat :=
  [17, 18, 24, 47, 99, 99, 99, 99,
   18, 21, 26, 66, 99, 99, 99, 99,
   24, 26, 56, 99, 99, 99, 99, 99,
   47, 66, 99, 99, 99, 99, 99, 99,
   99, 99, 99, 99, 99, 99, 99, 99,
   99, 99, 99, 99, 99, 99, 99, 99,
   99, 99, 99, 99, 99, 99, 99, 99,
   99, 99, 99, 99, 99, 99, 99, 99]

/-- The reset values of SCALE[0..7], the normative bits column of 10_state R111. -/
def resetScaleBits : List (BitVec 64) :=
  [0x3FD6A09E667F3BCD, 0x3FD0503ED17CBA53, 0x3FD1517A7BDB3895, 0x3FD33E37A1E0173E, 0x3FD6A09E667F3BCD, 0x3FDCCC9AEFB18D58, 0x3FE4E7AE9144F0FC, 0x3FF480D9D073B428]

/-- QTL after reset: what SETQ 50 then ABSORB leave with the reset SCALE (70_reset R950, listed as V-Q3; the test
`test_reset_tables_are_setq50_absorb` computes them). -/
def resetQtlBits : List (BitVec 64) :=
  [0x405FFFFFFFFFFFFE, 0x405E83CEF3E1F729, 0x405A219A35962D3A, 0x4062D062EF88E319, 0x4067FFFFFFFFFFFE, 0x406F6D8431142FF8, 0x406B99DB3565622C, 0x4060D471D84F6C60,
   0x4060A4FC8506E3E8, 0x406716286DB2F4FA, 0x40695F1F1CF29F43, 0x406EFD1E0FE18F64, 0x40720811901CCC3B, 0x407F9A9A406A72F2, 0x40768512B43C4526, 0x40650C2EC73E1991,
   0x40624AB8BF1C52DC, 0x40678F2F2D2A6F50, 0x406B504F333F9DE6, 0x40726FAF239E2A0D, 0x407A219A35962D3A, 0x407D41C802048DEE, 0x4078652AC6812C78, 0x40642FD70A82FEB9,
   0x406076569197C6B6, 0x406BBA0D6C8672D3, 0x4070E6608B50FBE1, 0x40740C8559C39260, 0x407DFC1DADC229F0, 0x4084182946D45C06, 0x4079748620714628, 0x40641D3F551D4FC4,
   0x4061FFFFFFFFFFFF, 0x406E83CEF3E1F729, 0x40782BE1D7F7B6A2, 0x408076569197C6B6, 0x4080FFFFFFFFFFFF, 0x408569020E3C2714, 0x407BDF211F54CF0E, 0x40653E874FFF88CD,
   0x4062DB4F50A5B662, 0x4073124299A15705, 0x407C3AFB60434595, 0x407D906BCF328D46, 0x407FD215D817A3C5, 0x40800CDBEC490B30, 0x4078064F7958CEA6, 0x4063F16E8D038A3D,
   0x406A84C38DA7AEA3, 0x4078056948C8D24B, 0x407B93C10CEB10E1, 0x407BAEB84347FC4C, 0x407BDF211F54CF0E, 0x4079B9BB0C21ED23, 0x407192D6FFD16FE0, 0x405E29696D9D1CC2,
   0x4063DD609A987FEA, 0x40719A7AE7CD89BF, 0x40711F6F8B33AEEA, 0x406FCB220AAA33C3, 0x406EE69645D0C6FB, 0x4065AD61E7305E9C, 0x405EC24FA27A3424, 0x404E24C9DBEE6BBB]

/-- QTC after reset, as `resetQtlBits`. -/
def resetQtcBits : List (BitVec 64) :=
  [0x4060FFFFFFFFFFFF, 0x4068F77AC78A55DC, 0x406F5B85D9E76978, 0x407BA2114FD10D8D, 0x4088BFFFFFFFFFFE, 0x40837229CB2AE415, 0x407ACA0977971B85, 0x406B5064D491AFE2,
   0x4068F77AC78A55DC, 0x407433635FFC965A, 0x40778F2F2D2A6F50, 0x408AE94943AFABAE, 0x40912A24692F1B07, 0x408AF8E929BBF3C1, 0x4082942F6E4B52A6, 0x4072F15D4CEB1703,
   0x406F5B85D9E76978, 0x40778F2F2D2A6F50, 0x4087E6454CD7AA29, 0x4093032C9CBB1B5D, 0x40902B31045B5262, 0x40896848A36FBE9F, 0x4081803A83466840, 0x4071D8005DDCEEDF,
   0x407BA2114FD10D8D, 0x408AE94943AFABAE, 0x4093032C9CBB1B5D, 0x40911C57533AC5C0, 0x408D1A590A87BF4B, 0x4086DDB362411944, 0x407F8032C825C6D2, 0x40700F17B9A1B97E,
   0x4088BFFFFFFFFFFE, 0x40912A24692F1B07, 0x40902B31045B5262, 0x408D1A590A87BF4B, 0x4088BFFFFFFFFFFE, 0x40837229CB2AE415, 0x407ACA0977971B85, 0x406B5064D491AFE2,
   0x40837229CB2AE415, 0x408AF8E929BBF3C1, 0x40896848A36FBE9F, 0x4086DDB362411944, 0x40837229CB2AE415, 0x407E8EA2B314E8FE, 0x40750C533878D94B, 0x406575E37BEAC410,
   0x407ACA0977971B85, 0x4082942F6E4B52A6, 0x4081803A83466840, 0x407F8032C825C6D2, 0x407ACA0977971B85, 0x40750C533878D94B, 0x406CFF15F2E65EFE, 0x405D908338C00560,
   0x406B5064D491AFE2, 0x4072F15D4CEB1703, 0x4071D8005DDCEEDF, 0x40700F17B9A1B97E, 0x406B5064D491AFE2, 0x406575E37BEAC410, 0x405D908338C00560, 0x404E24C9DBEE6BBB]

/-- SCALE after reset (10_state R111). -/
def resetScale : Vector F64 8 := tabulate 8 fun k => ⟨resetScaleBits.getD k 0⟩

/-- QTL after reset (70_reset R950). -/
def resetQtl : Vector F64 64 := tabulate 64 fun k => ⟨resetQtlBits.getD k 0⟩

/-- QTC after reset (70_reset R950). -/
def resetQtc : Vector F64 64 := tabulate 64 fun k => ⟨resetQtcBits.getD k 0⟩

end Sys2Proof
end

