-- ==== Sys2Proof/Machine/State.lean ====
section
/-! DEFINITION. The state of the block as plain data (10_state R100-R130), its stop reasons, and the state after
reset (70_reset R950, R952). -/

namespace Sys2Proof.Machine

/-- LMEM as a list of (address, byte) pairs, addresses strictly rising (20_memory R200). An address that is not
listed has not been written; it reads as the free power-on byte (20_memory R216, logs 2 and 3). -/
abbrev Memory := List Host.Cell

/-- The canonical form of LMEM: addresses strictly rising, so no address is listed twice. No entry can equal what an
unlisted address reads as, for that byte is a free value (log 3). -/
abbrev Memory.wf (m : Memory) : Prop := m.Pairwise (fun c d => c.1 < d.1)

/-- A descriptor register (10_state R101). -/
structure Desc where
  /-- byte address in LMEM of element (0,0), of sequence element 0 or of stream byte 0 -/
  base : Word
  /-- bytes from the start of one matrix row to the start of the next -/
  pitch : Word
  /-- number of matrix rows -/
  rows : BitVec 16
  /-- number of matrix columns -/
  cols : BitVec 16
  /-- length of a sequence or stream in bytes -/
  len : Word
deriving DecidableEq, Repr

/-- Every field 0: the reset value of a descriptor (10_state R101). -/
def Desc.zero : Desc := ⟨0, 0, 0, 0, 0⟩

/-- ENGINE_STATE (10_state R108). -/
inductive EngineState where
  | idle
  | running
  | halted
  | faulted
deriving DecidableEq, Repr

/-- The fault codes of 60_exceptions R901. -/
inductive FaultCode where
  | fetch | illegalOpcode | reserved | operand | csr | csrValue | align | bounds | block | dimension | overlap
  | streamOverflow | codeRange | numeric | canvasCapacity | tileCapacity | absorbTwice
deriving DecidableEq, Repr

/-- GEOM, the tuple a hash context was filled under (10_state R115, 46_tilediff R752). -/
structure Geometry where
  rows : Nat
  cols : Nat
  tsize : Nat
  hstride : Nat
deriving DecidableEq, Repr

/-- A hash context (10_state R115). -/
structure HashContext where
  valid : Bool
  geom : Geometry
  gr : Nat
  gc : Nat
  /-- the tile hashes in raster order, `gr * gc` of them when the context is valid -/
  hashes : List Hash64
deriving DecidableEq, Repr

/-- An invalid context. The fields other than VALID are unspecified after reset and never read (10_state R115); the
values here are a DESIGN CHOICE (log 9). -/
def HashContext.invalid : HashContext := ⟨false, ⟨0, 0, 0, 0⟩, 0, 0, []⟩

/-- The canvas: CANVAS_H, CANVAS_W and the pixel words, row by row (10_state R116). It may be 0×n or n×0 and then
holds no pixels (47_compositor R808). -/
structure Canvas where
  h : Nat
  w : Nat
  pixels : List (List Word)
deriving DecidableEq, Repr

/-- The empty canvas (10_state R116, 47_compositor R803). -/
def Canvas.empty : Canvas := ⟨0, 0, []⟩

/-- What the host can do to the block from outside (10_state R130, 20_memory R213). Reads have no side effect and are
functions of State (log 17). -/
inductive HostAct where
  /-- write a 32-bit value to the host register at this byte offset -/
  | regWrite (off : Nat) (v : Word)
  /-- write bytes to LMEM from this address on, through the host port -/
  | lmemWrite (a : Nat) (bytes : List Byte)
deriving DecidableEq, Repr

/-- A host move: it happens after `wait` more steps of the machine (log 6). -/
structure HostMove where
  wait : Nat
  act : HostAct
deriving DecidableEq, Repr

/-- The state of the block (10_state R100), and three fields of the model's own: `cfg`, `draws` and `moves`. -/
structure State where
  /-- the model's own: the parameters of 00_scope R7, changed by no step (log 1) -/
  cfg : Config
  /-- LMEM (20_memory R200) -/
  lmem : Memory
  /-- D0 to D15 (10_state R101) -/
  descs : Vector Desc 16
  /-- RES0 to RES7 (10_state R105) -/
  res : Vector Word 8
  /-- HASH (10_state R106) -/
  hash : Hash64
  /-- CPC (10_state R107) -/
  cpc : Word
  /-- ENGINE_STATE (10_state R108) -/
  engine : EngineState
  /-- ABSORBED (10_state R109) -/
  absorbed : Bool
  /-- FAULT_CODE, 0 = none (10_state R110) -/
  faultCode : BitVec 8
  /-- FAULT_CPC (10_state R110) -/
  faultCpc : Word
  /-- FAULT_INFO (10_state R110) -/
  faultInfo : Word
  /-- SCALE[0..7] (10_state R111) -/
  scale : Vector F64 8
  /-- QTL, the luminance table, natural order (10_state R112) -/
  qtl : Vector F64 64
  /-- QTC, the chrominance table, natural order (10_state R112) -/
  qtc : Vector F64 64
  /-- QUALITY (10_state R113) -/
  quality : Word
  /-- EMODE: 0 = RLE, 1 = Huffman (10_state R114) -/
  emode : Word
  /-- TSIZE (10_state R114) -/
  tsize : Word
  /-- HSTRIDE (10_state R114) -/
  hstride : Word
  /-- the hash contexts 0 .. N_HCTX−1 (10_state R115) -/
  ctxs : List HashContext
  /-- the canvas (10_state R116) -/
  canvas : Canvas
  /-- H_CPC_START (10_state R130) -/
  hCpcStart : Word
  /-- H_IRQ_EN bit 0 (10_state R130) -/
  irqEn : Bool
  /-- H_IRQ_PEND bit 0 (10_state R130, 60_exceptions R908) -/
  irqPend : Bool
  /-- a SOFT_RESET waits for the end of the current command (60_exceptions R911, 70_reset R965; log 7) -/
  resetPending : Bool
  /-- the model's own: how many execution faults have drawn their output bytes (20_memory R217; log 4) -/
  draws : Nat
  /-- the model's own: the host moves still to come (log 6) -/
  moves : List HostMove
deriving DecidableEq, Repr

/-- Why the model stops without a next state. A fault of the block (60_exceptions R901) is not one of these: taking
it is a next state. -/
inductive Fault where
  /-- Raised by a host move that writes LMEM at an address outside 0 .. LMEM_BYTES−1: no such byte exists
  (20_memory R200) and the host port's protocol is outside the spec (R213). SAFE: the model stops (log 11). -/
  | hostAddress
deriving DecidableEq, Repr

/-- Why the model refuses an instruction. -/
inductive Refusal where
  /-- Raised by an arm of `exec` whose instruction has no meaning yet; no arm does. SAFE: the model stops. -/
  | notModelled (mnemonic : String)
deriving DecidableEq, Repr

/-- The block right after power-on with parameters `cfg` (70_reset R950, R952): LMEM unwritten, every other item at
the value of R950's table. -/
def State.powerOn (cfg : Config) : State :=
  { cfg := cfg
    lmem := []
    descs := tabulate 16 fun _ => Desc.zero
    res := tabulate 8 fun _ => 0
    hash := 0
    cpc := 0
    engine := .idle
    absorbed := true
    faultCode := 0
    faultCpc := 0
    faultInfo := 0
    scale := resetScale
    qtl := resetQtl
    qtc := resetQtc
    quality := 50
    emode := 1
    tsize := 32
    hstride := 2
    ctxs := List.replicate cfg.nHctx HashContext.invalid
    canvas := Canvas.empty
    hCpcStart := 0
    irqEn := false
    irqPend := false
    resetPending := false
    draws := 0
    moves := [] }

/-- The machine right after reset (70_reset R950), with the stated default parameters (00_scope R7). -/
def State.reset : State := State.powerOn Config.default

end Sys2Proof.Machine
end

