-- ==== Sys2Proof/Machine/Ops.lean ====
section
/-! DEFINITION. The operations every command is made of: reading and writing LMEM and the registers, taking a fault
(60_exceptions R902, R903), completing a command (10_state R107), and the ways back from a fault, which are the
host's START, RESUME and SOFT_RESET (60_exceptions R909, R910; 70_reset R951). -/

namespace Sys2Proof.Machine

/-! LMEM -/

/-- The byte written at `a`, if any. -/
def Memory.find : Memory → Nat → Option Byte
  | [], _ => none
  | c :: m, a => if c.1 = a then some c.2 else Memory.find m a

/-- `MemRead(a, 1)` (00_scope R13): the byte written at `a`, or the free power-on byte (20_memory R216). -/
def Memory.read (m : Memory) (a : Nat) : Byte := (Memory.find m a).getD (Config.powerOnByte a)

/-- The cells whose address is at least `a`, where `m` is in canonical form. -/
def Memory.dropBelow (m : Memory) (a : Nat) : Memory := m.dropWhile (fun c => Nat.blt c.1 a)

/-- The `n` bytes from address `a` on, lowest address first: `Memory.read` at each of them, in one walk. -/
def Memory.load (m : Memory) (a : Nat) : Nat → List Byte
  | 0 => []
  | n + 1 =>
    match Memory.dropBelow m a with
    | [] => Config.powerOnByte a :: Memory.load [] (a + 1) n
    | c :: rest =>
      if c.1 = a then c.2 :: Memory.load rest (a + 1) n
      else Memory.read (c :: rest) a :: Memory.load (c :: rest) (a + 1) n

/-- Consecutive cells from address `a` on. -/
def cellsFrom : Nat → List Byte → Memory
  | _, [] => []
  | a, b :: bs => (a, b) :: cellsFrom (a + 1) bs

/-- Write bytes from address `a` on, lowest address first (00_scope R13, `MemWrite`). -/
def Memory.store (m : Memory) (a : Nat) (bs : List Byte) : Memory :=
  m.takeWhile (fun c => Nat.blt c.1 a) ++ cellsFrom a bs ++
    (Memory.dropBelow m a).filter (fun c => Nat.blt c.1 a || Nat.ble (a + bs.length) c.1)

/-- `MemRead(a + 4k, 4)` for k < n (00_scope R13, 20_memory R202). -/
def Memory.loadWords (m : Memory) (a n : Nat) : List Word := wordsOfBytes (Memory.load m a (4 * n))

/-- `MemWrite(a + 4k, 4, ws[k])` for each word (00_scope R13, 20_memory R202). -/
def Memory.storeWords (m : Memory) (a : Nat) (ws : List Word) : Memory := Memory.store m a (bytesOfWords ws)

/-- `n` rows of `cols` words, the rows `pitch` bytes apart (00_scope R15, `MatAddr`). -/
def Memory.loadRows (m : Memory) (a pitch cols : Nat) : Nat → List (List Word)
  | 0 => []
  | n + 1 => Memory.loadWords m a cols :: Memory.loadRows m (a + pitch) pitch cols n

/-- Write rows of words, the rows `pitch` bytes apart (00_scope R15, `MatWr`). -/
def Memory.storeRows (m : Memory) (a pitch : Nat) : List (List Word) → Memory
  | [] => m
  | r :: rs => Memory.storeRows (Memory.storeWords m a r) (a + pitch) pitch rs

/-! Registers -/

/-- D[a] (10_state R101). -/
def State.desc (s : State) (a : DescReg) : Desc := s.descs[a]

/-- `D[a] ← d` (10_state R101). -/
def State.setDesc (s : State) (a : DescReg) (d : Desc) : State := { s with descs := s.descs.set a d }

/-- Replace LMEM. -/
def State.setLmem (s : State) (m : Memory) : State := { s with lmem := m }

/-- Replace the canvas (10_state R116). -/
def State.setCanvas (s : State) (c : Canvas) : State := { s with canvas := c }

/-- Hash context `c` (10_state R115). -/
def State.ctx (s : State) (c : Nat) : HashContext := s.ctxs.getD c HashContext.invalid

/-- Replace hash context `c` (10_state R115). -/
def State.setCtx (s : State) (c : Nat) (x : HashContext) : State := { s with ctxs := s.ctxs.set c x }

/-- Replace both quantization tables at once, one snapshot (43_quant R558). -/
def State.setTables (s : State) (l c : Vector F64 64) : State := { s with qtl := l, qtc := c }

/-- The quantization table T selects: QTL for 0, QTC for 1 (30_encoding R301). -/
def State.table (s : State) (chroma : Bool) : Vector F64 64 := if chroma then s.qtc else s.qtl

/-- Move CPC past a command of `n` bytes (10_state R107). -/
def State.advance (s : State) (n : Nat) : State := { s with cpc := s.cpc + BitVec.ofNat 32 n }

/-! Faults -/

/-- The code that FAULT_CODE holds (60_exceptions R901). -/
def FaultCode.code : FaultCode → BitVec 8
  | .fetch => 0x01
  | .illegalOpcode => 0x02
  | .reserved => 0x03
  | .operand => 0x04
  | .csr => 0x05
  | .csrValue => 0x06
  | .align => 0x07
  | .bounds => 0x08
  | .block => 0x09
  | .dimension => 0x0A
  | .overlap => 0x0B
  | .streamOverflow => 0x0C
  | .codeRange => 0x0D
  | .numeric => 0x0E
  | .canvasCapacity => 0x0F
  | .tileCapacity => 0x10
  | .absorbTwice => 0x11

/-- `raise Fault(code)` (00_scope R14). A check fault has no `drawn` range; an execution fault names the byte ranges
(address, length) of the command's outputs (60_exceptions R903). -/
structure Raise where
  code : FaultCode
  drawn : List (Nat × Nat)
deriving DecidableEq, Repr

/-- A computation of a command that may raise. -/
abbrev Checked (α : Type) := Except Raise α

/-- A check: raise the check fault `code` when `bad` holds (60_exceptions R903, class N). -/
def raiseWhen (bad : Prop) [Decidable bad] (code : FaultCode) : Checked Unit :=
  if bad then .error ⟨code, []⟩ else .ok ()

/-- An execution fault `code` when `bad` holds; the output ranges are then drawn (60_exceptions R903, class X). -/
def drawWhen (bad : Prop) [Decidable bad] (code : FaultCode) (drawn : List (Nat × Nat)) : Checked Unit :=
  if bad then .error ⟨code, drawn⟩ else .ok ()

/-- The result of a computation that may meet an execution fault; the output ranges are then drawn
(60_exceptions R903, class X). -/
def orDraw {α : Type} (drawn : List (Nat × Nat)) (r : Except FaultCode α) : Checked α :=
  match r with
  | .ok x => .ok x
  | .error code => .error ⟨code, drawn⟩

/-- The free bytes of an output range after the `n`-th execution fault (20_memory R217; log 4). -/
def drawnBytes (n lo len : Nat) : List Byte := (List.range len).map (fun k => Config.faultByte n (lo + k))

/-- Every byte of the output ranges becomes a free value (20_memory R217). -/
def drawRanges (n : Nat) (m : Memory) (drawn : List (Nat × Nat)) : Memory :=
  drawn.foldl (fun m r => Memory.store m r.1 (drawnBytes n r.1 r.2)) m

/-- TAKING A FAULT: FaultEntry of 60_exceptions R902. `info` is the header word, or 0 when it was not read. The fault
registers are written, the engine stops, the interrupt is raised and CPC stays; an execution fault also draws its
output bytes (R903). -/
def takeFault (code : FaultCode) (info : Word) (drawn : List (Nat × Nat)) (s : State) : State :=
  { s with
    lmem := drawRanges s.draws s.lmem drawn
    draws := if drawn.isEmpty then s.draws else s.draws + 1
    faultCode := code.code
    faultCpc := s.cpc
    faultInfo := info
    engine := .faulted
    irqPend := true }

/-- The end of command `i` in state `s`: it completes and CPC moves past it (10_state R107), or its fault is taken
(60_exceptions R902). -/
def finish (i : Instr) (s : State) (r : Checked State) : Host.Outcome State Fault Refusal :=
  match r with
  | .ok t => .next (t.advance i.length)
  | .error f => .next (takeFault f.code i.header f.drawn s)

/-! The ways back: the host's control writes -/

/-- Clear the fault registers (60_exceptions R910). -/
def State.clearFault (s : State) : State := { s with faultCode := 0, faultCpc := 0, faultInfo := 0 }

/-- START (60_exceptions R910): ignored while RUNNING. -/
def State.start (s : State) : State :=
  if s.engine = .running then s else { s.clearFault with cpc := s.hCpcStart, engine := .running }

/-- RESUME (60_exceptions R910): ignored while RUNNING; CPC stays. -/
def State.resume (s : State) : State :=
  if s.engine = .running then s else { s.clearFault with engine := .running }

/-- The reset of 70_reset R951: every item of R950 but LMEM takes its reset value. -/
def State.softReset (s : State) : State :=
  { State.powerOn s.cfg with lmem := s.lmem, draws := s.draws, moves := s.moves }

/-- SOFT_RESET (60_exceptions R910, 70_reset R951): immediate unless RUNNING, else at the end of the current
command. -/
def State.requestReset (s : State) : State :=
  if s.engine = .running then { s with resetPending := true } else s.softReset

/-- A pending SOFT_RESET lands at the command boundary (60_exceptions R911). -/
def State.boundary (s : State) : State := if s.resetPending then s.softReset else s

end Sys2Proof.Machine
end

