-- ==== Sys2Proof/Machine/Operands.lean ====
section
/-! DEFINITION. The operand views of a descriptor: matrix, sequence, stream, 8×8 block, 64-word window and prefix
(00_scope R15; 10_state R102-R104; 42_dct R507), with their checks, footprints and accesses (20_memory R205-R210). -/

namespace Sys2Proof.Machine

/-! Checks, in the order of their pseudocode -/

/-- `MatDesc(d)` (10_state R102). -/
def matDesc (s : State) (d : Desc) : Checked Unit := do
  raiseWhen (d.base.toNat % 4 ≠ 0 ∨ d.pitch.toNat % 4 ≠ 0) .align
  raiseWhen (d.rows.toNat > 1 ∧ d.pitch.toNat < 4 * d.cols.toNat) .dimension
  raiseWhen (d.rows.toNat > 0 ∧ d.cols.toNat > 0 ∧
    d.base.toNat + (d.rows.toNat - 1) * d.pitch.toNat + 4 * d.cols.toNat > s.cfg.lmemBytes) .bounds

/-- `SeqDesc(d)` (10_state R103). -/
def seqDesc (s : State) (d : Desc) : Checked Unit := do
  raiseWhen (d.base.toNat % 4 ≠ 0 ∨ d.len.toNat % 4 ≠ 0) .align
  raiseWhen (d.base.toNat + d.len.toNat > s.cfg.lmemBytes) .bounds

/-- `StrDesc(d)` (10_state R104). -/
def strDesc (s : State) (d : Desc) : Checked Unit :=
  raiseWhen (d.base.toNat + d.len.toNat > s.cfg.lmemBytes) .bounds

/-- `BlockCheck(d, r, c)` (42_dct R507). -/
def blockCheck (d : Desc) (r c : Nat) : Checked Unit := do
  raiseWhen (r % 8 ≠ 0 ∨ c % 8 ≠ 0) .block
  raiseWhen (r + 8 > d.rows.toNat ∨ c + 8 > d.cols.toNat) .block

/-- The 64-word window at `index` lies inside the sequence (44_entropy R601, R602). -/
def windowCheck (d : Desc) (index : Nat) : Checked Unit := raiseWhen (index + 64 > d.len.toNat / 4) .block

/-- The sequence holds `nblk` blocks (44_entropy R617, R618). -/
def prefixCheck (d : Desc) (nblk : Nat) : Checked Unit := raiseWhen (64 * nblk > d.len.toNat / 4) .block

/-! Footprints -/

/-- The byte range `[lo, lo + len)` of an operand; empty when `len = 0` (20_memory R208). -/
structure Footprint where
  lo : Nat
  len : Nat
deriving DecidableEq, Repr

/-- a whole matrix (20_memory R208) -/
def matrixFootprint (d : Desc) : Footprint :=
  if d.rows.toNat = 0 ∨ d.cols.toNat = 0 then ⟨d.base.toNat, 0⟩
  else ⟨d.base.toNat, (d.rows.toNat - 1) * d.pitch.toNat + 4 * d.cols.toNat⟩

/-- the 8×8 block at (r, c) of a matrix (20_memory R208) -/
def blockFootprint (d : Desc) (r c : Nat) : Footprint :=
  ⟨d.base.toNat + r * d.pitch.toNat + 4 * c, 7 * d.pitch.toNat + 32⟩

/-- the 64-word window at `index` of a sequence (20_memory R208) -/
def windowFootprint (d : Desc) (index : Nat) : Footprint := ⟨d.base.toNat + 4 * index, 256⟩

/-- the NBLK·64-word prefix of a sequence (20_memory R208) -/
def prefixFootprint (d : Desc) (nblk : Nat) : Footprint := ⟨d.base.toNat, 256 * nblk⟩

/-- a whole stream (20_memory R208) -/
def streamFootprint (d : Desc) : Footprint := ⟨d.base.toNat, d.len.toNat⟩

/-- Two footprints share a byte; an empty one shares none (20_memory R209). -/
def Footprint.meets (f g : Footprint) : Bool :=
  f.len != 0 && g.len != 0 && Nat.blt f.lo (g.lo + g.len) && Nat.blt g.lo (f.lo + f.len)

/-- Two of the footprints meet. -/
def anyMeet : List Footprint → Bool
  | [] => false
  | f :: fs => fs.any (Footprint.meets f) || anyMeet fs

/-- The overlap rule: an output meets an input, or two outputs meet (20_memory R209). -/
def overlapCheck (ins outs : List Footprint) : Checked Unit :=
  raiseWhen (outs.any (fun o => ins.any (Footprint.meets o)) || anyMeet outs) .overlap

/-! Accesses -/

/-- `MatAddr(d, i, j)` (00_scope R15). -/
def matAddr (d : Desc) (i j : Nat) : Nat := d.base.toNat + i * d.pitch.toNat + 4 * j

/-- every word of a matrix, row by row -/
def readMatrix (m : Memory) (d : Desc) : List (List Word) :=
  Memory.loadRows m (matAddr d 0 0) d.pitch.toNat d.cols.toNat d.rows.toNat

/-- write a whole matrix, row by row -/
def writeMatrix (m : Memory) (d : Desc) (rows : List (List Word)) : Memory :=
  Memory.storeRows m (matAddr d 0 0) d.pitch.toNat rows

/-- the 8 rows of the block at (r, c) -/
def readBlock (m : Memory) (d : Desc) (r c : Nat) : List (List Word) :=
  Memory.loadRows m (matAddr d r c) d.pitch.toNat 8 8

/-- write the 8 rows of the block at (r, c) -/
def writeBlock (m : Memory) (d : Desc) (r c : Nat) (rows : List (List Word)) : Memory :=
  Memory.storeRows m (matAddr d r c) d.pitch.toNat rows

/-- The 256 bytes of the block at (r, c), eight ranges of 32: what an execution fault of an in-place block command
leaves unspecified (60_exceptions R903; log 5). -/
def blockRanges (d : Desc) (r c : Nat) : List (Nat × Nat) :=
  (List.range 8).map (fun i => (matAddr d (r + i) c, 32))

/-- `n` elements of a sequence from element `k` on (00_scope R15, `SeqRd`) -/
def readSeq (m : Memory) (d : Desc) (k n : Nat) : List Word := Memory.loadWords m (d.base.toNat + 4 * k) n

/-- write elements of a sequence from element `k` on (00_scope R15, `SeqWr`) -/
def writeSeq (m : Memory) (d : Desc) (k : Nat) (ws : List Word) : Memory :=
  Memory.storeWords m (d.base.toNat + 4 * k) ws

/-- every byte of a stream (00_scope R15, `StrRd`) -/
def readStream (m : Memory) (d : Desc) : List Byte := Memory.load m d.base.toNat d.len.toNat

/-- write the first bytes of a stream (00_scope R15, `StrWr`) -/
def writeStream (m : Memory) (d : Desc) (bs : List Byte) : Memory := Memory.store m d.base.toNat bs

/-- the byte range of a whole output stream, which an execution fault leaves unspecified (20_memory R217) -/
def streamRanges (d : Desc) : List (Nat × Nat) := [(d.base.toNat, d.len.toNat)]

/-! Samples and pixels -/

/-- Words read as signed samples or coefficients (20_memory R204). -/
def samples (rows : List (List Word)) : List (List Int) := rows.map (fun r => r.map s32)

/-- Samples or coefficients as words (20_memory R204). -/
def sampleWords (rows : List (List Int)) : List (List Word) := rows.map (fun r => r.map u32)

/-- `PixRd`: bits 23:0 of a word (00_scope R15, 20_memory R203). -/
def pixelOf (w : Word) : Word := w &&& 0x00FFFFFF

/-- Words read as packed RGB pixels, bits 31:24 ignored (20_memory R203). -/
def pixels (rows : List (List Word)) : List (List Word) := rows.map (fun r => r.map pixelOf)

/-- `R(p)`, `G(p)`, `B(p)` (00_scope R15). -/
def redOf (p : Word) : Nat := bitField p.toNat 16 8
/-- the green channel, bits 15:8 -/
def greenOf (p : Word) : Nat := bitField p.toNat 8 8
/-- the blue channel, bits 7:0 -/
def blueOf (p : Word) : Nat := bitField p.toNat 0 8

/-- The pixel word with these channels, bits 31:24 zero (20_memory R203). -/
def rgb (r g b : Int) : Word :=
  BitVec.ofNat 32 ((r.toNat % 256) * 2 ^ 16 + (g.toNat % 256) * 2 ^ 8 + b.toNat % 256)

/-! Matrices as lists of rows -/

/-- Element (i, j) of a matrix held row by row. -/
def cellAt {α : Type} (rows : List (List α)) (dflt : α) (i j : Nat) : α := (rows.getD i []).getD j dflt

/-- The h×w region whose top-left element is (r, c). -/
def region {α : Type} (rows : List (List α)) (r c h w : Nat) : List (List α) :=
  ((rows.drop r).take h).map (fun row => (row.drop c).take w)

/-- The rows and columns exchanged, for a matrix of `n` columns. -/
def transposed {α : Type} (rows : List (List α)) (dflt : α) (n : Nat) : List (List α) :=
  (List.range n).map (fun j => rows.map (fun row => row.getD j dflt))

/-- A list cut into rows of `n` elements. -/
def chunks {α : Type} (n : Nat) : Nat → List α → List (List α)
  | 0, _ => []
  | k + 1, xs => xs.take n :: chunks n k (xs.drop n)

end Sys2Proof.Machine
end

