-- ==== Sys2Proof/Machine/Color.lean ====
section
/-! DEFINITION. ColorTransform: RGB to YCbCr 4:2:0 and back, and the commands RGB2YCC and YCC2RGB (41_color R450-R454).
Each decimal constant is the binary64 value nearest to it (00_scope R11). -/

namespace Sys2Proof.Machine

/-- `lin(k0, k1, k2; R, G, B)` = ((k0 × R) + (k1 × G)) + (k2 × B) (41_color R450). -/
def linearForm (k0 k1 k2 : F64) (p : Word) : F64 :=
  F64.add (F64.add (F64.mul k0 (F64.ofInt (redOf p))) (F64.mul k1 (F64.ofInt (greenOf p))))
    (F64.mul k2 (F64.ofInt (blueOf p)))

/-- y(p), with 0.299, 0.587, 0.114 (41_color R450). -/
def lumaForm (p : Word) : F64 := linearForm ⟨0x3FD322D0E5604189⟩ ⟨0x3FE2C8B439581062⟩ ⟨0x3FBD2F1A9FBE76C9⟩ p

/-- cb(p), with −0.168736, −0.331264, 0.5 (41_color R450). -/
def cbForm (p : Word) : F64 := linearForm ⟨0xBFC5992428D434A0⟩ ⟨0xBFD5336DEB95E5B0⟩ ⟨0x3FE0000000000000⟩ p

/-- cr(p), with 0.5, −0.418688, −0.081312 (41_color R450). -/
def crForm (p : Word) : F64 := linearForm ⟨0x3FE0000000000000⟩ ⟨0xBFDACBC8C0CE91C9⟩ ⟨0xBFB4D0DCFCC5B8DC⟩ p

/-- `clamp(Round(x), 0, 255)` -/
def toChannel (x : F64) : Int := clamp (F64.round x) 0 255

/-- The luma sample of a pixel (41_color R451). -/
def lumaSample (p : Word) : Int := toChannel (lumaForm p)

/-- The chroma sample of a 2×2 block: the average of the four forms, biased by 128, rounded once and clamped once
(41_color R451). -/
def chromaSample (form : Word → F64) (q0 q1 q2 q3 : Word) : Int :=
  toChannel (F64.add (F64.div (F64.add (F64.add (F64.add (form q0) (form q1)) (form q2)) (form q3)) (F64.ofInt 4))
    (F64.ofInt 128))

/-- A list as consecutive pairs; a last element without a partner is dropped. -/
def pairUp {α : Type} : List α → List (α × α)
  | x :: y :: rest => (x, y) :: pairUp rest
  | _ => []

/-- The chroma samples of two adjacent rows. -/
def chromaRow (form : Word → F64) (rows : List Word × List Word) : List Int :=
  ((pairUp rows.1).zip (pairUp rows.2)).map (fun q => chromaSample form q.1.1 q.1.2 q.2.1 q.2.2)

/-- The luma plane (41_color R451). -/
def lumaPlane (p : List (List Word)) : List (List Int) := p.map (fun row => row.map lumaSample)

/-- A chroma plane, half the size in both axes (41_color R451). -/
def chromaPlane (form : Word → F64) (p : List (List Word)) : List (List Int) := (pairUp p).map (chromaRow form)

/-- `ForwardColor` (41_color R451): the planes Y, Cb and Cr. -/
def forwardColor (p : List (List Word)) : List (List Int) × List (List Int) × List (List Int) :=
  (lumaPlane p, chromaPlane cbForm p, chromaPlane crForm p)

/-- The pixel of one luma and two chroma samples, with 1.402, 0.344136, 0.714136, 1.772 (41_color R452). -/
def inversePixel (y cb cr : Int) : Word :=
  let yf := F64.ofInt y
  let cbf := F64.ofInt (cb - 128)
  let crf := F64.ofInt (cr - 128)
  rgb (toChannel (F64.add yf (F64.mul ⟨0x3FF66E978D4FDF3B⟩ crf)))
    (toChannel (F64.sub (F64.sub yf (F64.mul ⟨0x3FD6065300581494⟩ cbf)) (F64.mul ⟨0x3FE6DA33BD9CAE21⟩ crf)))
    (toChannel (F64.add yf (F64.mul ⟨0x3FFC5A1CAC083127⟩ cbf)))

/-- Every element twice. -/
def doubled {α : Type} (xs : List α) : List α := xs.flatMap (fun x => [x, x])

/-- The pixels of a luma row and the two chroma rows that cover it. -/
def inverseRow (y cb cr : List Int) : List Word :=
  (y.zip ((doubled cb).zip (doubled cr))).map (fun e => inversePixel e.1 e.2.1 e.2.2)

/-- `InverseColor` (41_color R452). -/
def inverseColor (y cb cr : List (List Int)) : List (List Word) :=
  (y.zip ((doubled cb).zip (doubled cr))).map (fun e => inverseRow e.1 e.2.1 e.2.2)

/-- The two matrices have the same shape. -/
def Desc.hasShape (d : Desc) (rows cols : Nat) : Bool := d.rows.toNat == rows && d.cols.toNat == cols

/-- The region has an even, nonzero number of rows and columns (41_color R453, R454). -/
def evenCheck (d : Desc) : Checked Unit :=
  raiseWhen (d.rows.toNat = 0 ∨ d.cols.toNat = 0 ∨ d.rows.toNat % 2 ≠ 0 ∨ d.cols.toNat % 2 ≠ 0) .dimension

/-- The descriptor has the shape that the command requires (41_color R453, R454). -/
def shapeCheck (d : Desc) (rows cols : Nat) : Checked Unit := raiseWhen (d.hasShape rows cols = false) .dimension

/-- RGB2YCC (41_color R453). -/
def execRgb2ycc (a b c d : DescReg) (s : State) : Host.Outcome State Fault Refusal :=
  finish (.rgb2ycc a b c d) s do
    matDesc s (s.desc a)
    matDesc s (s.desc b)
    matDesc s (s.desc c)
    matDesc s (s.desc d)
    evenCheck (s.desc a)
    let rows := (s.desc a).rows.toNat
    let cols := (s.desc a).cols.toNat
    shapeCheck (s.desc b) rows cols
    shapeCheck (s.desc c) (rows / 2) (cols / 2)
    shapeCheck (s.desc d) (rows / 2) (cols / 2)
    overlapCheck [matrixFootprint (s.desc a)]
      [matrixFootprint (s.desc b), matrixFootprint (s.desc c), matrixFootprint (s.desc d)]
    let (y, cb, cr) := forwardColor (pixels (readMatrix s.lmem (s.desc a)))
    let m1 := writeMatrix s.lmem (s.desc b) (sampleWords y)
    let m2 := writeMatrix m1 (s.desc c) (sampleWords cb)
    pure (s.setLmem (writeMatrix m2 (s.desc d) (sampleWords cr)))

/-- YCC2RGB (41_color R454). -/
def execYcc2rgb (a b c d : DescReg) (s : State) : Host.Outcome State Fault Refusal :=
  finish (.ycc2rgb a b c d) s do
    matDesc s (s.desc a)
    matDesc s (s.desc b)
    matDesc s (s.desc c)
    matDesc s (s.desc d)
    evenCheck (s.desc a)
    let rows := (s.desc a).rows.toNat
    let cols := (s.desc a).cols.toNat
    shapeCheck (s.desc b) (rows / 2) (cols / 2)
    shapeCheck (s.desc c) (rows / 2) (cols / 2)
    shapeCheck (s.desc d) rows cols
    overlapCheck [matrixFootprint (s.desc a), matrixFootprint (s.desc b), matrixFootprint (s.desc c)]
      [matrixFootprint (s.desc d)]
    pure (s.setLmem (writeMatrix s.lmem (s.desc d)
      (inverseColor (samples (readMatrix s.lmem (s.desc a))) (samples (readMatrix s.lmem (s.desc b)))
        (samples (readMatrix s.lmem (s.desc c))))))

end Sys2Proof.Machine
end

