-- ==== Sys2Proof/Machine/Flags.lean ====
section
/-! DEFINITION. The flags and results commands write: RES0-RES7 and their statuses (10_state R105; 60_exceptions
R907), HASH (R106), ABSORBED (R109), and the interrupt (60_exceptions R908). -/

namespace Sys2Proof.Machine

/-- Status OK (60_exceptions R907). -/
def statusOk : Word := 0
/-- Status INCOMPLETE (60_exceptions R907). -/
def statusIncomplete : Word := 1
/-- Status CORRUPT (60_exceptions R907). -/
def statusCorrupt : Word := 2

/-- `RES[k] ← v` (00_scope R14, 10_state R105). -/
def State.setRes (s : State) (k : Fin 8) (v : Word) : State := { s with res := s.res.set k v }

/-- `RES[0] ← a; RES[1] ← b`; the other six stay. -/
def State.setRes01 (s : State) (a b : Word) : State := (s.setRes 0 a).setRes 1 b

/-- `RES[0..7] ← vs` (45_patch R704, 47_compositor R806). -/
def State.setResAll (s : State) (vs : List Word) : State := { s with res := tabulate 8 (fun k => vs.getD k 0) }

/-- `HASH ← v` (10_state R106). -/
def State.setHash (s : State) (v : Hash64) : State := { s with hash := v }

/-- `ABSORBED ← b` (10_state R109). -/
def State.setAbsorbed (s : State) (b : Bool) : State := { s with absorbed := b }

/-- `QUALITY ← q` (10_state R113). -/
def State.setQuality (s : State) (q : Nat) : State := { s with quality := BitVec.ofNat 32 q }

/-- ENGINE_STATE ← HALTED with H_IRQ_PEND[0] ← 1 (40_control R401, 60_exceptions R908). -/
def State.halt (s : State) : State := { s with engine := .halted, irqPend := true }

/-- The IRQ output: H_IRQ_EN[0] AND H_IRQ_PEND[0] (60_exceptions R908; log 19). -/
def State.irq (s : State) : Bool := s.irqEn && s.irqPend

end Sys2Proof.Machine
end

