-- ==== Sys2Proof/Machine/Huffman.lean ====
section
/-! DEFINITION. The Huffman backend: categories, code tables, bit packing, encoding and decoding (44_entropy R603-R610). -/

namespace Sys2Proof.Machine

/-- Why a decode stops without data (60_exceptions R907). -/
inductive DecodeStop where
  | incomplete   -- the data ends before the unit does
  | corrupt      -- the data can never be a valid unit
deriving DecidableEq, Repr

/-- `Cat(v)`: the number of bits in the binary form of |v| (44_entropy R603). -/
def category (v : Int) : Nat := if v = 0 then 0 else Nat.log2 v.natAbs + 1

/-- `Bits(v, s)` (44_entropy R603). -/
def magnitudeBits (v : Int) (s : Nat) : Nat := if 0 ≤ v then v.toNat else (v + 2 ^ s - 1).toNat

/-- `Extend(b, s)` (44_entropy R603). -/
def extendBits (b s : Nat) : Int := if s = 0 ∨ b ≥ 2 ^ (s - 1) then (b : Int) else (b : Int) - 2 ^ s + 1

/-! Code tables -/

/-- A code of a Huffman table: the `len` low bits of `code`, most significant first. -/
structure HuffCode where
  sym : Nat
  len : Nat
  code : Nat
deriving DecidableEq, Repr

/-- Consecutive codes of one length for the symbols in order (44_entropy R606). -/
def assignCodes (len : Nat) : Nat → List Nat → List HuffCode
  | _, [] => []
  | code, v :: vs => ⟨v, len, code⟩ :: assignCodes len (code + 1) vs

/-- The canonical code assignment from BITS and HUFFVAL (44_entropy R606): `len` is the length of the first count. -/
def canonicalCodes : Nat → Nat → List Nat → List Nat → List HuffCode
  | _, _, [], _ => []
  | len, code, n :: bits, vals =>
    assignCodes len code (vals.take n) ++ canonicalCodes (len + 1) ((code + n) * 2) bits (vals.drop n)

/-- BITS of the DC table (44_entropy R604, T.81 Table K.3). -/
def dcBits : List Nat := [0, 1, 5, 1, 1, 1, 1, 1, 1, 0, 0, 0, 0, 0, 0, 0]

/-- HUFFVAL of the DC table (44_entropy R604). -/
def dcVals : List Nat := [0, 1, 2, 3, 4, 5, 6, 7, 8, 9, 10, 11]

/-- BITS of the AC table (44_entropy R605, T.81 Table K.5). -/
def acBits : List Nat := [0, 2, 1, 3, 3, 2, 4, 3, 5, 5, 4, 4, 0, 0, 1, 125]

/-- HUFFVAL of the AC table, the symbols with codes of up to 15 bits (44_entropy R605). -/
def acValsShort : List Nat :=
  [0x01, 0x02, 0x03, 0x00, 0x04, 0x11, 0x05, 0x12, 0x21, 0x31, 0x41, 0x06, 0x13, 0x51, 0x61, 0x07, 0x22, 0x71, 0x14,
   0x32, 0x81, 0x91, 0xA1, 0x08, 0x23, 0x42, 0xB1, 0xC1, 0x15, 0x52, 0xD1, 0xF0, 0x24, 0x33, 0x62, 0x72, 0x82]

/-- HUFFVAL of the AC table, the first symbols with codes of 16 bits (44_entropy R605). -/
def acValsLongA : List Nat :=
  [0x09, 0x0A, 0x16, 0x17, 0x18, 0x19, 0x1A, 0x25, 0x26, 0x27, 0x28, 0x29, 0x2A, 0x34, 0x35, 0x36, 0x37, 0x38, 0x39,
   0x3A, 0x43, 0x44, 0x45, 0x46, 0x47, 0x48, 0x49, 0x4A, 0x53, 0x54, 0x55, 0x56, 0x57, 0x58, 0x59, 0x5A, 0x63, 0x64,
   0x65, 0x66, 0x67, 0x68, 0x69, 0x6A, 0x73, 0x74, 0x75, 0x76, 0x77, 0x78, 0x79, 0x7A]

/-- HUFFVAL of the AC table, the remaining symbols with codes of 16 bits (44_entropy R605). -/
def acValsLongB : List Nat :=
  [0x83, 0x84, 0x85, 0x86, 0x87, 0x88, 0x89, 0x8A, 0x92, 0x93, 0x94, 0x95, 0x96, 0x97, 0x98, 0x99, 0x9A, 0xA2, 0xA3,
   0xA4, 0xA5, 0xA6, 0xA7, 0xA8, 0xA9, 0xAA, 0xB2, 0xB3, 0xB4, 0xB5, 0xB6, 0xB7, 0xB8, 0xB9, 0xBA, 0xC2, 0xC3, 0xC4,
   0xC5, 0xC6, 0xC7, 0xC8, 0xC9, 0xCA, 0xD2, 0xD3, 0xD4, 0xD5, 0xD6, 0xD7, 0xD8, 0xD9, 0xDA, 0xE1, 0xE2, 0xE3, 0xE4,
   0xE5, 0xE6, 0xE7, 0xE8, 0xE9, 0xEA, 0xF1, 0xF2, 0xF3, 0xF4, 0xF5, 0xF6, 0xF7, 0xF8, 0xF9, 0xFA]

/-- The DC code table (44_entropy R604, R606). -/
def dcCodes : List HuffCode := canonicalCodes 1 0 dcBits dcVals

/-- The AC code table (44_entropy R605, R606). -/
def acCodes : List HuffCode := canonicalCodes 1 0 acBits (acValsShort ++ acValsLongA ++ acValsLongB)

/-! Bits and bytes -/

/-- The `n` low bits of `v`, most significant first (44_entropy R607). -/
def bitsOf : Nat → Nat → List Bool
  | 0, _ => []
  | n + 1, v => (v / 2 ^ n % 2 == 1) :: bitsOf n v

/-- The number whose bits these are, most significant first. -/
def natOfBits (bs : List Bool) : Nat := bs.foldl (fun acc b => 2 * acc + b.toNat) 0

/-- Pack bits into bytes, first bit in bit 7; the last byte is padded with 1-bits (44_entropy R607). -/
def packBits : List Bool → List Byte
  | b7 :: b6 :: b5 :: b4 :: b3 :: b2 :: b1 :: b0 :: rest =>
    BitVec.ofNat 8 (natOfBits [b7, b6, b5, b4, b3, b2, b1, b0]) :: packBits rest
  | [] => []
  | bs => [BitVec.ofNat 8 (natOfBits ((bs ++ List.replicate 8 true).take 8))]

/-- The bits of a byte string, most significant first (44_entropy R609). -/
def unpackBits (bs : List Byte) : List Bool := bs.flatMap (fun b => bitsOf 8 b.toNat)

/-! Encoding (44_entropy R608) -/

/-- `put TABLE[sym]`: the code of a symbol. -/
def codeBits (table : List HuffCode) (sym : Nat) : List Bool :=
  match table.find? (fun c => c.sym == sym) with
  | some c => bitsOf c.len c.code
  | none => []

/-- The AC coefficients after `run` zeros, in zig-zag order, up to the end of the block (44_entropy R608). -/
def encodeAc (run : Nat) : List Int → Except FaultCode (List Bool)
  | [] => .ok (if run > 0 then codeBits acCodes 0x00 else [])
  | v :: vs =>
    if v = 0 then encodeAc (run + 1) vs
    else if category v > 10 then .error .codeRange
    else
      match encodeAc 0 vs with
      | .error e => .error e
      | .ok rest =>
        .ok ((List.replicate (run / 16) (codeBits acCodes 0xF0)).flatten ++
          codeBits acCodes (run % 16 * 16 + category v) ++ bitsOf (category v) (magnitudeBits v (category v)) ++ rest)

/-- The DC difference (44_entropy R608). -/
def encodeDc (diff : Int) : Except FaultCode (List Bool) :=
  if category diff > 11 then .error .codeRange
  else .ok (codeBits dcCodes (category diff) ++ bitsOf (category diff) (magnitudeBits diff (category diff)))

/-- The bits of the blocks, each of 64 values in zig-zag order, after a block whose DC value was `prevDC`
(44_entropy R608, R613). -/
def huffBits (prevDC : Int) : List (List Int) → Except FaultCode (List Bool)
  | [] => .ok []
  | blk :: blks =>
    match encodeDc (blk.headD 0 - prevDC) with
    | .error e => .error e
    | .ok dc =>
      match encodeAc 0 blk.tail with
      | .error e => .error e
      | .ok ac =>
        match huffBits (blk.headD 0) blks with
        | .error e => .error e
        | .ok rest => .ok (dc ++ ac ++ rest)

/-- `HuffEncode` (44_entropy R608). -/
def huffEncode (blks : List (List Int)) : Except FaultCode (List Byte) :=
  match huffBits 0 blks with
  | .error e => .error e
  | .ok bits => .ok (packBits bits)

/-! Decoding (44_entropy R609, R610) -/

/-- `DecodeSym`: read one bit at a time until the bits read are a code; `fuel` more bits may be read and `len` bits
with value `code` have been (44_entropy R609). -/
def decodeSymFrom (table : List HuffCode) : Nat → Nat → Nat → List Bool → Except DecodeStop (Nat × List Bool)
  | 0, _, _, _ => .error .corrupt
  | _ + 1, _, _, [] => .error .incomplete
  | fuel + 1, len, code, b :: bits =>
    match table.find? (fun c => c.len == len + 1 && c.code == 2 * code + b.toNat) with
    | some c => .ok (c.sym, bits)
    | none => decodeSymFrom table fuel (len + 1) (2 * code + b.toNat) bits

/-- `DecodeSym(TABLE)` (44_entropy R609). -/
def decodeSym (table : List HuffCode) (bits : List Bool) : Except DecodeStop (Nat × List Bool) :=
  decodeSymFrom table 16 0 0 bits

/-- `ReadBits(n)` (44_entropy R609). -/
def readBits (n : Nat) (bits : List Bool) : Except DecodeStop (Nat × List Bool) :=
  if bits.length < n then .error .incomplete else .ok (natOfBits (bits.take n), bits.drop n)

/-- The AC coefficients from position `k` to 63 (44_entropy R610). Each turn moves `k` on, so 64 turns are enough;
the answer for no turns left is never reached. -/
def decodeAc : Nat → Nat → List Bool → Except DecodeStop (List Int × List Bool)
  | 0, _, _ => .error .corrupt
  | fuel + 1, k, bits =>
    if k > 63 then .ok ([], bits)
    else
      match decodeSym acCodes bits with
      | .error e => .error e
      | .ok (rs, bits1) =>
        let r := rs / 16
        let t := rs % 16
        if t = 0 then
          if r = 0 then .ok (List.replicate (64 - k) 0, bits1)
          else if k + 16 > 63 then .error .corrupt
          else
            match decodeAc fuel (k + 16) bits1 with
            | .error e => .error e
            | .ok (vs, bits2) => .ok (List.replicate 16 0 ++ vs, bits2)
        else if k + r > 63 then .error .corrupt
        else
          match readBits t bits1 with
          | .error e => .error e
          | .ok (b, bits2) =>
            match decodeAc fuel (k + r + 1) bits2 with
            | .error e => .error e
            | .ok (vs, bits3) => .ok (List.replicate r 0 ++ extendBits b t :: vs, bits3)

/-- One block after a block whose DC value was `prevDC` (44_entropy R610). -/
def decodeBlock (prevDC : Int) (bits : List Bool) : Except DecodeStop (List Int × List Bool) :=
  match decodeSym dcCodes bits with
  | .error e => .error e
  | .ok (t, bits1) =>
    match readBits t bits1 with
    | .error e => .error e
    | .ok (b, bits2) =>
      if inS32 (prevDC + extendBits b t) = false then .error .corrupt
      else
        match decodeAc 64 1 bits2 with
        | .error e => .error e
        | .ok (ac, bits3) => .ok ((prevDC + extendBits b t) :: ac, bits3)

/-- `n` blocks (44_entropy R610, R613). -/
def decodeBlocks : Nat → Int → List Bool → Except DecodeStop (List (List Int) × List Bool)
  | 0, _, bits => .ok ([], bits)
  | n + 1, prevDC, bits =>
    match decodeBlock prevDC bits with
    | .error e => .error e
    | .ok (blk, bits1) =>
      match decodeBlocks n (blk.headD 0) bits1 with
      | .error e => .error e
      | .ok (blks, bits2) => .ok (blk :: blks, bits2)

/-- `HuffDecode`: the blocks and the bytes consumed (44_entropy R610). -/
def huffDecode (data : List Byte) (nblk : Nat) : Except DecodeStop (List (List Int) × Nat) :=
  match decodeBlocks nblk 0 (unpackBits data) with
  | .error e => .error e
  | .ok (blks, rest) => .ok (blks, ceilDiv ((unpackBits data).length - rest.length) 8)

end Sys2Proof.Machine
end

