-- ==== Sys2Proof/Machine/Rle.lean ====
section
/-! DEFINITION. The RLE backend (44_entropy R614, R615). -/

namespace Sys2Proof.Machine

/-- The two words of a zero run of length `run`, or nothing when there is none (44_entropy R614). -/
def rleFlush (run : Nat) : List Nat := if run = 0 then [] else [0, run]

/-- The 16-bit words of the rest of a block after `run` zeros (44_entropy R614). -/
def rleWords (run : Nat) : List Int → Except FaultCode (List Nat)
  | [] => .ok (rleFlush run)
  | v :: vs =>
    if v = 0 then rleWords (run + 1) vs
    else if v < -32768 ∨ 32767 < v then .error .codeRange
    else
      match rleWords 0 vs with
      | .error e => .error e
      | .ok rest => .ok (rleFlush run ++ (v % 65536).toNat :: rest)

/-- A 16-bit word as two bytes, big-endian (20_memory R202). -/
def rleBytes (w : Nat) : List Byte := [BitVec.ofNat 8 (w / 256), BitVec.ofNat 8 w]

/-- `RleEncode`: each block on its own (44_entropy R614). -/
def rleEncode (blks : List (List Int)) : Except FaultCode (List Byte) :=
  match mapExcept (rleWords 0) blks with
  | .error e => .error e
  | .ok ws => .ok (ws.flatten.flatMap rleBytes)

/-- `Word()` (44_entropy R615). -/
def rleWord : List Byte → Except DecodeStop (Nat × List Byte)
  | b1 :: b0 :: rest => .ok (b1.toNat * 256 + b0.toNat, rest)
  | _ => .error .incomplete

/-- A 16-bit two's-complement word as an integer (44_entropy R615). -/
def sext16 (w : Nat) : Int := if w < 32768 then (w : Int) else (w : Int) - 65536

/-- The coefficients of a block from position `k` to 63 (44_entropy R615). Each turn moves `k` on, so 65 turns are
enough; the answer for no turns left is never reached. -/
def rleDecodeFrom : Nat → Nat → List Byte → Except DecodeStop (List Int × List Byte)
  | 0, _, _ => .error .corrupt
  | fuel + 1, k, bs =>
    if k > 63 then .ok ([], bs)
    else
      match rleWord bs with
      | .error e => .error e
      | .ok (w, bs1) =>
        if w = 0 then
          match rleWord bs1 with
          | .error e => .error e
          | .ok (n, bs2) =>
            if n = 0 ∨ n > 64 - k then .error .corrupt
            else
              match rleDecodeFrom fuel (k + n) bs2 with
              | .error e => .error e
              | .ok (vs, bs3) => .ok (List.replicate n 0 ++ vs, bs3)
        else
          match rleDecodeFrom fuel (k + 1) bs1 with
          | .error e => .error e
          | .ok (vs, bs2) => .ok (sext16 w :: vs, bs2)

/-- `n` blocks (44_entropy R615). -/
def rleDecodeBlocks : Nat → List Byte → Except DecodeStop (List (List Int) × List Byte)
  | 0, bs => .ok ([], bs)
  | n + 1, bs =>
    match rleDecodeFrom 65 0 bs with
    | .error e => .error e
    | .ok (blk, bs1) =>
      match rleDecodeBlocks n bs1 with
      | .error e => .error e
      | .ok (blks, bs2) => .ok (blk :: blks, bs2)

/-- `RleDecode`: the blocks and the bytes consumed (44_entropy R615). -/
def rleDecode (data : List Byte) (nblk : Nat) : Except DecodeStop (List (List Int) × Nat) :=
  match rleDecodeBlocks nblk data with
  | .error e => .error e
  | .ok (blks, rest) => .ok (blks, data.length - rest.length)

end Sys2Proof.Machine
end

