-- ==== Sys2Proof/Machine/Entropy.lean ====
section
/-! DEFINITION. EntropyCoder: zig-zag order, backend selection, and the commands ZIGZAG, UNZIGZAG, ENC, DEC
(44_entropy R600-R602, R616-R618). -/

namespace Sys2Proof.Machine

/-- ZZ as natural indices: element k of a sequence is block entry 8·row + col = `zigzagOrder[k]` (44_entropy R600). -/
def zigzagOrder : List Nat :=
  [0, 1, 8, 16, 9, 2, 3, 10, 17, 24, 32, 25, 18, 11, 4, 5, 12, 19, 26, 33, 40, 48, 41, 34, 27, 20, 13, 6, 7, 14, 21, 28,
   35, 42, 49, 56, 57, 50, 43, 36, 29, 22, 15, 23, 30, 37, 44, 51, 58, 59, 52, 45, 38, 31, 39, 46, 53, 60, 61, 54, 47,
   55, 62, 63]

/-- The inverse map: the zig-zag index of block entry 8i + j (44_entropy R600, second table). -/
def zigzagIndex : List Nat :=
  [0, 1, 5, 6, 14, 15, 27, 28, 2, 4, 7, 13, 16, 26, 29, 42, 3, 8, 12, 17, 25, 30, 41, 43, 9, 11, 18, 24, 31, 40, 44, 53,
   10, 19, 23, 32, 39, 45, 52, 54, 20, 22, 33, 38, 46, 51, 55, 60, 21, 34, 37, 47, 50, 56, 59, 61, 35, 36, 48, 49, 57,
   58, 62, 63]

/-- The 64 entries of a block in zig-zag order (44_entropy R601). -/
def zigzag {α : Type} (dflt : α) (blk : List (List α)) : List α :=
  zigzagOrder.map (fun k => blk.flatten.getD k dflt)

/-- The rows of the block whose zig-zag sequence this is (44_entropy R602). -/
def unzigzag {α : Type} (dflt : α) (seq : List α) : List (List α) :=
  chunks 8 8 (zigzagIndex.map (fun k => seq.getD k dflt))

/-- `EntropyEncode`, the backend selected by EMODE (44_entropy R616). -/
def entropyEncode (emode : Word) (blks : List (List Int)) : Except FaultCode (List Byte) :=
  if emode = 1 then huffEncode blks else rleEncode blks

/-- `EntropyDecode`, the backend selected by EMODE (44_entropy R616). -/
def entropyDecode (emode : Word) (data : List Byte) (nblk : Nat) : Except DecodeStop (List (List Int) × Nat) :=
  if emode = 1 then huffDecode data nblk else rleDecode data nblk

/-- The status a stopped decode writes to RES0 (60_exceptions R907). -/
def DecodeStop.status : DecodeStop → Word
  | .incomplete => statusIncomplete
  | .corrupt => statusCorrupt

/-- ZIGZAG (44_entropy R601). -/
def execZigzag (a b : DescReg) (row col index : Nat) (s : State) : Host.Outcome State Fault Refusal :=
  finish (.zigzag a b row col index) s do
    matDesc s (s.desc a)
    seqDesc s (s.desc b)
    blockCheck (s.desc a) row col
    windowCheck (s.desc b) index
    overlapCheck [blockFootprint (s.desc a) row col] [windowFootprint (s.desc b) index]
    pure (s.setLmem (writeSeq s.lmem (s.desc b) index (zigzag 0 (readBlock s.lmem (s.desc a) row col))))

/-- UNZIGZAG (44_entropy R602). -/
def execUnzigzag (a b : DescReg) (index row col : Nat) (s : State) : Host.Outcome State Fault Refusal :=
  finish (.unzigzag a b index row col) s do
    seqDesc s (s.desc a)
    matDesc s (s.desc b)
    blockCheck (s.desc b) row col
    windowCheck (s.desc a) index
    overlapCheck [windowFootprint (s.desc a) index] [blockFootprint (s.desc b) row col]
    pure (s.setLmem (writeBlock s.lmem (s.desc b) row col (unzigzag 0 (readSeq s.lmem (s.desc a) index 64))))

/-- ENC (44_entropy R617). -/
def execEnc (a b : DescReg) (nblk : Nat) (s : State) : Host.Outcome State Fault Refusal :=
  finish (.enc a b nblk) s do
    seqDesc s (s.desc a)
    strDesc s (s.desc b)
    prefixCheck (s.desc a) nblk
    overlapCheck [prefixFootprint (s.desc a) nblk] [streamFootprint (s.desc b)]
    let e ← orDraw (streamRanges (s.desc b))
      (entropyEncode s.emode (chunks 64 nblk ((readSeq s.lmem (s.desc a) 0 (64 * nblk)).map s32)))
    drawWhen (e.length > (s.desc b).len.toNat) .streamOverflow (streamRanges (s.desc b))
    pure ((s.setLmem (writeStream s.lmem (s.desc b) e)).setRes 0 (BitVec.ofNat 32 e.length))

/-- DEC (44_entropy R618): a status other than OK leaves the sequence unwritten. -/
def execDec (a b : DescReg) (nblk : Nat) (s : State) : Host.Outcome State Fault Refusal :=
  finish (.dec a b nblk) s do
    strDesc s (s.desc a)
    seqDesc s (s.desc b)
    prefixCheck (s.desc b) nblk
    overlapCheck [streamFootprint (s.desc a)] [prefixFootprint (s.desc b) nblk]
    match entropyDecode s.emode (readStream s.lmem (s.desc a)) nblk with
    | .ok (blks, consumed) =>
      pure ((s.setLmem (writeSeq s.lmem (s.desc b) 0 (blks.flatten.map u32))).setRes01 statusOk
        (BitVec.ofNat 32 consumed))
    | .error st => pure (s.setRes01 st.status 0)

end Sys2Proof.Machine
end

