-- ==== Sys2Proof/Machine/Dct.lean ====
section
/-! DEFINITION. BlockTransform: the forward and inverse 8×8 DCT and the commands FDCT and IDCT (42_dct R500-R507). -/

namespace Sys2Proof.Machine

/-! Constants (42_dct R500, the normative bits) -/

/-- F_C4 = cos(π/4) -/
def dctFC4 : F64 := ⟨0x3FE6A09E667F3BCD⟩
/-- F_C6 = cos(3π/8) -/
def dctFC6 : F64 := ⟨0x3FD87DE2A6AEA963⟩
/-- F_C2mC6 = cos(π/8) − cos(3π/8) -/
def dctFC2mC6 : F64 := ⟨0x3FE1517A7BDB3895⟩
/-- F_C2pC6 = cos(π/8) + cos(3π/8) -/
def dctFC2pC6 : F64 := ⟨0x3FF4E7AE9144F0FC⟩
/-- I_S2 = √2 -/
def dctIS2 : F64 := ⟨0x3FF6A09E667F3BCD⟩
/-- I_2C2 = 2·cos(π/8) -/
def dctI2C2 : F64 := ⟨0x3FFD906BCF328D46⟩
/-- I_2C2mC6 = 2·(cos(π/8) − cos(3π/8)) -/
def dctI2C2mC6 : F64 := ⟨0x3FF1517A7BDB3895⟩
/-- I_m2C2pC6 = −2·(cos(π/8) + cos(3π/8)) -/
def dctIm2C2pC6 : F64 := ⟨0xC004E7AE9144F0FC⟩
/-- OUTSCALE = 1/64 -/
def dctOutScale : F64 := ⟨0x3F90000000000000⟩

/-- `FDCT1` (42_dct R501). A list that does not have eight elements is not a pass's input and gives no output. -/
def fdct1 : List F64 → List F64
  | [d0, d1, d2, d3, d4, d5, d6, d7] =>
    let t0 := F64.add d0 d7
    let t7 := F64.sub d0 d7
    let t1 := F64.add d1 d6
    let t6 := F64.sub d1 d6
    let t2 := F64.add d2 d5
    let t5 := F64.sub d2 d5
    let t3 := F64.add d3 d4
    let t4 := F64.sub d3 d4
    let t10 := F64.add t0 t3
    let t13 := F64.sub t0 t3
    let t11 := F64.add t1 t2
    let t12 := F64.sub t1 t2
    let z1 := F64.mul (F64.add t12 t13) dctFC4
    let u10 := F64.add t4 t5
    let u11 := F64.add t5 t6
    let u12 := F64.add t6 t7
    let z5 := F64.mul (F64.sub u10 u12) dctFC6
    let z2 := F64.add (F64.mul dctFC2mC6 u10) z5
    let z4 := F64.add (F64.mul dctFC2pC6 u12) z5
    let z3 := F64.mul u11 dctFC4
    let z11 := F64.add t7 z3
    let z13 := F64.sub t7 z3
    [F64.add t10 t11, F64.add z11 z4, F64.add t13 z1, F64.sub z13 z2,
     F64.sub t10 t11, F64.add z13 z2, F64.sub t13 z1, F64.sub z11 z4]
  | _ => []

/-- `IDCT1` (42_dct R502). -/
def idct1 : List F64 → List F64
  | [i0, i1, i2, i3, i4, i5, i6, i7] =>
    let e10 := F64.add i0 i4
    let e11 := F64.sub i0 i4
    let e13 := F64.add i2 i6
    let e12 := F64.sub (F64.mul (F64.sub i2 i6) dctIS2) e13
    let p0 := F64.add e10 e13
    let p3 := F64.sub e10 e13
    let p1 := F64.add e11 e12
    let p2 := F64.sub e11 e12
    let z13 := F64.add i5 i3
    let z10 := F64.sub i5 i3
    let z11 := F64.add i1 i7
    let z12 := F64.sub i1 i7
    let w7 := F64.add z11 z13
    let w11 := F64.mul (F64.sub z11 z13) dctIS2
    let z5 := F64.mul (F64.add z10 z12) dctI2C2
    let w10 := F64.sub (F64.mul dctI2C2mC6 z12) z5
    let w12 := F64.add (F64.mul dctIm2C2pC6 z10) z5
    let w6 := F64.sub w12 w7
    let w5 := F64.sub w11 w6
    let w4 := F64.add w10 w5
    [F64.add p0 w7, F64.add p1 w6, F64.add p2 w5, F64.sub p3 w4,
     F64.add p3 w4, F64.sub p2 w5, F64.sub p1 w6, F64.sub p0 w7]
  | _ => []

/-- A one-dimensional pass over every row. -/
def passRows (pass : List F64 → List F64) (w : List (List F64)) : List (List F64) := w.map pass

/-- A one-dimensional pass over every column of an 8×8 block. -/
def passCols (pass : List F64 → List F64) (w : List (List F64)) : List (List F64) :=
  transposed ((transposed w (F64.ofInt 0) 8).map pass) (F64.ofInt 0) 8

/-- Round an entry into the s32 range, or NUMERIC (42_dct R503, R504). -/
def roundOne (x : F64) : Except FaultCode Int :=
  match F64.roundS32 x with
  | some v => .ok v
  | none => .error .numeric

/-- Round every entry into the s32 range, or NUMERIC at the first that does not fit (42_dct R503, R504). -/
def roundAll (w : List (List F64)) : Except FaultCode (List (List Int)) :=
  mapExcept (mapExcept roundOne) w

/-- `ForwardDCT`: rows first, then columns (42_dct R503). -/
def forwardDct (x : List (List Int)) : Except FaultCode (List (List Int)) :=
  roundAll (passCols fdct1 (passRows fdct1 (x.map (fun row => row.map F64.ofInt))))

/-- `InverseDCT`: columns first, then rows, then the output scale (42_dct R504). -/
def inverseDct (c : List (List Int)) : Except FaultCode (List (List Int)) :=
  roundAll ((passRows idct1 (passCols idct1 (c.map (fun row => row.map F64.ofInt)))).map
    (fun row => row.map (fun x => F64.mul x dctOutScale)))

/-- An in-place block command: check the block, read its 64 words, compute, write them back (42_dct R505;
20_memory R210). A NUMERIC condition is an execution fault that draws the block's 256 bytes (60_exceptions R903). -/
def blockCommand (f : List (List Int) → Except FaultCode (List (List Int))) (d : Desc) (row col : Nat) (s : State) :
    Checked State := do
  matDesc s d
  blockCheck d row col
  let y ← orDraw (blockRanges d row col) (f (samples (readBlock s.lmem d row col)))
  pure (s.setLmem (writeBlock s.lmem d row col (sampleWords y)))

/-- FDCT (42_dct R505). -/
def execFdct (a : DescReg) (row col : Nat) (s : State) : Host.Outcome State Fault Refusal :=
  finish (.fdct a row col) s (blockCommand forwardDct (s.desc a) row col s)

/-- IDCT (42_dct R506). -/
def execIdct (a : DescReg) (row col : Nat) (s : State) : Host.Outcome State Fault Refusal :=
  finish (.idct a row col) s (blockCommand inverseDct (s.desc a) row col s)

end Sys2Proof.Machine
end

