-- ==== Sys2Proof/Machine/Quant.lean ====
section
/-! DEFINITION. Quantizer: the tables, quality scaling, absorption, and the commands SETQ, ABSORB, QUANT, DEQUANT
(43_quant R550-R555, R558). -/

namespace Sys2Proof.Machine

/-- `ScaleFactor(q)` (43_quant R551). -/
def scaleFactor (q : Nat) : Nat := if q < 50 then 5000 / q else 200 - 2 * q

/-- `Scaled(base, q)[k]` for a base entry (43_quant R551). -/
def scaledEntry (base q : Nat) : Nat := max 1 (min ((base * scaleFactor q + 50) / 100) 255)

/-- The plain table of quality q, as binary64 integers (43_quant R552). -/
def plainTable (base : List Nat) (q : Nat) : Vector F64 64 :=
  tabulate 64 fun k => F64.ofInt ((scaledEntry (base.getD k 0) q : Nat) : Int)

/-- The absorbed entry of coefficient (i, j): three roundings, product, reciprocal, product (43_quant R553). -/
def absorbEntry (scale : Vector F64 8) (t : F64) (i j : Fin 8) : F64 :=
  F64.mul t (F64.div (F64.ofInt 1) (F64.mul scale[i] scale[j]))

/-- A table with the scale factors folded in (43_quant R553). -/
def absorbTable (scale : Vector F64 8) (t : Vector F64 64) : Vector F64 64 :=
  tabulate 64 fun k => absorbEntry scale t[Fin.ofNat 64 k] (Fin.ofNat 8 (k / 8)) (Fin.ofNat 8 k)

/-- Every entry is finite and greater than zero (43_quant R553). -/
def tablePositive (t : Vector F64 64) : Bool := t.toList.all F64.isFinitePos

/-- One quantized coefficient (43_quant R554). -/
def quantizeOne (c : Int) (t : F64) : Except FaultCode Int :=
  roundOne (F64.div (F64.ofInt c) t)

/-- One dequantized coefficient (43_quant R555). -/
def dequantizeOne (c : Int) (t : F64) : Except FaultCode Int :=
  roundOne (F64.mul (F64.ofInt c) t)

/-- Apply `f` to each coefficient of a block and its table entry, in natural order. -/
def perCoefficient (f : Int → F64 → Except FaultCode Int) (t : Vector F64 64) (blk : List (List Int)) :
    Except FaultCode (List (List Int)) :=
  mapExcept (fun row => mapExcept (fun e => f e.1 e.2) (row.1.zip row.2)) (blk.zip (chunks 8 8 t.toList))

/-- `Quantize` (43_quant R554) on the rows of a block. -/
def quantize (t : Vector F64 64) (blk : List (List Int)) : Except FaultCode (List (List Int)) :=
  perCoefficient quantizeOne t blk

/-- `Dequantize` (43_quant R555) on the rows of a block. -/
def dequantize (t : Vector F64 64) (blk : List (List Int)) : Except FaultCode (List (List Int)) :=
  perCoefficient dequantizeOne t blk

/-- SETQ (43_quant R552). -/
def execSetq (q : Nat) (s : State) : Host.Outcome State Fault Refusal :=
  finish (.setq q) s do
    raiseWhen (q < 1 ∨ q > 99) .operand
    pure (((s.setTables (plainTable lumaBase q) (plainTable chromaBase q)).setQuality q).setAbsorbed false)

/-- ABSORB (43_quant R553): both tables change only if all 128 entries pass. -/
def execAbsorb (s : State) : Host.Outcome State Fault Refusal :=
  finish .absorb s do
    raiseWhen (s.absorbed = true) .absorbTwice
    raiseWhen (tablePositive (absorbTable s.scale s.qtl) = false ∨ tablePositive (absorbTable s.scale s.qtc) = false)
      .numeric
    pure ((s.setTables (absorbTable s.scale s.qtl) (absorbTable s.scale s.qtc)).setAbsorbed true)

/-- QUANT (43_quant R554). -/
def execQuant (chroma : Bool) (a : DescReg) (row col : Nat) (s : State) : Host.Outcome State Fault Refusal :=
  finish (.quant chroma a row col) s (blockCommand (quantize (s.table chroma)) (s.desc a) row col s)

/-- DEQUANT (43_quant R555). -/
def execDequant (chroma : Bool) (a : DescReg) (row col : Nat) (s : State) : Host.Outcome State Fault Refusal :=
  finish (.dequant chroma a row col) s (blockCommand (dequantize (s.table chroma)) (s.desc a) row col s)

end Sys2Proof.Machine
end

