-- ==== Sys2Proof/Machine/Patch.lean ====
section
/-! DEFINITION. PatchCodec: patch framing, tile payloads, and the commands TENC, TDEC, PSER, PHDR (45_patch R700-R710). -/

namespace Sys2Proof.Machine

/-! Framing -/

/-- `BE32(u32(v))` (45_patch R700). -/
def be32 (v : Int) : List Byte := wordBytes (u32 v)

/-- `PatchSer` (45_patch R700). -/
def patchSer (x y w h : Int) (payload : List Byte) : List Byte :=
  be32 (16 + payload.length) ++ be32 x ++ be32 y ++ be32 w ++ be32 h ++ payload

/-- A parsed patch (45_patch R702). -/
structure Patch where
  consumed : Nat
  x : Int
  y : Int
  w : Int
  h : Int
  payload : List Byte
deriving DecidableEq, Repr

/-- The four bytes at offset `k` as a signed 32-bit field (45_patch R702). -/
def fieldAt (d : List Byte) (k : Nat) : Int :=
  s32 (bytesWord (d.getD k 0) (d.getD (k + 1) 0) (d.getD (k + 2) 0) (d.getD (k + 3) 0))

/-- `PatchParse` (45_patch R702): the checks run in its order. -/
def patchParse (d : List Byte) : Except DecodeStop Patch :=
  if d.length < 4 then .error .incomplete
  else if fieldAt d 0 < 16 then .error .corrupt
  else if 4 + fieldAt d 0 > d.length then .error .incomplete
  else
    .ok
      { consumed := (4 + fieldAt d 0).toNat
        x := fieldAt d 4
        y := fieldAt d 8
        w := fieldAt d 12
        h := fieldAt d 16
        payload := (d.take (4 + fieldAt d 0).toNat).drop 20 }

/-- The eight results of a parsed patch: status, consumed, x, y, w, h, payload length, payload address
(45_patch R704, 47_compositor R806). -/
def patchResults (status : Word) (base : Nat) (p : Patch) : List Word :=
  [status, BitVec.ofNat 32 p.consumed, u32 p.x, u32 p.y, u32 p.w, u32 p.h, BitVec.ofNat 32 p.payload.length,
   BitVec.ofNat 32 (base + 20)]

/-- PSER (45_patch R701): STREAM_OVERFLOW is a check fault here. -/
def execPser (a b : DescReg) (x y w h : Int) (s : State) : Host.Outcome State Fault Refusal :=
  finish (.pser a b x y w h) s do
    strDesc s (s.desc a)
    strDesc s (s.desc b)
    overlapCheck [streamFootprint (s.desc a)] [streamFootprint (s.desc b)]
    raiseWhen (20 + (s.desc a).len.toNat > (s.desc b).len.toNat) .streamOverflow
    pure ((s.setLmem (writeStream s.lmem (s.desc b) (patchSer x y w h (readStream s.lmem (s.desc a))))).setRes 0
      (BitVec.ofNat 32 (20 + (s.desc a).len.toNat)))

/-- PHDR (45_patch R704): all eight results are written in every outcome. -/
def execPhdr (a : DescReg) (s : State) : Host.Outcome State Fault Refusal :=
  finish (.phdr a) s do
    strDesc s (s.desc a)
    match patchParse (readStream s.lmem (s.desc a)) with
    | .error st => pure (s.setResAll [st.status])
    | .ok p => pure (s.setResAll (patchResults statusOk (s.desc a).base.toNat p))

/-! Tile payloads -/

/-- The 8×8 blocks of a plane of `ph` rows and `pw` columns, in raster order (45_patch R705). -/
def planeBlocks (plane : List (List Int)) (ph pw : Nat) : List (List (List Int)) :=
  (List.range (ph / 8)).flatMap (fun br => (List.range (pw / 8)).map (fun bc => region plane (8 * br) (8 * bc) 8 8))

/-- The eight rows of a row of blocks. -/
def joinBlocks (blocks : List (List (List Int))) : List (List Int) :=
  (List.range 8).map (fun i => blocks.flatMap (fun b => b.getD i []))

/-- The plane of `ph` rows and `pw` columns whose blocks these are, in raster order (45_patch R705). -/
def planeOfBlocks (blocks : List (List (List Int))) (ph pw : Nat) : List (List Int) :=
  (chunks (pw / 8) (ph / 8) blocks).flatMap joinBlocks

/-- What the tile codec reads of the state: EMODE and the two tables (43_quant R558, 44_entropy R616). -/
structure CodecSettings where
  emode : Word
  qtl : Vector F64 64
  qtc : Vector F64 64
deriving DecidableEq, Repr

/-- The current settings. -/
def State.codec (s : State) : CodecSettings := ⟨s.emode, s.qtl, s.qtc⟩

/-- One block of a tile: transform, quantize, zig-zag (45_patch R706). -/
def encodeBlock (t : Vector F64 64) (x : List (List Int)) : Except FaultCode (List Int) :=
  match forwardDct x with
  | .error e => .error e
  | .ok y =>
    match quantize t y with
    | .error e => .error e
    | .ok q => .ok (zigzag 0 q)

/-- One segment: the length, then the entropy data of the plane (45_patch R705, R706). -/
def encodePlane (emode : Word) (t : Vector F64 64) (plane : List (List Int)) (ph pw : Nat) :
    Except FaultCode (List Byte) :=
  match mapExcept (encodeBlock t) (planeBlocks plane ph pw) with
  | .error e => .error e
  | .ok blks =>
    match entropyEncode emode blks with
    | .error e => .error e
    | .ok seg => .ok (be32 seg.length ++ seg)

/-- `TileEncode` (45_patch R706): the segments Y, Cb, Cr. -/
def tileEncode (k : CodecSettings) (p : List (List Word)) (h w : Nat) : Except FaultCode (List Byte) := do
  let (y, cb, cr) := forwardColor p
  let segY ← encodePlane k.emode k.qtl y h w
  let segCb ← encodePlane k.emode k.qtc cb (h / 2) (w / 2)
  let segCr ← encodePlane k.emode k.qtc cr (h / 2) (w / 2)
  pure (segY ++ segCb ++ segCr)

/-- The segment at the front of a payload, and the rest; none when its length does not fit (45_patch R707). -/
def takeSegment (d : List Byte) : Option (List Byte × List Byte) :=
  match takeWord d with
  | none => none
  | some (n, rest) => if n.toNat > rest.length then none else some (rest.take n.toNat, rest.drop n.toNat)

/-- One block of a tile: un-zig-zag, dequantize, inverse transform (45_patch R707). -/
def decodeTileBlock (t : Vector F64 64) (seq : List Int) : Except FaultCode (List (List Int)) :=
  match dequantize t (unzigzag 0 seq) with
  | .error e => .error e
  | .ok c => inverseDct c

/-- One plane from its segment; none for every CORRUPT condition (45_patch R707). -/
def decodePlane (emode : Word) (t : Vector F64 64) (seg : List Byte) (ph pw : Nat) : Option (List (List Int)) :=
  match entropyDecode emode seg (ph / 8 * (pw / 8)) with
  | .error _ => none
  | .ok (blks, used) =>
    if used ≠ seg.length then none
    else
      match mapExcept (decodeTileBlock t) blks with
      | .error _ => none
      | .ok xs => some (planeOfBlocks xs ph pw)

/-- `TileDecode` (45_patch R707); none is CORRUPT. -/
def tileDecode (k : CodecSettings) (d : List Byte) (h w : Nat) : Option (List (List Word)) := do
  let (segY, d1) ← takeSegment d
  let y ← decodePlane k.emode k.qtl segY h w
  let (segCb, d2) ← takeSegment d1
  let cb ← decodePlane k.emode k.qtc segCb (h / 2) (w / 2)
  let (segCr, d3) ← takeSegment d2
  let cr ← decodePlane k.emode k.qtc segCr (h / 2) (w / 2)
  if d3.isEmpty then some (inverseColor y cb cr) else none

/-- The sides of a coded region are positive multiples of 16 (45_patch R709, R710; 46_tilediff R754, R755). -/
def tileShapeCheck (d : Desc) : Checked Unit :=
  raiseWhen (d.rows.toNat = 0 ∨ d.cols.toNat = 0 ∨ d.rows.toNat % 16 ≠ 0 ∨ d.cols.toNat % 16 ≠ 0) .dimension

/-- TENC (45_patch R709). -/
def execTenc (a b : DescReg) (s : State) : Host.Outcome State Fault Refusal :=
  finish (.tenc a b) s do
    matDesc s (s.desc a)
    strDesc s (s.desc b)
    tileShapeCheck (s.desc a)
    overlapCheck [matrixFootprint (s.desc a)] [streamFootprint (s.desc b)]
    let e ← orDraw (streamRanges (s.desc b))
      (tileEncode s.codec (pixels (readMatrix s.lmem (s.desc a))) (s.desc a).rows.toNat (s.desc a).cols.toNat)
    drawWhen (e.length > (s.desc b).len.toNat) .streamOverflow (streamRanges (s.desc b))
    pure ((s.setLmem (writeStream s.lmem (s.desc b) e)).setRes 0 (BitVec.ofNat 32 e.length))

/-- TDEC (45_patch R710): a CORRUPT payload leaves the matrix unwritten. -/
def execTdec (a b : DescReg) (s : State) : Host.Outcome State Fault Refusal :=
  finish (.tdec a b) s do
    strDesc s (s.desc a)
    matDesc s (s.desc b)
    tileShapeCheck (s.desc b)
    overlapCheck [streamFootprint (s.desc a)] [matrixFootprint (s.desc b)]
    match tileDecode s.codec (readStream s.lmem (s.desc a)) (s.desc b).rows.toNat (s.desc b).cols.toNat with
    | none => pure (s.setRes01 statusCorrupt 0)
    | some p => pure ((s.setLmem (writeMatrix s.lmem (s.desc b) p)).setRes01 statusOk (s.desc a).len)

end Sys2Proof.Machine
end

