-- ==== Sys2Proof/Machine/Compositor.lean ====
section
/-! DEFINITION. Compositor: the bilinear scaler, the canvas and the stitcher, and the commands SCALE, CVRESET, CVSET,
CVREAD, STITCH, APPLY (47_compositor R800-R808). -/

namespace Sys2Proof.Machine

/-! The scaler -/

/-- A source coordinate of `Bilinear`: the two neighbouring indices and the fraction between them
(47_compositor R801). -/
structure SourceCoord where
  lo : Nat
  hi : Nat
  frac : F64
deriving DecidableEq, Repr

/-- The source coordinate of output index `i`: `i · inN / outN`, top-left aligned, clamped to the last index
(47_compositor R801). -/
def sourceCoord (inN outN i : Nat) : SourceCoord :=
  let pos := F64.div (F64.ofInt ((i * inN : Nat) : Int)) (F64.ofInt outN)
  let lo := (F64.floor pos).toNat
  ⟨lo, min (lo + 1) (inN - 1), F64.sub pos (F64.ofInt lo)⟩

/-- `a + f × (b − a)` -/
def lerp (a b f : F64) : F64 := F64.add a (F64.mul f (F64.sub b a))

/-- One channel of an output pixel (47_compositor R801). -/
def bilinearChannel (ch : Word → Nat) (p00 p01 p10 p11 : Word) (fy fx : F64) : Int :=
  toChannel (lerp (lerp (F64.ofInt (ch p00)) (F64.ofInt (ch p01)) fx)
    (lerp (F64.ofInt (ch p10)) (F64.ofInt (ch p11)) fx) fy)

/-- One output pixel, from the two source rows and the source column (47_compositor R801). -/
def bilinearPixel (row0 row1 : List Word) (fy : F64) (x : SourceCoord) : Word :=
  let p00 := row0.getD x.lo 0
  let p01 := row0.getD x.hi 0
  let p10 := row1.getD x.lo 0
  let p11 := row1.getD x.hi 0
  rgb (bilinearChannel redOf p00 p01 p10 p11 fy x.frac) (bilinearChannel greenOf p00 p01 p10 p11 fy x.frac)
    (bilinearChannel blueOf p00 p01 p10 p11 fy x.frac)

/-- `Bilinear(M, inH, inW, outH, outW)` (47_compositor R801). -/
def bilinear (m : List (List Word)) (inH inW outH outW : Nat) : List (List Word) :=
  (List.range outH).map (fun i =>
    (List.range outW).map (fun j =>
      bilinearPixel (m.getD (sourceCoord inH outH i).lo []) (m.getD (sourceCoord inH outH i).hi [])
        (sourceCoord inH outH i).frac (sourceCoord inW outW j)))

/-- SCALE (47_compositor R802). -/
def execScale (a b : DescReg) (s : State) : Host.Outcome State Fault Refusal :=
  finish (.scale a b) s do
    matDesc s (s.desc a)
    matDesc s (s.desc b)
    raiseWhen ((s.desc a).rows.toNat = 0 ∨ (s.desc a).cols.toNat = 0 ∨ (s.desc b).rows.toNat = 0 ∨
      (s.desc b).cols.toNat = 0) .dimension
    overlapCheck [matrixFootprint (s.desc a)] [matrixFootprint (s.desc b)]
    pure (s.setLmem (writeMatrix s.lmem (s.desc b)
      (bilinear (pixels (readMatrix s.lmem (s.desc a))) (s.desc a).rows.toNat (s.desc a).cols.toNat
        (s.desc b).rows.toNat (s.desc b).cols.toNat)))

/-! The canvas -/

/-- `new` laid over `old` from index `at0` on, which may be negative: where they meet, `f old new`; what falls outside
`old` is clipped (47_compositor R808). -/
def overlay {α β : Type} (f : α → β → α) (old : List α) (new : List β) (at0 : Int) : List α :=
  let seen := new.drop (-at0).toNat
  let tail := old.drop at0.toNat
  old.take at0.toNat ++ List.zipWith f tail seen ++ tail.drop seen.length

/-- A list extended with `dflt` to at least `n` elements. -/
def padTo {α : Type} (n : Nat) (dflt : α) (xs : List α) : List α := xs ++ List.replicate (n - xs.length) dflt

/-- The canvas grown to `nh`×`nw` words, old content kept, new words 0 (47_compositor R800, R808). -/
def Canvas.grow (c : Canvas) (nh nw : Nat) : Canvas :=
  ⟨nh, nw, padTo nh (List.replicate nw 0) (c.pixels.map (padTo nw 0))⟩

/-- The size of the canvas after a patch of n at offset `at0` in one axis: `max(size, at0 + n)` (47_compositor R808). -/
def grownSize (size : Nat) (at0 : Int) (n : Nat) : Nat := max size (at0 + n).toNat

/-- The canvas after `Stitch(P, h, w, x, y)`, capacity apart (47_compositor R808). -/
def stitched (c : Canvas) (p : List (List Word)) (h w : Nat) (x y : Int) : Canvas :=
  let g := c.grow (grownSize c.h y h) (grownSize c.w x w)
  { g with pixels := overlay (fun row prow => overlay (fun _ q => q) row prow x) g.pixels p y }

/-- `Stitch(P, h, w, x, y)`: CANVAS_CAPACITY is raised before any growth (47_compositor R808). -/
def stitch (s : State) (p : List (List Word)) (h w : Nat) (x y : Int) : Checked Canvas := do
  raiseWhen (grownSize s.canvas.h y h > s.cfg.canvasMaxH ∨ grownSize s.canvas.w x w > s.cfg.canvasMaxW) .canvasCapacity
  pure (stitched s.canvas p h w x y)

/-- CVRESET (47_compositor R803). -/
def execCvreset (s : State) : Host.Outcome State Fault Refusal := finish .cvreset s (.ok (s.setCanvas Canvas.empty))

/-- CVSET (47_compositor R804): whole words are copied. -/
def execCvset (a : DescReg) (s : State) : Host.Outcome State Fault Refusal :=
  finish (.cvset a) s do
    matDesc s (s.desc a)
    let rows := (s.desc a).rows.toNat
    let cols := (s.desc a).cols.toNat
    raiseWhen (rows > s.cfg.canvasMaxH ∨ cols > s.cfg.canvasMaxW) .canvasCapacity
    pure (s.setCanvas (if rows = 0 ∨ cols = 0 then Canvas.empty else ⟨rows, cols, readMatrix s.lmem (s.desc a)⟩))

/-- CVREAD (47_compositor R805): whole words are copied. -/
def execCvread (a : DescReg) (y x : Nat) (s : State) : Host.Outcome State Fault Refusal :=
  finish (.cvread a y x) s do
    matDesc s (s.desc a)
    let rows := (s.desc a).rows.toNat
    let cols := (s.desc a).cols.toNat
    raiseWhen (y + rows > s.canvas.h ∨ x + cols > s.canvas.w) .dimension
    pure (s.setLmem (writeMatrix s.lmem (s.desc a) (region s.canvas.pixels y x rows cols)))

/-- STITCH (47_compositor R807): whole words are copied. -/
def execStitch (a : DescReg) (x y : Int) (s : State) : Host.Outcome State Fault Refusal :=
  finish (.stitch a x y) s do
    matDesc s (s.desc a)
    raiseWhen ((s.desc a).rows.toNat = 0 ∨ (s.desc a).cols.toNat = 0) .dimension
    let c ← stitch s (readMatrix s.lmem (s.desc a)) (s.desc a).rows.toNat (s.desc a).cols.toNat x y
    pure (s.setCanvas c)

/-! APPLY -/

/-- The pixels of a parsed patch, or none when w, h or the payload is CORRUPT (47_compositor R806). -/
def patchPixels (k : CodecSettings) (p : Patch) : Option (List (List Word)) :=
  if 0 < p.w ∧ 0 < p.h ∧ p.w % 16 = 0 ∧ p.h % 16 = 0 then tileDecode k p.payload p.h.toNat p.w.toNat else none

/-- The stream descriptor moved past `n` bytes (47_compositor R806, 40_control R406). -/
def Desc.skip (d : Desc) (n : Nat) : Desc :=
  { d with base := d.base + BitVec.ofNat 32 n, len := d.len - BitVec.ofNat 32 n }

/-- APPLY (47_compositor R806): the stream descriptor moves past a patch whose framing is good, whatever its payload;
CANVAS_CAPACITY changes nothing. -/
def execApply (a : DescReg) (s : State) : Host.Outcome State Fault Refusal :=
  finish (.apply a) s do
    strDesc s (s.desc a)
    match patchParse (readStream s.lmem (s.desc a)) with
    | .error st => pure (s.setResAll [st.status])
    | .ok p =>
      match patchPixels s.codec p with
      | none =>
        pure ((s.setResAll (patchResults statusCorrupt (s.desc a).base.toNat p)).setDesc a
          ((s.desc a).skip p.consumed))
      | some px =>
        let c ← stitch s px p.h.toNat p.w.toNat p.x p.y
        pure (((s.setCanvas c).setResAll (patchResults statusOk (s.desc a).base.toNat p)).setDesc a
          ((s.desc a).skip p.consumed))

end Sys2Proof.Machine
end

