-- ==== Sys2Proof/Machine/Csr.lean ====
section
/-! DEFINITION. The control and status registers: the map of 10_state R120, reads, and legal writes (R111-R114, R122). -/

namespace Sys2Proof.Machine

/-- The CSRs of 10_state R120. -/
inductive Csr where
  | id | version | quality | absorbed | emode | tsize | hstride | canvasH | canvasW | cpc
  | res (k : Fin 8)
  | hashLo | hashHi
  | scaleHi (k : Fin 8)
  | scaleLo (k : Fin 8)
  | qtlHi (k : Fin 64)
  | qtlLo (k : Fin 64)
  | qtcHi (k : Fin 64)
  | qtcLo (k : Fin 64)
deriving DecidableEq, Repr

/-- The CSR with this number, or none for an undefined number (10_state R120). -/
def Csr.ofNumber (n : Nat) : Option Csr :=
  if n ≤ 0x009 then [Csr.id, .version, .quality, .absorbed, .emode, .tsize, .hstride, .canvasH, .canvasW, .cpc][n]?
  else if 0x010 ≤ n ∧ n ≤ 0x017 then some (.res (Fin.ofNat 8 (n - 0x010)))
  else if n = 0x018 then some .hashLo
  else if n = 0x019 then some .hashHi
  else if 0x020 ≤ n ∧ n ≤ 0x02F then
    some (if n % 2 = 0 then .scaleHi (Fin.ofNat 8 ((n - 0x020) / 2)) else .scaleLo (Fin.ofNat 8 ((n - 0x020) / 2)))
  else if 0x100 ≤ n ∧ n ≤ 0x17F then
    some (if n % 2 = 0 then .qtlHi (Fin.ofNat 64 ((n - 0x100) / 2)) else .qtlLo (Fin.ofNat 64 ((n - 0x100) / 2)))
  else if 0x180 ≤ n ∧ n ≤ 0x1FF then
    some (if n % 2 = 0 then .qtcHi (Fin.ofNat 64 ((n - 0x180) / 2)) else .qtcLo (Fin.ofNat 64 ((n - 0x180) / 2)))
  else none

/-- The RW CSRs of 10_state R120: EMODE, TSIZE, HSTRIDE, RES0-RES7 and the SCALE halves. -/
def Csr.writable : Csr → Bool
  | .emode | .tsize | .hstride | .res _ | .scaleHi _ | .scaleLo _ => true
  | _ => false

/-- bits 63:32 of a 64-bit register -/
def highWord (v : BitVec 64) : Word := BitVec.ofNat 32 (v.toNat / 2 ^ 32)

/-- bits 31:0 of a 64-bit register -/
def lowWord (v : BitVec 64) : Word := BitVec.ofNat 32 v.toNat

/-- the 64-bit value with these halves -/
def joinWords (hi lo : Word) : BitVec 64 := BitVec.ofNat 64 (hi.toNat * 2 ^ 32 + lo.toNat)

/-- The value of a CSR (10_state R120, R121; 40_control R404). A read has no side effect (R122). -/
def State.csrRead (s : State) : Csr → Word
  | .id => 0x44435438
  | .version => 0x00010000
  | .quality => s.quality
  | .absorbed => if s.absorbed then 1 else 0
  | .emode => s.emode
  | .tsize => s.tsize
  | .hstride => s.hstride
  | .canvasH => BitVec.ofNat 32 s.canvas.h
  | .canvasW => BitVec.ofNat 32 s.canvas.w
  | .cpc => s.cpc
  | .res k => s.res[k]
  | .hashLo => lowWord s.hash
  | .hashHi => highWord s.hash
  | .scaleHi k => highWord s.scale[k].bits
  | .scaleLo k => lowWord s.scale[k].bits
  | .qtlHi k => highWord s.qtl[k].bits
  | .qtlLo k => lowWord s.qtl[k].bits
  | .qtcHi k => highWord s.qtc[k].bits
  | .qtcLo k => lowWord s.qtc[k].bits

/-- The values a CSR accepts (10_state R114, R122). -/
def Csr.accepts (c : Csr) (v : Word) : Bool :=
  match c with
  | .emode => Nat.ble v.toNat 1
  | .tsize => Nat.ble 16 v.toNat && Nat.ble v.toNat 65520 && v.toNat % 16 == 0
  | .hstride => Nat.ble 1 v.toNat && Nat.ble v.toNat 255
  | _ => true

/-- `CSR c ← v` for a writable CSR and an accepted value (40_control R403); a read-only CSR is left as it is. -/
def State.csrWrite (s : State) (c : Csr) (v : Word) : State :=
  match c with
  | .emode => { s with emode := v }
  | .tsize => { s with tsize := v }
  | .hstride => { s with hstride := v }
  | .res k => s.setRes k v
  | .scaleHi k => { s with scale := s.scale.set k ⟨joinWords v (lowWord s.scale[k].bits)⟩ }
  | .scaleLo k => { s with scale := s.scale.set k ⟨joinWords (highWord s.scale[k].bits) v⟩ }
  | .id | .version | .quality | .absorbed | .canvasH | .canvasW | .cpc | .hashLo | .hashHi => s
  | .qtlHi _ | .qtlLo _ | .qtcHi _ | .qtcLo _ => s

/-- The CSR with this number, or the CSR fault (10_state R120, 40_control R403, R404). -/
def csrNamed (n : Nat) : Checked Csr :=
  match Csr.ofNumber n with
  | some c => .ok c
  | none => .error ⟨.csr, []⟩

end Sys2Proof.Machine
end

