-- ==== Sys2Proof/Machine/Control.lean ====
section
/-! DEFINITION. The control, descriptor and CSR commands: NOP, HALT, SETD, CSRW, CSRR (40_control R400-R404). -/

namespace Sys2Proof.Machine

/-- NOP (40_control R400). -/
def execNop (s : State) : Host.Outcome State Fault Refusal := finish .nop s (.ok s)

/-- HALT (40_control R401): CPC moves past it, the engine stops and the interrupt is raised. -/
def execHalt (s : State) : Host.Outcome State Fault Refusal := finish .halt s (.ok s.halt)

/-- SETD (40_control R402): nothing is checked. -/
def execSetd (a : DescReg) (base pitch rows cols len : Nat) (s : State) : Host.Outcome State Fault Refusal :=
  finish (.setd a base pitch rows cols len) s <| .ok <|
    s.setDesc a ⟨BitVec.ofNat 32 base, BitVec.ofNat 32 pitch, BitVec.ofNat 16 rows, BitVec.ofNat 16 cols,
      BitVec.ofNat 32 len⟩

/-- CSRW (40_control R403). -/
def execCsrw (csr : Nat) (value : Word) (s : State) : Host.Outcome State Fault Refusal :=
  finish (.csrw csr value) s do
    let c ← csrNamed csr
    raiseWhen (c.writable = false) .csr
    raiseWhen (c.accepts value = false) .csrValue
    pure (s.csrWrite c value)

/-- CSRR (40_control R404): CSR, ALIGN and BOUNDS are checked in that order. -/
def execCsrr (csr addr : Nat) (s : State) : Host.Outcome State Fault Refusal :=
  finish (.csrr csr addr) s do
    let c ← csrNamed csr
    raiseWhen (addr % 4 ≠ 0) .align
    raiseWhen (addr + 4 > s.cfg.lmemBytes) .bounds
    pure (s.setLmem (Memory.storeWords s.lmem addr [s.csrRead c]))

end Sys2Proof.Machine
end

