-- ==== Sys2Proof/Machine/TileDiff.lean ====
section
/-! DEFINITION. TileDiffEngine: the tile grid, the tile hash, dirty-tile selection, and the commands HASH, DIFF, FULL,
HCTXRST (46_tilediff R750-R757). -/

namespace Sys2Proof.Machine

/-- Every `stride`-th element, from the first on. -/
def strided {α : Type} (stride : Nat) (xs : List α) : List α :=
  (xs.zipIdx.filter (fun e => e.2 % stride == 0)).map (fun e => e.1)

/-- What one sampled pixel adds to the hash: R + G·2^20 + B·2^40 (46_tilediff R751). -/
def pixelHash (p : Word) : Nat := redOf p + greenOf p * 2 ^ 20 + blueOf p * 2 ^ 40

/-- `TileHash` of the pixels of a region, mod 2^64 (46_tilediff R751). -/
def tileHash (stride : Nat) (p : List (List Word)) : Hash64 :=
  ((strided stride p).flatMap (strided stride)).foldl (fun acc q => acc + BitVec.ofNat 64 (pixelHash q)) 0

/-- A tile: its top-left pixel (row y, column x), its height and width (46_tilediff R750). -/
structure Tile where
  y : Nat
  x : Nat
  h : Nat
  w : Nat
deriving DecidableEq, Repr

/-- Tile number `t` of a rows×cols frame cut into tiles of edge `ts`, clipped to the frame (46_tilediff R750). -/
def tileAt (rows cols ts t : Nat) : Tile :=
  let gc := ceilDiv cols ts
  let y := t / gc * ts
  let x := t % gc * ts
  ⟨y, x, min ts (rows - y), min ts (cols - x)⟩

/-- The tiles of a frame in raster order (46_tilediff R750). -/
def tilesOf (rows cols ts : Nat) : List Tile :=
  (List.range (ceilDiv rows ts * ceilDiv cols ts)).map (tileAt rows cols ts)

/-- The pixels of a tile. -/
def tilePixels (m : List (List Word)) (t : Tile) : List (List Word) := region m t.y t.x t.h t.w

/-- The patch of one tile (46_tilediff R754). -/
def tilePatch (k : CodecSettings) (m : List (List Word)) (t : Tile) : Except FaultCode (List Byte) :=
  match tileEncode k (tilePixels m t) t.h t.w with
  | .error e => .error e
  | .ok payload => .ok (patchSer t.x t.y t.w t.h payload)

/-- A DIFF of this frame on this context is fresh (46_tilediff R752). -/
def isFresh (c : HashContext) (g : Geometry) : Bool := !c.valid || c.geom != g

/-- The dirty tiles, in raster order: all of them in a fresh DIFF, else those whose hash differs (46_tilediff R753). -/
def dirtyTiles (fresh : Bool) (old : List Hash64) (tiles : List Tile) (hashes : List Hash64) : List Tile :=
  (((tiles.zip hashes).zipIdx).filter (fun e => fresh || e.1.2 != old.getD e.2 0)).map (fun e => e.1.1)

/-- HASH (46_tilediff R757). -/
def execHash (a : DescReg) (s : State) : Host.Outcome State Fault Refusal :=
  finish (.hash a) s do
    matDesc s (s.desc a)
    pure (s.setHash (tileHash s.hstride.toNat (pixels (readMatrix s.lmem (s.desc a)))))

/-- DIFF (46_tilediff R754). -/
def execDiff (a b : DescReg) (ctx : Nat) (s : State) : Host.Outcome State Fault Refusal :=
  finish (.diff a b ctx) s do
    raiseWhen (ctx ≥ s.cfg.nHctx) .operand
    matDesc s (s.desc a)
    strDesc s (s.desc b)
    tileShapeCheck (s.desc a)
    let rows := (s.desc a).rows.toNat
    let cols := (s.desc a).cols.toNat
    let gr := ceilDiv rows s.tsize.toNat
    let gc := ceilDiv cols s.tsize.toNat
    raiseWhen (gr * gc > s.cfg.maxTiles) .tileCapacity
    overlapCheck [matrixFootprint (s.desc a)] [streamFootprint (s.desc b)]
    let m := pixels (readMatrix s.lmem (s.desc a))
    let geom : Geometry := ⟨rows, cols, s.tsize.toNat, s.hstride.toNat⟩
    let tiles := tilesOf rows cols s.tsize.toNat
    let hashes := tiles.map (fun t => tileHash s.hstride.toNat (tilePixels m t))
    let dirty := dirtyTiles (isFresh (s.ctx ctx) geom) (s.ctx ctx).hashes tiles hashes
    let patches ← orDraw (streamRanges (s.desc b)) (mapExcept (tilePatch s.codec m) dirty)
    drawWhen (patches.flatten.length > (s.desc b).len.toNat) .streamOverflow (streamRanges (s.desc b))
    pure (((s.setLmem (writeStream s.lmem (s.desc b) patches.flatten)).setCtx ctx ⟨true, geom, gr, gc, hashes⟩).setRes01
      (BitVec.ofNat 32 dirty.length) (BitVec.ofNat 32 patches.flatten.length))

/-- FULL (46_tilediff R755): no hash context is read or written. -/
def execFull (a b : DescReg) (s : State) : Host.Outcome State Fault Refusal :=
  finish (.full a b) s do
    matDesc s (s.desc a)
    strDesc s (s.desc b)
    tileShapeCheck (s.desc a)
    overlapCheck [matrixFootprint (s.desc a)] [streamFootprint (s.desc b)]
    let rows := (s.desc a).rows.toNat
    let cols := (s.desc a).cols.toNat
    let out ← orDraw (streamRanges (s.desc b))
      (tilePatch s.codec (pixels (readMatrix s.lmem (s.desc a))) ⟨0, 0, rows, cols⟩)
    drawWhen (out.length > (s.desc b).len.toNat) .streamOverflow (streamRanges (s.desc b))
    pure ((s.setLmem (writeStream s.lmem (s.desc b) out)).setRes01 1 (BitVec.ofNat 32 out.length))

/-- HCTXRST (46_tilediff R756). -/
def execHctxrst (ctx : Nat) (s : State) : Host.Outcome State Fault Refusal :=
  finish (.hctxrst ctx) s do
    raiseWhen (ctx ≥ s.cfg.nHctx) .operand
    pure (s.setCtx ctx { s.ctx ctx with valid := false })

end Sys2Proof.Machine
end

