-- ==== Sys2Proof/Machine/Dispatch.lean ====
section
/-! DEFINITION. One arm per command, each one call of its meaning (30_encoding R304). -/

namespace Sys2Proof.Machine

def exec (i : Instr) (s : State) : Host.Outcome State Fault Refusal :=
  match i with
  | .nop => Sys2Proof.Machine.execNop s
  | .halt => Sys2Proof.Machine.execHalt s
  | .setd a base pitch rows cols len => Sys2Proof.Machine.execSetd a base pitch rows cols len s
  | .csrw csr value => Sys2Proof.Machine.execCsrw csr value s
  | .csrr csr addr => Sys2Proof.Machine.execCsrr csr addr s
  | .setq q => Sys2Proof.Machine.execSetq q s
  | .absorb => Sys2Proof.Machine.execAbsorb s
  | .fdct a row col => Sys2Proof.Machine.execFdct a row col s
  | .idct a row col => Sys2Proof.Machine.execIdct a row col s
  | .quant chroma a row col => Sys2Proof.Machine.execQuant chroma a row col s
  | .dequant chroma a row col => Sys2Proof.Machine.execDequant chroma a row col s
  | .zigzag a b row col index => Sys2Proof.Machine.execZigzag a b row col index s
  | .unzigzag a b index row col => Sys2Proof.Machine.execUnzigzag a b index row col s
  | .enc a b nblk => Sys2Proof.Machine.execEnc a b nblk s
  | .dec a b nblk => Sys2Proof.Machine.execDec a b nblk s
  | .rgb2ycc a b c d => Sys2Proof.Machine.execRgb2ycc a b c d s
  | .ycc2rgb a b c d => Sys2Proof.Machine.execYcc2rgb a b c d s
  | .scale a b => Sys2Proof.Machine.execScale a b s
  | .tenc a b => Sys2Proof.Machine.execTenc a b s
  | .tdec a b => Sys2Proof.Machine.execTdec a b s
  | .hash a => Sys2Proof.Machine.execHash a s
  | .diff a b ctx => Sys2Proof.Machine.execDiff a b ctx s
  | .full a b => Sys2Proof.Machine.execFull a b s
  | .hctxrst ctx => Sys2Proof.Machine.execHctxrst ctx s
  | .cvreset => Sys2Proof.Machine.execCvreset s
  | .cvset a => Sys2Proof.Machine.execCvset a s
  | .cvread a y x => Sys2Proof.Machine.execCvread a y x s
  | .stitch a x y => Sys2Proof.Machine.execStitch a x y s
  | .apply a => Sys2Proof.Machine.execApply a s
  | .pser a b x y w h => Sys2Proof.Machine.execPser a b x y w h s
  | .phdr a => Sys2Proof.Machine.execPhdr a s

end Sys2Proof.Machine
end

