-- ==== Sys2Proof/Machine/Fetch.lean ====
section
/-! DEFINITION. Fetch and decode of the command at CPC (30_encoding R303; 20_memory R212), and placing a command
where the engine fetches its next one. -/

namespace Sys2Proof.Machine

/-- A fault of fetch or decode, and what FAULT_INFO then holds (30_encoding R303, 60_exceptions R902). -/
structure FetchFault where
  code : FaultCode
  info : Word
deriving DecidableEq, Repr

/-- The bytes at CPC that a command can take: 20, the longest command (30_encoding R304), or what is left of LMEM. -/
def State.fetchBytes (s : State) : List Byte :=
  Memory.load s.lmem s.cpc.toNat (min 20 (s.cfg.lmemBytes - s.cpc.toNat))

/-- The fault of a byte string that is no command (30_encoding R303): a header or an argument word that is not
whole is FETCH. -/
def decodeFault : DecodeError → FaultCode
  | .shortHeader => .fetch
  | .illegalOpcode => .illegalOpcode
  | .shortArgs => .fetch
  | .reservedField => .reserved

/-- The header word at the front of a byte string; 0 when it is not whole (60_exceptions R902). -/
def headerAt (bs : List Byte) : Word :=
  match takeWord bs with
  | some (w, _) => w
  | none => 0

/-- `Fetch()` (30_encoding R303): the command at CPC, or the fault of fetch or decode. -/
def State.fetch (s : State) : Except FetchFault Instr :=
  if s.cpc.toNat % 4 ≠ 0 ∨ s.cpc.toNat + 4 > s.cfg.lmemBytes then .error ⟨.fetch, 0⟩
  else
    match decode s.fetchBytes with
    | .ok (i, _) => .ok i
    | .error e => .error ⟨decodeFault e, headerAt s.fetchBytes⟩

/-- The state of a launch at `a` (70_reset R965): RUNNING with CPC at `a` and the fault registers cleared, as START leaves
it, no SOFT_RESET pending, and no host move still to come. -/
def State.readyAt (s : State) (a : Word) : State :=
  { s.clearFault with cpc := a, engine := .running, resetPending := false, moves := [] }

/-- Where a command of up to 20 bytes can be placed for the next fetch: at CPC when it is aligned and they fit, else
at 0. -/
def State.placeAt (s : State) : Word :=
  if s.cpc.toNat % 4 = 0 ∧ s.cpc.toNat + 20 ≤ s.cfg.lmemBytes then s.cpc else 0

/-- The bytes of a command placed where the next step fetches (70_reset R954: the host loads the list and STARTs;
log 15). -/
def State.placeBytes (s : State) (bs : List Byte) : State :=
  (s.setLmem (Memory.store s.lmem s.placeAt.toNat bs)).readyAt s.placeAt

end Sys2Proof.Machine
end

