-- ==== Sys2Proof/Machine/HostPort.lean ====
section
/-! DEFINITION. The host's side of the block: the host registers of 10_state R130, host control (60_exceptions R910,
R911) and the host's LMEM port (20_memory R213). -/

namespace Sys2Proof.Machine

/-- The value of ENGINE_STATE (10_state R108). -/
def EngineState.code : EngineState → Nat
  | .idle => 0
  | .running => 1
  | .halted => 2
  | .faulted => 3

/-- H_STATUS: ENGINE_STATE in bits 1:0, FAULT_CODE in bits 15:8, other bits 0 (10_state R130). -/
def State.hStatus (s : State) : Word := BitVec.ofNat 32 (s.faultCode.toNat * 2 ^ 8 + s.engine.code)

/-- bit `k` of a register -/
def bitAt (v : Word) (k : Nat) : Bool := bitField v.toNat k 1 == 1

/-- A host read of the register at byte offset `off` (10_state R130). An offset that is not listed reads 0; an offset
that is not a multiple of 4 is not listed (log 12). -/
def State.hostRead (s : State) (off : Nat) : Word :=
  match off with
  | 0x00 => 0x44435438
  | 0x08 => s.hStatus
  | 0x0C => s.hCpcStart
  | 0x10 => s.cpc
  | 0x14 => if s.irqEn then 1 else 0
  | 0x18 => if s.irqPend then 1 else 0
  | 0x1C => s.faultCpc
  | 0x20 => s.faultInfo
  | _ => 0

/-- A host write to H_CTRL: SOFT_RESET over START over RESUME (60_exceptions R910). -/
def State.hostControl (s : State) (v : Word) : State :=
  if bitAt v 2 then s.requestReset else if bitAt v 0 then s.start else if bitAt v 1 then s.resume else s

/-- A host write of the register at byte offset `off` (10_state R130). A read-only or unlisted register ignores it. -/
def State.hostWrite (s : State) (off : Nat) (v : Word) : State :=
  match off with
  | 0x04 => s.hostControl v
  | 0x0C => { s with hCpcStart := v }
  | 0x14 => { s with irqEn := bitAt v 0 }
  | 0x18 => { s with irqPend := s.irqPend && !bitAt v 0 }
  | _ => s

/-- A host read of `n` bytes of LMEM: zeros while RUNNING (20_memory R213). DESIGN CHOICE (log 29): the spec leaves open
what a host read at an address outside 0 .. LMEM_BYTES−1 answers while not RUNNING, since R213 leaves the port's protocol
out; no such byte exists, and the model answers the free byte `Config.powerOnByte` of that address. -/
def State.hostLoad (s : State) (a n : Nat) : List Byte :=
  if s.engine = .running then List.replicate n 0 else Memory.load s.lmem a n

/-- A host write of LMEM bytes: dropped while RUNNING (20_memory R213), and a model fault where the bytes do not exist
(log 11). -/
def hostStore (a : Nat) (bytes : List Byte) (s : State) : Host.Outcome State Fault Refusal :=
  if s.engine = .running ∨ bytes = [] then .next s
  else if a + bytes.length > s.cfg.lmemBytes then .fault .hostAddress
  else .next (s.setLmem (Memory.store s.lmem a bytes))

/-- One host move (60_exceptions R911; 20_memory R213). -/
def hostMove (act : HostAct) (s : State) : Host.Outcome State Fault Refusal :=
  match act with
  | .regWrite off v => .next (s.hostWrite off v)
  | .lmemWrite a bytes => hostStore a bytes s

end Sys2Proof.Machine
end

