-- ==== Sys2Proof/Machine/Engine.lean ====
section
/-! DEFINITION. The engine's step: one whole command (30_encoding R303; 70_reset R956), then a SOFT_RESET that waits
for it (60_exceptions R911). -/

namespace Sys2Proof.Machine

/-- A pending SOFT_RESET lands at the end of the command (60_exceptions R911, 70_reset R951). -/
def atBoundary (o : Host.Outcome State Fault Refusal) : Host.Outcome State Fault Refusal :=
  match o with
  | .next t => .next t.boundary
  | .fault f => .fault f
  | .refused r => .refused r

/-- Fetch, decode and execute one command, or take the fault of fetch or decode (30_encoding R303). -/
def runCommand (s : State) : Host.Outcome State Fault Refusal :=
  match s.fetch with
  | .ok i => exec i s
  | .error f => .next (takeFault f.code f.info [] s)

/-- The engine's step: one command while RUNNING; otherwise it waits (10_state R108; log 8). -/
def engineStep (s : State) : Host.Outcome State Fault Refusal :=
  if s.engine = .running then atBoundary (runCommand s) else .next s

end Sys2Proof.Machine
end

