-- ==== Sys2Proof/Machine/Step.lean ====
section
/-! DEFINITION. One step of the block: a host move that is due, or one whole command of the engine (10_state R100;
60_exceptions R911; 70_reset R956). -/

namespace Sys2Proof.Machine

/-- One step: the host's next move when it is due, else the engine's step, and the host's move is one step nearer
(60_exceptions R911; log 6). -/
def step (s : State) : Host.Outcome State Fault Refusal :=
  match s.moves with
  | [] => engineStep s
  | ⟨0, act⟩ :: rest => hostMove act { s with moves := rest }
  | ⟨n + 1, act⟩ :: rest => engineStep { s with moves := ⟨n, act⟩ :: rest }

/-- `s` with the instruction of bits `w` stored where `step` fetches next: loaded from outside and STARTed, no host
move pending (log 15). -/
def State.withFetchWord (s : State) (nbits w : Nat) : State := s.placeBytes (tableBytes nbits w)

end Sys2Proof.Machine
end

