-- ==== Sys2Proof/Safety.lean ====
section
/-! DEFINITION. The terms claims are stated in: what a descriptor must be for a command to run, what a command reads and
writes byte by byte, and the invariants every step keeps. No definition here gives an instruction its meaning. -/

namespace Sys2Proof.Machine

/-! Operands that pass the checks -/

/-- The checks of `MatDesc` pass in an LMEM of `n` bytes (10_state R102). -/
abbrev Desc.matrixOk (n : Nat) (d : Desc) : Prop :=
  d.base.toNat % 4 = 0 ∧ d.pitch.toNat % 4 = 0 ∧ (1 < d.rows.toNat → 4 * d.cols.toNat ≤ d.pitch.toNat) ∧
  (0 < d.rows.toNat → 0 < d.cols.toNat →
    d.base.toNat + (d.rows.toNat - 1) * d.pitch.toNat + 4 * d.cols.toNat ≤ n)

/-- The checks of `SeqDesc` pass (10_state R103). -/
abbrev Desc.sequenceOk (n : Nat) (d : Desc) : Prop :=
  d.base.toNat % 4 = 0 ∧ d.len.toNat % 4 = 0 ∧ d.base.toNat + d.len.toNat ≤ n

/-- The check of `StrDesc` passes (10_state R104). -/
abbrev Desc.streamOk (n : Nat) (d : Desc) : Prop := d.base.toNat + d.len.toNat ≤ n

/-- `BlockCheck` passes (42_dct R507). -/
abbrev Desc.holdsBlock (d : Desc) (r c : Nat) : Prop :=
  r % 8 = 0 ∧ c % 8 = 0 ∧ r + 8 ≤ d.rows.toNat ∧ c + 8 ≤ d.cols.toNat

/-- The 64-word window at `index` lies inside the sequence (44_entropy R601). -/
abbrev Desc.holdsWindow (d : Desc) (index : Nat) : Prop := index + 64 ≤ d.len.toNat / 4

/-- The sequence holds `nblk` blocks (44_entropy R617). -/
abbrev Desc.holdsBlocks (d : Desc) (nblk : Nat) : Prop := 64 * nblk ≤ d.len.toNat / 4

/-- Both sides are even and not 0 (41_color R453). -/
abbrev Desc.evenSides (d : Desc) : Prop :=
  d.rows.toNat ≠ 0 ∧ d.cols.toNat ≠ 0 ∧ d.rows.toNat % 2 = 0 ∧ d.cols.toNat % 2 = 0

/-- Both sides are positive multiples of 16 (45_patch R709). -/
abbrev Desc.tileSides (d : Desc) : Prop :=
  d.rows.toNat ≠ 0 ∧ d.cols.toNat ≠ 0 ∧ d.rows.toNat % 16 = 0 ∧ d.cols.toNat % 16 = 0

/-- The matrix has this shape. -/
abbrev Desc.shaped (d : Desc) (rows cols : Nat) : Prop := d.rows.toNat = rows ∧ d.cols.toNat = cols

/-- Two footprints share no byte (20_memory R209). -/
abbrev Footprint.apart (f g : Footprint) : Prop := f.len = 0 ∨ g.len = 0 ∨ f.lo + f.len ≤ g.lo ∨ g.lo + g.len ≤ f.lo

/-! What a command reads and writes -/

/-- `MemRead(a, 4)` (00_scope R13): the big-endian word at `a`. -/
def wordAt (m : Memory) (a : Nat) : Word :=
  bytesWord (m.read a) (m.read (a + 1)) (m.read (a + 2)) (m.read (a + 3))

/-- Element (i, j) of a matrix (00_scope R15, `MatRd` before `s32`). -/
def elementAt (m : Memory) (d : Desc) (i j : Nat) : Word := wordAt m (matAddr d i j)

/-- `PixRd(d, i, j)` (00_scope R15). -/
def pixelAt (m : Memory) (d : Desc) (i j : Nat) : Word := pixelOf (elementAt m d i j)

/-- Address `a` is one of the `len` bytes from `lo` on. -/
def rangeBytes (lo len a : Nat) : Prop := lo ≤ a ∧ a < lo + len

/-- Address `a` is one of the four bytes of an element of the h×w region at (r, c) of the matrix; the row gaps are
not (20_memory R207). -/
def regionBytes (d : Desc) (r c h w a : Nat) : Prop :=
  ∃ i j, i < h ∧ j < w ∧ rangeBytes (matAddr d (r + i) (c + j)) 4 a

/-- Address `a` is a byte of an element of the matrix. -/
def matrixBytes (d : Desc) (a : Nat) : Prop := regionBytes d 0 0 d.rows.toNat d.cols.toNat a

/-- Every byte outside `written` reads in `m'` as it reads in `m`. -/
def sameOutside (m m' : Memory) (written : Nat → Prop) : Prop := ∀ a, ¬ written a → m'.read a = m.read a

/-- The bytes from `a` on are `bs`. -/
def holdsBytes (m : Memory) (a : Nat) (bs : List Byte) : Prop := ∀ k, k < bs.length → m.read (a + k) = bs.getD k 0

/-- The h×w region at (r, c) of the matrix holds `v`, row by row. -/
def holdsRegion (m : Memory) (d : Desc) (r c h w : Nat) (v : List (List Word)) : Prop :=
  ∀ i j, i < h → j < w → elementAt m d (r + i) (c + j) = cellAt v 0 i j

/-- The fault registers and the engine after FaultEntry(code), CPC kept (60_exceptions R902), apart from LMEM and the
draw counter. -/
def State.faultedWith (s : State) (code : BitVec 8) (info : Word) : State :=
  { s with faultCode := code, faultCpc := s.cpc, faultInfo := info, engine := .faulted, irqPend := true }

/-- The LMEM byte ranges a command may write, from the descriptors of state `s` (20_memory R218): CSRR's word, the
block's eight rows of 32 bytes for the in-place block commands (60_exceptions R903), else the output footprints of
20_memory R208. -/
def outputRanges (i : Instr) (s : State) : List Footprint :=
  match i with
  | .csrr _ addr => [⟨addr, 4⟩]
  | .fdct a r c | .idct a r c | .quant _ a r c | .dequant _ a r c =>
    (List.range 8).map (fun k => ⟨matAddr (s.desc a) (r + k) c, 32⟩)
  | .zigzag _ b _ _ index => [windowFootprint (s.desc b) index]
  | .unzigzag _ b _ r c => [blockFootprint (s.desc b) r c]
  | .enc _ b _ | .tenc _ b | .diff _ b _ | .full _ b | .pser _ b _ _ _ _ => [streamFootprint (s.desc b)]
  | .dec _ b nblk => [prefixFootprint (s.desc b) nblk]
  | .rgb2ycc _ b c d => [matrixFootprint (s.desc b), matrixFootprint (s.desc c), matrixFootprint (s.desc d)]
  | .ycc2rgb _ _ _ d => [matrixFootprint (s.desc d)]
  | .scale _ b | .tdec _ b => [matrixFootprint (s.desc b)]
  | .cvread a _ _ => [matrixFootprint (s.desc a)]
  | .nop | .halt | .setd _ _ _ _ _ _ | .csrw _ _ | .setq _ | .absorb | .hash _ | .hctxrst _ | .cvreset | .cvset _
  | .stitch _ _ _ | .apply _ | .phdr _ => []

/-- A matrix of words read element by element: MatAddr(d, i, j) for i < h, j < w (00_scope R15). -/
def wordsOf (m : Memory) (d : Desc) (r c h w : Nat) : List (List Word) :=
  (List.range h).map (fun i => (List.range w).map (fun j => elementAt m d (r + i) (c + j)))

/-- Its pixels (20_memory R203). -/
def pixelsOf (m : Memory) (d : Desc) : List (List Word) :=
  (List.range d.rows.toNat).map (fun i => (List.range d.cols.toNat).map (fun j => pixelAt m d i j))

/-- The bytes of a stream (00_scope R15, `StrRd`). -/
def bytesOf (m : Memory) (d : Desc) : List Byte := (List.range d.len.toNat).map (fun k => m.read (d.base.toNat + k))

/-- The blocks of 64 signed elements a sequence starts with (44_entropy R608). -/
def blocksOf (m : Memory) (d : Desc) (nblk : Nat) : List (List Int) :=
  (List.range nblk).map (fun b => (List.range 64).map (fun k => s32 (wordAt m (d.base.toNat + 4 * (64 * b + k)))))

/-- An in-place block command: its descriptor, its block origin and the function it applies to the block
(42_dct R505, R506; 43_quant R554, R555). -/
def blockForm (s : State) (i : Instr) :
    Option (DescReg × Nat × Nat × (List (List Int) → Except FaultCode (List (List Int)))) :=
  match i with
  | .fdct a r c => some (a, r, c, forwardDct)
  | .idct a r c => some (a, r, c, inverseDct)
  | .quant chroma a r c => some (a, r, c, quantize (s.table chroma))
  | .dequant chroma a r c => some (a, r, c, dequantize (s.table chroma))
  | _ => none

/-- The faults that are execution faults of a command (60_exceptions R903): every other fault is a check fault. -/
def executionFault (op : Opcode) (code : FaultCode) : Bool :=
  match code with
  | .numeric => [Opcode.fdct, .idct, .quant, .dequant, .tenc, .diff, .full].contains op
  | .codeRange | .streamOverflow => [Opcode.enc, .tenc, .diff, .full].contains op
  | _ => false

/-- Address `a` lies in one of the byte ranges. -/
def inRanges (fs : List Footprint) (a : Nat) : Prop := ∃ f, f ∈ fs ∧ rangeBytes f.lo f.len a

/-! The checks of a command -/

/-- One check of a command: whether it fails, and the fault it then takes (60_exceptions R903, class N). -/
abbrev Check := Bool × FaultCode

/-- The fault a command reports for its checks: that of the first one that fails (60_exceptions R905). -/
def firstFault : List Check → Option FaultCode
  | [] => none
  | c :: cs => if c.1 then some c.2 else firstFault cs

/-- `MatDesc`: ALIGN, DIMENSION, BOUNDS (10_state R102). -/
def matrixChecks (n : Nat) (d : Desc) : List Check :=
  [(decide (d.base.toNat % 4 ≠ 0 ∨ d.pitch.toNat % 4 ≠ 0), .align),
   (decide (1 < d.rows.toNat ∧ d.pitch.toNat < 4 * d.cols.toNat), .dimension),
   (decide (0 < d.rows.toNat ∧ 0 < d.cols.toNat ∧
      n < d.base.toNat + (d.rows.toNat - 1) * d.pitch.toNat + 4 * d.cols.toNat), .bounds)]

/-- `SeqDesc`: ALIGN, BOUNDS (10_state R103). -/
def sequenceChecks (n : Nat) (d : Desc) : List Check :=
  [(decide (d.base.toNat % 4 ≠ 0 ∨ d.len.toNat % 4 ≠ 0), .align), (decide (n < d.base.toNat + d.len.toNat), .bounds)]

/-- `StrDesc`: BOUNDS (10_state R104). -/
def streamChecks (n : Nat) (d : Desc) : List Check := [(decide (n < d.base.toNat + d.len.toNat), .bounds)]

/-- The overlap rule: every output is apart from every input, and the outputs from each other (20_memory R209). -/
def overlapChecks (ins outs : List Footprint) : List Check :=
  [(decide (¬ ((∀ o ∈ outs, ∀ f ∈ ins, o.apart f) ∧ outs.Pairwise Footprint.apart)), .overlap)]

/-- A patch of h×w pixels at row y, column x does not fit the capacity of the canvas (47_compositor R808). -/
def canvasTooLarge (s : State) (y x : Int) (h w : Nat) : Bool :=
  decide (max (s.canvas.h : Int) (y + h) > s.cfg.canvasMaxH ∨ max (s.canvas.w : Int) (x + w) > s.cfg.canvasMaxW)

/-- The patch at the front of a stream parses and decodes, and does not fit the canvas (47_compositor R806). -/
def patchTooLarge (s : State) (d : Desc) : Bool :=
  match patchParse (bytesOf s.lmem d) with
  | .error _ => false
  | .ok p =>
    decide (0 < p.w ∧ 0 < p.h ∧ p.w % 16 = 0 ∧ p.h % 16 = 0) &&
      (tileDecode ⟨s.emode, s.qtl, s.qtc⟩ p.payload p.h.toNat p.w.toNat).isSome &&
      canvasTooLarge s p.y p.x p.h.toNat p.w.toNat

/-- Entry (i, j) of a table after ABSORB (43_quant R553). -/
def absorbedEntry (s : State) (t : Vector F64 64) (i j : Fin 8) : F64 :=
  F64.mul t[8 * i.val + j.val] (F64.div (F64.ofInt 1) (F64.mul s.scale[i] s.scale[j]))

/-- The checks of a command, in the order of its rule's pseudocode (60_exceptions R905): every check fault of R901 that
the command can take after it was fetched and decoded. -/
def checks (i : Instr) (s : State) : List Check :=
  let n := s.cfg.lmemBytes
  match i with
  -- 40_control R400-R404
  | .nop | .halt | .setd _ _ _ _ _ _ => []
  | .csrw csr v =>
    [(decide (¬ ((0x004 ≤ csr ∧ csr ≤ 0x006) ∨ (0x010 ≤ csr ∧ csr ≤ 0x017) ∨ (0x020 ≤ csr ∧ csr ≤ 0x02F))), .csr),
     (decide ((csr = 0x004 ∧ 1 < v.toNat) ∨
        (csr = 0x005 ∧ ¬ (16 ≤ v.toNat ∧ v.toNat ≤ 65520 ∧ v.toNat % 16 = 0)) ∨
        (csr = 0x006 ∧ ¬ (1 ≤ v.toNat ∧ v.toNat ≤ 255))), .csrValue)]
  | .csrr csr addr =>
    [(decide ((0x00A ≤ csr ∧ csr ≤ 0x00F) ∨ (0x01A ≤ csr ∧ csr ≤ 0x01F) ∨ (0x030 ≤ csr ∧ csr ≤ 0x0FF) ∨ 0x200 ≤ csr),
        .csr),
     (decide (addr % 4 ≠ 0), .align), (decide (n < addr + 4), .bounds)]
  -- 43_quant R552, R553
  | .setq q => [(decide (q < 1 ∨ 99 < q), .operand)]
  | .absorb =>
    [(s.absorbed, .absorbTwice),
     (decide (¬ ∀ i j : Fin 8, F64.isFinitePos (absorbedEntry s s.qtl i j) = true ∧
        F64.isFinitePos (absorbedEntry s s.qtc i j) = true), .numeric)]
  -- 42_dct R505, R506; 43_quant R554, R555
  | .fdct a r c | .idct a r c | .quant _ a r c | .dequant _ a r c =>
    matrixChecks n (s.desc a) ++ [(decide (¬ (s.desc a).holdsBlock r c), .block)]
  -- 44_entropy R601, R602, R617, R618
  | .zigzag a b r c index =>
    matrixChecks n (s.desc a) ++ sequenceChecks n (s.desc b) ++
      [(decide (¬ (s.desc a).holdsBlock r c), .block), (decide (¬ (s.desc b).holdsWindow index), .block)] ++
      overlapChecks [blockFootprint (s.desc a) r c] [windowFootprint (s.desc b) index]
  | .unzigzag a b index r c =>
    sequenceChecks n (s.desc a) ++ matrixChecks n (s.desc b) ++
      [(decide (¬ (s.desc b).holdsBlock r c), .block), (decide (¬ (s.desc a).holdsWindow index), .block)] ++
      overlapChecks [windowFootprint (s.desc a) index] [blockFootprint (s.desc b) r c]
  | .enc a b nblk =>
    sequenceChecks n (s.desc a) ++ streamChecks n (s.desc b) ++ [(decide (¬ (s.desc a).holdsBlocks nblk), .block)] ++
      overlapChecks [prefixFootprint (s.desc a) nblk] [streamFootprint (s.desc b)]
  | .dec a b nblk =>
    streamChecks n (s.desc a) ++ sequenceChecks n (s.desc b) ++ [(decide (¬ (s.desc b).holdsBlocks nblk), .block)] ++
      overlapChecks [streamFootprint (s.desc a)] [prefixFootprint (s.desc b) nblk]
  -- 41_color R453, R454
  | .rgb2ycc a b c d =>
    let rows := (s.desc a).rows.toNat
    let cols := (s.desc a).cols.toNat
    matrixChecks n (s.desc a) ++ matrixChecks n (s.desc b) ++ matrixChecks n (s.desc c) ++ matrixChecks n (s.desc d) ++
      [(decide (¬ ((s.desc a).evenSides ∧ (s.desc b).shaped rows cols ∧ (s.desc c).shaped (rows / 2) (cols / 2) ∧
          (s.desc d).shaped (rows / 2) (cols / 2))), .dimension)] ++
      overlapChecks [matrixFootprint (s.desc a)]
        [matrixFootprint (s.desc b), matrixFootprint (s.desc c), matrixFootprint (s.desc d)]
  | .ycc2rgb a b c d =>
    let rows := (s.desc a).rows.toNat
    let cols := (s.desc a).cols.toNat
    matrixChecks n (s.desc a) ++ matrixChecks n (s.desc b) ++ matrixChecks n (s.desc c) ++ matrixChecks n (s.desc d) ++
      [(decide (¬ ((s.desc a).evenSides ∧ (s.desc b).shaped (rows / 2) (cols / 2) ∧
          (s.desc c).shaped (rows / 2) (cols / 2) ∧ (s.desc d).shaped rows cols)), .dimension)] ++
      overlapChecks [matrixFootprint (s.desc a), matrixFootprint (s.desc b), matrixFootprint (s.desc c)]
        [matrixFootprint (s.desc d)]
  -- 45_patch R701, R704, R709, R710
  | .tenc a b | .full a b =>
    matrixChecks n (s.desc a) ++ streamChecks n (s.desc b) ++ [(decide (¬ (s.desc a).tileSides), .dimension)] ++
      overlapChecks [matrixFootprint (s.desc a)] [streamFootprint (s.desc b)]
  | .tdec a b =>
    streamChecks n (s.desc a) ++ matrixChecks n (s.desc b) ++ [(decide (¬ (s.desc b).tileSides), .dimension)] ++
      overlapChecks [streamFootprint (s.desc a)] [matrixFootprint (s.desc b)]
  | .pser a b _ _ _ _ =>
    streamChecks n (s.desc a) ++ streamChecks n (s.desc b) ++
      overlapChecks [streamFootprint (s.desc a)] [streamFootprint (s.desc b)] ++
      [(decide ((s.desc b).len.toNat < 20 + (s.desc a).len.toNat), .streamOverflow)]
  | .phdr a => streamChecks n (s.desc a)
  -- 46_tilediff R754, R756, R757 (FULL, R755, stands with TENC)
  | .hash a => matrixChecks n (s.desc a)
  | .diff a b ctx =>
    [(decide (s.cfg.nHctx ≤ ctx), .operand)] ++ matrixChecks n (s.desc a) ++ streamChecks n (s.desc b) ++
      [(decide (¬ (s.desc a).tileSides), .dimension),
       (decide (s.cfg.maxTiles <
          ceilDiv (s.desc a).rows.toNat s.tsize.toNat * ceilDiv (s.desc a).cols.toNat s.tsize.toNat), .tileCapacity)] ++
      overlapChecks [matrixFootprint (s.desc a)] [streamFootprint (s.desc b)]
  | .hctxrst ctx => [(decide (s.cfg.nHctx ≤ ctx), .operand)]
  -- 47_compositor R802-R807
  | .scale a b =>
    matrixChecks n (s.desc a) ++ matrixChecks n (s.desc b) ++
      [(decide ((s.desc a).rows.toNat = 0 ∨ (s.desc a).cols.toNat = 0 ∨ (s.desc b).rows.toNat = 0 ∨
          (s.desc b).cols.toNat = 0), .dimension)] ++
      overlapChecks [matrixFootprint (s.desc a)] [matrixFootprint (s.desc b)]
  | .cvreset => []
  | .cvset a =>
    matrixChecks n (s.desc a) ++
      [(decide (s.cfg.canvasMaxH < (s.desc a).rows.toNat ∨ s.cfg.canvasMaxW < (s.desc a).cols.toNat), .canvasCapacity)]
  | .cvread a y x =>
    matrixChecks n (s.desc a) ++
      [(decide (s.canvas.h < y + (s.desc a).rows.toNat ∨ s.canvas.w < x + (s.desc a).cols.toNat), .dimension)]
  | .stitch a x y =>
    matrixChecks n (s.desc a) ++
      [(decide ((s.desc a).rows.toNat = 0 ∨ (s.desc a).cols.toNat = 0), .dimension),
       (canvasTooLarge s y x (s.desc a).rows.toNat (s.desc a).cols.toNat, .canvasCapacity)]
  | .apply a => streamChecks n (s.desc a) ++ [(patchTooLarge s (s.desc a), .canvasCapacity)]

/-- Command `i` takes the fault of the first of its checks that fails, if one does: the fault registers, ENGINE_STATE and
H_IRQ_PEND are written and nothing else changes (60_exceptions R902, R903, R905). -/
def faultsOnChecks (i : Instr) (s : State) : Prop :=
  ∀ code, firstFault (checks i s) = some code → exec i s = .next (s.faultedWith code.code i.header)

/-! Rounding a block -/

/-- The answer `r` of a computation that rounds 64 numbers into the s32 range: the block of the rounded numbers, or NUMERIC
when one of them is not finite or does not fit (42_dct R503, R504; 43_quant R554, R555). -/
def roundsTo (v : Fin 8 → Fin 8 → F64) (r : Except FaultCode (List (List Int))) : Prop :=
  if ∀ i j, (v i j).isFinite = true ∧ inS32 (v i j).round = true then
    ∃ y, r = .ok y ∧ y.length = 8 ∧ (∀ row ∈ y, row.length = 8) ∧ ∀ i j : Fin 8, cellAt y 0 i j = (v i j).round
  else r = .error .numeric

/-! Launching a run -/

/-- The words of a list end in its HALT (70_reset R965), with `n` argument words of a command still to pass: the list is
read as a decoder finds its commands, by OPC and NARG alone (30_encoding R307), so a command may be one that fetch or its
own rule refuses, and an argument word is no HALT. An illegal OPC has no length (R307), so past one the last word alone
is asked to be HALT's (log 30). -/
def endsInHalt : Nat → List Word → Bool
  | _, [] => false
  | n + 1, _ :: rest => endsInHalt n rest
  | 0, w :: rest =>
    match Opcode.ofCode (headerFields w).opc with
    | none => rest.getLast? == some Instr.halt.header
    | some op => if rest.isEmpty then w == Instr.halt.header else endsInHalt op.row.narg rest

/-- What CleanLaunch(a) asks of the state before the START or RESUME write (70_reset R965): the engine is not RUNNING, no
SOFT_RESET is pending, `a` is 4-aligned, the host writes LMEM no more, and the bytes from `a` to the end of the list's HALT
are those the host wrote, the words `list`. No word is asked to decode. How the host's writes and its list stand in the
premise is DEDUCED (log 30). -/
def State.launchable (s : State) (a : Word) (list : List Word) : Prop :=
  s.engine ≠ .running ∧ s.resetPending = false ∧ a.toNat % 4 = 0 ∧
  (∀ m ∈ s.moves, ∀ addr bytes, m.act ≠ .lmemWrite addr bytes) ∧
  endsInHalt 0 list = true ∧
  a.toNat + (bytesOfWords list).length ≤ s.cfg.lmemBytes ∧ holdsBytes s.lmem a.toNat (bytesOfWords list)

/-- CleanLaunch(a) for the words `list` of a command list (70_reset R965): state `s` stood before the START or RESUME write
and state `t` after it. -/
def CleanLaunch (a : Word) (list : List Word) (s t : State) : Prop :=
  s.launchable a list ∧
  t.faultCode = 0 ∧ t.faultCpc = 0 ∧ t.faultInfo = 0 ∧ t.cpc = a ∧ t.engine = .running

/-! Invariants -/

/-- LMEM is in canonical form and lists only bytes that exist (20_memory R200; log 3). -/
abbrev State.memoryFits (s : State) : Prop := s.lmem.wf ∧ ∀ c ∈ s.lmem, c.1 < s.cfg.lmemBytes

/-- Every configuration CSR holds a legal value (10_state R113, R114). -/
abbrev State.csrsLegal (s : State) : Prop :=
  1 ≤ s.quality.toNat ∧ s.quality.toNat ≤ 99 ∧ s.emode.toNat ≤ 1 ∧
  16 ≤ s.tsize.toNat ∧ s.tsize.toNat ≤ 65520 ∧ s.tsize.toNat % 16 = 0 ∧
  1 ≤ s.hstride.toNat ∧ s.hstride.toNat ≤ 255

/-- Every table entry is finite and > 0 (10_state R112, 43_quant R553). -/
abbrev State.tablesPositive (s : State) : Prop :=
  (∀ t ∈ s.qtl.toList, F64.isFinitePos t = true) ∧ (∀ t ∈ s.qtc.toList, F64.isFinitePos t = true)

/-- The canvas holds CANVAS_H rows of CANVAS_W words, within its capacity (10_state R116). -/
abbrev State.canvasFits (s : State) : Prop :=
  s.canvas.pixels.length = s.canvas.h ∧ (∀ row ∈ s.canvas.pixels, row.length = s.canvas.w) ∧
  s.canvas.h ≤ s.cfg.canvasMaxH ∧ s.canvas.w ≤ s.cfg.canvasMaxW

/-- There are N_HCTX contexts, and a valid one holds one hash per tile of its grid, at most MAX_TILES
(10_state R115, 46_tilediff R750, R754). -/
abbrev State.contextsFit (s : State) : Prop :=
  s.ctxs.length = s.cfg.nHctx ∧
  ∀ c ∈ s.ctxs, c.valid = true →
    c.gr = ceilDiv c.geom.rows c.geom.tsize ∧ c.gc = ceilDiv c.geom.cols c.geom.tsize ∧
    c.hashes.length = c.gr * c.gc ∧ c.gr * c.gc ≤ s.cfg.maxTiles

/-- FAULT_CODE is a code of 60_exceptions R901 exactly while the engine is FAULTED, FAULT_CPC then is CPC
(70_reset R964), and a SOFT_RESET waits only for a RUNNING engine (70_reset R951). -/
abbrev State.stopConsistent (s : State) : Prop :=
  (s.engine = .faulted → 1 ≤ s.faultCode.toNat ∧ s.faultCode.toNat ≤ 0x11 ∧ s.faultCpc = s.cpc) ∧
  (s.engine ≠ .faulted → s.faultCode = 0 ∧ s.faultCpc = 0 ∧ s.faultInfo = 0) ∧
  (s.resetPending = true → s.engine = .running)

/-- The invariant of the block. -/
abbrev State.Inv (s : State) : Prop :=
  s.memoryFits ∧ s.csrsLegal ∧ s.tablesPositive ∧ s.canvasFits ∧ s.contextsFit ∧ s.stopConsistent

/-- `k` steps, stopping at the first that is not a next state. -/
def stepsFrom : Nat → State → Host.Outcome State Fault Refusal
  | 0, s => .next s
  | k + 1, s =>
    match step s with
    | .next t => stepsFrom k t
    | .fault f => .fault f
    | .refused r => .refused r

end Sys2Proof.Machine
end

