-- ==== Sys2Proof/Certificates/Slice0/Obligations.lean ====
section
/-! DEFINITION. The statements for the provers. Each docstring names the rule of spec/ it formalises. Where a statement
names `draws`, `moves` or `cfg`, that clause is the model's own choice (logs 4, 6 and 1), not the spec's. -/

open Sys2Proof Sys2Proof.Machine

/-! Encoding -/

/-- Decoding the encoding of a well-formed command gives it back, whatever follows (30_encoding R300-R307). -/
def Obligations.DecodeOfEncode : Prop :=
  ∀ (i : Instr) (rest : List Byte), i.wellFormed = true → decode (encodeBytes i ++ rest) = .ok (i, rest)

/-- What decodes to a command is exactly its encoding: no bit is ignored (30_encoding R305: "Argument words have no
reserved bits"). -/
def Obligations.EncodeOfDecode : Prop :=
  ∀ (bs : List Byte) (i : Instr) (rest : List Byte),
    decode bs = .ok (i, rest) → i.wellFormed = true ∧ bs = encodeBytes i ++ rest

/-- The worked encodings of 30_encoding R309, the all-zero word, and two refusals (R305, R306). -/
def Obligations.WorkedEncodings : Prop :=
  decode [0x10, 0x00, 0x00, 0x00, 0x00, 0x08, 0x00, 0x10] = .ok (.fdct 0 8 16, []) ∧
  decode [0x12, 0x50, 0x00, 0x01, 0x00, 0x00, 0x00, 0x08] = .ok (.quant true 5 0 8, []) ∧
  decode [0x41, 0x13, 0x00, 0x02] = .ok (.diff 1 3 2, []) ∧
  decode [0x53, 0x20, 0x00, 0x00, 0xFF, 0xFF, 0xFF, 0xF8, 0x00, 0x00, 0x00, 0x04] = .ok (.stitch 2 (-8) 4, []) ∧
  decode [0x00, 0x00, 0x00, 0x00] = .ok (.nop, []) ∧
  decode [0x00, 0x00, 0x00, 0x01] = .error .reservedField ∧
  decode [0x05, 0x00, 0x00, 0x00] = .error .illegalOpcode

/-! Fetch, step and the host -/

/-- The engine runs the command whose bytes stand at CPC; a SOFT_RESET that waits lands after it. A host move that is
still `n + 1` steps away comes one step nearer (log 6). -/
def Obligations.StepRunsDecoded : Prop :=
  ∀ (s : State) (i : Instr), i.wellFormed = true → s.engine = .running → s.cpc.toNat % 4 = 0 →
    s.cpc.toNat + i.length ≤ s.cfg.lmemBytes →
    (∀ k, k < i.length → s.lmem.read (s.cpc.toNat + k) = (encodeBytes i).getD k 0) →
    (s.moves = [] → step s = atBoundary (exec i s)) ∧
    (∀ n act rest, s.moves = ⟨n + 1, act⟩ :: rest →
      step s = atBoundary (exec i { s with moves := ⟨n, act⟩ :: rest })) ∧
    (∀ t, atBoundary (.next t) = .next (if t.resetPending then t.softReset else t))

/-- Fetch and decode, check by check in the order of 30_encoding R303, with the fault that each failing check takes
and what FAULT_INFO then holds (60_exceptions R902). -/
def Obligations.FetchChecks : Prop :=
  ∀ s : State, s.engine = .running → s.moves = [] → s.resetPending = false →
    if s.cpc.toNat % 4 ≠ 0 ∨ s.cpc.toNat + 4 > s.cfg.lmemBytes then step s = .next (s.faultedWith 0x01 0)
    else
      let hdr := wordAt s.lmem s.cpc.toNat
      match Opcode.ofCode (bitField hdr.toNat 24 8) with
      | none => step s = .next (s.faultedWith 0x02 hdr)
      | some op =>
        if s.cpc.toNat + 4 + 4 * op.row.narg > s.cfg.lmemBytes then step s = .next (s.faultedWith 0x01 hdr)
        else if op.reservedClear (headerFields hdr) = false then step s = .next (s.faultedWith 0x03 hdr)
        else
          ∃ i : Instr, i.opcode = op ∧ i.header = hdr ∧ i.wellFormed = true ∧
            i.args = (List.range op.row.narg).map (fun k => wordAt s.lmem (s.cpc.toNat + 4 + 4 * k)) ∧
            step s = atBoundary (exec i s)

/-- The engine steps only in RUNNING: otherwise a step without a host move leaves the whole state as it is
(10_state R108; log 8), and a host move that is due is the whole step (log 6). -/
def Obligations.StoppedEngineWaits : Prop :=
  (∀ s : State, s.engine ≠ .running → s.moves = [] → step s = .next s) ∧
  (∀ (s : State) (act : HostAct) (rest : List HostMove), s.moves = ⟨0, act⟩ :: rest →
    step s = hostMove act { s with moves := rest })

/-- A SOFT_RESET that waits lets the command complete, or fault, with all its LMEM effects, and then puts every other
item at its reset value (60_exceptions R911, 70_reset R951; that the bit waits in State, and that `draws` is kept, is the
model's choice, logs 7 and 4). -/
def Obligations.SoftResetAfterCommand : Prop :=
  ∀ s : State, s.engine = .running → s.resetPending = true → s.moves = [] →
    ∃ u, runCommand s = .next u ∧
      step s = .next { State.powerOn s.cfg with lmem := u.lmem, draws := u.draws }

/-- A write to H_CTRL: SOFT_RESET over START over RESUME, START and RESUME ignored while RUNNING
(60_exceptions R910, 70_reset R951). A START of a list at H_CPC_START, and a RESUME of one at CPC, that meet the launch
premise are clean launches (70_reset R965), whether or not the words of the list decode. Two readings here are the model's
(DEDUCED): the launch premise itself (`State.launchable`, log 30: the LMEM writes the host intends are those in `moves`, and
the list is given as its words, the last of them its HALT), and the bit `resetPending`, which a SOFT_RESET written while
RUNNING sets (log 7). -/
def Obligations.HostControlWrite : Prop :=
  ∀ (s : State) (v : Word),
    (hostMove (.regWrite 0x04 v) s =
      if bitField v.toNat 2 1 = 1 then
        (if s.engine = .running then .next { s with resetPending := true }
          else .next { State.powerOn s.cfg with lmem := s.lmem, draws := s.draws, moves := s.moves })
      else if bitField v.toNat 0 1 = 1 then
        (if s.engine = .running then .next s
          else .next { s with cpc := s.hCpcStart, faultCode := 0, faultCpc := 0, faultInfo := 0, engine := .running })
      else if bitField v.toNat 1 1 = 1 then
        (if s.engine = .running then .next s
          else .next { s with faultCode := 0, faultCpc := 0, faultInfo := 0, engine := .running })
      else .next s) ∧
    ∀ (list : List Word) (a : Word),
      (bitField v.toNat 2 1 = 0 ∧ bitField v.toNat 0 1 = 1 ∧ a = s.hCpcStart) ∨
        (bitField v.toNat 2 1 = 0 ∧ bitField v.toNat 0 1 = 0 ∧ bitField v.toNat 1 1 = 1 ∧ a = s.cpc) →
      s.launchable a list →
      ∃ t, hostMove (.regWrite 0x04 v) s = .next t ∧ CleanLaunch a list s t ∧
        t = { s with cpc := a, faultCode := 0, faultCpc := 0, faultInfo := 0, engine := .running }

/-- The host register map: what each offset reads and what a write to it does (10_state R130, 60_exceptions R908). -/
def Obligations.HostRegisterMap : Prop :=
  ∀ (s : State) (v : Word),
    s.hostRead 0x00 = 0x44435438 ∧ s.hostRead 0x04 = 0 ∧ s.hostRead 0x0C = s.hCpcStart ∧ s.hostRead 0x10 = s.cpc ∧
    s.hostRead 0x1C = s.faultCpc ∧ s.hostRead 0x20 = s.faultInfo ∧
    (s.hostRead 0x14 = if s.irqEn then 1 else 0) ∧ (s.hostRead 0x18 = if s.irqPend then 1 else 0) ∧
    (s.hostRead 0x08).toNat =
      s.faultCode.toNat * 2 ^ 8 + (match s.engine with | .idle => 0 | .running => 1 | .halted => 2 | .faulted => 3) ∧
    hostMove (.regWrite 0x0C v) s = .next { s with hCpcStart := v } ∧
    hostMove (.regWrite 0x14 v) s = .next { s with irqEn := decide (v.toNat % 2 = 1) } ∧
    hostMove (.regWrite 0x18 v) s = .next { s with irqPend := s.irqPend && decide (v.toNat % 2 = 0) } ∧
    (∀ off, off ∈ [0x00, 0x08, 0x10, 0x1C, 0x20] → hostMove (.regWrite off v) s = .next s) ∧
    (∀ off, off % 4 = 0 → off > 0x20 → s.hostRead off = 0 ∧ hostMove (.regWrite off v) s = .next s) ∧
    (s.irq = true ↔ s.irqEn = true ∧ s.irqPend = true)

/-- The host's LMEM port: while RUNNING a read gives zeros and a write is dropped; otherwise a write puts its bytes in
LMEM and leaves every other byte alone, and a read gives the bytes (20_memory R213). The write clause is stated where
every byte written exists. The read clause bounds no `a + n`: that a read answers at all, and the free byte of the
address, where it reaches outside 0 .. LMEM_BYTES−1 while not RUNNING is the model's choice (DESIGN CHOICE, log 29),
since R213 leaves the port's protocol out of the spec. -/
def Obligations.HostMemoryPort : Prop :=
  ∀ (s : State) (a : Nat) (bs : List Byte) (n : Nat),
    (s.engine = .running → hostMove (.lmemWrite a bs) s = .next s ∧ s.hostLoad a n = List.replicate n 0) ∧
    (s.engine ≠ .running → a + bs.length ≤ s.cfg.lmemBytes →
      (∃ m', hostMove (.lmemWrite a bs) s = .next { s with lmem := m' } ∧ holdsBytes m' a bs ∧
        sameOutside s.lmem m' (rangeBytes a bs.length)) ∧
      s.hostLoad a n = (List.range n).map (fun k => s.lmem.read (a + k)))

/-! Reset -/

/-- Every register with a reset value in 70_reset R950 holds it at reset; the quantization tables have a statement of
their own. That LMEM lists nothing and that the parameters are the stated defaults is the model's choice (logs 3 and
1). -/
def Obligations.ResetValues : Prop :=
  let s := State.reset
  s.cfg = Config.default ∧ s.cfg.legal ∧ s.lmem = [] ∧
  (∀ k : DescReg, (s.desc k).base = 0 ∧ (s.desc k).pitch = 0 ∧ (s.desc k).rows = 0 ∧ (s.desc k).cols = 0 ∧
    (s.desc k).len = 0) ∧
  (∀ k : Fin 8, s.res[k] = 0) ∧ s.hash = 0 ∧ s.cpc = 0 ∧ s.engine = .idle ∧ s.absorbed = true ∧
  s.faultCode = 0 ∧ s.faultCpc = 0 ∧ s.faultInfo = 0 ∧
  s.scale.toList.map F64.bits =
    [0x3FD6A09E667F3BCD, 0x3FD0503ED17CBA53, 0x3FD1517A7BDB3895, 0x3FD33E37A1E0173E, 0x3FD6A09E667F3BCD,
     0x3FDCCC9AEFB18D58, 0x3FE4E7AE9144F0FC, 0x3FF480D9D073B428] ∧
  s.quality = 50 ∧ s.emode = 1 ∧ s.tsize = 32 ∧ s.hstride = 2 ∧
  (∀ c, (s.ctx c).valid = false) ∧ s.canvas.h = 0 ∧ s.canvas.w = 0 ∧ s.canvas.pixels = [] ∧
  s.hCpcStart = 0 ∧ s.irqEn = false ∧ s.irqPend = false ∧ s.resetPending = false ∧ s.irq = false ∧ s.hStatus = 0

/-- The reset tables are those that SETQ 50 followed by ABSORB leave with the reset SCALE (70_reset R950). -/
def Obligations.ResetTables : Prop :=
  ∃ t u, exec (.setq 50) State.reset = .next t ∧ exec .absorb t = .next u ∧
    u.qtl = State.reset.qtl ∧ u.qtc = State.reset.qtc ∧ u.scale = State.reset.scale

/-! Invariants that every step keeps -/

/-- LMEM stays canonical and inside 0 .. LMEM_BYTES−1 (20_memory R200, R206: every LMEM byte a command writes lies in
LMEM; the canonical form is the model's choice, log 3). -/
def Obligations.MemoryFitsKept : Prop :=
  ∀ s t : State, s.memoryFits → step s = .next t → t.memoryFits ∧ t.cfg = s.cfg

/-- QUALITY, EMODE, TSIZE and HSTRIDE stay legal (10_state R113, R114, R122). -/
def Obligations.CsrsLegalKept : Prop := ∀ s t : State, s.csrsLegal → step s = .next t → t.csrsLegal

/-- Every table entry stays finite and > 0 (10_state R112, 43_quant R553). -/
def Obligations.TablesPositiveKept : Prop := ∀ s t : State, s.tablesPositive → step s = .next t → t.tablesPositive

/-- The canvas keeps CANVAS_H rows of CANVAS_W words within its capacity (10_state R116, 47_compositor R808). -/
def Obligations.CanvasFitsKept : Prop := ∀ s t : State, s.canvasFits → step s = .next t → t.canvasFits

/-- The hash contexts keep their number, and a valid one its grid of hashes (10_state R115, 46_tilediff R754). -/
def Obligations.ContextsFitKept : Prop := ∀ s t : State, s.contextsFit → step s = .next t → t.contextsFit

/-- The fault registers, the engine state and a waiting SOFT_RESET stay consistent (70_reset R964, R951). -/
def Obligations.StopConsistentKept : Prop := ∀ s t : State, s.stopConsistent → step s = .next t → t.stopConsistent

/-- The state after reset meets the whole invariant. -/
def Obligations.InvariantAtReset : Prop := State.reset.Inv

/-! Whole-machine rules -/

/-- A fault is precise: it writes the fault registers, ENGINE_STATE and H_IRQ_PEND and nothing else, but for the output
bytes of an execution fault (60_exceptions R902, R903; 20_memory R217). That these bytes are the 256 bytes of the block
for an in-place block command is the model's choice (log 5). -/
def Obligations.FaultsArePrecise : Prop :=
  ∀ (i : Instr) (s t : State), s.engine = .running → exec i s = .next t → t.engine = .faulted →
    ∃ code : FaultCode,
      t = { s.faultedWith code.code i.header with lmem := t.lmem, draws := t.draws } ∧
      (executionFault i.opcode code = false → t.lmem = s.lmem ∧ t.draws = s.draws) ∧
      (executionFault i.opcode code = true → sameOutside s.lmem t.lmem (inRanges (outputRanges i s)))

/-- Every command ends in a next state. When one of its checks fails it takes the fault of the first that does, with
nothing else changed (60_exceptions R902, R903, R905). When they all pass it completes, with CPC moved past it, or it
takes one of its execution faults, with only LMEM and the draw counter of log 4 changed besides (10_state R107,
60_exceptions R903). -/
def Obligations.EveryCommandEnds : Prop :=
  ∀ (i : Instr) (s : State), s.engine = .running →
    ∃ t, exec i s = .next t ∧
      match firstFault (checks i s) with
      | some code => t = s.faultedWith code.code i.header
      | none =>
        (t.engine = (if i.opcode = .halt then .halted else .running) ∧
          t.cpc = s.cpc + BitVec.ofNat 32 (4 * (1 + i.opcode.row.narg)) ∧ t.faultCode = s.faultCode) ∨
        ∃ code, executionFault i.opcode code = true ∧
          t = { s.faultedWith code.code i.header with lmem := t.lmem, draws := s.draws + 1 }

/-- Who writes what: a register, a table, a context or the canvas changes only by the commands the rules name, H_CPC_START,
H_IRQ_EN and the parameters by none, and LMEM only inside the command's output footprints (10_state R101, R111-R116;
20_memory R201, R207, R218; 43_quant R558), for an in-place block command inside the block's bytes (log 5). CPC stays or
moves past the command; the fault registers (and the draw counter of log 4) change only by a fault, ENGINE_STATE and
H_IRQ_PEND only by HALT or a fault (10_state R107; 40_control R401; 60_exceptions R902, R908). -/
def Obligations.WritesOnlyItsOwn : Prop :=
  ∀ (i : Instr) (s t : State), exec i s = .next t →
    (i.opcode ∉ [.setd, .apply] → t.descs = s.descs) ∧
    (i.opcode ∉ [.csrw, .enc, .dec, .tenc, .tdec, .diff, .full, .pser, .phdr, .apply] → t.res = s.res) ∧
    (i.opcode ∉ [.hash] → t.hash = s.hash) ∧
    (i.opcode ∉ [.setq, .absorb] → t.qtl = s.qtl ∧ t.qtc = s.qtc ∧ t.absorbed = s.absorbed) ∧
    (i.opcode ∉ [.setq] → t.quality = s.quality) ∧
    (i.opcode ∉ [.csrw] → t.emode = s.emode ∧ t.tsize = s.tsize ∧ t.hstride = s.hstride ∧ t.scale = s.scale) ∧
    (i.opcode ∉ [.diff, .hctxrst] → t.ctxs = s.ctxs) ∧
    (i.opcode ∉ [.cvreset, .cvset, .stitch, .apply] → t.canvas = s.canvas) ∧
    (t.cpc = s.cpc ∨ t.cpc = s.cpc + BitVec.ofNat 32 i.length) ∧
    (t.engine ≠ .faulted →
      t.faultCode = s.faultCode ∧ t.faultCpc = s.faultCpc ∧ t.faultInfo = s.faultInfo ∧ t.draws = s.draws) ∧
    (t.engine ≠ .faulted → i.opcode ∉ [.halt] → t.engine = s.engine ∧ t.irqPend = s.irqPend) ∧
    t.cfg = s.cfg ∧ t.hCpcStart = s.hCpcStart ∧ t.irqEn = s.irqEn ∧ t.resetPending = s.resetPending ∧
    t.moves = s.moves ∧ sameOutside s.lmem t.lmem (inRanges (outputRanges i s))

/-- Every run ends: within LMEM_BYTES / 4 commands, and one step more for the fetch fault at the end of LMEM, the engine
is no longer RUNNING (70_reset R961). -/
def Obligations.EveryRunEnds : Prop :=
  ∀ s : State, s.cfg.legal → s.engine = .running → s.moves = [] →
    ∃ n t, n ≤ s.cfg.lmemBytes / 4 + 1 ∧ stepsFrom n s = .next t ∧ t.engine ≠ .running

/-! Control and CSRs -/

/-- NOP changes CPC alone; HALT moves CPC past it, stops the engine and raises the interrupt; each has its word
(40_control R400, R401). -/
def Obligations.NopAndHalt : Prop :=
  encode .nop = [0x00000000] ∧ encode .halt = [0x01000000] ∧
  ∀ s : State,
    exec .nop s = .next { s with cpc := s.cpc + 4 } ∧
    exec .halt s = .next { s with cpc := s.cpc + 4, engine := .halted, irqPend := true }

/-- SETD writes the five fields of D[A], checks nothing, and changes no other descriptor (40_control R402). -/
def Obligations.SetdWritesDescriptor : Prop :=
  ∀ (a : DescReg) (base pitch rows cols len : Nat) (s : State),
    (Instr.setd a base pitch rows cols len).wellFormed = true →
    encode (.setd a base pitch rows cols len) =
      [BitVec.ofNat 32 (0x02000000 + a * 2 ^ 20), BitVec.ofNat 32 base, BitVec.ofNat 32 pitch,
        BitVec.ofNat 32 (rows * 2 ^ 16 + cols), BitVec.ofNat 32 len] ∧
    ∃ t, exec (.setd a base pitch rows cols len) s = .next t ∧
      t = { s with cpc := s.cpc + 20, descs := t.descs } ∧
      (t.desc a).base.toNat = base ∧ (t.desc a).pitch.toNat = pitch ∧ (t.desc a).rows.toNat = rows ∧
      (t.desc a).cols.toNat = cols ∧ (t.desc a).len.toNat = len ∧ (∀ b, b ≠ a → t.desc b = s.desc b)

/-- CSRW: each writable CSR takes an accepted value, an illegal value faults with CSR_VALUE, and any other number with
CSR (40_control R403; 10_state R111, R114, R120, R122). -/
def Obligations.CsrwWrites : Prop :=
  ∀ (csr : Nat) (v : Word) (s : State),
    let done (t : State) : Prop := exec (.csrw csr v) s = .next { t with cpc := s.cpc + 12 }
    let faults (code : BitVec 8) : Prop := exec (.csrw csr v) s = .next (s.faultedWith code 0x03000000)
    encode (.csrw csr v) = [0x03000000, BitVec.ofNat 32 csr, v] ∧
    (csr = 0x004 → if v.toNat ≤ 1 then done { s with emode := v } else faults 0x06) ∧
    (csr = 0x005 → if 16 ≤ v.toNat ∧ v.toNat ≤ 65520 ∧ v.toNat % 16 = 0 then done { s with tsize := v }
      else faults 0x06) ∧
    (csr = 0x006 → if 1 ≤ v.toNat ∧ v.toNat ≤ 255 then done { s with hstride := v } else faults 0x06) ∧
    (∀ k : Fin 8, csr = 0x010 + k → done { s with res := s.res.set k v }) ∧
    (∀ k : Fin 8, csr = 0x020 + 2 * k →
      ∃ x : F64, done { s with scale := s.scale.set k x } ∧
        x.bits.toNat = v.toNat * 2 ^ 32 + s.scale[k].bits.toNat % 2 ^ 32) ∧
    (∀ k : Fin 8, csr = 0x021 + 2 * k →
      ∃ x : F64, done { s with scale := s.scale.set k x } ∧
        x.bits.toNat = s.scale[k].bits.toNat / 2 ^ 32 * 2 ^ 32 + v.toNat) ∧
    (¬ (0x004 ≤ csr ∧ csr ≤ 0x006) → ¬ (0x010 ≤ csr ∧ csr ≤ 0x017) → ¬ (0x020 ≤ csr ∧ csr ≤ 0x02F) → faults 0x05)

/-- What each CSR number reads (10_state R120, R121): constants, registers, and the halves of the 64-bit registers; every
other number is undefined. -/
def Obligations.CsrMap : Prop :=
  ∀ s : State,
    let value (n : Nat) : Option Word := (Csr.ofNumber n).map s.csrRead
    let halves (hi lo : Nat) (x : BitVec 64) : Prop :=
      ∃ h l : Word, value hi = some h ∧ value lo = some l ∧ h.toNat * 2 ^ 32 + l.toNat = x.toNat
    value 0x000 = some 0x44435438 ∧ value 0x001 = some 0x00010000 ∧ value 0x002 = some s.quality ∧
    value 0x003 = some (if s.absorbed then 1 else 0) ∧ value 0x004 = some s.emode ∧ value 0x005 = some s.tsize ∧
    value 0x006 = some s.hstride ∧ value 0x007 = some (BitVec.ofNat 32 s.canvas.h) ∧
    value 0x008 = some (BitVec.ofNat 32 s.canvas.w) ∧ value 0x009 = some s.cpc ∧
    (∀ k : Fin 8, value (0x010 + k) = some s.res[k]) ∧ halves 0x019 0x018 s.hash ∧
    (∀ k : Fin 8, halves (0x020 + 2 * k) (0x021 + 2 * k) s.scale[k].bits) ∧
    (∀ k : Fin 64, halves (0x100 + 2 * k) (0x101 + 2 * k) s.qtl[k].bits) ∧
    (∀ k : Fin 64, halves (0x180 + 2 * k) (0x181 + 2 * k) s.qtc[k].bits) ∧
    (∀ n, (0x00A ≤ n ∧ n ≤ 0x00F) ∨ (0x01A ≤ n ∧ n ≤ 0x01F) ∨ (0x030 ≤ n ∧ n ≤ 0x0FF) ∨ 0x200 ≤ n → value n = none)

/-- CSRR: CSR, ALIGN and BOUNDS in that order, else the word of the CSR at ADDR and no other byte (40_control R404). -/
def Obligations.CsrrReads : Prop :=
  ∀ (csr addr : Nat) (s : State),
    encode (.csrr csr addr) = [0x04000000, BitVec.ofNat 32 csr, BitVec.ofNat 32 addr] ∧
    match Csr.ofNumber csr with
    | none => exec (.csrr csr addr) s = .next (s.faultedWith 0x05 0x04000000)
    | some c =>
      if addr % 4 ≠ 0 then exec (.csrr csr addr) s = .next (s.faultedWith 0x07 0x04000000)
      else if addr + 4 > s.cfg.lmemBytes then exec (.csrr csr addr) s = .next (s.faultedWith 0x08 0x04000000)
      else
        ∃ m', exec (.csrr csr addr) s = .next { s with lmem := m', cpc := s.cpc + 12 } ∧
          wordAt m' addr = s.csrRead c ∧ sameOutside s.lmem m' (rangeBytes addr 4)

/-! Quantizer -/

/-- SETQ: both tables become the scaled base tables, QUALITY q, ABSORBED 0; q outside 1..99 faults with OPERAND
(43_quant R551, R552). -/
def Obligations.SetqTables : Prop :=
  ∀ (q : Nat) (s : State), q < 256 →
    encode (.setq q) = [BitVec.ofNat 32 (0x08000000 + q)] ∧
    if 1 ≤ q ∧ q ≤ 99 then
      ∃ t, exec (.setq q) s = .next t ∧
        t = { s with cpc := s.cpc + 4, qtl := t.qtl, qtc := t.qtc, quality := BitVec.ofNat 32 q, absorbed := false } ∧
        ∀ k : Fin 64,
          let scaled (base : Nat) : Int :=
            ((max 1 (min ((base * (if q < 50 then 5000 / q else 200 - 2 * q) + 50) / 100) 255) : Nat) : Int)
          t.qtl[k] = F64.ofInt (scaled (lumaBase.getD k 0)) ∧ t.qtc[k] = F64.ofInt (scaled (chromaBase.getD k 0))
    else exec (.setq q) s = .next (s.faultedWith 0x04 (0x08000000 + BitVec.ofNat 32 q))

/-- ABSORB: ABSORB_TWICE when absorbed; NUMERIC, with nothing changed, unless all 128 results are finite and positive;
else entry (i, j) of each table is T × (1 / (SCALE[i] × SCALE[j])) (43_quant R553). -/
def Obligations.AbsorbTables : Prop :=
  ∀ s : State,
    let entry (t : Vector F64 64) (i j : Fin 8) : F64 :=
      F64.mul t[8 * i.val + j.val] (F64.div (F64.ofInt 1) (F64.mul s.scale[i] s.scale[j]))
    encode .absorb = [0x09000000] ∧
    if s.absorbed = true then exec .absorb s = .next (s.faultedWith 0x11 0x09000000)
    else if ∀ i j : Fin 8, F64.isFinitePos (entry s.qtl i j) = true ∧ F64.isFinitePos (entry s.qtc i j) = true then
      ∃ t, exec .absorb s = .next t ∧
        t = { s with cpc := s.cpc + 4, qtl := t.qtl, qtc := t.qtc, absorbed := true } ∧
        ∀ i j : Fin 8, t.qtl[8 * i.val + j.val] = entry s.qtl i j ∧ t.qtc[8 * i.val + j.val] = entry s.qtc i j
    else exec .absorb s = .next (s.faultedWith 0x0E 0x09000000)

/-! Block commands -/

/-- FDCT, IDCT, QUANT and DEQUANT on a block their checks accept and whose results fit: the block becomes the function
of the block as it stood, no other byte changes, and no register but CPC (42_dct R505, R506; 20_memory R210). The functions
are those of the rules: QUANT and DEQUANT divide and multiply entry by entry (43_quant R554, R555); FDCT makes the
one-dimensional pass over rows and then columns, IDCT over columns and then rows with the output scale 1/64 (42_dct
R501-R504); a constant block k gives 64k at (0, 0) and 0 elsewhere (R505), and a block with c at (0, 0) alone gives
(c + 32) div 64 everywhere (R506). -/
def Obligations.BlockCommandsComplete : Prop :=
  (∀ (i : Instr) (s : State) (a : DescReg) (r c : Nat) (f : List (List Int) → Except FaultCode (List (List Int)))
    (y : List (List Int)),
    blockForm s i = some (a, r, c, f) → (s.desc a).matrixOk s.cfg.lmemBytes → (s.desc a).holdsBlock r c →
    f (samples (wordsOf s.lmem (s.desc a) r c 8 8)) = .ok y →
    ∃ m', exec i s = .next { s with lmem := m', cpc := s.cpc + 8 } ∧
      (∀ j k, j < 8 → k < 8 → elementAt m' (s.desc a) (r + j) (c + k) = u32 (cellAt y 0 j k)) ∧
      sameOutside s.lmem m' (regionBytes (s.desc a) r c 8 8)) ∧
  (∀ (t : Vector F64 64) (x : List (List Int)), x.length = 8 → (∀ row ∈ x, row.length = 8) →
    let number (i j : Fin 8) : F64 := F64.ofInt (cellAt x 0 i j)
    let line (pass : List F64 → List F64) (d : Fin 8 → F64) (k : Fin 8) : F64 := (pass (List.ofFn d)).getD k (F64.ofInt 0)
    roundsTo (fun i j => (number i j).div t[8 * i.val + j.val]) (quantize t x) ∧
    roundsTo (fun i j => (number i j).mul t[8 * i.val + j.val]) (dequantize t x) ∧
    roundsTo (fun i j => line fdct1 (fun r => line fdct1 (fun c => number r c) j) i) (forwardDct x) ∧
    roundsTo (fun i j => (line idct1 (fun c => line idct1 (fun r => number r c) i) j).mul ⟨0x3F90000000000000⟩)
      (inverseDct x)) ∧
  (∀ d0 d1 d2 d3 d4 d5 d6 d7 : F64,
    (let t10 := (d0.add d7).add (d3.add d4)
     let t13 := (d0.add d7).sub (d3.add d4)
     let t11 := (d1.add d6).add (d2.add d5)
     let t12 := (d1.add d6).sub (d2.add d5)
     let z1 := (t12.add t13).mul ⟨0x3FE6A09E667F3BCD⟩
     let u10 := (d3.sub d4).add (d2.sub d5)
     let u11 := (d2.sub d5).add (d1.sub d6)
     let u12 := (d1.sub d6).add (d0.sub d7)
     let z5 := (u10.sub u12).mul ⟨0x3FD87DE2A6AEA963⟩
     let z2 := (F64.mul ⟨0x3FE1517A7BDB3895⟩ u10).add z5
     let z4 := (F64.mul ⟨0x3FF4E7AE9144F0FC⟩ u12).add z5
     let z3 := u11.mul ⟨0x3FE6A09E667F3BCD⟩
     let z11 := (d0.sub d7).add z3
     let z13 := (d0.sub d7).sub z3
     fdct1 [d0, d1, d2, d3, d4, d5, d6, d7] =
       [t10.add t11, z11.add z4, t13.add z1, z13.sub z2, t10.sub t11, z13.add z2, t13.sub z1, z11.sub z4]) ∧
    (let e13 := d2.add d6
     let e12 := ((d2.sub d6).mul ⟨0x3FF6A09E667F3BCD⟩).sub e13
     let p0 := (d0.add d4).add e13
     let p3 := (d0.add d4).sub e13
     let p1 := (d0.sub d4).add e12
     let p2 := (d0.sub d4).sub e12
     let z13 := d5.add d3
     let z10 := d5.sub d3
     let z11 := d1.add d7
     let z12 := d1.sub d7
     let w7 := z11.add z13
     let z5 := (z10.add z12).mul ⟨0x3FFD906BCF328D46⟩
     let w10 := (F64.mul ⟨0x3FF1517A7BDB3895⟩ z12).sub z5
     let w12 := (F64.mul ⟨0xC004E7AE9144F0FC⟩ z10).add z5
     let w6 := w12.sub w7
     let w5 := ((z11.sub z13).mul ⟨0x3FF6A09E667F3BCD⟩).sub w6
     let w4 := w10.add w5
     idct1 [d0, d1, d2, d3, d4, d5, d6, d7] =
       [p0.add w7, p1.add w6, p2.add w5, p3.sub w4, p3.add w4, p2.sub w5, p1.sub w6, p0.sub w7])) ∧
  (∀ k : Int, -(2 ^ 25) ≤ k → k < 2 ^ 25 →
    forwardDct (List.replicate 8 (List.replicate 8 k)) =
      .ok ((64 * k :: List.replicate 7 0) :: List.replicate 7 (List.replicate 8 0))) ∧
  (∀ c : Int, inS32 c = true →
    inverseDct ((c :: List.replicate 7 0) :: List.replicate 7 (List.replicate 8 0)) =
      .ok (List.replicate 8 (List.replicate 8 ((c + 32) / 64))))

/-- The faults of FDCT, IDCT, QUANT and DEQUANT in their order: ALIGN, DIMENSION, BOUNDS, BLOCK, and NUMERIC, which
draws the block's 256 bytes and changes no other byte (42_dct R505, R507; 60_exceptions R903; logs 4, 5). -/
def Obligations.BlockCommandFaults : Prop :=
  ∀ (i : Instr) (s : State) (a : DescReg) (r c : Nat) (f : List (List Int) → Except FaultCode (List (List Int))),
    blockForm s i = some (a, r, c, f) →
    let d := s.desc a
    if d.base.toNat % 4 ≠ 0 ∨ d.pitch.toNat % 4 ≠ 0 then exec i s = .next (s.faultedWith 0x07 i.header)
    else if 1 < d.rows.toNat ∧ d.pitch.toNat < 4 * d.cols.toNat then exec i s = .next (s.faultedWith 0x0A i.header)
    else if 0 < d.rows.toNat ∧ 0 < d.cols.toNat ∧
        d.base.toNat + (d.rows.toNat - 1) * d.pitch.toNat + 4 * d.cols.toNat > s.cfg.lmemBytes then
      exec i s = .next (s.faultedWith 0x08 i.header)
    else if ¬ d.holdsBlock r c then exec i s = .next (s.faultedWith 0x09 i.header)
    else
      ∀ e, f (samples (wordsOf s.lmem d r c 8 8)) = .error e →
        ∃ m', exec i s = .next { s.faultedWith 0x0E i.header with lmem := m', draws := s.draws + 1 } ∧
          (∀ x, regionBytes d r c 8 8 x → m'.read x = Config.faultByte s.draws x) ∧
          sameOutside s.lmem m' (regionBytes d r c 8 8)

/-! Entropy coding -/

/-- ZIGZAG and UNZIGZAG take the fault of the first check that fails, else they copy whole words between a block and a
window in zig-zag order and change no other byte (44_entropy R600-R602). -/
def Obligations.ZigzagCommands : Prop :=
  ∀ (a b : DescReg) (r c index : Nat) (s : State),
    faultsOnChecks (.zigzag a b r c index) s ∧ faultsOnChecks (.unzigzag a b index r c) s ∧
    ((s.desc a).matrixOk s.cfg.lmemBytes → (s.desc b).sequenceOk s.cfg.lmemBytes → (s.desc a).holdsBlock r c →
      (s.desc b).holdsWindow index →
      (windowFootprint (s.desc b) index).apart (blockFootprint (s.desc a) r c) →
      ∃ m', exec (.zigzag a b r c index) s = .next { s with lmem := m', cpc := s.cpc + 12 } ∧
        (∀ k, k < 64 → wordAt m' ((s.desc b).base.toNat + 4 * (index + k)) =
          elementAt s.lmem (s.desc a) (r + zigzagOrder.getD k 0 / 8) (c + zigzagOrder.getD k 0 % 8)) ∧
        sameOutside s.lmem m' (rangeBytes ((s.desc b).base.toNat + 4 * index) 256)) ∧
    ((s.desc a).sequenceOk s.cfg.lmemBytes → (s.desc b).matrixOk s.cfg.lmemBytes → (s.desc b).holdsBlock r c →
      (s.desc a).holdsWindow index →
      (blockFootprint (s.desc b) r c).apart (windowFootprint (s.desc a) index) →
      ∃ m', exec (.unzigzag a b index r c) s = .next { s with lmem := m', cpc := s.cpc + 12 } ∧
        (∀ k, k < 64 → elementAt m' (s.desc b) (r + zigzagOrder.getD k 0 / 8) (c + zigzagOrder.getD k 0 % 8) =
          wordAt s.lmem ((s.desc a).base.toNat + 4 * (index + k))) ∧
        sameOutside s.lmem m' (regionBytes (s.desc b) r c 8 8))

/-- The zig-zag order is the alternating-diagonal traversal of 44_entropy R600, with its inverse map, and un-zig-zag
undoes it (R602). -/
def Obligations.ZigzagOrder : Prop :=
  zigzagOrder = (List.range 15).flatMap (fun d =>
    let cells := ((List.range 8).filter (fun i => decide (i ≤ d ∧ d - i ≤ 7))).map (fun i => 8 * i + (d - i))
    if d % 2 = 0 then cells.reverse else cells) ∧
  (∀ k, k < 64 → zigzagIndex.getD (zigzagOrder.getD k 0) 64 = k) ∧
  (∀ seq : List Int, seq.length = 64 → zigzag 0 (unzigzag 0 seq) = seq) ∧
  (∀ blk : List (List Int), blk.length = 8 → (∀ row ∈ blk, row.length = 8) → unzigzag 0 (zigzag 0 blk) = blk)

/-- Cat(v) is the number of bits of |v|, Bits and Extend are as given, Extend undoes Bits, and the top bit of the field
tells the sign (44_entropy R603). -/
def Obligations.MagnitudeBits : Prop :=
  (∀ b n : Nat, extendBits b n = if n = 0 ∨ 2 ^ (n - 1) ≤ b then (b : Int) else (b : Int) - 2 ^ n + 1) ∧
  ∀ (v : Int) (n : Nat), category v = n →
    (magnitudeBits v n : Int) = (if 0 ≤ v then v else v + 2 ^ n - 1) ∧
    extendBits (magnitudeBits v n) n = v ∧ magnitudeBits v n < 2 ^ n ∧
    (n = 0 ↔ v = 0) ∧ (1 ≤ n → 2 ^ (n - 1) ≤ v.natAbs ∧ v.natAbs ≤ 2 ^ n - 1) ∧
    (1 ≤ n → (0 < v ↔ 2 ^ (n - 1) ≤ magnitudeBits v n))

/-- No Huffman code is a prefix of another, and none is all 1-bits (44_entropy R606). -/
def Obligations.HuffmanPrefixFree : Prop :=
  ∀ table, table = dcCodes ∨ table = acCodes →
    (table.map fun c => bitsOf c.len c.code).Pairwise (fun x y => ¬ x <+: y ∧ ¬ y <+: x) ∧
    ∀ c ∈ table, bitsOf c.len c.code ≠ List.replicate c.len true

/-- Huffman coding is lossless, and it fails exactly when a DC difference or an AC coefficient is out of range
(44_entropy R611). -/
def Obligations.HuffmanRoundTrip : Prop :=
  ∀ blks : List (List Int), (∀ blk ∈ blks, blk.length = 64 ∧ ∀ v ∈ blk, inS32 v = true) →
    (∀ e, huffEncode blks = .ok e → huffDecode e blks.length = .ok (blks, e.length)) ∧
    ((∃ e, huffEncode blks = .ok e) ↔
      ((blks.zip (0 :: blks.map fun blk => blk.headD 0)).all
        fun p => decide ((p.1.headD 0 - p.2).natAbs ≤ 2047 ∧ ∀ v ∈ p.1.tail, v.natAbs ≤ 1023)) = true)

/-- RLE coding is lossless, and it fails exactly when a value does not fit 16 bits (44_entropy R614, R616). -/
def Obligations.RleRoundTrip : Prop :=
  ∀ blks : List (List Int), (∀ blk ∈ blks, blk.length = 64) →
    (∀ e, rleEncode blks = .ok e → rleDecode e blks.length = .ok (blks, e.length)) ∧
    ((∃ e, rleEncode blks = .ok e) ↔ ∀ blk ∈ blks, ∀ v ∈ blk, -32768 ≤ v ∧ v ≤ 32767)

/-- ENC: the fault of the first check that fails; else the encoding of the prefix in the output stream, its length in RES0,
and no other byte or register; CODE_RANGE and STREAM_OVERFLOW leave RES0 and every byte outside the stream (44_entropy
R617, 60_exceptions R903). -/
def Obligations.EncCommand : Prop :=
  ∀ (a b : DescReg) (nblk : Nat) (s : State), faultsOnChecks (.enc a b nblk) s ∧
    ((s.desc a).sequenceOk s.cfg.lmemBytes → (s.desc b).streamOk s.cfg.lmemBytes → (s.desc a).holdsBlocks nblk →
    (streamFootprint (s.desc b)).apart (prefixFootprint (s.desc a) nblk) →
    match entropyEncode s.emode (blocksOf s.lmem (s.desc a) nblk) with
    | .ok e =>
      if e.length ≤ (s.desc b).len.toNat then
        ∃ m', exec (.enc a b nblk) s =
            .next { s with lmem := m', res := s.res.set 0 (BitVec.ofNat 32 e.length), cpc := s.cpc + 8 } ∧
          holdsBytes m' (s.desc b).base.toNat e ∧
          sameOutside s.lmem m' (rangeBytes (s.desc b).base.toNat e.length)
      else
        ∃ m', exec (.enc a b nblk) s =
            .next { s.faultedWith 0x0C (Instr.enc a b nblk).header with lmem := m', draws := s.draws + 1 } ∧
          sameOutside s.lmem m' (rangeBytes (s.desc b).base.toNat (s.desc b).len.toNat)
    | .error code =>
      ∃ m', code = .codeRange ∧ exec (.enc a b nblk) s =
          .next { s.faultedWith 0x0D (Instr.enc a b nblk).header with lmem := m', draws := s.draws + 1 } ∧
        sameOutside s.lmem m' (rangeBytes (s.desc b).base.toNat (s.desc b).len.toNat))

/-- DEC: the fault of the first check that fails; else on OK the decoded elements, RES0 = 0 and RES1 = the bytes
consumed; on another status RES0 alone tells it, RES1 = 0 and LMEM is unchanged (44_entropy R618, 60_exceptions R907). -/
def Obligations.DecCommand : Prop :=
  ∀ (a b : DescReg) (nblk : Nat) (s : State), faultsOnChecks (.dec a b nblk) s ∧
    ((s.desc a).streamOk s.cfg.lmemBytes → (s.desc b).sequenceOk s.cfg.lmemBytes → (s.desc b).holdsBlocks nblk →
    (prefixFootprint (s.desc b) nblk).apart (streamFootprint (s.desc a)) →
    match entropyDecode s.emode (bytesOf s.lmem (s.desc a)) nblk with
    | .ok (blks, used) =>
      ∃ m', exec (.dec a b nblk) s =
          .next { s with lmem := m', res := (s.res.set 0 0).set 1 (BitVec.ofNat 32 used), cpc := s.cpc + 8 } ∧
        (∀ k, k < 64 * nblk → wordAt m' ((s.desc b).base.toNat + 4 * k) = u32 (blks.flatten.getD k 0)) ∧
        sameOutside s.lmem m' (rangeBytes (s.desc b).base.toNat (256 * nblk))
    | .error .incomplete =>
      exec (.dec a b nblk) s = .next { s with res := (s.res.set 0 1).set 1 0, cpc := s.cpc + 8 }
    | .error .corrupt =>
      exec (.dec a b nblk) s = .next { s with res := (s.res.set 0 2).set 1 0, cpc := s.cpc + 8 })

/-- What ENC wrote, DEC reads back: after an ENC that completes, with D[c] naming the RES0 bytes it wrote, DEC into the
same sequence completes with status OK and leaves every element of it as it was (44_entropy R611, R616-R618). -/
def Obligations.EncThenDec : Prop :=
  ∀ (a b c : DescReg) (nblk : Nat) (s t u : State),
    s.engine = .running → exec (.enc a b nblk) s = .next t → t.engine = .running → a ≠ c →
    u = { t with descs := t.descs.set c { t.desc b with len := t.res[0] } } →
    ∃ v, exec (.dec c a nblk) u = .next v ∧ v.res[0] = 0 ∧ v.res[1] = t.res[0] ∧
      ∀ k, k < 64 * nblk →
        wordAt v.lmem ((s.desc a).base.toNat + 4 * k) = wordAt s.lmem ((s.desc a).base.toNat + 4 * k)

/-! Colour -/

/-- RGB2YCC: the fault of the first check that fails; else each luma sample from its pixel, each chroma sample from its 2×2
block, and no other byte or register changes (41_color R451, R453). The samples are those of R450 and R451: three products
and two sums per form, the average of four forms biased by 128, one rounding and one clamp. -/
def Obligations.Rgb2yccCommand : Prop :=
  (∀ p : Word,
    let lin (k0 k1 k2 : F64) : F64 :=
      ((k0.mul (F64.ofInt ((p.toNat / 2 ^ 16 % 256 : Nat) : Int))).add
        (k1.mul (F64.ofInt ((p.toNat / 2 ^ 8 % 256 : Nat) : Int)))).add (k2.mul (F64.ofInt ((p.toNat % 256 : Nat) : Int)))
    lumaSample p = clamp (lin ⟨0x3FD322D0E5604189⟩ ⟨0x3FE2C8B439581062⟩ ⟨0x3FBD2F1A9FBE76C9⟩).round 0 255 ∧
    cbForm p = lin ⟨0xBFC5992428D434A0⟩ ⟨0xBFD5336DEB95E5B0⟩ ⟨0x3FE0000000000000⟩ ∧
    crForm p = lin ⟨0x3FE0000000000000⟩ ⟨0xBFDACBC8C0CE91C9⟩ ⟨0xBFB4D0DCFCC5B8DC⟩) ∧
  (∀ (form : Word → F64) (p q r t : Word),
    chromaSample form p q r t =
      clamp ((((((form p).add (form q)).add (form r)).add (form t)).div (F64.ofInt 4)).add (F64.ofInt 128)).round 0 255) ∧
  ∀ (a b c d : DescReg) (s : State), faultsOnChecks (.rgb2ycc a b c d) s ∧
    let rows := (s.desc a).rows.toNat
    let cols := (s.desc a).cols.toNat
    let p := pixelAt s.lmem (s.desc a)
    ((s.desc a).matrixOk s.cfg.lmemBytes → (s.desc b).matrixOk s.cfg.lmemBytes → (s.desc c).matrixOk s.cfg.lmemBytes →
    (s.desc d).matrixOk s.cfg.lmemBytes → (s.desc a).evenSides → (s.desc b).shaped rows cols →
    (s.desc c).shaped (rows / 2) (cols / 2) → (s.desc d).shaped (rows / 2) (cols / 2) →
    [matrixFootprint (s.desc a), matrixFootprint (s.desc b), matrixFootprint (s.desc c),
      matrixFootprint (s.desc d)].Pairwise Footprint.apart →
    ∃ m', exec (.rgb2ycc a b c d) s = .next { s with lmem := m', cpc := s.cpc + 4 } ∧
      (∀ i j, i < rows → j < cols → elementAt m' (s.desc b) i j = u32 (lumaSample (p i j))) ∧
      (∀ i j, i < rows / 2 → j < cols / 2 →
        elementAt m' (s.desc c) i j = u32 (chromaSample cbForm (p (2 * i) (2 * j)) (p (2 * i) (2 * j + 1))
          (p (2 * i + 1) (2 * j)) (p (2 * i + 1) (2 * j + 1))) ∧
        elementAt m' (s.desc d) i j = u32 (chromaSample crForm (p (2 * i) (2 * j)) (p (2 * i) (2 * j + 1))
          (p (2 * i + 1) (2 * j)) (p (2 * i + 1) (2 * j + 1)))) ∧
      sameOutside s.lmem m' (fun x => matrixBytes (s.desc b) x ∨ matrixBytes (s.desc c) x ∨ matrixBytes (s.desc d) x))

/-- YCC2RGB: the fault of the first check that fails; else each pixel from its luma sample and the chroma samples of its 2×2
block, and no other byte or register changes (41_color R452, R454). The pixel is that of R452: each channel rounded and
clamped once, packed with bits 31:24 zero. -/
def Obligations.Ycc2rgbCommand : Prop :=
  (∀ y cb cr : Int,
    let channel (x : F64) : Nat := (clamp x.round 0 255).toNat
    let yf := F64.ofInt y
    let cbf := F64.ofInt (cb - 128)
    let crf := F64.ofInt (cr - 128)
    (inversePixel y cb cr).toNat =
      channel (yf.add (F64.mul ⟨0x3FF66E978D4FDF3B⟩ crf)) * 2 ^ 16 +
        channel ((yf.sub (F64.mul ⟨0x3FD6065300581494⟩ cbf)).sub (F64.mul ⟨0x3FE6DA33BD9CAE21⟩ crf)) * 2 ^ 8 +
        channel (yf.add (F64.mul ⟨0x3FFC5A1CAC083127⟩ cbf))) ∧
  ∀ (a b c d : DescReg) (s : State), faultsOnChecks (.ycc2rgb a b c d) s ∧
    let rows := (s.desc a).rows.toNat
    let cols := (s.desc a).cols.toNat
    ((s.desc a).matrixOk s.cfg.lmemBytes → (s.desc b).matrixOk s.cfg.lmemBytes → (s.desc c).matrixOk s.cfg.lmemBytes →
    (s.desc d).matrixOk s.cfg.lmemBytes → (s.desc a).evenSides → (s.desc b).shaped (rows / 2) (cols / 2) →
    (s.desc c).shaped (rows / 2) (cols / 2) → (s.desc d).shaped rows cols →
    (∀ x, x ∈ [a, b, c] → (matrixFootprint (s.desc d)).apart (matrixFootprint (s.desc x))) →
    ∃ m', exec (.ycc2rgb a b c d) s = .next { s with lmem := m', cpc := s.cpc + 4 } ∧
      (∀ i j, i < rows → j < cols →
        elementAt m' (s.desc d) i j =
          inversePixel (s32 (elementAt s.lmem (s.desc a) i j)) (s32 (elementAt s.lmem (s.desc b) (i / 2) (j / 2)))
            (s32 (elementAt s.lmem (s.desc c) (i / 2) (j / 2)))) ∧
      sameOutside s.lmem m' (matrixBytes (s.desc d)))

/-! Patches and tiles -/

/-- Parsing a serialized patch gives it back, whatever follows, and every proper prefix is INCOMPLETE (45_patch R703).
Parsing any bytes makes the checks of R702 in their order: too short for a length, a length below 16, too short for the
unit. -/
def Obligations.PatchRoundTrip : Prop :=
  (∀ d : List Byte,
    let field (k : Nat) : Int := s32 (bytesWord (d.getD k 0) (d.getD (k + 1) 0) (d.getD (k + 2) 0) (d.getD (k + 3) 0))
    patchParse d =
      if d.length < 4 then .error .incomplete
      else if field 0 < 16 then .error .corrupt
      else if 4 + field 0 > d.length then .error .incomplete
      else
        .ok ⟨(4 + field 0).toNat, field 4, field 8, field 12, field 16, (d.take (4 + field 0).toNat).drop 20⟩) ∧
  ∀ (x y w h : Int) (p rest : List Byte),
    fitsS32 x = true → fitsS32 y = true → fitsS32 w = true → fitsS32 h = true → p.length ≤ 2 ^ 31 - 17 →
    patchParse (patchSer x y w h p ++ rest) = .ok ⟨20 + p.length, x, y, w, h, p⟩ ∧
    ∀ n, n < 20 + p.length → patchParse ((patchSer x y w h p).take n) = .error .incomplete

/-- PSER: the fault of the first check that fails, STREAM_OVERFLOW among them; else the framed payload in the output stream
and its length in RES0 (45_patch R700, R701). -/
def Obligations.PserCommand : Prop :=
  ∀ (a b : DescReg) (x y w h : Int) (s : State),
    let n := (s.desc a).len.toNat
    let i := Instr.pser a b x y w h
    faultsOnChecks i s ∧
    ((s.desc a).streamOk s.cfg.lmemBytes → (s.desc b).streamOk s.cfg.lmemBytes →
    (streamFootprint (s.desc b)).apart (streamFootprint (s.desc a)) →
    if 20 + n ≤ (s.desc b).len.toNat then
      ∃ m', exec i s =
          .next { s with lmem := m', res := s.res.set 0 (BitVec.ofNat 32 (20 + n)), cpc := s.cpc + 20 } ∧
        wordAt m' (s.desc b).base.toNat = u32 (16 + n) ∧ wordAt m' ((s.desc b).base.toNat + 4) = u32 x ∧
        wordAt m' ((s.desc b).base.toNat + 8) = u32 y ∧ wordAt m' ((s.desc b).base.toNat + 12) = u32 w ∧
        wordAt m' ((s.desc b).base.toNat + 16) = u32 h ∧
        (∀ k, k < n → m'.read ((s.desc b).base.toNat + 20 + k) = s.lmem.read ((s.desc a).base.toNat + k)) ∧
        sameOutside s.lmem m' (rangeBytes (s.desc b).base.toNat (20 + n))
    else exec i s = .next (s.faultedWith 0x0C i.header))

/-- PHDR: BOUNDS when its check fails; else all eight results in every outcome, and nothing else but CPC
(45_patch R702, R704). -/
def Obligations.PhdrCommand : Prop :=
  ∀ (a : DescReg) (s : State), faultsOnChecks (.phdr a) s ∧
    ((s.desc a).streamOk s.cfg.lmemBytes →
    ∃ t, exec (.phdr a) s = .next t ∧ t = { s with res := t.res, cpc := s.cpc + 4 } ∧
      match patchParse (bytesOf s.lmem (s.desc a)) with
      | .error .incomplete => t.res.toList = [1, 0, 0, 0, 0, 0, 0, 0]
      | .error .corrupt => t.res.toList = [2, 0, 0, 0, 0, 0, 0, 0]
      | .ok p =>
        t.res.toList =
          [0, BitVec.ofNat 32 p.consumed, u32 p.x, u32 p.y, u32 p.w, u32 p.h, BitVec.ofNat 32 p.payload.length,
            (s.desc a).base + 20])

/-- TENC: the fault of the first check that fails; else the payload of the region in the output stream and its length in
RES0, and no other byte or register; CODE_RANGE, NUMERIC and STREAM_OVERFLOW leave every register and every byte outside
the stream (45_patch R709, 60_exceptions R903). The payload is that of R705 and R706: for the planes Y, Cb, Cr in turn the
length and the entropy data of the plane's blocks in raster order, each transformed, quantized and zig-zagged; the first
step that fails gives the fault. -/
def Obligations.TencCommand : Prop :=
  (∀ (emode : Word) (qtl qtc : Vector F64 64) (p : List (List Word)) (h w : Nat),
    h % 16 = 0 → w % 16 = 0 → p.length = h → (∀ row ∈ p, row.length = w) →
    let pixel (i j : Nat) : Word := cellAt p 0 i j
    let chroma (form : Word → F64) (i j : Nat) : Int :=
      chromaSample form (pixel (2 * i) (2 * j)) (pixel (2 * i) (2 * j + 1)) (pixel (2 * i + 1) (2 * j))
        (pixel (2 * i + 1) (2 * j + 1))
    let block (t : Vector F64 64) (x : Nat → Nat → Int) (pw n : Nat) : Except FaultCode (List Int) := do
      let y ← forwardDct ((List.range 8).map fun i =>
        (List.range 8).map fun j => x (8 * (n / (pw / 8)) + i) (8 * (n % (pw / 8)) + j))
      let q ← quantize t y
      .ok (zigzagOrder.map fun k => cellAt q 0 (k / 8) (k % 8))
    let segment (t : Vector F64 64) (x : Nat → Nat → Int) (ph pw : Nat) : Except FaultCode (List Byte) := do
      let blocks ← mapExcept (block t x pw) (List.range (ph / 8 * (pw / 8)))
      let data ← entropyEncode emode blocks
      .ok (be32 data.length ++ data)
    tileEncode ⟨emode, qtl, qtc⟩ p h w = do
      let y ← segment qtl (fun i j => lumaSample (pixel i j)) h w
      let cb ← segment qtc (chroma cbForm) (h / 2) (w / 2)
      let cr ← segment qtc (chroma crForm) (h / 2) (w / 2)
      .ok (y ++ cb ++ cr)) ∧
  ∀ (a b : DescReg) (s : State), faultsOnChecks (.tenc a b) s ∧
    ((s.desc a).matrixOk s.cfg.lmemBytes → (s.desc b).streamOk s.cfg.lmemBytes → (s.desc a).tileSides →
    (streamFootprint (s.desc b)).apart (matrixFootprint (s.desc a)) →
    match tileEncode ⟨s.emode, s.qtl, s.qtc⟩ (pixelsOf s.lmem (s.desc a)) (s.desc a).rows.toNat (s.desc a).cols.toNat with
    | .ok e =>
      if e.length ≤ (s.desc b).len.toNat then
        ∃ m', exec (.tenc a b) s =
            .next { s with lmem := m', res := s.res.set 0 (BitVec.ofNat 32 e.length), cpc := s.cpc + 4 } ∧
          holdsBytes m' (s.desc b).base.toNat e ∧ sameOutside s.lmem m' (rangeBytes (s.desc b).base.toNat e.length)
      else
        ∃ m', exec (.tenc a b) s =
            .next { s.faultedWith 0x0C (Instr.tenc a b).header with lmem := m', draws := s.draws + 1 } ∧
          sameOutside s.lmem m' (rangeBytes (s.desc b).base.toNat (s.desc b).len.toNat)
    | .error code =>
      (code = .codeRange ∨ code = .numeric) ∧
      ∃ m', exec (.tenc a b) s =
          .next { s.faultedWith code.code (Instr.tenc a b).header with lmem := m', draws := s.draws + 1 } ∧
        sameOutside s.lmem m' (rangeBytes (s.desc b).base.toNat (s.desc b).len.toNat))

/-- TDEC: the fault of the first check that fails; else the decoded pixels, RES0 = 0 and RES1 = LEN; a CORRUPT payload writes
RES0 = 2, RES1 = 0 and no byte (45_patch R710). A payload decodes exactly when it has the layout of R705 and R707: three
segments behind their lengths and nothing after them, the entropy data of each read to its end, each block un-zig-zagged,
dequantized and transformed without a NUMERIC condition; its pixels are then those of R452. -/
def Obligations.TdecCommand : Prop :=
  (∀ (emode : Word) (qtl qtc : Vector F64 64) (d : List Byte) (h w : Nat) (px : List (List Word)),
    h % 16 = 0 → w % 16 = 0 →
    let plane (t : Vector F64 64) (seg : List Byte) (ph pw : Nat) (x : Nat → Nat → Int) : Prop :=
      ∃ blocks, entropyDecode emode seg (ph / 8 * (pw / 8)) = .ok (blocks, seg.length) ∧
        ∀ n, n < ph / 8 * (pw / 8) →
          ∃ c b,
            dequantize t ((List.range 8).map fun i =>
              (List.range 8).map fun j => (blocks.getD n []).getD (zigzagIndex.getD (8 * i + j) 0) 0) = .ok c ∧
            inverseDct c = .ok b ∧
            ∀ i j, i < 8 → j < 8 → x (8 * (n / (pw / 8)) + i) (8 * (n % (pw / 8)) + j) = cellAt b 0 i j
    tileDecode ⟨emode, qtl, qtc⟩ d h w = some px ↔
      ∃ (segY segCb segCr : List Byte) (y cb cr : Nat → Nat → Int),
        d = be32 segY.length ++ segY ++ be32 segCb.length ++ segCb ++ be32 segCr.length ++ segCr ∧
        segY.length < 2 ^ 32 ∧ segCb.length < 2 ^ 32 ∧ segCr.length < 2 ^ 32 ∧
        plane qtl segY h w y ∧ plane qtc segCb (h / 2) (w / 2) cb ∧ plane qtc segCr (h / 2) (w / 2) cr ∧
        px = (List.range h).map fun i =>
          (List.range w).map fun j => inversePixel (y i j) (cb (i / 2) (j / 2)) (cr (i / 2) (j / 2))) ∧
  ∀ (a b : DescReg) (s : State), faultsOnChecks (.tdec a b) s ∧
    ((s.desc a).streamOk s.cfg.lmemBytes → (s.desc b).matrixOk s.cfg.lmemBytes → (s.desc b).tileSides →
    (matrixFootprint (s.desc b)).apart (streamFootprint (s.desc a)) →
    match tileDecode ⟨s.emode, s.qtl, s.qtc⟩ (bytesOf s.lmem (s.desc a)) (s.desc b).rows.toNat
        (s.desc b).cols.toNat with
    | some p =>
      ∃ m', exec (.tdec a b) s =
          .next { s with lmem := m', res := (s.res.set 0 0).set 1 (s.desc a).len, cpc := s.cpc + 4 } ∧
        holdsRegion m' (s.desc b) 0 0 (s.desc b).rows.toNat (s.desc b).cols.toNat p ∧
        sameOutside s.lmem m' (matrixBytes (s.desc b))
    | none => exec (.tdec a b) s = .next { s with res := (s.res.set 0 2).set 1 0, cpc := s.cpc + 4 })

/-! Tile diff -/

/-- HASH takes the fault of the first check that fails, else it sums the sampled pixels of the matrix into the HASH register;
HCTXRST invalidates its context alone, and an undefined context faults with OPERAND (46_tilediff R751, R756, R757). -/
def Obligations.HashAndHctxrst : Prop :=
  (∀ (a : DescReg) (s : State), faultsOnChecks (.hash a) s ∧
    ((s.desc a).matrixOk s.cfg.lmemBytes → 1 ≤ s.hstride.toNat →
    let st := s.hstride.toNat
    exec (.hash a) s =
      .next { s with
        cpc := s.cpc + 4
        hash := BitVec.ofNat 64 (((List.range (ceilDiv (s.desc a).rows.toNat st)).map fun i =>
          ((List.range (ceilDiv (s.desc a).cols.toNat st)).map fun j =>
            let p := pixelAt s.lmem (s.desc a) (i * st) (j * st)
            redOf p + greenOf p * 2 ^ 20 + blueOf p * 2 ^ 40).sum).sum) })) ∧
  (∀ (ctx : Nat) (s : State), s.contextsFit →
    if ctx < s.cfg.nHctx then
      ∃ t, exec (.hctxrst ctx) s = .next t ∧ t = { s with cpc := s.cpc + 4, ctxs := t.ctxs } ∧
        (t.ctx ctx).valid = false ∧ t.ctxs.length = s.ctxs.length ∧ ∀ k, k ≠ ctx → t.ctx k = s.ctx k
    else exec (.hctxrst ctx) s = .next (s.faultedWith 0x04 (Instr.hctxrst ctx).header))

/-- DIFF: the fault of the first check that fails; else the patches of the dirty tiles in raster order in the output stream,
their number and length in RES0 and RES1, and the new hashes in the context; no other byte or register. A tile is dirty in
a fresh DIFF and where its hash differs. The first dirty tile that does not encode gives its CODE_RANGE or NUMERIC, and
patches that do not fit give STREAM_OVERFLOW; the context and every byte outside the stream then stay (46_tilediff
R750-R754, 60_exceptions R903, R905). -/
def Obligations.DiffCommand : Prop :=
  ∀ (a b : DescReg) (ctx : Nat) (s : State),
    let i := Instr.diff a b ctx
    let d := s.desc a
    let rows := d.rows.toNat
    let cols := d.cols.toNat
    let ts := s.tsize.toNat
    let st := s.hstride.toNat
    let gr := ceilDiv rows ts
    let gc := ceilDiv cols ts
    let geom : Geometry := ⟨rows, cols, ts, st⟩
    let top (n : Nat) : Nat := n / gc * ts
    let left (n : Nat) : Nat := n % gc * ts
    let height (n : Nat) : Nat := min ts (rows - top n)
    let width (n : Nat) : Nat := min ts (cols - left n)
    let hash (n : Nat) : Hash64 :=
      BitVec.ofNat 64 (((List.range (ceilDiv (height n) st)).map fun i =>
        ((List.range (ceilDiv (width n) st)).map fun j =>
          let p := pixelAt s.lmem d (top n + i * st) (left n + j * st)
          redOf p + greenOf p * 2 ^ 20 + blueOf p * 2 ^ 40).sum).sum)
    let dirty := (List.range (gr * gc)).filter fun n =>
      decide ((s.ctx ctx).valid = false ∨ (s.ctx ctx).geom ≠ geom ∨ hash n ≠ (s.ctx ctx).hashes.getD n 0)
    let patch (n : Nat) : Except FaultCode (List Byte) :=
      (tileEncode ⟨s.emode, s.qtl, s.qtc⟩ ((List.range (height n)).map fun i =>
        (List.range (width n)).map fun j => pixelAt s.lmem d (top n + i) (left n + j)) (height n) (width n)).map
      (patchSer (left n) (top n) (width n) (height n))
    faultsOnChecks i s ∧
    (ctx < s.cfg.nHctx → d.matrixOk s.cfg.lmemBytes → (s.desc b).streamOk s.cfg.lmemBytes →
    d.tileSides → gr * gc ≤ s.cfg.maxTiles → (streamFootprint (s.desc b)).apart (matrixFootprint d) → 1 ≤ st →
    match mapExcept patch dirty with
    | .ok patches =>
      if patches.flatten.length ≤ (s.desc b).len.toNat then
        ∃ m', exec i s =
            .next { s with
              lmem := m'
              ctxs := s.ctxs.set ctx ⟨true, geom, gr, gc, (List.range (gr * gc)).map hash⟩
              res := (s.res.set 0 (BitVec.ofNat 32 dirty.length)).set 1 (BitVec.ofNat 32 patches.flatten.length)
              cpc := s.cpc + 4 } ∧
          holdsBytes m' (s.desc b).base.toNat patches.flatten ∧
          sameOutside s.lmem m' (rangeBytes (s.desc b).base.toNat patches.flatten.length)
      else
        ∃ m', exec i s = .next { s.faultedWith 0x0C i.header with lmem := m', draws := s.draws + 1 } ∧
          sameOutside s.lmem m' (rangeBytes (s.desc b).base.toNat (s.desc b).len.toNat)
    | .error code =>
      (code = .codeRange ∨ code = .numeric) ∧
      ∃ m', exec i s = .next { s.faultedWith code.code i.header with lmem := m', draws := s.draws + 1 } ∧
        sameOutside s.lmem m' (rangeBytes (s.desc b).base.toNat (s.desc b).len.toNat))

/-- Identical frames: after a DIFF that completes, DIFF of the same frame on the same context completes with no patch:
RES0 = RES1 = 0 and no byte written (46_tilediff R758). -/
def Obligations.IdenticalFrames : Prop :=
  ∀ (a b : DescReg) (ctx : Nat) (s t : State),
    s.contextsFit → s.engine = .running → exec (.diff a b ctx) s = .next t → t.engine = .running →
    ∃ u, exec (.diff a b ctx) t = .next u ∧ u.engine = .running ∧ u.res[0] = 0 ∧ u.res[1] = 0 ∧
      ∀ x, u.lmem.read x = t.lmem.read x

/-- FULL: the fault of the first check that fails; else one patch at (0, 0) in the output stream, RES0 = 1 and RES1 = its
length, and no hash context touched; CODE_RANGE, NUMERIC and STREAM_OVERFLOW leave every register and every byte outside
the stream (46_tilediff R755, 60_exceptions R903). -/
def Obligations.FullCommand : Prop :=
  ∀ (a b : DescReg) (s : State),
    let i := Instr.full a b
    let rows := (s.desc a).rows.toNat
    let cols := (s.desc a).cols.toNat
    faultsOnChecks i s ∧
    ((s.desc a).matrixOk s.cfg.lmemBytes → (s.desc b).streamOk s.cfg.lmemBytes → (s.desc a).tileSides →
    (streamFootprint (s.desc b)).apart (matrixFootprint (s.desc a)) →
    match tileEncode ⟨s.emode, s.qtl, s.qtc⟩ (pixelsOf s.lmem (s.desc a)) rows cols with
    | .ok payload =>
      let out := patchSer 0 0 cols rows payload
      if out.length ≤ (s.desc b).len.toNat then
        ∃ m', exec i s =
            .next { s with
              lmem := m'
              res := (s.res.set 0 1).set 1 (BitVec.ofNat 32 (20 + payload.length))
              cpc := s.cpc + 4 } ∧
          holdsBytes m' (s.desc b).base.toNat out ∧
          sameOutside s.lmem m' (rangeBytes (s.desc b).base.toNat out.length)
      else
        ∃ m', exec i s = .next { s.faultedWith 0x0C i.header with lmem := m', draws := s.draws + 1 } ∧
          sameOutside s.lmem m' (rangeBytes (s.desc b).base.toNat (s.desc b).len.toNat)
    | .error code =>
      (code = .codeRange ∨ code = .numeric) ∧
      ∃ m', exec i s = .next { s.faultedWith code.code i.header with lmem := m', draws := s.draws + 1 } ∧
        sameOutside s.lmem m' (rangeBytes (s.desc b).base.toNat (s.desc b).len.toNat))

/-! Compositor -/

/-- SCALE: the fault of the first check that fails; else each output pixel from the four nearest source pixels, channel by
channel, and no other byte or register (47_compositor R801, R802). -/
def Obligations.ScaleCommand : Prop :=
  ∀ (a b : DescReg) (s : State),
    let inH := (s.desc a).rows.toNat
    let inW := (s.desc a).cols.toNat
    let outH := (s.desc b).rows.toNat
    let outW := (s.desc b).cols.toNat
    faultsOnChecks (.scale a b) s ∧
    ((s.desc a).matrixOk s.cfg.lmemBytes → (s.desc b).matrixOk s.cfg.lmemBytes →
    0 < inH → 0 < inW → 0 < outH → 0 < outW →
    (matrixFootprint (s.desc b)).apart (matrixFootprint (s.desc a)) →
    ∃ m', exec (.scale a b) s = .next { s with lmem := m', cpc := s.cpc + 4 } ∧
      (∀ i j, i < outH → j < outW →
        let sy := F64.div (F64.ofInt ((i * inH : Nat) : Int)) (F64.ofInt outH)
        let sx := F64.div (F64.ofInt ((j * inW : Nat) : Int)) (F64.ofInt outW)
        let y0 := sy.floor.toNat
        let x0 := sx.floor.toNat
        let y1 := min (y0 + 1) (inH - 1)
        let x1 := min (x0 + 1) (inW - 1)
        let fy := F64.sub sy (F64.ofInt y0)
        let fx := F64.sub sx (F64.ofInt x0)
        let channel (ch : Word → Nat) : Int :=
          let p (y x : Nat) : F64 := F64.ofInt (ch (cellAt (pixelsOf s.lmem (s.desc a)) 0 y x))
          let top := F64.add (p y0 x0) (F64.mul fx (F64.sub (p y0 x1) (p y0 x0)))
          let bot := F64.add (p y1 x0) (F64.mul fx (F64.sub (p y1 x1) (p y1 x0)))
          clamp (F64.round (F64.add top (F64.mul fy (F64.sub bot top)))) 0 255
        (elementAt m' (s.desc b) i j).toNat =
          (channel redOf).toNat * 2 ^ 16 + (channel greenOf).toNat * 2 ^ 8 + (channel blueOf).toNat) ∧
      sameOutside s.lmem m' (matrixBytes (s.desc b)))

/-- CVRESET empties the canvas; CVSET takes the fault of the first check that fails, CANVAS_CAPACITY for a matrix that is too
large among them, else it replaces the canvas with a copy of the matrix, empty when a side is 0 (47_compositor R803,
R804). -/
def Obligations.CvresetAndCvset : Prop :=
  (∀ s : State, exec .cvreset s = .next { s with cpc := s.cpc + 4, canvas := ⟨0, 0, []⟩ }) ∧
  (∀ (a : DescReg) (s : State), faultsOnChecks (.cvset a) s ∧
    ((s.desc a).matrixOk s.cfg.lmemBytes →
    let rows := (s.desc a).rows.toNat
    let cols := (s.desc a).cols.toNat
    if rows > s.cfg.canvasMaxH ∨ cols > s.cfg.canvasMaxW then
      exec (.cvset a) s = .next (s.faultedWith 0x0F (Instr.cvset a).header)
    else if rows = 0 ∨ cols = 0 then exec (.cvset a) s = .next { s with cpc := s.cpc + 4, canvas := ⟨0, 0, []⟩ }
    else
      exec (.cvset a) s =
        .next { s with cpc := s.cpc + 4, canvas := ⟨rows, cols, wordsOf s.lmem (s.desc a) 0 0 rows cols⟩ }))

/-- CVREAD takes the fault of the first check that fails, DIMENSION for a window that leaves the canvas among them, else it
copies the window into the matrix, whole words and no other byte (47_compositor R805). -/
def Obligations.CvreadCommand : Prop :=
  ∀ (a : DescReg) (y x : Nat) (s : State), faultsOnChecks (.cvread a y x) s ∧
    (s.canvasFits → (s.desc a).matrixOk s.cfg.lmemBytes →
    if y + (s.desc a).rows.toNat ≤ s.canvas.h ∧ x + (s.desc a).cols.toNat ≤ s.canvas.w then
      ∃ m', exec (.cvread a y x) s = .next { s with lmem := m', cpc := s.cpc + 8 } ∧
        (∀ i j, i < (s.desc a).rows.toNat → j < (s.desc a).cols.toNat →
          elementAt m' (s.desc a) i j = cellAt s.canvas.pixels 0 (y + i) (x + j)) ∧
        sameOutside s.lmem m' (matrixBytes (s.desc a))
    else exec (.cvread a y x) s = .next (s.faultedWith 0x0A (Instr.cvread a y x).header))

/-- STITCH: the fault of the first check that fails; else the canvas grows to exactly fit, keeps its pixels, fills new ones
with 0 and takes the patch's words where they fall inside; too large a canvas faults with nothing changed (47_compositor
R807, R808). -/
def Obligations.StitchCommand : Prop :=
  ∀ (a : DescReg) (x y : Int) (s : State), faultsOnChecks (.stitch a x y) s ∧
    (s.canvasFits → (s.desc a).matrixOk s.cfg.lmemBytes →
    (s.desc a).rows.toNat ≠ 0 → (s.desc a).cols.toNat ≠ 0 →
    let h : Int := (s.desc a).rows.toNat
    let w : Int := (s.desc a).cols.toNat
    let nh := max (s.canvas.h : Int) (y + h)
    let nw := max (s.canvas.w : Int) (x + w)
    if nh > s.cfg.canvasMaxH ∨ nw > s.cfg.canvasMaxW then
      exec (.stitch a x y) s = .next (s.faultedWith 0x0F (Instr.stitch a x y).header)
    else
      ∃ t, exec (.stitch a x y) s = .next t ∧ t = { s with cpc := s.cpc + 12, canvas := t.canvas } ∧ t.canvasFits ∧
        (t.canvas.h : Int) = nh ∧ (t.canvas.w : Int) = nw ∧
        ∀ i j : Nat, (i : Int) < nh → (j : Int) < nw →
          cellAt t.canvas.pixels 0 i j =
            if y ≤ i ∧ (i : Int) < y + h ∧ x ≤ j ∧ (j : Int) < x + w then
              elementAt s.lmem (s.desc a) (i - y).toNat (j - x).toNat
            else if i < s.canvas.h ∧ j < s.canvas.w then cellAt s.canvas.pixels 0 i j
            else 0)

/-- APPLY: the fault of the first check that fails; else framing that is not OK changes RES alone; a CORRUPT payload inside
good framing advances the stream descriptor; a good patch is also stitched as by STITCH, unless the canvas would be too
large, which faults with nothing changed (47_compositor R806, R808). -/
def Obligations.ApplyCommand : Prop :=
  ∀ (a : DescReg) (s : State), faultsOnChecks (.apply a) s ∧
    ((s.desc a).streamOk s.cfg.lmemBytes →
    let d := s.desc a
    match patchParse (bytesOf s.lmem d) with
    | .error st =>
      ∃ t, exec (.apply a) s = .next t ∧ t = { s with cpc := s.cpc + 4, res := t.res } ∧
        t.res.toList = [if st = .incomplete then 1 else 2, 0, 0, 0, 0, 0, 0, 0]
    | .ok p =>
      let moved : Desc :=
        { d with base := BitVec.ofNat 32 (d.base.toNat + p.consumed), len := BitVec.ofNat 32 (d.len.toNat - p.consumed) }
      let results (status : Word) : List Word :=
        [status, BitVec.ofNat 32 p.consumed, u32 p.x, u32 p.y, u32 p.w, u32 p.h, BitVec.ofNat 32 p.payload.length,
          d.base + 20]
      match (if 0 < p.w ∧ 0 < p.h ∧ p.w % 16 = 0 ∧ p.h % 16 = 0 then
          tileDecode ⟨s.emode, s.qtl, s.qtc⟩ p.payload p.h.toNat p.w.toNat else none) with
      | none =>
        ∃ t, exec (.apply a) s = .next t ∧
          t = { s with cpc := s.cpc + 4, res := t.res, descs := s.descs.set a moved } ∧ t.res.toList = results 2
      | some px =>
        let nh := max (s.canvas.h : Int) (p.y + p.h)
        let nw := max (s.canvas.w : Int) (p.x + p.w)
        if nh > s.cfg.canvasMaxH ∨ nw > s.cfg.canvasMaxW
        then exec (.apply a) s = .next (s.faultedWith 0x0F (Instr.apply a).header)
        else
          ∃ t, exec (.apply a) s = .next t ∧
            t = { s with
              cpc := s.cpc + 4
              res := t.res
              descs := s.descs.set a moved
              canvas := t.canvas } ∧ t.res.toList = results 0 ∧
            (t.canvas.h : Int) = nh ∧ (t.canvas.w : Int) = nw ∧
            (s.canvasFits →
              ∀ i j : Nat, (i : Int) < nh → (j : Int) < nw →
                cellAt t.canvas.pixels 0 i j =
                  if p.y ≤ i ∧ (i : Int) < p.y + p.h ∧ p.x ≤ j ∧ (j : Int) < p.x + p.w then
                    cellAt px 0 (i - p.y).toNat (j - p.x).toNat
                  else if i < s.canvas.h ∧ j < s.canvas.w then cellAt s.canvas.pixels 0 i j
                  else 0))

/-! Arithmetic -/

/-- Round(x) is the one integer n with n ≤ x + 1/2 < n + 1, on the exact value of x (00_scope R12). -/
def Obligations.RoundRule : Prop :=
  (∀ (x : F64) (neg : Bool) (m : Nat) (e : Int), x.view = .fin neg m e →
    ∀ n : Int, x.round = n ↔
      ((n : ℚ) ≤ (signed neg m : ℚ) * (2 : ℚ) ^ e + 1 / 2 ∧ (signed neg m : ℚ) * (2 : ℚ) ^ e + 1 / 2 < (n : ℚ) + 1)) ∧
  (F64.mk 0x4004000000000000).round = 3 ∧ (F64.mk 0xC004000000000000).round = -2 ∧
  (F64.mk 0x3FDFFFFFFFFFFFFF).round = 0

/-- `f64(n)` is exact for |n| < 2^53 (00_scope R11). -/
def Obligations.IntegersAreExact : Prop :=
  ∀ n : Int, n.natAbs < 2 ^ 53 →
    ∃ neg m e, (F64.ofInt n).view = .fin neg m e ∧ (signed neg m : ℚ) * (2 : ℚ) ^ e = (n : ℚ)

/-- Each of +, −, × and ÷ on finite numbers rounds its exact result once, to the nearest binary64 number and to an even
one in a tie, and gives an infinity of its sign when the result is too large (00_scope R11; log 27). -/
def Obligations.ArithmeticRoundsOnce : Prop :=
  let isValue (x : F64) (p : ℚ) : Prop := ∃ neg m e, x.view = .fin neg m e ∧ p = (signed neg m : ℚ) * (2 : ℚ) ^ e
  ∀ (x y z : F64) (p q r : ℚ), isValue x p → isValue y q →
    ((z = F64.add x y ∧ r = p + q) ∨ (z = F64.sub x y ∧ r = p - q) ∨ (z = F64.mul x y ∧ r = p * q) ∨
      (q ≠ 0 ∧ z = F64.div x y ∧ r = p / q)) →
    if |r| < (2 ^ 54 - 1) * 2 ^ 970 then
      ∃ v, isValue z v ∧ ∀ w u, isValue w u → |v - r| ≤ |u - r| ∧ (|v - r| = |u - r| → u ≠ v → z.bits.toNat % 2 = 0)
    else z = F64.inf (decide (r < 0))
end

