-- ==== Sys2Proof/Laws/State.lean ====
section
/-! SUPPORT. What each update of the state leaves in each field, true by `rfl`: cite these, never unfold an update. -/

namespace Sys2Proof.Machine

variable (s : State)

@[simp] theorem State.setDesc_cfg (a : DescReg) (d : Desc) : (s.setDesc a d).cfg = s.cfg := rfl
@[simp] theorem State.setDesc_lmem (a : DescReg) (d : Desc) : (s.setDesc a d).lmem = s.lmem := rfl
@[simp] theorem State.setDesc_descs (a : DescReg) (d : Desc) : (s.setDesc a d).descs = s.descs.set a d := rfl
@[simp] theorem State.setDesc_res (a : DescReg) (d : Desc) : (s.setDesc a d).res = s.res := rfl
@[simp] theorem State.setDesc_hash (a : DescReg) (d : Desc) : (s.setDesc a d).hash = s.hash := rfl
@[simp] theorem State.setDesc_cpc (a : DescReg) (d : Desc) : (s.setDesc a d).cpc = s.cpc := rfl
@[simp] theorem State.setDesc_engine (a : DescReg) (d : Desc) : (s.setDesc a d).engine = s.engine := rfl
@[simp] theorem State.setDesc_absorbed (a : DescReg) (d : Desc) : (s.setDesc a d).absorbed = s.absorbed := rfl
@[simp] theorem State.setDesc_faultCode (a : DescReg) (d : Desc) : (s.setDesc a d).faultCode = s.faultCode := rfl
@[simp] theorem State.setDesc_faultCpc (a : DescReg) (d : Desc) : (s.setDesc a d).faultCpc = s.faultCpc := rfl
@[simp] theorem State.setDesc_faultInfo (a : DescReg) (d : Desc) : (s.setDesc a d).faultInfo = s.faultInfo := rfl
@[simp] theorem State.setDesc_scale (a : DescReg) (d : Desc) : (s.setDesc a d).scale = s.scale := rfl
@[simp] theorem State.setDesc_qtl (a : DescReg) (d : Desc) : (s.setDesc a d).qtl = s.qtl := rfl
@[simp] theorem State.setDesc_qtc (a : DescReg) (d : Desc) : (s.setDesc a d).qtc = s.qtc := rfl
@[simp] theorem State.setDesc_quality (a : DescReg) (d : Desc) : (s.setDesc a d).quality = s.quality := rfl
@[simp] theorem State.setDesc_emode (a : DescReg) (d : Desc) : (s.setDesc a d).emode = s.emode := rfl
@[simp] theorem State.setDesc_tsize (a : DescReg) (d : Desc) : (s.setDesc a d).tsize = s.tsize := rfl
@[simp] theorem State.setDesc_hstride (a : DescReg) (d : Desc) : (s.setDesc a d).hstride = s.hstride := rfl
@[simp] theorem State.setDesc_ctxs (a : DescReg) (d : Desc) : (s.setDesc a d).ctxs = s.ctxs := rfl
@[simp] theorem State.setDesc_canvas (a : DescReg) (d : Desc) : (s.setDesc a d).canvas = s.canvas := rfl
@[simp] theorem State.setDesc_hCpcStart (a : DescReg) (d : Desc) : (s.setDesc a d).hCpcStart = s.hCpcStart := rfl
@[simp] theorem State.setDesc_irqEn (a : DescReg) (d : Desc) : (s.setDesc a d).irqEn = s.irqEn := rfl
@[simp] theorem State.setDesc_irqPend (a : DescReg) (d : Desc) : (s.setDesc a d).irqPend = s.irqPend := rfl
@[simp] theorem State.setDesc_resetPending (a : DescReg) (d : Desc) : (s.setDesc a d).resetPending = s.resetPending := rfl
@[simp] theorem State.setDesc_draws (a : DescReg) (d : Desc) : (s.setDesc a d).draws = s.draws := rfl
@[simp] theorem State.setDesc_moves (a : DescReg) (d : Desc) : (s.setDesc a d).moves = s.moves := rfl

@[simp] theorem State.setLmem_cfg (m : Memory) : (s.setLmem m).cfg = s.cfg := rfl
@[simp] theorem State.setLmem_lmem (m : Memory) : (s.setLmem m).lmem = m := rfl
@[simp] theorem State.setLmem_descs (m : Memory) : (s.setLmem m).descs = s.descs := rfl
@[simp] theorem State.setLmem_res (m : Memory) : (s.setLmem m).res = s.res := rfl
@[simp] theorem State.setLmem_hash (m : Memory) : (s.setLmem m).hash = s.hash := rfl
@[simp] theorem State.setLmem_cpc (m : Memory) : (s.setLmem m).cpc = s.cpc := rfl
@[simp] theorem State.setLmem_engine (m : Memory) : (s.setLmem m).engine = s.engine := rfl
@[simp] theorem State.setLmem_absorbed (m : Memory) : (s.setLmem m).absorbed = s.absorbed := rfl
@[simp] theorem State.setLmem_faultCode (m : Memory) : (s.setLmem m).faultCode = s.faultCode := rfl
@[simp] theorem State.setLmem_faultCpc (m : Memory) : (s.setLmem m).faultCpc = s.faultCpc := rfl
@[simp] theorem State.setLmem_faultInfo (m : Memory) : (s.setLmem m).faultInfo = s.faultInfo := rfl
@[simp] theorem State.setLmem_scale (m : Memory) : (s.setLmem m).scale = s.scale := rfl
@[simp] theorem State.setLmem_qtl (m : Memory) : (s.setLmem m).qtl = s.qtl := rfl
@[simp] theorem State.setLmem_qtc (m : Memory) : (s.setLmem m).qtc = s.qtc := rfl
@[simp] theorem State.setLmem_quality (m : Memory) : (s.setLmem m).quality = s.quality := rfl
@[simp] theorem State.setLmem_emode (m : Memory) : (s.setLmem m).emode = s.emode := rfl
@[simp] theorem State.setLmem_tsize (m : Memory) : (s.setLmem m).tsize = s.tsize := rfl
@[simp] theorem State.setLmem_hstride (m : Memory) : (s.setLmem m).hstride = s.hstride := rfl
@[simp] theorem State.setLmem_ctxs (m : Memory) : (s.setLmem m).ctxs = s.ctxs := rfl
@[simp] theorem State.setLmem_canvas (m : Memory) : (s.setLmem m).canvas = s.canvas := rfl
@[simp] theorem State.setLmem_hCpcStart (m : Memory) : (s.setLmem m).hCpcStart = s.hCpcStart := rfl
@[simp] theorem State.setLmem_irqEn (m : Memory) : (s.setLmem m).irqEn = s.irqEn := rfl
@[simp] theorem State.setLmem_irqPend (m : Memory) : (s.setLmem m).irqPend = s.irqPend := rfl
@[simp] theorem State.setLmem_resetPending (m : Memory) : (s.setLmem m).resetPending = s.resetPending := rfl
@[simp] theorem State.setLmem_draws (m : Memory) : (s.setLmem m).draws = s.draws := rfl
@[simp] theorem State.setLmem_moves (m : Memory) : (s.setLmem m).moves = s.moves := rfl

@[simp] theorem State.setCanvas_cfg (c : Canvas) : (s.setCanvas c).cfg = s.cfg := rfl
@[simp] theorem State.setCanvas_lmem (c : Canvas) : (s.setCanvas c).lmem = s.lmem := rfl
@[simp] theorem State.setCanvas_descs (c : Canvas) : (s.setCanvas c).descs = s.descs := rfl
@[simp] theorem State.setCanvas_res (c : Canvas) : (s.setCanvas c).res = s.res := rfl
@[simp] theorem State.setCanvas_hash (c : Canvas) : (s.setCanvas c).hash = s.hash := rfl
@[simp] theorem State.setCanvas_cpc (c : Canvas) : (s.setCanvas c).cpc = s.cpc := rfl
@[simp] theorem State.setCanvas_engine (c : Canvas) : (s.setCanvas c).engine = s.engine := rfl
@[simp] theorem State.setCanvas_absorbed (c : Canvas) : (s.setCanvas c).absorbed = s.absorbed := rfl
@[simp] theorem State.setCanvas_faultCode (c : Canvas) : (s.setCanvas c).faultCode = s.faultCode := rfl
@[simp] theorem State.setCanvas_faultCpc (c : Canvas) : (s.setCanvas c).faultCpc = s.faultCpc := rfl
@[simp] theorem State.setCanvas_faultInfo (c : Canvas) : (s.setCanvas c).faultInfo = s.faultInfo := rfl
@[simp] theorem State.setCanvas_scale (c : Canvas) : (s.setCanvas c).scale = s.scale := rfl
@[simp] theorem State.setCanvas_qtl (c : Canvas) : (s.setCanvas c).qtl = s.qtl := rfl
@[simp] theorem State.setCanvas_qtc (c : Canvas) : (s.setCanvas c).qtc = s.qtc := rfl
@[simp] theorem State.setCanvas_quality (c : Canvas) : (s.setCanvas c).quality = s.quality := rfl
@[simp] theorem State.setCanvas_emode (c : Canvas) : (s.setCanvas c).emode = s.emode := rfl
@[simp] theorem State.setCanvas_tsize (c : Canvas) : (s.setCanvas c).tsize = s.tsize := rfl
@[simp] theorem State.setCanvas_hstride (c : Canvas) : (s.setCanvas c).hstride = s.hstride := rfl
@[simp] theorem State.setCanvas_ctxs (c : Canvas) : (s.setCanvas c).ctxs = s.ctxs := rfl
@[simp] theorem State.setCanvas_canvas (c : Canvas) : (s.setCanvas c).canvas = c := rfl
@[simp] theorem State.setCanvas_hCpcStart (c : Canvas) : (s.setCanvas c).hCpcStart = s.hCpcStart := rfl
@[simp] theorem State.setCanvas_irqEn (c : Canvas) : (s.setCanvas c).irqEn = s.irqEn := rfl
@[simp] theorem State.setCanvas_irqPend (c : Canvas) : (s.setCanvas c).irqPend = s.irqPend := rfl
@[simp] theorem State.setCanvas_resetPending (c : Canvas) : (s.setCanvas c).resetPending = s.resetPending := rfl
@[simp] theorem State.setCanvas_draws (c : Canvas) : (s.setCanvas c).draws = s.draws := rfl
@[simp] theorem State.setCanvas_moves (c : Canvas) : (s.setCanvas c).moves = s.moves := rfl

@[simp] theorem State.setCtx_cfg (c : Nat) (x : HashContext) : (s.setCtx c x).cfg = s.cfg := rfl
@[simp] theorem State.setCtx_lmem (c : Nat) (x : HashContext) : (s.setCtx c x).lmem = s.lmem := rfl
@[simp] theorem State.setCtx_descs (c : Nat) (x : HashContext) : (s.setCtx c x).descs = s.descs := rfl
@[simp] theorem State.setCtx_res (c : Nat) (x : HashContext) : (s.setCtx c x).res = s.res := rfl
@[simp] theorem State.setCtx_hash (c : Nat) (x : HashContext) : (s.setCtx c x).hash = s.hash := rfl
@[simp] theorem State.setCtx_cpc (c : Nat) (x : HashContext) : (s.setCtx c x).cpc = s.cpc := rfl
@[simp] theorem State.setCtx_engine (c : Nat) (x : HashContext) : (s.setCtx c x).engine = s.engine := rfl
@[simp] theorem State.setCtx_absorbed (c : Nat) (x : HashContext) : (s.setCtx c x).absorbed = s.absorbed := rfl
@[simp] theorem State.setCtx_faultCode (c : Nat) (x : HashContext) : (s.setCtx c x).faultCode = s.faultCode := rfl
@[simp] theorem State.setCtx_faultCpc (c : Nat) (x : HashContext) : (s.setCtx c x).faultCpc = s.faultCpc := rfl
@[simp] theorem State.setCtx_faultInfo (c : Nat) (x : HashContext) : (s.setCtx c x).faultInfo = s.faultInfo := rfl
@[simp] theorem State.setCtx_scale (c : Nat) (x : HashContext) : (s.setCtx c x).scale = s.scale := rfl
@[simp] theorem State.setCtx_qtl (c : Nat) (x : HashContext) : (s.setCtx c x).qtl = s.qtl := rfl
@[simp] theorem State.setCtx_qtc (c : Nat) (x : HashContext) : (s.setCtx c x).qtc = s.qtc := rfl
@[simp] theorem State.setCtx_quality (c : Nat) (x : HashContext) : (s.setCtx c x).quality = s.quality := rfl
@[simp] theorem State.setCtx_emode (c : Nat) (x : HashContext) : (s.setCtx c x).emode = s.emode := rfl
@[simp] theorem State.setCtx_tsize (c : Nat) (x : HashContext) : (s.setCtx c x).tsize = s.tsize := rfl
@[simp] theorem State.setCtx_hstride (c : Nat) (x : HashContext) : (s.setCtx c x).hstride = s.hstride := rfl
@[simp] theorem State.setCtx_ctxs (c : Nat) (x : HashContext) : (s.setCtx c x).ctxs = s.ctxs.set c x := rfl
@[simp] theorem State.setCtx_canvas (c : Nat) (x : HashContext) : (s.setCtx c x).canvas = s.canvas := rfl
@[simp] theorem State.setCtx_hCpcStart (c : Nat) (x : HashContext) : (s.setCtx c x).hCpcStart = s.hCpcStart := rfl
@[simp] theorem State.setCtx_irqEn (c : Nat) (x : HashContext) : (s.setCtx c x).irqEn = s.irqEn := rfl
@[simp] theorem State.setCtx_irqPend (c : Nat) (x : HashContext) : (s.setCtx c x).irqPend = s.irqPend := rfl
@[simp] theorem State.setCtx_resetPending (c : Nat) (x : HashContext) : (s.setCtx c x).resetPending = s.resetPending := rfl
@[simp] theorem State.setCtx_draws (c : Nat) (x : HashContext) : (s.setCtx c x).draws = s.draws := rfl
@[simp] theorem State.setCtx_moves (c : Nat) (x : HashContext) : (s.setCtx c x).moves = s.moves := rfl

@[simp] theorem State.setTables_cfg (l c : Vector F64 64) : (s.setTables l c).cfg = s.cfg := rfl
@[simp] theorem State.setTables_lmem (l c : Vector F64 64) : (s.setTables l c).lmem = s.lmem := rfl
@[simp] theorem State.setTables_descs (l c : Vector F64 64) : (s.setTables l c).descs = s.descs := rfl
@[simp] theorem State.setTables_res (l c : Vector F64 64) : (s.setTables l c).res = s.res := rfl
@[simp] theorem State.setTables_hash (l c : Vector F64 64) : (s.setTables l c).hash = s.hash := rfl
@[simp] theorem State.setTables_cpc (l c : Vector F64 64) : (s.setTables l c).cpc = s.cpc := rfl
@[simp] theorem State.setTables_engine (l c : Vector F64 64) : (s.setTables l c).engine = s.engine := rfl
@[simp] theorem State.setTables_absorbed (l c : Vector F64 64) : (s.setTables l c).absorbed = s.absorbed := rfl
@[simp] theorem State.setTables_faultCode (l c : Vector F64 64) : (s.setTables l c).faultCode = s.faultCode := rfl
@[simp] theorem State.setTables_faultCpc (l c : Vector F64 64) : (s.setTables l c).faultCpc = s.faultCpc := rfl
@[simp] theorem State.setTables_faultInfo (l c : Vector F64 64) : (s.setTables l c).faultInfo = s.faultInfo := rfl
@[simp] theorem State.setTables_scale (l c : Vector F64 64) : (s.setTables l c).scale = s.scale := rfl
@[simp] theorem State.setTables_qtl (l c : Vector F64 64) : (s.setTables l c).qtl = l := rfl
@[simp] theorem State.setTables_qtc (l c : Vector F64 64) : (s.setTables l c).qtc = c := rfl
@[simp] theorem State.setTables_quality (l c : Vector F64 64) : (s.setTables l c).quality = s.quality := rfl
@[simp] theorem State.setTables_emode (l c : Vector F64 64) : (s.setTables l c).emode = s.emode := rfl
@[simp] theorem State.setTables_tsize (l c : Vector F64 64) : (s.setTables l c).tsize = s.tsize := rfl
@[simp] theorem State.setTables_hstride (l c : Vector F64 64) : (s.setTables l c).hstride = s.hstride := rfl
@[simp] theorem State.setTables_ctxs (l c : Vector F64 64) : (s.setTables l c).ctxs = s.ctxs := rfl
@[simp] theorem State.setTables_canvas (l c : Vector F64 64) : (s.setTables l c).canvas = s.canvas := rfl
@[simp] theorem State.setTables_hCpcStart (l c : Vector F64 64) : (s.setTables l c).hCpcStart = s.hCpcStart := rfl
@[simp] theorem State.setTables_irqEn (l c : Vector F64 64) : (s.setTables l c).irqEn = s.irqEn := rfl
@[simp] theorem State.setTables_irqPend (l c : Vector F64 64) : (s.setTables l c).irqPend = s.irqPend := rfl
@[simp] theorem State.setTables_resetPending (l c : Vector F64 64) : (s.setTables l c).resetPending = s.resetPending := rfl
@[simp] theorem State.setTables_draws (l c : Vector F64 64) : (s.setTables l c).draws = s.draws := rfl
@[simp] theorem State.setTables_moves (l c : Vector F64 64) : (s.setTables l c).moves = s.moves := rfl

@[simp] theorem State.advance_cfg (n : Nat) : (s.advance n).cfg = s.cfg := rfl
@[simp] theorem State.advance_lmem (n : Nat) : (s.advance n).lmem = s.lmem := rfl
@[simp] theorem State.advance_descs (n : Nat) : (s.advance n).descs = s.descs := rfl
@[simp] theorem State.advance_res (n : Nat) : (s.advance n).res = s.res := rfl
@[simp] theorem State.advance_hash (n : Nat) : (s.advance n).hash = s.hash := rfl
@[simp] theorem State.advance_cpc (n : Nat) : (s.advance n).cpc = s.cpc + BitVec.ofNat 32 n := rfl
@[simp] theorem State.advance_engine (n : Nat) : (s.advance n).engine = s.engine := rfl
@[simp] theorem State.advance_absorbed (n : Nat) : (s.advance n).absorbed = s.absorbed := rfl
@[simp] theorem State.advance_faultCode (n : Nat) : (s.advance n).faultCode = s.faultCode := rfl
@[simp] theorem State.advance_faultCpc (n : Nat) : (s.advance n).faultCpc = s.faultCpc := rfl
@[simp] theorem State.advance_faultInfo (n : Nat) : (s.advance n).faultInfo = s.faultInfo := rfl
@[simp] theorem State.advance_scale (n : Nat) : (s.advance n).scale = s.scale := rfl
@[simp] theorem State.advance_qtl (n : Nat) : (s.advance n).qtl = s.qtl := rfl
@[simp] theorem State.advance_qtc (n : Nat) : (s.advance n).qtc = s.qtc := rfl
@[simp] theorem State.advance_quality (n : Nat) : (s.advance n).quality = s.quality := rfl
@[simp] theorem State.advance_emode (n : Nat) : (s.advance n).emode = s.emode := rfl
@[simp] theorem State.advance_tsize (n : Nat) : (s.advance n).tsize = s.tsize := rfl
@[simp] theorem State.advance_hstride (n : Nat) : (s.advance n).hstride = s.hstride := rfl
@[simp] theorem State.advance_ctxs (n : Nat) : (s.advance n).ctxs = s.ctxs := rfl
@[simp] theorem State.advance_canvas (n : Nat) : (s.advance n).canvas = s.canvas := rfl
@[simp] theorem State.advance_hCpcStart (n : Nat) : (s.advance n).hCpcStart = s.hCpcStart := rfl
@[simp] theorem State.advance_irqEn (n : Nat) : (s.advance n).irqEn = s.irqEn := rfl
@[simp] theorem State.advance_irqPend (n : Nat) : (s.advance n).irqPend = s.irqPend := rfl
@[simp] theorem State.advance_resetPending (n : Nat) : (s.advance n).resetPending = s.resetPending := rfl
@[simp] theorem State.advance_draws (n : Nat) : (s.advance n).draws = s.draws := rfl
@[simp] theorem State.advance_moves (n : Nat) : (s.advance n).moves = s.moves := rfl

@[simp] theorem State.setRes_cfg (k : Fin 8) (v : Word) : (s.setRes k v).cfg = s.cfg := rfl
@[simp] theorem State.setRes_lmem (k : Fin 8) (v : Word) : (s.setRes k v).lmem = s.lmem := rfl
@[simp] theorem State.setRes_descs (k : Fin 8) (v : Word) : (s.setRes k v).descs = s.descs := rfl
@[simp] theorem State.setRes_res (k : Fin 8) (v : Word) : (s.setRes k v).res = s.res.set k v := rfl
@[simp] theorem State.setRes_hash (k : Fin 8) (v : Word) : (s.setRes k v).hash = s.hash := rfl
@[simp] theorem State.setRes_cpc (k : Fin 8) (v : Word) : (s.setRes k v).cpc = s.cpc := rfl
@[simp] theorem State.setRes_engine (k : Fin 8) (v : Word) : (s.setRes k v).engine = s.engine := rfl
@[simp] theorem State.setRes_absorbed (k : Fin 8) (v : Word) : (s.setRes k v).absorbed = s.absorbed := rfl
@[simp] theorem State.setRes_faultCode (k : Fin 8) (v : Word) : (s.setRes k v).faultCode = s.faultCode := rfl
@[simp] theorem State.setRes_faultCpc (k : Fin 8) (v : Word) : (s.setRes k v).faultCpc = s.faultCpc := rfl
@[simp] theorem State.setRes_faultInfo (k : Fin 8) (v : Word) : (s.setRes k v).faultInfo = s.faultInfo := rfl
@[simp] theorem State.setRes_scale (k : Fin 8) (v : Word) : (s.setRes k v).scale = s.scale := rfl
@[simp] theorem State.setRes_qtl (k : Fin 8) (v : Word) : (s.setRes k v).qtl = s.qtl := rfl
@[simp] theorem State.setRes_qtc (k : Fin 8) (v : Word) : (s.setRes k v).qtc = s.qtc := rfl
@[simp] theorem State.setRes_quality (k : Fin 8) (v : Word) : (s.setRes k v).quality = s.quality := rfl
@[simp] theorem State.setRes_emode (k : Fin 8) (v : Word) : (s.setRes k v).emode = s.emode := rfl
@[simp] theorem State.setRes_tsize (k : Fin 8) (v : Word) : (s.setRes k v).tsize = s.tsize := rfl
@[simp] theorem State.setRes_hstride (k : Fin 8) (v : Word) : (s.setRes k v).hstride = s.hstride := rfl
@[simp] theorem State.setRes_ctxs (k : Fin 8) (v : Word) : (s.setRes k v).ctxs = s.ctxs := rfl
@[simp] theorem State.setRes_canvas (k : Fin 8) (v : Word) : (s.setRes k v).canvas = s.canvas := rfl
@[simp] theorem State.setRes_hCpcStart (k : Fin 8) (v : Word) : (s.setRes k v).hCpcStart = s.hCpcStart := rfl
@[simp] theorem State.setRes_irqEn (k : Fin 8) (v : Word) : (s.setRes k v).irqEn = s.irqEn := rfl
@[simp] theorem State.setRes_irqPend (k : Fin 8) (v : Word) : (s.setRes k v).irqPend = s.irqPend := rfl
@[simp] theorem State.setRes_resetPending (k : Fin 8) (v : Word) : (s.setRes k v).resetPending = s.resetPending := rfl
@[simp] theorem State.setRes_draws (k : Fin 8) (v : Word) : (s.setRes k v).draws = s.draws := rfl
@[simp] theorem State.setRes_moves (k : Fin 8) (v : Word) : (s.setRes k v).moves = s.moves := rfl

@[simp] theorem State.setRes01_cfg (a b : Word) : (s.setRes01 a b).cfg = s.cfg := rfl
@[simp] theorem State.setRes01_lmem (a b : Word) : (s.setRes01 a b).lmem = s.lmem := rfl
@[simp] theorem State.setRes01_descs (a b : Word) : (s.setRes01 a b).descs = s.descs := rfl
@[simp] theorem State.setRes01_res (a b : Word) : (s.setRes01 a b).res = (s.res.set 0 a).set 1 b := rfl
@[simp] theorem State.setRes01_hash (a b : Word) : (s.setRes01 a b).hash = s.hash := rfl
@[simp] theorem State.setRes01_cpc (a b : Word) : (s.setRes01 a b).cpc = s.cpc := rfl
@[simp] theorem State.setRes01_engine (a b : Word) : (s.setRes01 a b).engine = s.engine := rfl
@[simp] theorem State.setRes01_absorbed (a b : Word) : (s.setRes01 a b).absorbed = s.absorbed := rfl
@[simp] theorem State.setRes01_faultCode (a b : Word) : (s.setRes01 a b).faultCode = s.faultCode := rfl
@[simp] theorem State.setRes01_faultCpc (a b : Word) : (s.setRes01 a b).faultCpc = s.faultCpc := rfl
@[simp] theorem State.setRes01_faultInfo (a b : Word) : (s.setRes01 a b).faultInfo = s.faultInfo := rfl
@[simp] theorem State.setRes01_scale (a b : Word) : (s.setRes01 a b).scale = s.scale := rfl
@[simp] theorem State.setRes01_qtl (a b : Word) : (s.setRes01 a b).qtl = s.qtl := rfl
@[simp] theorem State.setRes01_qtc (a b : Word) : (s.setRes01 a b).qtc = s.qtc := rfl
@[simp] theorem State.setRes01_quality (a b : Word) : (s.setRes01 a b).quality = s.quality := rfl
@[simp] theorem State.setRes01_emode (a b : Word) : (s.setRes01 a b).emode = s.emode := rfl
@[simp] theorem State.setRes01_tsize (a b : Word) : (s.setRes01 a b).tsize = s.tsize := rfl
@[simp] theorem State.setRes01_hstride (a b : Word) : (s.setRes01 a b).hstride = s.hstride := rfl
@[simp] theorem State.setRes01_ctxs (a b : Word) : (s.setRes01 a b).ctxs = s.ctxs := rfl
@[simp] theorem State.setRes01_canvas (a b : Word) : (s.setRes01 a b).canvas = s.canvas := rfl
@[simp] theorem State.setRes01_hCpcStart (a b : Word) : (s.setRes01 a b).hCpcStart = s.hCpcStart := rfl
@[simp] theorem State.setRes01_irqEn (a b : Word) : (s.setRes01 a b).irqEn = s.irqEn := rfl
@[simp] theorem State.setRes01_irqPend (a b : Word) : (s.setRes01 a b).irqPend = s.irqPend := rfl
@[simp] theorem State.setRes01_resetPending (a b : Word) : (s.setRes01 a b).resetPending = s.resetPending := rfl
@[simp] theorem State.setRes01_draws (a b : Word) : (s.setRes01 a b).draws = s.draws := rfl
@[simp] theorem State.setRes01_moves (a b : Word) : (s.setRes01 a b).moves = s.moves := rfl

@[simp] theorem State.setResAll_cfg (vs : List Word) : (s.setResAll vs).cfg = s.cfg := rfl
@[simp] theorem State.setResAll_lmem (vs : List Word) : (s.setResAll vs).lmem = s.lmem := rfl
@[simp] theorem State.setResAll_descs (vs : List Word) : (s.setResAll vs).descs = s.descs := rfl
@[simp] theorem State.setResAll_res (vs : List Word) : (s.setResAll vs).res = tabulate 8 (fun k => vs.getD k 0) := rfl
@[simp] theorem State.setResAll_hash (vs : List Word) : (s.setResAll vs).hash = s.hash := rfl
@[simp] theorem State.setResAll_cpc (vs : List Word) : (s.setResAll vs).cpc = s.cpc := rfl
@[simp] theorem State.setResAll_engine (vs : List Word) : (s.setResAll vs).engine = s.engine := rfl
@[simp] theorem State.setResAll_absorbed (vs : List Word) : (s.setResAll vs).absorbed = s.absorbed := rfl
@[simp] theorem State.setResAll_faultCode (vs : List Word) : (s.setResAll vs).faultCode = s.faultCode := rfl
@[simp] theorem State.setResAll_faultCpc (vs : List Word) : (s.setResAll vs).faultCpc = s.faultCpc := rfl
@[simp] theorem State.setResAll_faultInfo (vs : List Word) : (s.setResAll vs).faultInfo = s.faultInfo := rfl
@[simp] theorem State.setResAll_scale (vs : List Word) : (s.setResAll vs).scale = s.scale := rfl
@[simp] theorem State.setResAll_qtl (vs : List Word) : (s.setResAll vs).qtl = s.qtl := rfl
@[simp] theorem State.setResAll_qtc (vs : List Word) : (s.setResAll vs).qtc = s.qtc := rfl
@[simp] theorem State.setResAll_quality (vs : List Word) : (s.setResAll vs).quality = s.quality := rfl
@[simp] theorem State.setResAll_emode (vs : List Word) : (s.setResAll vs).emode = s.emode := rfl
@[simp] theorem State.setResAll_tsize (vs : List Word) : (s.setResAll vs).tsize = s.tsize := rfl
@[simp] theorem State.setResAll_hstride (vs : List Word) : (s.setResAll vs).hstride = s.hstride := rfl
@[simp] theorem State.setResAll_ctxs (vs : List Word) : (s.setResAll vs).ctxs = s.ctxs := rfl
@[simp] theorem State.setResAll_canvas (vs : List Word) : (s.setResAll vs).canvas = s.canvas := rfl
@[simp] theorem State.setResAll_hCpcStart (vs : List Word) : (s.setResAll vs).hCpcStart = s.hCpcStart := rfl
@[simp] theorem State.setResAll_irqEn (vs : List Word) : (s.setResAll vs).irqEn = s.irqEn := rfl
@[simp] theorem State.setResAll_irqPend (vs : List Word) : (s.setResAll vs).irqPend = s.irqPend := rfl
@[simp] theorem State.setResAll_resetPending (vs : List Word) : (s.setResAll vs).resetPending = s.resetPending := rfl
@[simp] theorem State.setResAll_draws (vs : List Word) : (s.setResAll vs).draws = s.draws := rfl
@[simp] theorem State.setResAll_moves (vs : List Word) : (s.setResAll vs).moves = s.moves := rfl

@[simp] theorem State.setHash_cfg (v : Hash64) : (s.setHash v).cfg = s.cfg := rfl
@[simp] theorem State.setHash_lmem (v : Hash64) : (s.setHash v).lmem = s.lmem := rfl
@[simp] theorem State.setHash_descs (v : Hash64) : (s.setHash v).descs = s.descs := rfl
@[simp] theorem State.setHash_res (v : Hash64) : (s.setHash v).res = s.res := rfl
@[simp] theorem State.setHash_hash (v : Hash64) : (s.setHash v).hash = v := rfl
@[simp] theorem State.setHash_cpc (v : Hash64) : (s.setHash v).cpc = s.cpc := rfl
@[simp] theorem State.setHash_engine (v : Hash64) : (s.setHash v).engine = s.engine := rfl
@[simp] theorem State.setHash_absorbed (v : Hash64) : (s.setHash v).absorbed = s.absorbed := rfl
@[simp] theorem State.setHash_faultCode (v : Hash64) : (s.setHash v).faultCode = s.faultCode := rfl
@[simp] theorem State.setHash_faultCpc (v : Hash64) : (s.setHash v).faultCpc = s.faultCpc := rfl
@[simp] theorem State.setHash_faultInfo (v : Hash64) : (s.setHash v).faultInfo = s.faultInfo := rfl
@[simp] theorem State.setHash_scale (v : Hash64) : (s.setHash v).scale = s.scale := rfl
@[simp] theorem State.setHash_qtl (v : Hash64) : (s.setHash v).qtl = s.qtl := rfl
@[simp] theorem State.setHash_qtc (v : Hash64) : (s.setHash v).qtc = s.qtc := rfl
@[simp] theorem State.setHash_quality (v : Hash64) : (s.setHash v).quality = s.quality := rfl
@[simp] theorem State.setHash_emode (v : Hash64) : (s.setHash v).emode = s.emode := rfl
@[simp] theorem State.setHash_tsize (v : Hash64) : (s.setHash v).tsize = s.tsize := rfl
@[simp] theorem State.setHash_hstride (v : Hash64) : (s.setHash v).hstride = s.hstride := rfl
@[simp] theorem State.setHash_ctxs (v : Hash64) : (s.setHash v).ctxs = s.ctxs := rfl
@[simp] theorem State.setHash_canvas (v : Hash64) : (s.setHash v).canvas = s.canvas := rfl
@[simp] theorem State.setHash_hCpcStart (v : Hash64) : (s.setHash v).hCpcStart = s.hCpcStart := rfl
@[simp] theorem State.setHash_irqEn (v : Hash64) : (s.setHash v).irqEn = s.irqEn := rfl
@[simp] theorem State.setHash_irqPend (v : Hash64) : (s.setHash v).irqPend = s.irqPend := rfl
@[simp] theorem State.setHash_resetPending (v : Hash64) : (s.setHash v).resetPending = s.resetPending := rfl
@[simp] theorem State.setHash_draws (v : Hash64) : (s.setHash v).draws = s.draws := rfl
@[simp] theorem State.setHash_moves (v : Hash64) : (s.setHash v).moves = s.moves := rfl

@[simp] theorem State.setAbsorbed_cfg (b : Bool) : (s.setAbsorbed b).cfg = s.cfg := rfl
@[simp] theorem State.setAbsorbed_lmem (b : Bool) : (s.setAbsorbed b).lmem = s.lmem := rfl
@[simp] theorem State.setAbsorbed_descs (b : Bool) : (s.setAbsorbed b).descs = s.descs := rfl
@[simp] theorem State.setAbsorbed_res (b : Bool) : (s.setAbsorbed b).res = s.res := rfl
@[simp] theorem State.setAbsorbed_hash (b : Bool) : (s.setAbsorbed b).hash = s.hash := rfl
@[simp] theorem State.setAbsorbed_cpc (b : Bool) : (s.setAbsorbed b).cpc = s.cpc := rfl
@[simp] theorem State.setAbsorbed_engine (b : Bool) : (s.setAbsorbed b).engine = s.engine := rfl
@[simp] theorem State.setAbsorbed_absorbed (b : Bool) : (s.setAbsorbed b).absorbed = b := rfl
@[simp] theorem State.setAbsorbed_faultCode (b : Bool) : (s.setAbsorbed b).faultCode = s.faultCode := rfl
@[simp] theorem State.setAbsorbed_faultCpc (b : Bool) : (s.setAbsorbed b).faultCpc = s.faultCpc := rfl
@[simp] theorem State.setAbsorbed_faultInfo (b : Bool) : (s.setAbsorbed b).faultInfo = s.faultInfo := rfl
@[simp] theorem State.setAbsorbed_scale (b : Bool) : (s.setAbsorbed b).scale = s.scale := rfl
@[simp] theorem State.setAbsorbed_qtl (b : Bool) : (s.setAbsorbed b).qtl = s.qtl := rfl
@[simp] theorem State.setAbsorbed_qtc (b : Bool) : (s.setAbsorbed b).qtc = s.qtc := rfl
@[simp] theorem State.setAbsorbed_quality (b : Bool) : (s.setAbsorbed b).quality = s.quality := rfl
@[simp] theorem State.setAbsorbed_emode (b : Bool) : (s.setAbsorbed b).emode = s.emode := rfl
@[simp] theorem State.setAbsorbed_tsize (b : Bool) : (s.setAbsorbed b).tsize = s.tsize := rfl
@[simp] theorem State.setAbsorbed_hstride (b : Bool) : (s.setAbsorbed b).hstride = s.hstride := rfl
@[simp] theorem State.setAbsorbed_ctxs (b : Bool) : (s.setAbsorbed b).ctxs = s.ctxs := rfl
@[simp] theorem State.setAbsorbed_canvas (b : Bool) : (s.setAbsorbed b).canvas = s.canvas := rfl
@[simp] theorem State.setAbsorbed_hCpcStart (b : Bool) : (s.setAbsorbed b).hCpcStart = s.hCpcStart := rfl
@[simp] theorem State.setAbsorbed_irqEn (b : Bool) : (s.setAbsorbed b).irqEn = s.irqEn := rfl
@[simp] theorem State.setAbsorbed_irqPend (b : Bool) : (s.setAbsorbed b).irqPend = s.irqPend := rfl
@[simp] theorem State.setAbsorbed_resetPending (b : Bool) : (s.setAbsorbed b).resetPending = s.resetPending := rfl
@[simp] theorem State.setAbsorbed_draws (b : Bool) : (s.setAbsorbed b).draws = s.draws := rfl
@[simp] theorem State.setAbsorbed_moves (b : Bool) : (s.setAbsorbed b).moves = s.moves := rfl

@[simp] theorem State.setQuality_cfg (q : Nat) : (s.setQuality q).cfg = s.cfg := rfl
@[simp] theorem State.setQuality_lmem (q : Nat) : (s.setQuality q).lmem = s.lmem := rfl
@[simp] theorem State.setQuality_descs (q : Nat) : (s.setQuality q).descs = s.descs := rfl
@[simp] theorem State.setQuality_res (q : Nat) : (s.setQuality q).res = s.res := rfl
@[simp] theorem State.setQuality_hash (q : Nat) : (s.setQuality q).hash = s.hash := rfl
@[simp] theorem State.setQuality_cpc (q : Nat) : (s.setQuality q).cpc = s.cpc := rfl
@[simp] theorem State.setQuality_engine (q : Nat) : (s.setQuality q).engine = s.engine := rfl
@[simp] theorem State.setQuality_absorbed (q : Nat) : (s.setQuality q).absorbed = s.absorbed := rfl
@[simp] theorem State.setQuality_faultCode (q : Nat) : (s.setQuality q).faultCode = s.faultCode := rfl
@[simp] theorem State.setQuality_faultCpc (q : Nat) : (s.setQuality q).faultCpc = s.faultCpc := rfl
@[simp] theorem State.setQuality_faultInfo (q : Nat) : (s.setQuality q).faultInfo = s.faultInfo := rfl
@[simp] theorem State.setQuality_scale (q : Nat) : (s.setQuality q).scale = s.scale := rfl
@[simp] theorem State.setQuality_qtl (q : Nat) : (s.setQuality q).qtl = s.qtl := rfl
@[simp] theorem State.setQuality_qtc (q : Nat) : (s.setQuality q).qtc = s.qtc := rfl
@[simp] theorem State.setQuality_quality (q : Nat) : (s.setQuality q).quality = BitVec.ofNat 32 q := rfl
@[simp] theorem State.setQuality_emode (q : Nat) : (s.setQuality q).emode = s.emode := rfl
@[simp] theorem State.setQuality_tsize (q : Nat) : (s.setQuality q).tsize = s.tsize := rfl
@[simp] theorem State.setQuality_hstride (q : Nat) : (s.setQuality q).hstride = s.hstride := rfl
@[simp] theorem State.setQuality_ctxs (q : Nat) : (s.setQuality q).ctxs = s.ctxs := rfl
@[simp] theorem State.setQuality_canvas (q : Nat) : (s.setQuality q).canvas = s.canvas := rfl
@[simp] theorem State.setQuality_hCpcStart (q : Nat) : (s.setQuality q).hCpcStart = s.hCpcStart := rfl
@[simp] theorem State.setQuality_irqEn (q : Nat) : (s.setQuality q).irqEn = s.irqEn := rfl
@[simp] theorem State.setQuality_irqPend (q : Nat) : (s.setQuality q).irqPend = s.irqPend := rfl
@[simp] theorem State.setQuality_resetPending (q : Nat) : (s.setQuality q).resetPending = s.resetPending := rfl
@[simp] theorem State.setQuality_draws (q : Nat) : (s.setQuality q).draws = s.draws := rfl
@[simp] theorem State.setQuality_moves (q : Nat) : (s.setQuality q).moves = s.moves := rfl

@[simp] theorem State.halt_cfg : (s.halt).cfg = s.cfg := rfl
@[simp] theorem State.halt_lmem : (s.halt).lmem = s.lmem := rfl
@[simp] theorem State.halt_descs : (s.halt).descs = s.descs := rfl
@[simp] theorem State.halt_res : (s.halt).res = s.res := rfl
@[simp] theorem State.halt_hash : (s.halt).hash = s.hash := rfl
@[simp] theorem State.halt_cpc : (s.halt).cpc = s.cpc := rfl
@[simp] theorem State.halt_engine : (s.halt).engine = .halted := rfl
@[simp] theorem State.halt_absorbed : (s.halt).absorbed = s.absorbed := rfl
@[simp] theorem State.halt_faultCode : (s.halt).faultCode = s.faultCode := rfl
@[simp] theorem State.halt_faultCpc : (s.halt).faultCpc = s.faultCpc := rfl
@[simp] theorem State.halt_faultInfo : (s.halt).faultInfo = s.faultInfo := rfl
@[simp] theorem State.halt_scale : (s.halt).scale = s.scale := rfl
@[simp] theorem State.halt_qtl : (s.halt).qtl = s.qtl := rfl
@[simp] theorem State.halt_qtc : (s.halt).qtc = s.qtc := rfl
@[simp] theorem State.halt_quality : (s.halt).quality = s.quality := rfl
@[simp] theorem State.halt_emode : (s.halt).emode = s.emode := rfl
@[simp] theorem State.halt_tsize : (s.halt).tsize = s.tsize := rfl
@[simp] theorem State.halt_hstride : (s.halt).hstride = s.hstride := rfl
@[simp] theorem State.halt_ctxs : (s.halt).ctxs = s.ctxs := rfl
@[simp] theorem State.halt_canvas : (s.halt).canvas = s.canvas := rfl
@[simp] theorem State.halt_hCpcStart : (s.halt).hCpcStart = s.hCpcStart := rfl
@[simp] theorem State.halt_irqEn : (s.halt).irqEn = s.irqEn := rfl
@[simp] theorem State.halt_irqPend : (s.halt).irqPend = true := rfl
@[simp] theorem State.halt_resetPending : (s.halt).resetPending = s.resetPending := rfl
@[simp] theorem State.halt_draws : (s.halt).draws = s.draws := rfl
@[simp] theorem State.halt_moves : (s.halt).moves = s.moves := rfl

@[simp] theorem State.clearFault_cfg : (s.clearFault).cfg = s.cfg := rfl
@[simp] theorem State.clearFault_lmem : (s.clearFault).lmem = s.lmem := rfl
@[simp] theorem State.clearFault_descs : (s.clearFault).descs = s.descs := rfl
@[simp] theorem State.clearFault_res : (s.clearFault).res = s.res := rfl
@[simp] theorem State.clearFault_hash : (s.clearFault).hash = s.hash := rfl
@[simp] theorem State.clearFault_cpc : (s.clearFault).cpc = s.cpc := rfl
@[simp] theorem State.clearFault_engine : (s.clearFault).engine = s.engine := rfl
@[simp] theorem State.clearFault_absorbed : (s.clearFault).absorbed = s.absorbed := rfl
@[simp] theorem State.clearFault_faultCode : (s.clearFault).faultCode = 0 := rfl
@[simp] theorem State.clearFault_faultCpc : (s.clearFault).faultCpc = 0 := rfl
@[simp] theorem State.clearFault_faultInfo : (s.clearFault).faultInfo = 0 := rfl
@[simp] theorem State.clearFault_scale : (s.clearFault).scale = s.scale := rfl
@[simp] theorem State.clearFault_qtl : (s.clearFault).qtl = s.qtl := rfl
@[simp] theorem State.clearFault_qtc : (s.clearFault).qtc = s.qtc := rfl
@[simp] theorem State.clearFault_quality : (s.clearFault).quality = s.quality := rfl
@[simp] theorem State.clearFault_emode : (s.clearFault).emode = s.emode := rfl
@[simp] theorem State.clearFault_tsize : (s.clearFault).tsize = s.tsize := rfl
@[simp] theorem State.clearFault_hstride : (s.clearFault).hstride = s.hstride := rfl
@[simp] theorem State.clearFault_ctxs : (s.clearFault).ctxs = s.ctxs := rfl
@[simp] theorem State.clearFault_canvas : (s.clearFault).canvas = s.canvas := rfl
@[simp] theorem State.clearFault_hCpcStart : (s.clearFault).hCpcStart = s.hCpcStart := rfl
@[simp] theorem State.clearFault_irqEn : (s.clearFault).irqEn = s.irqEn := rfl
@[simp] theorem State.clearFault_irqPend : (s.clearFault).irqPend = s.irqPend := rfl
@[simp] theorem State.clearFault_resetPending : (s.clearFault).resetPending = s.resetPending := rfl
@[simp] theorem State.clearFault_draws : (s.clearFault).draws = s.draws := rfl
@[simp] theorem State.clearFault_moves : (s.clearFault).moves = s.moves := rfl

@[simp] theorem takeFault_cfg (code : FaultCode) (info : Word) (drawn : List (Nat × Nat)) : (takeFault code info drawn s).cfg = s.cfg := rfl
@[simp] theorem takeFault_lmem (code : FaultCode) (info : Word) (drawn : List (Nat × Nat)) : (takeFault code info drawn s).lmem = drawRanges s.draws s.lmem drawn := rfl
@[simp] theorem takeFault_descs (code : FaultCode) (info : Word) (drawn : List (Nat × Nat)) : (takeFault code info drawn s).descs = s.descs := rfl
@[simp] theorem takeFault_res (code : FaultCode) (info : Word) (drawn : List (Nat × Nat)) : (takeFault code info drawn s).res = s.res := rfl
@[simp] theorem takeFault_hash (code : FaultCode) (info : Word) (drawn : List (Nat × Nat)) : (takeFault code info drawn s).hash = s.hash := rfl
@[simp] theorem takeFault_cpc (code : FaultCode) (info : Word) (drawn : List (Nat × Nat)) : (takeFault code info drawn s).cpc = s.cpc := rfl
@[simp] theorem takeFault_engine (code : FaultCode) (info : Word) (drawn : List (Nat × Nat)) : (takeFault code info drawn s).engine = .faulted := rfl
@[simp] theorem takeFault_absorbed (code : FaultCode) (info : Word) (drawn : List (Nat × Nat)) : (takeFault code info drawn s).absorbed = s.absorbed := rfl
@[simp] theorem takeFault_faultCode (code : FaultCode) (info : Word) (drawn : List (Nat × Nat)) : (takeFault code info drawn s).faultCode = code.code := rfl
@[simp] theorem takeFault_faultCpc (code : FaultCode) (info : Word) (drawn : List (Nat × Nat)) : (takeFault code info drawn s).faultCpc = s.cpc := rfl
@[simp] theorem takeFault_faultInfo (code : FaultCode) (info : Word) (drawn : List (Nat × Nat)) : (takeFault code info drawn s).faultInfo = info := rfl
@[simp] theorem takeFault_scale (code : FaultCode) (info : Word) (drawn : List (Nat × Nat)) : (takeFault code info drawn s).scale = s.scale := rfl
@[simp] theorem takeFault_qtl (code : FaultCode) (info : Word) (drawn : List (Nat × Nat)) : (takeFault code info drawn s).qtl = s.qtl := rfl
@[simp] theorem takeFault_qtc (code : FaultCode) (info : Word) (drawn : List (Nat × Nat)) : (takeFault code info drawn s).qtc = s.qtc := rfl
@[simp] theorem takeFault_quality (code : FaultCode) (info : Word) (drawn : List (Nat × Nat)) : (takeFault code info drawn s).quality = s.quality := rfl
@[simp] theorem takeFault_emode (code : FaultCode) (info : Word) (drawn : List (Nat × Nat)) : (takeFault code info drawn s).emode = s.emode := rfl
@[simp] theorem takeFault_tsize (code : FaultCode) (info : Word) (drawn : List (Nat × Nat)) : (takeFault code info drawn s).tsize = s.tsize := rfl
@[simp] theorem takeFault_hstride (code : FaultCode) (info : Word) (drawn : List (Nat × Nat)) : (takeFault code info drawn s).hstride = s.hstride := rfl
@[simp] theorem takeFault_ctxs (code : FaultCode) (info : Word) (drawn : List (Nat × Nat)) : (takeFault code info drawn s).ctxs = s.ctxs := rfl
@[simp] theorem takeFault_canvas (code : FaultCode) (info : Word) (drawn : List (Nat × Nat)) : (takeFault code info drawn s).canvas = s.canvas := rfl
@[simp] theorem takeFault_hCpcStart (code : FaultCode) (info : Word) (drawn : List (Nat × Nat)) : (takeFault code info drawn s).hCpcStart = s.hCpcStart := rfl
@[simp] theorem takeFault_irqEn (code : FaultCode) (info : Word) (drawn : List (Nat × Nat)) : (takeFault code info drawn s).irqEn = s.irqEn := rfl
@[simp] theorem takeFault_irqPend (code : FaultCode) (info : Word) (drawn : List (Nat × Nat)) : (takeFault code info drawn s).irqPend = true := rfl
@[simp] theorem takeFault_resetPending (code : FaultCode) (info : Word) (drawn : List (Nat × Nat)) : (takeFault code info drawn s).resetPending = s.resetPending := rfl
@[simp] theorem takeFault_draws (code : FaultCode) (info : Word) (drawn : List (Nat × Nat)) : (takeFault code info drawn s).draws = if drawn.isEmpty then s.draws else s.draws + 1 := rfl
@[simp] theorem takeFault_moves (code : FaultCode) (info : Word) (drawn : List (Nat × Nat)) : (takeFault code info drawn s).moves = s.moves := rfl

@[simp] theorem State.softReset_cfg : (s.softReset).cfg = s.cfg := rfl
@[simp] theorem State.softReset_lmem : (s.softReset).lmem = s.lmem := rfl
@[simp] theorem State.softReset_descs : (s.softReset).descs = tabulate 16 fun _ => Desc.zero := rfl
@[simp] theorem State.softReset_res : (s.softReset).res = tabulate 8 fun _ => 0 := rfl
@[simp] theorem State.softReset_hash : (s.softReset).hash = 0 := rfl
@[simp] theorem State.softReset_cpc : (s.softReset).cpc = 0 := rfl
@[simp] theorem State.softReset_engine : (s.softReset).engine = .idle := rfl
@[simp] theorem State.softReset_absorbed : (s.softReset).absorbed = true := rfl
@[simp] theorem State.softReset_faultCode : (s.softReset).faultCode = 0 := rfl
@[simp] theorem State.softReset_faultCpc : (s.softReset).faultCpc = 0 := rfl
@[simp] theorem State.softReset_faultInfo : (s.softReset).faultInfo = 0 := rfl
@[simp] theorem State.softReset_scale : (s.softReset).scale = resetScale := rfl
@[simp] theorem State.softReset_qtl : (s.softReset).qtl = resetQtl := rfl
@[simp] theorem State.softReset_qtc : (s.softReset).qtc = resetQtc := rfl
@[simp] theorem State.softReset_quality : (s.softReset).quality = 50 := rfl
@[simp] theorem State.softReset_emode : (s.softReset).emode = 1 := rfl
@[simp] theorem State.softReset_tsize : (s.softReset).tsize = 32 := rfl
@[simp] theorem State.softReset_hstride : (s.softReset).hstride = 2 := rfl
@[simp] theorem State.softReset_ctxs : (s.softReset).ctxs = List.replicate s.cfg.nHctx HashContext.invalid := rfl
@[simp] theorem State.softReset_canvas : (s.softReset).canvas = Canvas.empty := rfl
@[simp] theorem State.softReset_hCpcStart : (s.softReset).hCpcStart = 0 := rfl
@[simp] theorem State.softReset_irqEn : (s.softReset).irqEn = false := rfl
@[simp] theorem State.softReset_irqPend : (s.softReset).irqPend = false := rfl
@[simp] theorem State.softReset_resetPending : (s.softReset).resetPending = false := rfl
@[simp] theorem State.softReset_draws : (s.softReset).draws = s.draws := rfl
@[simp] theorem State.softReset_moves : (s.softReset).moves = s.moves := rfl

end Sys2Proof.Machine
end

