-- ==== Sys2Proof/Laws/Checks.lean ====
section
/-! SUPPORT. When each check passes and what a failed one raises; what the end of a command does; one lemma for each
shared operation, to cite instead of unfolding it. -/

namespace Sys2Proof.Machine

/-! Sequencing -/

/-- A sequence of two computations succeeds exactly when both do. -/
theorem checked_bind_eq_ok {α β : Type} (x : Checked α) (f : α → Checked β) (y : β) :
    (x >>= f) = .ok y ↔ ∃ a, x = .ok a ∧ f a = .ok y := by
  cases x with
  | error e => simp [Bind.bind, Except.bind]
  | ok a => simp [Bind.bind, Except.bind]

/-- Every check answers the one value of its type. -/
theorem exists_unit {p : Unit → Prop} : (∃ a, p a) ↔ p () := ⟨fun ⟨_, h⟩ => h, fun h => ⟨_, h⟩⟩

/-- A sequence of two computations raises what the first raises, or what the second does after it. -/
theorem checked_bind_eq_error {α β : Type} (x : Checked α) (f : α → Checked β) (e : Raise) :
    (x >>= f) = .error e ↔ x = .error e ∨ ∃ a, x = .ok a ∧ f a = .error e := by
  cases x with
  | error e => simp [Bind.bind, Except.bind]
  | ok a => simp [Bind.bind, Except.bind]

theorem checked_bind_ok {α β : Type} (a : α) (f : α → Checked β) : ((Except.ok a : Checked α) >>= f) = f a := rfl

theorem checked_bind_error {α β : Type} (e : Raise) (f : α → Checked β) :
    ((Except.error e : Checked α) >>= f) = .error e := rfl

/-! Raising -/

theorem raiseWhen_pos {bad : Prop} [Decidable bad] {code : FaultCode} (h : bad) :
    raiseWhen bad code = .error ⟨code, []⟩ := if_pos h

theorem raiseWhen_neg {bad : Prop} [Decidable bad] {code : FaultCode} (h : ¬ bad) : raiseWhen bad code = .ok () :=
  if_neg h

theorem raiseWhen_eq_ok {bad : Prop} [Decidable bad] {code : FaultCode} : raiseWhen bad code = .ok () ↔ ¬ bad := by
  unfold raiseWhen
  split <;> simp_all

theorem raiseWhen_eq_error {bad : Prop} [Decidable bad] {code : FaultCode} {e : Raise} :
    raiseWhen bad code = .error e ↔ bad ∧ e = ⟨code, []⟩ := by
  unfold raiseWhen
  split <;> simp_all [eq_comm]

theorem drawWhen_eq_ok {bad : Prop} [Decidable bad] {code : FaultCode} {drawn : List (Nat × Nat)} :
    drawWhen bad code drawn = .ok () ↔ ¬ bad := by
  unfold drawWhen
  split <;> simp_all

theorem drawWhen_eq_error {bad : Prop} [Decidable bad] {code : FaultCode} {drawn : List (Nat × Nat)} {e : Raise} :
    drawWhen bad code drawn = .error e ↔ bad ∧ e = ⟨code, drawn⟩ := by
  unfold drawWhen
  split <;> simp_all [eq_comm]

theorem orDraw_eq_ok {α : Type} {drawn : List (Nat × Nat)} {r : Except FaultCode α} {x : α} :
    orDraw drawn r = .ok x ↔ r = .ok x := by
  cases r <;> simp [orDraw]

theorem orDraw_eq_error {α : Type} {drawn : List (Nat × Nat)} {r : Except FaultCode α} {e : Raise} :
    orDraw drawn r = .error e ↔ ∃ code, r = .error code ∧ e = ⟨code, drawn⟩ := by
  cases r <;> simp [orDraw, eq_comm]

/-! The checks of the operand views -/

theorem matDesc_eq_ok {s : State} {d : Desc} : matDesc s d = .ok () ↔ d.matrixOk s.cfg.lmemBytes := by
  simp only [matDesc, checked_bind_eq_ok, raiseWhen_eq_ok, Desc.matrixOk, exists_unit]
  omega

/-- What `MatDesc` raises, in its order (10_state R102). -/
theorem matDesc_eq_error {s : State} {d : Desc} {e : Raise} :
    matDesc s d = .error e ↔
      ((d.base.toNat % 4 ≠ 0 ∨ d.pitch.toNat % 4 ≠ 0) ∧ e = ⟨.align, []⟩) ∨
      ((d.base.toNat % 4 = 0 ∧ d.pitch.toNat % 4 = 0 ∧ 1 < d.rows.toNat ∧ d.pitch.toNat < 4 * d.cols.toNat) ∧
        e = ⟨.dimension, []⟩) ∨
      ((d.base.toNat % 4 = 0 ∧ d.pitch.toNat % 4 = 0 ∧ (1 < d.rows.toNat → 4 * d.cols.toNat ≤ d.pitch.toNat) ∧
        0 < d.rows.toNat ∧ 0 < d.cols.toNat ∧
        s.cfg.lmemBytes < d.base.toNat + (d.rows.toNat - 1) * d.pitch.toNat + 4 * d.cols.toNat) ∧
        e = ⟨.bounds, []⟩) := by
  simp only [matDesc, checked_bind_eq_error, raiseWhen_eq_ok, raiseWhen_eq_error, exists_unit, and_or_left]
  constructor
  · rintro (h | ⟨h1, h, he⟩ | ⟨h1, h2, h, he⟩)
    · exact .inl h
    · exact .inr (.inl ⟨by omega, he⟩)
    · exact .inr (.inr ⟨by omega, he⟩)
  · rintro (h | ⟨h, he⟩ | ⟨h, he⟩)
    · exact .inl h
    · exact .inr (.inl ⟨by omega, by omega, he⟩)
    · exact .inr (.inr ⟨by omega, by omega, by omega, he⟩)

theorem seqDesc_eq_ok {s : State} {d : Desc} : seqDesc s d = .ok () ↔ d.sequenceOk s.cfg.lmemBytes := by
  simp only [seqDesc, checked_bind_eq_ok, raiseWhen_eq_ok, Desc.sequenceOk, exists_unit]
  omega

theorem strDesc_eq_ok {s : State} {d : Desc} : strDesc s d = .ok () ↔ d.streamOk s.cfg.lmemBytes := by
  simp only [strDesc, raiseWhen_eq_ok, Desc.streamOk]
  omega

theorem blockCheck_eq_ok {d : Desc} {r c : Nat} : blockCheck d r c = .ok () ↔ d.holdsBlock r c := by
  simp only [blockCheck, checked_bind_eq_ok, raiseWhen_eq_ok, Desc.holdsBlock, exists_unit]
  omega

theorem windowCheck_eq_ok {d : Desc} {index : Nat} : windowCheck d index = .ok () ↔ d.holdsWindow index := by
  simp only [windowCheck, raiseWhen_eq_ok, Desc.holdsWindow]
  omega

theorem prefixCheck_eq_ok {d : Desc} {nblk : Nat} : prefixCheck d nblk = .ok () ↔ d.holdsBlocks nblk := by
  simp only [prefixCheck, raiseWhen_eq_ok, Desc.holdsBlocks]
  omega

theorem evenCheck_eq_ok {d : Desc} : evenCheck d = .ok () ↔ d.evenSides := by
  simp only [evenCheck, raiseWhen_eq_ok, Desc.evenSides]
  omega

theorem shapeCheck_eq_ok {d : Desc} {rows cols : Nat} : shapeCheck d rows cols = .ok () ↔ d.shaped rows cols := by
  simp [shapeCheck, raiseWhen_eq_ok, Desc.shaped, Desc.hasShape]

theorem tileShapeCheck_eq_ok {d : Desc} : tileShapeCheck d = .ok () ↔ d.tileSides := by
  simp only [tileShapeCheck, raiseWhen_eq_ok, Desc.tileSides]
  omega

/-! The overlap rule -/

theorem meets_eq_false {f g : Footprint} : f.meets g = false ↔ f.apart g := by
  rw [← Bool.not_eq_true]
  simp only [Footprint.meets, Footprint.apart, Bool.and_eq_true, bne_iff_ne, Nat.blt_eq]
  omega

/-- One output: it is apart from every input (20_memory R209). -/
theorem overlapCheck_one_eq_ok {ins : List Footprint} {o : Footprint} :
    overlapCheck ins [o] = .ok () ↔ ∀ f ∈ ins, o.apart f := by
  simp [overlapCheck, raiseWhen_eq_ok, anyMeet, ← meets_eq_false]

/-- Three outputs: each is apart from every input and from the other two (20_memory R209). -/
theorem overlapCheck_three_eq_ok {ins : List Footprint} {o p q : Footprint} :
    overlapCheck ins [o, p, q] = .ok () ↔
      (∀ f ∈ ins, o.apart f ∧ p.apart f ∧ q.apart f) ∧ o.apart p ∧ o.apart q ∧ p.apart q := by
  simp only [overlapCheck, raiseWhen_eq_ok, anyMeet, List.any_cons, List.any_nil, Bool.or_false, Bool.not_eq_true,
    Bool.or_eq_false_iff, List.any_eq_false, meets_eq_false]
  constructor
  · rintro ⟨⟨h1, h2, h3⟩, ⟨h4, h5⟩, h6⟩
    exact ⟨fun f hf => ⟨h1 f hf, h2 f hf, h3 f hf⟩, h4, h5, h6⟩
  · rintro ⟨h, h4, h5, h6⟩
    exact ⟨⟨fun f hf => (h f hf).1, fun f hf => (h f hf).2.1, fun f hf => (h f hf).2.2⟩, ⟨h4, h5⟩, h6⟩

/-! The end of a command -/

theorem finish_ok (i : Instr) (s t : State) : finish i s (.ok t) = .next (t.advance i.length) := rfl

theorem finish_error (i : Instr) (s : State) (e : Raise) :
    finish i s (.error e) = .next (takeFault e.code i.header e.drawn s) := rfl

/-- A command always ends in a next state: it completes and CPC moves past it, or its fault is taken. -/
theorem finish_eq_next {i : Instr} {s t : State} {r : Checked State} :
    finish i s r = .next t ↔
      (∃ u, r = .ok u ∧ t = u.advance i.length) ∨
      (∃ e, r = .error e ∧ t = takeFault e.code i.header e.drawn s) := by
  cases r <;> simp [finish, eq_comm]

/-- Every fault code is one of 60_exceptions R901. -/
theorem faultCode_range (code : FaultCode) : 1 ≤ code.code.toNat ∧ code.code.toNat ≤ 0x11 := by
  cases code <;> decide

/-- A check fault changes only the fault registers, ENGINE_STATE and H_IRQ_PEND (60_exceptions R902, R903). -/
theorem takeFault_check (code : FaultCode) (info : Word) (s : State) :
    takeFault code info [] s = s.faultedWith code.code info := rfl

/-! A command's checks, in order -/

/-- Run checks in their order: nothing, or the fault of the first that fails. -/
def checked (cs : List Check) : Checked Unit :=
  match firstFault cs with
  | none => .ok ()
  | some code => .error ⟨code, []⟩

theorem firstFault_append (cs ds : List Check) :
    firstFault (cs ++ ds) = (firstFault cs).or (firstFault ds) := by
  induction cs with
  | nil => rfl
  | cons c cs ih =>
    simp only [List.cons_append, firstFault, ih]
    split <;> rfl

theorem checked_append (cs ds : List Check) : checked (cs ++ ds) = (checked cs >>= fun _ => checked ds) := by
  unfold checked
  rw [firstFault_append]
  cases firstFault cs <;> rfl

theorem checked_cons (c : Check) (cs : List Check) : checked (c :: cs) = (checked [c] >>= fun _ => checked cs) :=
  checked_append [c] cs

theorem raiseWhen_eq_checked (bad : Prop) [Decidable bad] (code : FaultCode) :
    raiseWhen bad code = checked [(decide bad, code)] := by
  by_cases h : bad <;> simp [raiseWhen, checked, firstFault, h]

/-- A check may be stated by any equivalent condition. -/
theorem raiseWhen_congr {p q : Prop} [Decidable p] [Decidable q] {code : FaultCode} (h : p ↔ q) :
    raiseWhen p code = raiseWhen q code := by
  by_cases hp : p
  · rw [raiseWhen_pos hp, raiseWhen_pos (h.mp hp)]
  · rw [raiseWhen_neg hp, raiseWhen_neg fun hq => hp (h.mpr hq)]

/-- Two checks with one fault are one check. -/
theorem raiseWhen_or (p q : Prop) [Decidable p] [Decidable q] (code : FaultCode) :
    (raiseWhen p code >>= fun _ => raiseWhen q code) = raiseWhen (p ∨ q) code := by
  by_cases hp : p
  · rw [raiseWhen_pos hp, raiseWhen_pos (bad := p ∨ q) (Or.inl hp), checked_bind_error]
  · rw [raiseWhen_neg hp, checked_bind_ok]
    exact raiseWhen_congr (by simp [hp])

theorem matDesc_eq_checked (s : State) (d : Desc) : matDesc s d = checked (matrixChecks s.cfg.lmemBytes d) := by
  simp only [matDesc, matrixChecks, raiseWhen_eq_checked, checked_cons _ (_ :: _), gt_iff_lt]

theorem seqDesc_eq_checked (s : State) (d : Desc) : seqDesc s d = checked (sequenceChecks s.cfg.lmemBytes d) := by
  simp only [seqDesc, sequenceChecks, raiseWhen_eq_checked, checked_cons _ (_ :: _), gt_iff_lt]

theorem strDesc_eq_checked (s : State) (d : Desc) : strDesc s d = checked (streamChecks s.cfg.lmemBytes d) := by
  simp only [strDesc, streamChecks, raiseWhen_eq_checked, gt_iff_lt]

theorem blockCheck_eq_checked (d : Desc) (r c : Nat) :
    blockCheck d r c = checked [(decide (¬ d.holdsBlock r c), .block)] := by
  simp only [blockCheck, raiseWhen_or, ← raiseWhen_eq_checked]
  exact raiseWhen_congr (by simp only [Desc.holdsBlock]; omega)

theorem windowCheck_eq_checked (d : Desc) (index : Nat) :
    windowCheck d index = checked [(decide (¬ d.holdsWindow index), .block)] := by
  rw [← raiseWhen_eq_checked]
  exact raiseWhen_congr (by simp only [Desc.holdsWindow]; omega)

theorem prefixCheck_eq_checked (d : Desc) (nblk : Nat) :
    prefixCheck d nblk = checked [(decide (¬ d.holdsBlocks nblk), .block)] := by
  rw [← raiseWhen_eq_checked]
  exact raiseWhen_congr (by simp only [Desc.holdsBlocks]; omega)

theorem tileShapeCheck_eq_checked (d : Desc) :
    tileShapeCheck d = checked [(decide (¬ d.tileSides), .dimension)] := by
  rw [← raiseWhen_eq_checked]
  exact raiseWhen_congr (by simp only [Desc.tileSides]; omega)

/-- The shape checks of a colour command are one check (41_color R453, R454). -/
theorem shapeChecks_eq_checked (a b c d : Desc) (rb cb rc cc rd cd : Nat) :
    (evenCheck a >>= fun _ => shapeCheck b rb cb >>= fun _ => shapeCheck c rc cc >>= fun _ => shapeCheck d rd cd) =
      checked [(decide (¬ (a.evenSides ∧ b.shaped rb cb ∧ c.shaped rc cc ∧ d.shaped rd cd)), .dimension)] := by
  simp only [evenCheck, shapeCheck, raiseWhen_or, ← raiseWhen_eq_checked]
  exact raiseWhen_congr (by simp only [Desc.evenSides, Desc.shaped, Desc.hasShape, Bool.and_eq_false_iff, beq_eq_false_iff_ne]; omega)

theorem anyMeet_eq_false (fs : List Footprint) : anyMeet fs = false ↔ fs.Pairwise Footprint.apart := by
  induction fs with
  | nil => simp [anyMeet]
  | cons f fs ih => simp [anyMeet, ih, ← meets_eq_false]

theorem overlapCheck_eq_checked (ins outs : List Footprint) :
    overlapCheck ins outs = checked (overlapChecks ins outs) := by
  unfold overlapCheck overlapChecks
  rw [← raiseWhen_eq_checked]
  refine raiseWhen_congr ?_
  rw [← Bool.not_eq_false, not_iff_not, Bool.or_eq_false_iff, anyMeet_eq_false]
  simp [← meets_eq_false]

theorem checked_bind_assoc {α β γ : Type} (x : Checked α) (f : α → Checked β) (g : β → Checked γ) :
    (x >>= f >>= g) = (x >>= fun a => f a >>= g) := by cases x <;> rfl

theorem checked_true (code : FaultCode) (cs : List Check) : checked ((true, code) :: cs) = .error ⟨code, []⟩ := rfl

theorem checked_false (code : FaultCode) (cs : List Check) : checked ((false, code) :: cs) = checked cs := rfl

/-- A command whose checks fail takes the fault of the first that does, and changes nothing else
(60_exceptions R902, R905). -/
theorem finish_checked_fault {i : Instr} {s : State} {cs : List Check} {code : FaultCode} {f : Unit → Checked State}
    (h : firstFault cs = some code) :
    finish i s (checked cs >>= f) = .next (s.faultedWith code.code i.header) := by
  unfold checked
  rw [h]
  rfl

/-- A command whose checks pass ends as the rest of its meaning does. -/
theorem finish_checked_pass {i : Instr} {s : State} {cs : List Check} {f : Unit → Checked State}
    (h : firstFault cs = none) : finish i s (checked cs >>= f) = finish i s (f ()) := by
  unfold checked
  rw [h]
  rfl

/-! The in-place block commands -/

/-- What a block command answers when it completes (42_dct R505). -/
theorem blockCommand_eq_ok {f : List (List Int) → Except FaultCode (List (List Int))} {d : Desc} {r c : Nat}
    {s t : State} :
    blockCommand f d r c s = .ok t ↔
      d.matrixOk s.cfg.lmemBytes ∧ d.holdsBlock r c ∧
      ∃ y, f (samples (readBlock s.lmem d r c)) = .ok y ∧
        t = s.setLmem (writeBlock s.lmem d r c (sampleWords y)) := by
  simp only [blockCommand, checked_bind_eq_ok, matDesc_eq_ok, blockCheck_eq_ok, orDraw_eq_ok, exists_unit]
  simp [pure, Except.pure, eq_comm]

end Sys2Proof.Machine
end

