-- ==== Sys2Proof/Laws/Memory.lean ====
section
/-! SUPPORT. What LMEM operations do, byte by byte and word by word, and that each keeps the canonical form. The laws of
reading and writing hold of every list of cells, canonical or not. -/

namespace Sys2Proof.Machine

/-! Bytes of a word -/

theorem wordBytes_length (w : Word) : (wordBytes w).length = 4 := rfl

theorem bytesOfWords_length (ws : List Word) : (bytesOfWords ws).length = 4 * ws.length := by
  induction ws with
  | nil => rfl
  | cons w ws ih =>
    simp only [bytesOfWords, List.flatMap_cons, List.length_append, wordBytes_length, List.length_cons] at ih ⊢
    omega

/-- The four bytes of a word, put together again, are the word. -/
theorem bytesWord_wordBytes (w : Word) :
    bytesWord (BitVec.ofNat 8 (bitField w.toNat 24 8)) (BitVec.ofNat 8 (bitField w.toNat 16 8))
      (BitVec.ofNat 8 (bitField w.toNat 8 8)) (BitVec.ofNat 8 (bitField w.toNat 0 8)) = w := by
  apply BitVec.eq_of_toNat_eq
  have h := w.isLt
  simp only [bytesWord, bitField, BitVec.toNat_ofNat]
  omega

/-- Byte `k` of a list of words is byte `k mod 4` of word `k div 4`. -/
theorem bytesOfWords_getD (ws : List Word) (k : Nat) (h : k < 4 * ws.length) :
    (bytesOfWords ws).getD k 0 = (wordBytes (ws.getD (k / 4) 0)).getD (k % 4) 0 := by
  induction ws generalizing k with
  | nil => simp at h
  | cons w ws ih =>
    have happ : bytesOfWords (w :: ws) = wordBytes w ++ bytesOfWords ws := rfl
    rw [happ]
    by_cases hk : k < 4
    · rw [List.getD_append _ _ _ _ (by simpa [wordBytes_length] using hk)]
      have h0 : k / 4 = 0 := by omega
      have h1 : k % 4 = k := by omega
      rw [h0, h1]
      rfl
    · rw [List.getD_append_right _ _ _ _ (by simp [wordBytes_length]; omega), wordBytes_length,
        ih (k - 4) (by simp only [List.length_cons] at h; omega)]
      have h0 : k / 4 = (k - 4) / 4 + 1 := by omega
      have h1 : (k - 4) % 4 = k % 4 := by omega
      rw [h0, h1]
      rfl

/-! Finding a byte -/

theorem find_append (m₁ m₂ : Memory) (x : Nat) :
    Memory.find (m₁ ++ m₂) x = (Memory.find m₁ x).or (Memory.find m₂ x) := by
  induction m₁ with
  | nil => simp [Memory.find]
  | cons c m ih =>
    by_cases h : c.1 = x <;> simp [Memory.find, h, ih]

theorem find_eq_none (m : Memory) (x : Nat) (h : ∀ c ∈ m, c.1 ≠ x) : Memory.find m x = none := by
  induction m with
  | nil => rfl
  | cons c m ih =>
    simp only [Memory.find, if_neg (h c (by simp)), ih fun d hd => h d (by simp [hd])]

theorem find_dropBelow (m : Memory) (a x : Nat) (h : a ≤ x) :
    Memory.find (Memory.dropBelow m a) x = Memory.find m x := by
  unfold Memory.dropBelow
  induction m with
  | nil => rfl
  | cons c m ih =>
    by_cases hc : c.1 < a
    · have hne : c.1 ≠ x := by omega
      rw [List.dropWhile_cons_of_pos (by simpa using hc), ih]
      simp [Memory.find, hne]
    · rw [List.dropWhile_cons_of_neg (by simpa using hc)]

theorem find_filter (p : Host.Cell → Bool) (m : Memory) (x : Nat) (h : ∀ c : Host.Cell, c.1 = x → p c = true) :
    Memory.find (m.filter p) x = Memory.find m x := by
  induction m with
  | nil => rfl
  | cons c m ih =>
    by_cases hp : p c = true
    · simp [hp, Memory.find, ih]
    · have hne : c.1 ≠ x := fun hx => hp (h c hx)
      simp [hp, Memory.find, ih, hne]

theorem find_cellsFrom (a : Nat) (bs : List Byte) (x : Nat) :
    Memory.find (cellsFrom a bs) x = if a ≤ x then bs[x - a]? else none := by
  induction bs generalizing a with
  | nil => simp [cellsFrom, Memory.find]
  | cons b bs ih =>
    simp only [cellsFrom, Memory.find, ih]
    by_cases hx : a = x
    · subst hx; simp
    · by_cases hle : a ≤ x
      · have h1 : a + 1 ≤ x := by omega
        have h2 : x - a = (x - (a + 1)) + 1 := by omega
        simp only [if_neg hx, if_pos h1, if_pos hle]
        rw [h2, List.getElem?_cons_succ]
      · simp [hx, hle]; omega

/-- A byte that a store writes is found; every other byte is found as before. -/
theorem find_store (m : Memory) (a : Nat) (bs : List Byte) (x : Nat) :
    Memory.find (Memory.store m a bs) x = if a ≤ x ∧ x < a + bs.length then bs[x - a]? else Memory.find m x := by
  have htake : x < a ∨ Memory.find (m.takeWhile fun c => Nat.blt c.1 a) x = none := by
    by_cases hx : x < a
    · exact .inl hx
    · refine .inr (find_eq_none _ _ fun c hc hcx => ?_)
      have := List.mem_takeWhile_imp hc
      simp at this
      omega
  have hsplit : Memory.find m x =
      (Memory.find (m.takeWhile fun c => Nat.blt c.1 a) x).or (Memory.find (Memory.dropBelow m a) x) := by
    rw [← find_append, Memory.dropBelow, List.takeWhile_append_dropWhile]
  unfold Memory.store
  rw [find_append, find_append, find_cellsFrom]
  by_cases hin : a ≤ x ∧ x < a + bs.length
  · have hnone : Memory.find (m.takeWhile fun c => Nat.blt c.1 a) x = none := by
      rcases htake with h | h
      · omega
      · exact h
    rw [if_pos hin, hnone, if_pos hin.1, List.getElem?_eq_getElem (by omega)]
    rfl
  · rw [if_neg hin, find_filter, hsplit]
    · by_cases hx : a ≤ x
      · have hno : bs[x - a]? = none := List.getElem?_eq_none (by omega)
        simp [hx, hno]
      · simp [hx]
    · intro c hc
      simp only [Bool.or_eq_true, Nat.blt_eq, Nat.ble_eq]
      omega

/-- Reading after a store: the byte written, or the byte that was there. -/
theorem read_store (m : Memory) (a : Nat) (bs : List Byte) (x : Nat) :
    (Memory.store m a bs).read x = if a ≤ x ∧ x < a + bs.length then bs.getD (x - a) 0 else m.read x := by
  unfold Memory.read
  rw [find_store]
  by_cases h : a ≤ x ∧ x < a + bs.length
  · have hlt : x - a < bs.length := by omega
    simp [h, hlt]
  · simp [h]

theorem read_store_inside (m : Memory) (a : Nat) (bs : List Byte) (k : Nat) (h : k < bs.length) :
    (Memory.store m a bs).read (a + k) = bs.getD k 0 := by
  rw [read_store, if_pos (by omega)]
  congr 1
  omega

theorem read_store_outside (m : Memory) (a : Nat) (bs : List Byte) (x : Nat) (h : x < a ∨ a + bs.length ≤ x) :
    (Memory.store m a bs).read x = m.read x := by
  rw [read_store, if_neg (by omega)]

/-! Loading -/

/-- A load is a read at each address. -/
theorem load_eq_map (m : Memory) (a n : Nat) :
    Memory.load m a n = (List.range n).map (fun k => m.read (a + k)) := by
  induction n generalizing m a with
  | zero => rfl
  | succ n ih =>
    have hread : ∀ x, a ≤ x → (Memory.dropBelow m a).read x = m.read x := fun x hx => by
      simp only [Memory.read, find_dropBelow m a x hx]
    rw [List.range_succ_eq_map, List.map_cons, List.map_map]
    simp only [Memory.load]
    split
    · rename_i hd
      have hnone : ∀ x, a ≤ x → m.read x = Config.powerOnByte x := fun x hx => by
        rw [← hread x hx, hd]; rfl
      rw [ih]
      simp only [Function.comp_def, Nat.add_zero, hnone a le_rfl]
      congr 1
      apply List.map_congr_left
      intro k _
      rw [hnone (a + k.succ) (by omega)]
      have : a + 1 + k = a + k.succ := by omega
      rw [this]
      rfl
    · rename_i c rest hd
      have htail : ∀ rest', (∀ x, a + 1 ≤ x → Memory.read rest' x = m.read x) →
          Memory.load rest' (a + 1) n = List.map ((fun k => m.read (a + k)) ∘ Nat.succ) (List.range n) := by
        intro rest' hr
        rw [ih]
        apply List.map_congr_left
        intro k _
        have : a + 1 + k = a + k.succ := by omega
        rw [hr _ (by omega), this]
        rfl
      split
      · rename_i hc
        have hhead : c.2 = m.read a := by
          rw [← hread a le_rfl, hd]
          simp [Memory.read, Memory.find, hc]
        rw [htail rest fun x hx => by
          rw [← hread x (by omega), hd]
          have hne : c.1 ≠ x := by omega
          simp [Memory.read, Memory.find, hne], hhead]
        rfl
      · rw [htail (c :: rest) fun x hx => by rw [← hread x (by omega), hd], ← hd, hread a le_rfl]
        rfl

theorem load_length (m : Memory) (a n : Nat) : (Memory.load m a n).length = n := by
  simp [load_eq_map]

theorem load_getD (m : Memory) (a n k : Nat) (h : k < n) : (Memory.load m a n).getD k 0 = m.read (a + k) := by
  simp [load_eq_map, h]

theorem load_append (m : Memory) (a n k : Nat) :
    Memory.load m a (n + k) = Memory.load m a n ++ Memory.load m (a + n) k := by
  simp only [load_eq_map, List.range_add, List.map_append, List.map_map, Function.comp_def, Nat.add_assoc]

/-- A load of words is a word at each address. -/
theorem loadWords_eq_map (m : Memory) (a n : Nat) :
    Memory.loadWords m a n = (List.range n).map (fun k => wordAt m (a + 4 * k)) := by
  induction n generalizing a with
  | zero => rfl
  | succ n ih =>
    have h4 : Memory.load m a 4 = [m.read a, m.read (a + 1), m.read (a + 2), m.read (a + 3)] := by
      simp [load_eq_map, List.range_succ]
    have hsplit : Memory.load m a (4 * (n + 1)) = Memory.load m a 4 ++ Memory.load m (a + 4) (4 * n) := by
      rw [← load_append]
      congr 1
      omega
    have htail := ih (a + 4)
    unfold Memory.loadWords at htail ⊢
    rw [hsplit, h4]
    simp only [List.cons_append, List.nil_append, wordsOfBytes, htail]
    rw [List.range_succ_eq_map, List.map_cons, List.map_map]
    refine congrArg₂ List.cons rfl ?_
    apply List.map_congr_left
    intro k _
    exact congrArg (wordAt m) (by simp only [Nat.succ_eq_add_one]; omega)

theorem loadWords_length (m : Memory) (a n : Nat) : (Memory.loadWords m a n).length = n := by
  simp [loadWords_eq_map]

/-- The rows of a region, word by word. -/
theorem loadRows_eq_map (m : Memory) (a pitch cols n : Nat) :
    Memory.loadRows m a pitch cols n =
      (List.range n).map (fun i => (List.range cols).map (fun j => wordAt m (a + i * pitch + 4 * j))) := by
  induction n generalizing a with
  | zero => rfl
  | succ n ih =>
    simp only [Memory.loadRows, ih, loadWords_eq_map]
    rw [List.range_succ_eq_map, List.map_cons, List.map_map]
    refine congrArg₂ List.cons (by simp) ?_
    · apply List.map_congr_left
      intro i _
      simp only [Function.comp_def]
      apply List.map_congr_left
      intro j _
      exact congrArg (wordAt m) (by rw [Nat.succ_eq_add_one, Nat.add_mul i 1 pitch]; omega)

/-- `readMatrix` reads MatAddr(d, i, j) for every element (00_scope R15). -/
theorem readMatrix_eq_map (m : Memory) (d : Desc) :
    readMatrix m d =
      (List.range d.rows.toNat).map (fun i => (List.range d.cols.toNat).map (fun j => elementAt m d i j)) := by
  unfold readMatrix
  rw [loadRows_eq_map]
  simp [elementAt, matAddr]

/-- `readBlock` reads MatAddr(d, r + i, c + j) (42_dct R505). -/
theorem readBlock_eq_map (m : Memory) (d : Desc) (r c : Nat) :
    readBlock m d r c =
      (List.range 8).map (fun i => (List.range 8).map (fun j => elementAt m d (r + i) (c + j))) := by
  unfold readBlock
  rw [loadRows_eq_map]
  apply List.map_congr_left
  intro i _
  apply List.map_congr_left
  intro j _
  exact congrArg (wordAt m) (by simp only [matAddr]; rw [Nat.add_mul]; omega)

/-- `readSeq` reads BASE + 4(k + i) (00_scope R15). -/
theorem readSeq_eq_map (m : Memory) (d : Desc) (k n : Nat) :
    readSeq m d k n = (List.range n).map (fun i => wordAt m (d.base.toNat + 4 * (k + i))) := by
  unfold readSeq
  rw [loadWords_eq_map]
  apply List.map_congr_left
  intro i _
  exact congrArg (wordAt m) (by omega)

/-- `readStream` reads BASE + k (00_scope R15). -/
theorem readStream_eq_map (m : Memory) (d : Desc) :
    readStream m d = (List.range d.len.toNat).map (fun k => m.read (d.base.toNat + k)) := load_eq_map ..

/-- The pixels of a matrix, as claims read them (20_memory R203). -/
theorem pixels_readMatrix (m : Memory) (d : Desc) : pixels (readMatrix m d) = pixelsOf m d := by
  simp [readMatrix_eq_map, pixels, pixelsOf, pixelAt, Function.comp_def]

/-- The words of a matrix, as claims read them. -/
theorem readMatrix_eq_wordsOf (m : Memory) (d : Desc) :
    readMatrix m d = wordsOf m d 0 0 d.rows.toNat d.cols.toNat := by
  simp [readMatrix_eq_map, wordsOf]

/-- The words of a block, as claims read them. -/
theorem readBlock_eq_wordsOf (m : Memory) (d : Desc) (r c : Nat) : readBlock m d r c = wordsOf m d r c 8 8 :=
  readBlock_eq_map m d r c

/-! Storing words -/

/-- Reading a word that a store of words wrote. -/
theorem wordAt_storeWords_inside (m : Memory) (a : Nat) (ws : List Word) (k : Nat) (h : k < ws.length) :
    wordAt (Memory.storeWords m a ws) (a + 4 * k) = ws.getD k 0 := by
  have hb : ∀ b, b < 4 → (Memory.storeWords m a ws).read (a + 4 * k + b) = (wordBytes (ws.getD k 0)).getD b 0 := by
    intro b hb
    unfold Memory.storeWords
    rw [Nat.add_assoc, read_store_inside _ _ _ _ (by rw [bytesOfWords_length]; omega),
      bytesOfWords_getD _ _ (by omega)]
    have h1 : (4 * k + b) / 4 = k := by omega
    have h2 : (4 * k + b) % 4 = b := by omega
    rw [h1, h2]
  have h0 := hb 0 (by omega)
  simp only [Nat.add_zero] at h0
  unfold wordAt
  rw [h0, hb 1 (by omega), hb 2 (by omega), hb 3 (by omega)]
  exact bytesWord_wordBytes _

/-- A store of words leaves every other byte alone. -/
theorem read_storeWords_outside (m : Memory) (a : Nat) (ws : List Word) (x : Nat)
    (h : x < a ∨ a + 4 * ws.length ≤ x) : (Memory.storeWords m a ws).read x = m.read x :=
  read_store_outside _ _ _ _ (by rw [bytesOfWords_length]; exact h)

/-- A store of rows leaves every byte outside the rows alone. -/
theorem read_storeRows_outside (m : Memory) (a pitch : Nat) (rows : List (List Word)) (x : Nat)
    (h : ∀ i, i < rows.length → x < a + i * pitch ∨ a + i * pitch + 4 * (rows.getD i []).length ≤ x) :
    (Memory.storeRows m a pitch rows).read x = m.read x := by
  induction rows generalizing m a with
  | nil => rfl
  | cons r rs ih =>
    have h0 := h 0 (by simp)
    simp only [Nat.zero_mul, Nat.add_zero, List.getD_cons_zero] at h0
    rw [Memory.storeRows, ih, read_storeWords_outside _ _ _ _ h0]
    intro i hi
    have := h (i + 1) (by simpa using hi)
    simp only [List.getD_cons_succ, Nat.succ_mul] at this
    omega

/-- Two words read alike where their bytes do. -/
theorem wordAt_congr (m m' : Memory) (a : Nat) (h : ∀ b, b < 4 → m'.read (a + b) = m.read (a + b)) :
    wordAt m' a = wordAt m a := by
  have h0 := h 0 (by omega)
  simp only [Nat.add_zero] at h0
  unfold wordAt
  rw [h0, h 1 (by omega), h 2 (by omega), h 3 (by omega)]

/-- Reading an element of rows that were stored `pitch` bytes apart, each no longer than `cols` words. -/
theorem wordAt_storeRows_inside (m : Memory) (a pitch : Nat) (rows : List (List Word)) (i j : Nat)
    (hp : 1 < rows.length → ∀ r ∈ rows, 4 * r.length ≤ pitch)
    (hi : i < rows.length) (hj : j < (rows.getD i []).length) :
    wordAt (Memory.storeRows m a pitch rows) (a + i * pitch + 4 * j) = cellAt rows 0 i j := by
  induction rows generalizing m a i with
  | nil => simp at hi
  | cons r rs ih =>
    rw [Memory.storeRows]
    cases i with
    | zero =>
      simp only [List.getD_cons_zero] at hj
      simp only [Nat.zero_mul, Nat.add_zero, cellAt, List.getD_cons_zero]
      rw [← wordAt_storeWords_inside m a r j hj]
      apply wordAt_congr
      intro b hb
      apply read_storeRows_outside
      intro k hk
      left
      have := hp (by simp only [List.length_cons]; omega) r (by simp)
      omega
    | succ i =>
      simp only [List.getD_cons_succ] at hj
      have hlen : i < rs.length := by simpa using hi
      have heq : a + (i + 1) * pitch + 4 * j = a + pitch + i * pitch + 4 * j := by rw [Nat.succ_mul]; omega
      rw [heq, ih _ (a + pitch) i (fun h1 q hq => hp (by simp only [List.length_cons]; omega) q (by simp [hq])) hlen hj]
      simp [cellAt]

/-! The canonical form -/

theorem mem_cellsFrom (a : Nat) (bs : List Byte) (c : Host.Cell) (h : c ∈ cellsFrom a bs) :
    a ≤ c.1 ∧ c.1 < a + bs.length := by
  induction bs generalizing a with
  | nil => simp [cellsFrom] at h
  | cons b bs ih =>
    simp only [cellsFrom, List.mem_cons] at h
    rcases h with rfl | h
    · simp
    · have := ih _ h
      simp only [List.length_cons]
      omega

theorem cellsFrom_wf (a : Nat) (bs : List Byte) : Memory.wf (cellsFrom a bs) := by
  induction bs generalizing a with
  | nil => exact List.Pairwise.nil
  | cons b bs ih =>
    refine List.Pairwise.cons (fun c hc => ?_) (ih _)
    have := mem_cellsFrom _ _ _ hc
    simp only
    omega

theorem mem_dropBelow (m : Memory) (a : Nat) (c : Host.Cell) (h : c ∈ Memory.dropBelow m a) : c ∈ m :=
  (List.dropWhile_sublist _).mem h

/-- In a canonical memory, what is left after dropping the cells below `a` lies at `a` or above. -/
theorem dropBelow_ge (m : Memory) (a : Nat) (hm : m.wf) (c : Host.Cell) (h : c ∈ Memory.dropBelow m a) : a ≤ c.1 := by
  unfold Memory.dropBelow at h
  induction m with
  | nil => simp at h
  | cons d m ih =>
    have hw := List.pairwise_cons.mp hm
    by_cases hd : d.1 < a
    · rw [List.dropWhile_cons_of_pos (by simpa using hd)] at h
      exact ih hw.2 h
    · rw [List.dropWhile_cons_of_neg (by simpa using hd)] at h
      rcases List.mem_cons.mp h with rfl | hc
      · omega
      · have := hw.1 c hc
        omega

/-- A store keeps the canonical form (log 3). -/
theorem store_wf (m : Memory) (a : Nat) (bs : List Byte) (hm : m.wf) : Memory.wf (Memory.store m a bs) := by
  unfold Memory.store
  have hfilter : ∀ c ∈ (Memory.dropBelow m a).filter (fun c => Nat.blt c.1 a || Nat.ble (a + bs.length) c.1),
      a + bs.length ≤ c.1 := by
    intro c hc
    have ⟨hc1, hc2⟩ := List.mem_filter.mp hc
    have := dropBelow_ge m a hm c hc1
    simp only [Bool.or_eq_true, Nat.blt_eq, Nat.ble_eq] at hc2
    omega
  have htake : ∀ c ∈ m.takeWhile (fun c => Nat.blt c.1 a), c.1 < a := by
    intro c hc
    simpa using List.mem_takeWhile_imp hc
  refine List.pairwise_append.mpr ⟨List.pairwise_append.mpr ⟨?_, cellsFrom_wf a bs, ?_⟩, ?_, ?_⟩
  · exact hm.sublist (List.takeWhile_sublist _)
  · intro c hc d hd
    have := htake c hc
    have := mem_cellsFrom a bs d hd
    omega
  · exact (hm.sublist (List.dropWhile_sublist _)).sublist List.filter_sublist
  · intro c hc d hd
    have := hfilter d hd
    rcases List.mem_append.mp hc with h | h
    · have := htake c h
      omega
    · have := mem_cellsFrom a bs c h
      omega

/-- A cell after a store was there before, or lies in the bytes stored. -/
theorem mem_store (m : Memory) (a : Nat) (bs : List Byte) (c : Host.Cell) (h : c ∈ Memory.store m a bs) :
    c ∈ m ∨ (a ≤ c.1 ∧ c.1 < a + bs.length) := by
  unfold Memory.store at h
  rcases List.mem_append.mp h with h | h
  · rcases List.mem_append.mp h with h | h
    · exact .inl ((List.takeWhile_sublist _).mem h)
    · exact .inr (mem_cellsFrom a bs c h)
  · exact .inl (mem_dropBelow m a c (List.mem_of_mem_filter h))

theorem storeWords_wf (m : Memory) (a : Nat) (ws : List Word) (hm : m.wf) : Memory.wf (Memory.storeWords m a ws) :=
  store_wf _ _ _ hm

theorem storeRows_wf (m : Memory) (a pitch : Nat) (rows : List (List Word)) (hm : m.wf) :
    Memory.wf (Memory.storeRows m a pitch rows) := by
  induction rows generalizing m a with
  | nil => exact hm
  | cons r rs ih => exact ih _ _ (storeWords_wf m a r hm)

theorem drawRanges_wf (n : Nat) (m : Memory) (drawn : List (Nat × Nat)) (hm : m.wf) :
    Memory.wf (drawRanges n m drawn) := by
  unfold drawRanges
  induction drawn generalizing m with
  | nil => exact hm
  | cons r rs ih => exact ih _ (store_wf _ _ _ hm)

/-- The memory of the reset state is canonical. -/
theorem reset_lmem_wf : State.reset.lmem.wf := List.Pairwise.nil

/-- Drawing the bytes of some ranges leaves every byte outside them alone (20_memory R217). -/
theorem read_drawRanges_outside (n : Nat) (m : Memory) (drawn : List (Nat × Nat)) (x : Nat)
    (h : ∀ r ∈ drawn, x < r.1 ∨ r.1 + r.2 ≤ x) : (drawRanges n m drawn).read x = m.read x := by
  unfold drawRanges
  induction drawn generalizing m with
  | nil => rfl
  | cons r rs ih =>
    rw [List.foldl_cons, ih _ fun q hq => h q (by simp [hq]), read_store_outside]
    have := h r (by simp)
    simpa [drawnBytes] using this

end Sys2Proof.Machine
end

