-- ==== Sys2Proof/Laws/Commands.lean ====
section
/-! SUPPORT. Every command begins with its checks, in the order of its rule: one lemma per command, to cite instead of
unfolding its meaning where a check fails. -/

namespace Sys2Proof.Machine

/-- A command ends by its checks (`checks`, 60_exceptions R905) and, when they pass, by the rest of its meaning. -/
def beginsWith (i : Instr) (s : State) : Prop :=
  ∃ body : Checked State, exec i s = finish i s (checked (checks i s) >>= fun _ => body)

theorem begins_noCheck {i : Instr} {s t : State} (hc : checks i s = []) (h : exec i s = finish i s (.ok t)) :
    beginsWith i s := ⟨.ok t, by rw [h, hc]; rfl⟩

theorem fdct_checks (a r c s) : beginsWith (.fdct a r c) s := by
  apply Exists.intro
  simp only [exec, execFdct, checks, checked_append, checked_bind_assoc, blockCommand, matDesc_eq_checked,
    blockCheck_eq_checked]
  rfl

theorem idct_checks (a r c s) : beginsWith (.idct a r c) s := by
  apply Exists.intro
  simp only [exec, execIdct, checks, checked_append, checked_bind_assoc, blockCommand, matDesc_eq_checked,
    blockCheck_eq_checked]
  rfl

theorem quant_checks (ch a r c s) : beginsWith (.quant ch a r c) s := by
  apply Exists.intro
  simp only [exec, execQuant, checks, checked_append, checked_bind_assoc, blockCommand, matDesc_eq_checked,
    blockCheck_eq_checked]
  rfl

theorem dequant_checks (ch a r c s) : beginsWith (.dequant ch a r c) s := by
  apply Exists.intro
  simp only [exec, execDequant, checks, checked_append, checked_bind_assoc, blockCommand, matDesc_eq_checked,
    blockCheck_eq_checked]
  rfl

theorem zigzag_checks (a b r c index s) : beginsWith (.zigzag a b r c index) s := by
  apply Exists.intro
  simp only [exec, execZigzag, checks, checked_append, checked_cons _ (_ :: _), checked_bind_assoc,
    matDesc_eq_checked, seqDesc_eq_checked, blockCheck_eq_checked, windowCheck_eq_checked, overlapCheck_eq_checked,
    ge_iff_le]
  rfl

theorem unzigzag_checks (a b index r c s) : beginsWith (.unzigzag a b index r c) s := by
  apply Exists.intro
  simp only [exec, execUnzigzag, checks, checked_append, checked_cons _ (_ :: _), checked_bind_assoc,
    matDesc_eq_checked, seqDesc_eq_checked, blockCheck_eq_checked, windowCheck_eq_checked, overlapCheck_eq_checked,
    ge_iff_le]
  rfl

theorem enc_checks (a b nblk s) : beginsWith (.enc a b nblk) s := by
  apply Exists.intro
  simp only [exec, execEnc, checks, checked_append, checked_bind_assoc, seqDesc_eq_checked, strDesc_eq_checked,
    prefixCheck_eq_checked, overlapCheck_eq_checked, gt_iff_lt, ge_iff_le]
  rfl

theorem dec_checks (a b nblk s) : beginsWith (.dec a b nblk) s := by
  apply Exists.intro
  simp only [exec, execDec, checks, checked_append, checked_bind_assoc, seqDesc_eq_checked, strDesc_eq_checked,
    prefixCheck_eq_checked, overlapCheck_eq_checked, ge_iff_le]
  rfl

theorem rgb2ycc_checks (a b c d s) : beginsWith (.rgb2ycc a b c d) s := by
  apply Exists.intro
  simp only [exec, execRgb2ycc, checks, checked_append, checked_bind_assoc, ← shapeChecks_eq_checked,
    matDesc_eq_checked, overlapCheck_eq_checked]
  rfl

theorem ycc2rgb_checks (a b c d s) : beginsWith (.ycc2rgb a b c d) s := by
  apply Exists.intro
  simp only [exec, execYcc2rgb, checks, checked_append, checked_bind_assoc, ← shapeChecks_eq_checked,
    matDesc_eq_checked, overlapCheck_eq_checked]
  rfl

theorem scale_checks (a b s) : beginsWith (.scale a b) s := by
  apply Exists.intro
  simp only [exec, execScale, checks, checked_append, checked_bind_assoc, matDesc_eq_checked, overlapCheck_eq_checked,
    raiseWhen_eq_checked]
  rfl

theorem tenc_checks (a b s) : beginsWith (.tenc a b) s := by
  apply Exists.intro
  simp only [exec, execTenc, checks, checked_append, checked_bind_assoc, matDesc_eq_checked, strDesc_eq_checked,
    tileShapeCheck_eq_checked, overlapCheck_eq_checked, gt_iff_lt]
  rfl

theorem tdec_checks (a b s) : beginsWith (.tdec a b) s := by
  apply Exists.intro
  simp only [exec, execTdec, checks, checked_append, checked_bind_assoc, matDesc_eq_checked, strDesc_eq_checked,
    tileShapeCheck_eq_checked, overlapCheck_eq_checked]
  rfl

theorem hash_checks (a s) : beginsWith (.hash a) s := by
  apply Exists.intro
  simp only [exec, execHash, checks, matDesc_eq_checked]
  rfl

theorem diff_checks (a b ctx s) : beginsWith (.diff a b ctx) s := by
  apply Exists.intro
  simp only [exec, execDiff, checks, checked_append, checked_cons _ (_ :: _), checked_bind_assoc, matDesc_eq_checked,
    strDesc_eq_checked, tileShapeCheck_eq_checked, overlapCheck_eq_checked, raiseWhen_eq_checked, gt_iff_lt, ge_iff_le]
  rfl

theorem full_checks (a b s) : beginsWith (.full a b) s := by
  apply Exists.intro
  simp only [exec, execFull, checks, checked_append, checked_bind_assoc, matDesc_eq_checked, strDesc_eq_checked,
    tileShapeCheck_eq_checked, overlapCheck_eq_checked, gt_iff_lt]
  rfl

theorem hctxrst_checks (ctx s) : beginsWith (.hctxrst ctx) s := by
  apply Exists.intro
  simp only [exec, execHctxrst, checks, raiseWhen_eq_checked, ge_iff_le]
  rfl

theorem cvset_checks (a s) : beginsWith (.cvset a) s := by
  apply Exists.intro
  simp only [exec, execCvset, checks, checked_append, checked_bind_assoc, matDesc_eq_checked, raiseWhen_eq_checked,
    gt_iff_lt]
  rfl

theorem cvread_checks (a y x s) : beginsWith (.cvread a y x) s := by
  apply Exists.intro
  simp only [exec, execCvread, checks, checked_append, checked_bind_assoc, matDesc_eq_checked, raiseWhen_eq_checked,
    gt_iff_lt]
  rfl

theorem pser_checks (a b x y w h s) : beginsWith (.pser a b x y w h) s := by
  apply Exists.intro
  simp only [exec, execPser, checks, checked_append, checked_bind_assoc, strDesc_eq_checked, overlapCheck_eq_checked,
    raiseWhen_eq_checked, gt_iff_lt]
  rfl

theorem phdr_checks (a s) : beginsWith (.phdr a) s := by
  apply Exists.intro
  simp only [exec, execPhdr, checks, strDesc_eq_checked]
  rfl

theorem setq_checks (q s) : beginsWith (.setq q) s := by
  apply Exists.intro
  simp only [exec, execSetq, checks, raiseWhen_eq_checked, gt_iff_lt]
  rfl


theorem nop_checks (s) : beginsWith .nop s := begins_noCheck rfl rfl
theorem halt_checks (s) : beginsWith .halt s := begins_noCheck rfl rfl
theorem setd_checks (a base pitch rows cols len s) : beginsWith (.setd a base pitch rows cols len) s :=
  begins_noCheck rfl rfl
theorem cvreset_checks (s) : beginsWith .cvreset s := begins_noCheck rfl rfl

/-- The CSR numbers that are not defined (10_state R120). -/
theorem csr_ofNumber_eq_none (n : Nat) :
    Csr.ofNumber n = none ↔
      (0x00A ≤ n ∧ n ≤ 0x00F) ∨ (0x01A ≤ n ∧ n ≤ 0x01F) ∨ (0x030 ≤ n ∧ n ≤ 0x0FF) ∨ 0x200 ≤ n := by
  unfold Csr.ofNumber
  split
  · rename_i h
    constructor
    · intro hn
      have := List.getElem?_eq_none_iff.mp hn
      simp at this; omega
    · omega
  · repeat' split
    all_goals simp
    all_goals omega

/-- The CSR numbers that take a write, and the values they refuse (10_state R114, R120, R122). -/
theorem csr_ofNumber_write {n : Nat} {c : Csr} (h : Csr.ofNumber n = some c) (v : Word) :
    (c.writable = true ↔ (0x004 ≤ n ∧ n ≤ 0x006) ∨ (0x010 ≤ n ∧ n ≤ 0x017) ∨ (0x020 ≤ n ∧ n ≤ 0x02F)) ∧
    (c.accepts v = false ↔ (n = 0x004 ∧ 1 < v.toNat) ∨
        (n = 0x005 ∧ ¬ (16 ≤ v.toNat ∧ v.toNat ≤ 65520 ∧ v.toNat % 16 = 0)) ∨
        (n = 0x006 ∧ ¬ (1 ≤ v.toNat ∧ v.toNat ≤ 255))) := by
  unfold Csr.ofNumber at h
  split at h
  · rename_i hn
    interval_cases n <;> cases h <;> simp [Csr.writable, Csr.accepts, ← Bool.not_eq_true]
  · repeat' split at h
    all_goals cases h
    all_goals first
      | (refine ⟨iff_of_true rfl (by omega), iff_of_false (by simp [Csr.accepts]) (by omega)⟩)
      | (refine ⟨iff_of_false (by simp [Csr.writable]) (by omega), iff_of_false (by simp [Csr.accepts]) (by omega)⟩)

theorem csrw_checks (csr v s) : beginsWith (.csrw csr v) s := by
  cases h : Csr.ofNumber csr with
  | none =>
    refine ⟨.error ⟨.csr, []⟩, ?_⟩
    have hn := (csr_ofNumber_eq_none csr).mp h
    have hw : decide (¬ ((0x004 ≤ csr ∧ csr ≤ 0x006) ∨ (0x010 ≤ csr ∧ csr ≤ 0x017) ∨ (0x020 ≤ csr ∧ csr ≤ 0x02F))) = true :=
      decide_eq_true (by omega)
    simp only [exec, execCsrw, csrNamed, h, checks, hw]
    rfl
  | some c =>
    refine ⟨pure (s.csrWrite c v), ?_⟩
    obtain ⟨h1, h2⟩ := csr_ofNumber_write h v
    simp only [exec, execCsrw, csrNamed, h, checks, checked_cons _ (_ :: _), checked_bind_assoc,
      ← raiseWhen_eq_checked,
      checked_bind_ok, ← h1, ← h2, Bool.not_eq_true]

theorem csrr_checks (csr addr s) : beginsWith (.csrr csr addr) s := by
  cases h : Csr.ofNumber csr with
  | none =>
    refine ⟨.error ⟨.csr, []⟩, ?_⟩
    have hn := (csr_ofNumber_eq_none csr).mp h
    simp only [exec, execCsrr, csrNamed, h, checks, hn, decide_true]
    rfl
  | some c =>
    refine ⟨pure (s.setLmem (Memory.storeWords s.lmem addr [s.csrRead c])), ?_⟩
    have hn : ¬ Csr.ofNumber csr = none := by simp [h]
    rw [csr_ofNumber_eq_none] at hn
    simp only [exec, execCsrr, csrNamed, h, checks, checked_cons _ (_ :: _), checked_bind_assoc,
      ← raiseWhen_eq_checked,
      checked_bind_ok, raiseWhen_neg hn, gt_iff_lt]

theorem tablePositive_absorb (s : State) (t : Vector F64 64) :
    tablePositive (absorbTable s.scale t) = true ↔ ∀ i j : Fin 8, F64.isFinitePos (absorbedEntry s t i j) = true := by
  have hl : (absorbTable s.scale t).toList = (List.range 64).map fun k =>
      absorbEntry s.scale t[Fin.ofNat 64 k] (Fin.ofNat 8 (k / 8)) (Fin.ofNat 8 k) := rfl
  simp only [tablePositive, hl, List.all_map, List.all_eq_true, List.mem_range, Function.comp_apply]
  constructor
  · intro h i j
    have := h (8 * i.val + j.val) (by omega)
    have e0 : (8 * i.val + j.val) % 64 = 8 * i.val + j.val := by omega
    have e1 : (8 * i.val + j.val) / 8 % 8 = i.val := by omega
    have e2 : (8 * i.val + j.val) % 8 = j.val := by omega
    simpa [absorbEntry, absorbedEntry, Fin.ofNat, e0, e1, e2] using this
  · intro h k hk
    have := h ⟨k / 8, by omega⟩ ⟨k % 8, by omega⟩
    have e0 : k / 8 % 8 = k / 8 := by omega
    have e1 : 8 * (k / 8) + k % 8 = k := by omega
    have e2 : k % 64 = k := by omega
    simpa [absorbEntry, absorbedEntry, Fin.ofNat, e0, e1, e2] using this

theorem absorb_checks (s) : beginsWith .absorb s := by
  refine ⟨pure ((s.setTables (absorbTable s.scale s.qtl) (absorbTable s.scale s.qtc)).setAbsorbed true), ?_⟩
  simp only [exec, execAbsorb, checks, checked_cons _ (_ :: _), checked_bind_assoc]
  rw [raiseWhen_eq_checked (s.absorbed = true), Bool.decide_eq_true, ← raiseWhen_eq_checked (¬ _)]
  refine congrArg (finish .absorb s) (congrArg _ (funext fun _ => congrArg (· >>= _) (raiseWhen_congr ?_)))
  simp only [← Bool.not_eq_true, tablePositive_absorb, ← not_and_or, ← forall_and]

theorem grownSize_gt (size n cap : Nat) (at0 : Int) :
    grownSize size at0 n > cap ↔ max (size : Int) (at0 + n) > cap := by unfold grownSize; omega

theorem stitch_eq_checked (s : State) (p : List (List Word)) (h w : Nat) (x y : Int) :
    stitch s p h w x y = (checked [(canvasTooLarge s y x h w,
      .canvasCapacity)] >>= fun _ => pure (stitched s.canvas p h w x y)) := by
  unfold stitch canvasTooLarge
  rw [← raiseWhen_eq_checked]
  congr 1
  exact raiseWhen_congr (by rw [grownSize_gt, grownSize_gt])

theorem stitch_checks (a x y s) : beginsWith (.stitch a x y) s := by
  apply Exists.intro
  simp only [exec, execStitch, stitch_eq_checked, checks, checked_append, checked_cons _ (_ :: _), checked_bind_assoc,
    raiseWhen_eq_checked, matDesc_eq_checked]
  rfl

theorem readStream_eq_bytesOf (m : Memory) (d : Desc) : readStream m d = bytesOf m d :=
  readStream_eq_map m d

theorem apply_checks (a s) : beginsWith (.apply a) s := by
  simp only [beginsWith, exec, execApply, checks, checked_append, checked_bind_assoc, strDesc_eq_checked,
    patchTooLarge, readStream_eq_bytesOf]
  cases hp : patchParse (bytesOf s.lmem (s.desc a)) with
  | error st => exact ⟨_, rfl⟩
  | ok p =>
    simp only [patchPixels]
    by_cases hs : 0 < p.w ∧ 0 < p.h ∧ p.w % 16 = 0 ∧ p.h % 16 = 0
    · cases hd : tileDecode ⟨s.emode, s.qtl, s.qtc⟩ p.payload p.h.toNat p.w.toNat with
      | none =>
        simp [hs, State.codec, hd, checked_false]
        exact ⟨_, rfl⟩
      | some px =>
        simp only [if_pos hs, State.codec, hd, stitch_eq_checked, checked_bind_assoc, decide_eq_true hs,
          Option.isSome_some, Bool.true_and]
        exact ⟨_, rfl⟩
    · simp only [if_neg hs, decide_eq_false hs, Bool.false_and]
      exact ⟨_, rfl⟩

end Sys2Proof.Machine
end

