-- ==== Sys2Proof/Laws/F64.lean ====
section
/-! SUPPORT. Binary64 arithmetic on integers below 2^53 is exact: one lemma each for `ofInt`, `add`, `sub` and `round`
(00_scope R11, R12). -/

namespace Sys2Proof

/-! Bit patterns -/

theorem F64.ofMag_toNat (neg : Bool) (mag : Nat) (h : mag < 2 ^ 63) :
    (F64.ofMag neg mag).bits.toNat = (if neg then 2 ^ 63 else 0) + mag := by
  simp only [F64.ofMag, BitVec.toNat_ofNat]
  apply Nat.mod_eq_of_lt
  split <;> omega

/-- A normal number's parts, from the sum of its exponent field and its significand. -/
theorem F64.view_ofMag (neg : Bool) (b q : Nat) (hb : b ≤ 2045) (h1 : 2 ^ 52 ≤ q) (h2 : q < 2 ^ 53) :
    (F64.ofMag neg (b * 2 ^ 52 + q)).view = .fin neg q ((b : Int) - 1074) := by
  have hm : b * 2 ^ 52 + q < 2 ^ 63 := by omega
  simp only [F64.view, F64.ofMag_toNat _ _ hm]
  have e1 : ((if neg then 2 ^ 63 else 0) + (b * 2 ^ 52 + q)) / 2 ^ 52 % 2 ^ 11 = b + 1 := by split <;> omega
  have e2 : ((if neg then 2 ^ 63 else 0) + (b * 2 ^ 52 + q)) % 2 ^ 52 = q - 2 ^ 52 := by split <;> omega
  have e3 : Nat.ble (2 ^ 63) ((if neg then 2 ^ 63 else 0) + (b * 2 ^ 52 + q)) = neg := by
    cases neg
    · rw [← Bool.not_eq_true, Nat.ble_eq]; simp; omega
    · rw [Nat.ble_eq]; simp
  have e4 : 2 ^ 52 + (q - 2 ^ 52) = q := by omega
  have e5 : ((b + 1 : Nat) : Int) - 1075 = (b : Int) - 1074 := by omega
  rw [e1, e2, e3, if_neg (by omega), if_neg (by omega), e4, e5]

theorem nat_xor_top (n : Nat) (h : n < 2 ^ 64) :
    n ^^^ 2 ^ 63 = if 2 ^ 63 ≤ n then n - 2 ^ 63 else n + 2 ^ 63 := by
  have low : ∀ r : Nat, r < 2 ^ 63 → r ^^^ 2 ^ 63 = r + 2 ^ 63 := by
    intro r hr
    have := Nat.two_pow_add_eq_or_of_lt hr 1
    rw [Nat.mul_one] at this
    rw [Nat.add_comm, this]
    apply Nat.eq_of_testBit_eq
    intro j
    rw [Nat.testBit_xor, Nat.testBit_or, Nat.testBit_two_pow]
    by_cases hj : 63 = j
    · subst hj
      simp [Nat.testBit_lt_two_pow hr]
    · simp [hj]
  split
  · have := low (n - 2 ^ 63) (by omega)
    rw [Nat.sub_add_cancel ‹_›] at this
    rw [← this, Nat.xor_assoc, Nat.xor_self, Nat.xor_zero, this]
  · exact low n (by omega)

/-- Negation flips the sign of a finite number. -/
theorem F64.view_neg (x : F64) (s : Bool) (m : Nat) (e : Int) (h : x.view = .fin s m e) :
    x.neg.view = .fin (!s) m e := by
  have hlt := x.bits.isLt
  have hb : x.neg.bits.toNat = if 2 ^ 63 ≤ x.bits.toNat then x.bits.toNat - 2 ^ 63 else x.bits.toNat + 2 ^ 63 := by
    rw [← nat_xor_top _ hlt]
    simp [F64.neg, BitVec.toNat_xor]
  simp only [F64.view] at h ⊢
  rw [hb]
  generalize x.bits.toNat = n at *
  have e1 : (if 2 ^ 63 ≤ n then n - 2 ^ 63 else n + 2 ^ 63) / 2 ^ 52 % 2 ^ 11 = n / 2 ^ 52 % 2 ^ 11 := by split <;> omega
  have e2 : (if 2 ^ 63 ≤ n then n - 2 ^ 63 else n + 2 ^ 63) % 2 ^ 52 = n % 2 ^ 52 := by split <;> omega
  have e3 : Nat.ble (2 ^ 63) (if 2 ^ 63 ≤ n then n - 2 ^ 63 else n + 2 ^ 63) = !Nat.ble (2 ^ 63) n := by
    rw [Bool.eq_iff_iff, Nat.ble_eq, Bool.not_eq_true', ← Bool.not_eq_true, Nat.ble_eq]
    split <;> omega
  rw [e1, e2, e3]
  split at h
  · split at h <;> cases h
  · split at h
    · rw [if_neg ‹_›, if_pos ‹_›]; cases h; rfl
    · rw [if_neg ‹_›, if_neg ‹_›]; cases h; rfl

/-! Scaled integers -/

theorem roundShift_mul (m s : Nat) : roundShift (m * 2 ^ s) s = m := by
  have h : 0 < 2 ^ s := Nat.two_pow_pos s
  simp [roundShift, Nat.mul_div_cancel _ h]

theorem log2_mul_two_pow (m k : Nat) (h : m ≠ 0) : Nat.log2 (m * 2 ^ k) = Nat.log2 m + k := by
  induction k with
  | zero => simp
  | succ k ih =>
    have hm : m * 2 ^ k ≠ 0 := by positivity
    rw [pow_succ, ← Nat.mul_assoc, Nat.mul_comm, Nat.log2_two_mul hm, ih]
    omega

/-- What `ofScaled` rounds when the number has at most 53 significant bits: nothing. -/
theorem F64.ofScaled_eq (neg : Bool) (m k : Nat) (e : Int) (h0 : m ≠ 0) (hm : m < 2 ^ 53) (he : -1000 ≤ e) (he2 : e ≤ 900) :
    F64.ofScaled neg (m * 2 ^ k) (e - k) =
      F64.ofMag neg ((e + Nat.log2 m + 1022).toNat * 2 ^ 52 + m * 2 ^ (52 - Nat.log2 m)) := by
  have hl : Nat.log2 m ≤ 52 := by
    have := (Nat.log2_lt h0).mpr hm
    omega
  have hq : m * 2 ^ (52 - Nat.log2 m) < 2 ^ 53 := by
    have h1 : m < 2 ^ (Nat.log2 m + 1) := Nat.lt_log2_self
    calc m * 2 ^ (52 - Nat.log2 m) < 2 ^ (Nat.log2 m + 1) * 2 ^ (52 - Nat.log2 m) := by
          exact Nat.mul_lt_mul_of_pos_right h1 (Nat.two_pow_pos _)
      _ = 2 ^ 53 := by rw [← pow_add]; congr 1; omega
  unfold F64.ofScaled
  have hmk : m * 2 ^ k ≠ 0 := by positivity
  rw [if_neg hmk, log2_mul_two_pow _ _ h0]
  have ht : max (e - (k : Int) + ((Nat.log2 m + k : Nat) : Int) - 52) (-1074) = e + Nat.log2 m - 52 := by omega
  simp only [ht]
  have hr : roundShift (m * 2 ^ k * 2 ^ (e - (k : Int) - (e + Nat.log2 m - 52)).toNat)
      ((e + Nat.log2 m - 52) - (e - (k : Int))).toNat = m * 2 ^ (52 - Nat.log2 m) := by
    by_cases hk : k ≤ 52 - Nat.log2 m
    · have a1 : (e - (k : Int) - (e + Nat.log2 m - 52)).toNat = 52 - Nat.log2 m - k := by omega
      have a2 : ((e + Nat.log2 m - 52) - (e - (k : Int))).toNat = 0 := by omega
      rw [a1, a2, Nat.mul_assoc, ← pow_add, show k + (52 - Nat.log2 m - k) = 52 - Nat.log2 m by omega]
      have := roundShift_mul (m * 2 ^ (52 - Nat.log2 m)) 0
      rwa [pow_zero, Nat.mul_one] at this
    · have a1 : (e - (k : Int) - (e + Nat.log2 m - 52)).toNat = 0 := by omega
      have a2 : ((e + Nat.log2 m - 52) - (e - (k : Int))).toNat = k - (52 - Nat.log2 m) := by omega
      rw [a1, a2, pow_zero, Nat.mul_one]
      have : m * 2 ^ k = m * 2 ^ (52 - Nat.log2 m) * 2 ^ (k - (52 - Nat.log2 m)) := by
        rw [Nat.mul_assoc, ← pow_add]; congr 2; omega
      rw [this, roundShift_mul]
  rw [hr]
  have hT : (e + (Nat.log2 m : Int) - 52 + 1074).toNat = (e + Nat.log2 m + 1022).toNat := by omega
  rw [hT, Nat.min_eq_left]
  have : (e + (Nat.log2 m : Int) + 1022).toNat ≤ 2000 := by omega
  omega

/-- The parts of a number with at most 53 significant bits. -/
theorem F64.view_ofScaled (neg : Bool) (m : Nat) (e : Int) (h0 : m ≠ 0) (hm : m < 2 ^ 53) (he : -1000 ≤ e) (he2 : e ≤ 900) :
    (F64.ofScaled neg m e).view = .fin neg (m * 2 ^ (52 - Nat.log2 m)) (e + Nat.log2 m - 52) := by
  have hl : Nat.log2 m ≤ 52 := by
    have := (Nat.log2_lt h0).mpr hm
    omega
  have h := F64.ofScaled_eq neg m 0 e h0 hm he he2
  rw [pow_zero, Nat.mul_one, Nat.cast_zero, sub_zero] at h
  rw [h, F64.view_ofMag]
  · congr 1; omega
  · omega
  · have h1 : 2 ^ Nat.log2 m ≤ m := Nat.log2_self_le h0
    calc 2 ^ 52 = 2 ^ Nat.log2 m * 2 ^ (52 - Nat.log2 m) := by rw [← pow_add]; congr 1; omega
      _ ≤ _ := Nat.mul_le_mul_right _ h1
  · have h1 : m < 2 ^ (Nat.log2 m + 1) := Nat.lt_log2_self
    calc m * 2 ^ (52 - Nat.log2 m) < 2 ^ (Nat.log2 m + 1) * 2 ^ (52 - Nat.log2 m) := by
          exact Nat.mul_lt_mul_of_pos_right h1 (Nat.two_pow_pos _)
      _ = 2 ^ 53 := by rw [← pow_add]; congr 1; omega

/-- A factor of a power of two in the integer is the same in the exponent. -/
theorem F64.ofScaled_shift (neg : Bool) (m k : Nat) (e : Int) (hm : m < 2 ^ 53) (he : -1000 ≤ e) (he2 : e ≤ 900) :
    F64.ofScaled neg (m * 2 ^ k) (e - k) = F64.ofScaled neg m e := by
  by_cases h0 : m = 0
  · simp [h0, F64.ofScaled]
  · rw [F64.ofScaled_eq _ _ _ _ h0 hm he he2]
    have h := F64.ofScaled_eq neg m 0 e h0 hm he he2
    rw [pow_zero, Nat.mul_one, Nat.cast_zero, sub_zero] at h
    rw [h]

/-! Integers -/

/-- `x` is the integer `n`, with sign bit `s`. -/
def F64.Holds (x : F64) (n : Int) (s : Bool) : Prop :=
  ∃ k : Nat, x.view = .fin s (n.natAbs * 2 ^ k) (-(k : Int)) ∧ (n < 0 → s = true) ∧ (0 < n → s = false)

theorem F64.holds_ofInt (n : Int) (h : n.natAbs < 2 ^ 53) : (F64.ofInt n).Holds n (decide (n < 0)) := by
  by_cases h0 : n = 0
  · subst h0
    exact ⟨1074, by decide +kernel, by simp, by simp⟩
  · have hn : n.natAbs ≠ 0 := by omega
    have hl : Nat.log2 n.natAbs ≤ 52 := by
      have := (Nat.log2_lt hn).mpr h
      omega
    refine ⟨52 - Nat.log2 n.natAbs, ?_, by simp, by simp; omega⟩
    rw [F64.ofInt, F64.view_ofScaled _ _ _ hn h (by omega) (by omega)]
    congr 1
    omega

theorem F64.holds_neg {x : F64} {n : Int} {s : Bool} (h : x.Holds n s) : x.neg.Holds (-n) (!s) := by
  obtain ⟨k, hv, h1, h2⟩ := h
  refine ⟨k, ?_, ?_, ?_⟩
  · rw [F64.view_neg _ _ _ _ hv, Int.natAbs_neg]
  · intro hn; rw [h2 (by omega)]; rfl
  · intro hn; rw [h1 (by omega)]; rfl

theorem signed_natAbs (n : Int) (s : Bool) (c : Nat) (h1 : n < 0 → s = true) (h2 : 0 < n → s = false) :
    signed s (n.natAbs * c) = n * c := by
  rcases lt_trichotomy n 0 with h | h | h
  · rw [h1 h]
    simp only [signed, if_true, Nat.cast_mul]
    rw [← neg_mul, show -(n.natAbs : Int) = n by omega]
  · subst h
    cases s <;> simp [signed]
  · rw [h2 h]
    simp only [signed, Bool.false_eq_true, if_false, Nat.cast_mul]
    rw [show (n.natAbs : Int) = n by omega]

/-- Addition of integers is exact; a zero sum has the sign + unless both signs are −. -/
theorem F64.add_holds {x y : F64} {a b : Int} {s t : Bool} (hx : x.Holds a s) (hy : y.Holds b t)
    (h : (a + b).natAbs < 2 ^ 53) (hz : a + b = 0 → (s && t) = false) : F64.add x y = F64.ofInt (a + b) := by
  obtain ⟨k, hv, h1, h2⟩ := hx
  obtain ⟨l, hw, h3, h4⟩ := hy
  simp only [F64.add, hv, hw]
  have e1 : (-(k : Int) - min (-(k : Int)) (-(l : Int))).toNat = max k l - k := by omega
  have e2 : (-(l : Int) - min (-(k : Int)) (-(l : Int))).toNat = max k l - l := by omega
  have e3 : min (-(k : Int)) (-(l : Int)) = 0 - ((max k l : Nat) : Int) := by omega
  have p1 : 2 ^ k * 2 ^ (max k l - k) = 2 ^ max k l := by rw [← pow_add]; congr 1; omega
  have p2 : 2 ^ l * 2 ^ (max k l - l) = 2 ^ max k l := by rw [← pow_add]; congr 1; omega
  have hsum : signed s (a.natAbs * 2 ^ k * 2 ^ (max k l - k)) + signed t (b.natAbs * 2 ^ l * 2 ^ (max k l - l)) =
      (a + b) * ((2 ^ max k l : Nat) : Int) := by
    rw [Nat.mul_assoc, Nat.mul_assoc, p1, p2, signed_natAbs a s _ h1 h2, signed_natAbs b t _ h3 h4, add_mul]
  rw [e1, e2, hsum]
  have hp : 0 < 2 ^ max k l := Nat.two_pow_pos _
  by_cases h0 : a + b = 0
  · rw [h0, zero_mul, if_pos rfl, hz h0]
    rfl
  · have hne : (a + b) * ((2 ^ max k l : Nat) : Int) ≠ 0 := mul_ne_zero h0 (by positivity)
    have hneg : decide ((a + b) * ((2 ^ max k l : Nat) : Int) < 0) = decide (a + b < 0) := by
      rw [decide_eq_decide]
      exact ⟨fun h => by_contra fun hc => absurd h (not_lt.mpr (mul_nonneg (not_lt.mp hc) (by positivity))),
        fun h => mul_neg_of_neg_of_pos h (by positivity)⟩
    rw [if_neg hne, hneg, Int.natAbs_mul, Int.natAbs_natCast, e3, F64.ofScaled_shift _ _ _ _ h (by omega) (by omega)]
    rfl

/-- `f64(a) + f64(b) = f64(a + b)` while all three are below 2^53. -/
theorem F64.add_ofInt (a b : Int) (ha : a.natAbs < 2 ^ 53) (hb : b.natAbs < 2 ^ 53) (h : (a + b).natAbs < 2 ^ 53) :
    F64.add (F64.ofInt a) (F64.ofInt b) = F64.ofInt (a + b) :=
  F64.add_holds (F64.holds_ofInt a ha) (F64.holds_ofInt b hb) h (by
    intro hz
    rw [Bool.and_eq_false_iff, decide_eq_false_iff_not, decide_eq_false_iff_not]
    omega)

/-- `f64(a) − f64(b) = f64(a − b)` while all three are below 2^53. -/
theorem F64.sub_ofInt (a b : Int) (ha : a.natAbs < 2 ^ 53) (hb : b.natAbs < 2 ^ 53) (h : (a - b).natAbs < 2 ^ 53) :
    F64.sub (F64.ofInt a) (F64.ofInt b) = F64.ofInt (a - b) :=
  F64.add_holds (F64.holds_ofInt a ha) (F64.holds_neg (F64.holds_ofInt b hb)) h (by
    intro hz
    rw [show a = b by omega]
    cases decide (b < 0) <;> rfl)

theorem F64.isFinite_ofInt (n : Int) (h : n.natAbs < 2 ^ 53) : (F64.ofInt n).isFinite = true := by
  obtain ⟨k, hv, -, -⟩ := F64.holds_ofInt n h
  simp [F64.isFinite, hv]

/-- `Round(f64(n)) = n` (00_scope R12). -/
theorem F64.round_ofInt (n : Int) (h : n.natAbs < 2 ^ 53) : (F64.ofInt n).round = n := by
  obtain ⟨k, hv, h1, h2⟩ := F64.holds_ofInt n h
  simp only [F64.round, hv]
  rw [signed_natAbs n _ _ h1 h2]
  split
  · have : k = 0 := by omega
    subst this
    simp [floorScaled]
  · have e1 : (-(-(k : Int))).toNat = k := by omega
    have e2 : (-(-(k : Int) - 1)).toNat = k + 1 := by omega
    rw [floorScaled, if_neg (by omega), e1, e2, pow_succ]
    have hp : (0 : Int) < 2 ^ k := by positivity
    rw [show 2 * (n * ((2 ^ k : Nat) : Int)) + 2 ^ k = (2 * n + 1) * 2 ^ k by push_cast; ring, mul_comm ((2 : Int) ^ k) 2,
      Int.mul_ediv_mul_of_pos_left _ _ hp]
    omega

end Sys2Proof
end

