-- ==== Sys2Proof/Laws/Tiles.lean ====
section
/-! SUPPORT. The tile codec read entry by entry: blocks of a plane in raster order, the planes of a region, the pixels of
planes, and the segments of a payload (41_color R451, R452; 45_patch R705-R707). -/

namespace Sys2Proof

/-! `mapExcept` -/

/-- `mapExcept` answers a list exactly when `f` answers each element of it. -/
theorem mapExcept_eq_ok {ε α β : Type} (f : α → Except ε β) (xs : List α) (ys : List β) :
    mapExcept f xs = .ok ys ↔ List.Forall₂ (fun x y => f x = .ok y) xs ys := by
  induction xs generalizing ys with
  | nil => cases ys <;> simp [mapExcept]
  | cons x xs ih =>
    cases hx : f x with
    | error e => cases ys <;> simp [mapExcept, hx]
    | ok y =>
      cases hxs : mapExcept f xs with
      | error e =>
        have : ∀ zs, ¬ List.Forall₂ (fun x y => f x = .ok y) xs zs := fun zs h => by
          rw [← ih, hxs] at h; cases h
        cases ys <;> simp [mapExcept, hx, hxs, this]
      | ok zs =>
        have h := ih zs
        cases ys with
        | nil => simp [mapExcept, hx, hxs]
        | cons w ws =>
          simp only [mapExcept, hx, hxs, Except.ok.injEq, List.cons.injEq, List.forall₂_cons, ← ih]

theorem mapExcept_length {ε α β : Type} {f : α → Except ε β} {xs : List α} {ys : List β} (h : mapExcept f xs = .ok ys) :
    ys.length = xs.length := ((mapExcept_eq_ok f xs ys).mp h).length_eq.symm

theorem mapExcept_map {ε α β γ : Type} (f : β → Except ε γ) (g : α → β) (xs : List α) :
    mapExcept f (xs.map g) = mapExcept (fun x => f (g x)) xs := by
  induction xs with
  | nil => rfl
  | cons x xs ih => simp only [List.map_cons, mapExcept, ih]

theorem mapExcept_congr {ε α β : Type} {f g : α → Except ε β} {xs : List α} (h : ∀ x ∈ xs, f x = g x) :
    mapExcept f xs = mapExcept g xs := by
  induction xs with
  | nil => rfl
  | cons x xs ih => simp only [mapExcept, h x (by simp), ih fun y hy => h y (by simp [hy])]

end Sys2Proof

namespace Sys2Proof.Machine

/-! Matrices entry by entry -/

/-- A matrix of `h` rows of `w` entries, entry by entry. -/
theorem eq_map_cellAt {α : Type} (rows : List (List α)) (dflt : α) (h w : Nat) (hr : rows.length = h)
    (hc : ∀ row ∈ rows, row.length = w) :
    rows = (List.range h).map fun i => (List.range w).map fun j => cellAt rows dflt i j := by
  apply List.ext_getElem
  · simp [hr]
  · intro i h1 h2
    apply List.ext_getElem
    · simp [hc _ (List.getElem_mem h1)]
    · intro j h3 h4
      simp [cellAt, h1, h3]

theorem cellAt_map {α : Type} (f : Nat → Nat → α) (dflt : α) (h w i j : Nat) (hi : i < h) (hj : j < w) :
    cellAt ((List.range h).map fun i => (List.range w).map fun j => f i j) dflt i j = f i j := by
  simp [cellAt, hi, hj]

theorem eq_map_getD {α : Type} (xs : List α) (dflt : α) (n : Nat) (h : xs.length = n) :
    xs = (List.range n).map fun j => xs.getD j dflt := by
  apply List.ext_getElem
  · simp [h]
  · intro j h1 h2
    simp [h1]

/-- A region inside a matrix, entry by entry. -/
theorem region_eq_map {α : Type} (rows : List (List α)) (dflt : α) (r c h w ph pw : Nat) (hr : rows.length = ph)
    (hc : ∀ row ∈ rows, row.length = pw) (h1 : r + h ≤ ph) (h2 : c + w ≤ pw) :
    region rows r c h w =
      (List.range h).map fun i => (List.range w).map fun j => cellAt rows dflt (r + i) (c + j) := by
  apply List.ext_getElem
  · simp [region, hr]; omega
  · intro i h3 h4
    have hi : i < h := by simpa using h4
    have hri : r + i < rows.length := by omega
    have hlen := hc _ (List.getElem_mem hri)
    apply List.ext_getElem
    · simp [region, hlen]; omega
    · intro j h5 h6
      have hj : j < w := by simpa using h6
      have hcj : c + j < rows[r + i].length := by omega
      simp [region, cellAt, hri, hcj]

/-- The blocks of a plane in raster order (45_patch R705). -/
theorem planeBlocks_eq_map (plane : List (List Int)) (ph pw : Nat) (h8 : ph % 8 = 0) (w8 : pw % 8 = 0)
    (hr : plane.length = ph) (hc : ∀ row ∈ plane, row.length = pw) :
    planeBlocks plane ph pw =
      (List.range (ph / 8 * (pw / 8))).map fun n =>
        (List.range 8).map fun i => (List.range 8).map fun j =>
          cellAt plane 0 (8 * (n / (pw / 8)) + i) (8 * (n % (pw / 8)) + j) := by
  have hflat : ∀ (a b : Nat) (f : Nat → Nat → List (List Int)),
      (List.range a).flatMap (fun br => (List.range b).map (f br)) =
        (List.range (a * b)).map fun n => f (n / b) (n % b) := by
    intro a b f
    induction a with
    | zero => simp
    | succ a ih =>
      rw [List.range_succ, List.flatMap_append, ih, Nat.succ_mul, List.range_add, List.map_append]
      congr 1
      simp only [List.flatMap_cons, List.flatMap_nil, List.append_nil, List.map_map]
      apply List.map_congr_left
      intro n hn
      have hb : n < b := List.mem_range.mp hn
      have e1 : (a * b + n) / b = a := by
        rw [Nat.mul_comm, Nat.mul_add_div (by omega), Nat.div_eq_of_lt hb, Nat.add_zero]
      have e2 : (a * b + n) % b = n := by rw [Nat.mul_comm, Nat.mul_add_mod, Nat.mod_eq_of_lt hb]
      simp [e1, e2]
  unfold planeBlocks
  rw [hflat]
  apply List.map_congr_left
  intro n hn
  have hn := List.mem_range.mp hn
  have hb : 0 < pw / 8 := by
    rcases Nat.eq_zero_or_pos (pw / 8) with h | h
    · simp [h] at hn
    · exact h
  have h1 : n / (pw / 8) < ph / 8 := by
    rw [Nat.div_lt_iff_lt_mul hb]; exact hn
  have h2 : n % (pw / 8) < pw / 8 := Nat.mod_lt _ hb
  exact region_eq_map plane 0 _ _ 8 8 ph pw hr hc (by omega) (by omega)

/-! Planes and pixels -/

theorem pairUp_eq_map {α : Type} (xs : List α) (dflt : α) :
    pairUp xs = (List.range (xs.length / 2)).map fun j => (xs.getD (2 * j) dflt, xs.getD (2 * j + 1) dflt) := by
  induction xs using pairUp.induct with
  | case1 x y rest ih =>
    rw [pairUp, ih]
    have : (x :: y :: rest).length / 2 = rest.length / 2 + 1 := by simp only [List.length_cons]; omega
    rw [this, List.range_succ_eq_map, List.map_cons, List.map_map]
    rfl
  | case2 xs h =>
    have : xs.length / 2 = 0 := by
      match xs, h with
      | [], _ => simp
      | [_], _ => simp
      | x :: y :: rest, h => exact absurd rfl (h x y rest)
    rw [this]
    match xs, h with
    | [], _ => rfl
    | [_], _ => rfl
    | x :: y :: rest, h => exact absurd rfl (h x y rest)

/-- The luma plane, sample by sample (41_color R451). -/
theorem lumaPlane_eq_map (p : List (List Word)) (h w : Nat) (hr : p.length = h) (hc : ∀ row ∈ p, row.length = w) :
    lumaPlane p = (List.range h).map fun i => (List.range w).map fun j => lumaSample (cellAt p 0 i j) := by
  conv_lhs => rw [eq_map_cellAt p 0 h w hr hc]
  simp [lumaPlane, Function.comp_def]

/-- A chroma plane, sample by sample (41_color R451). -/
theorem chromaPlane_eq_map (form : Word → F64) (p : List (List Word)) (h w : Nat) (hr : p.length = h)
    (hc : ∀ row ∈ p, row.length = w) :
    chromaPlane form p =
      (List.range (h / 2)).map fun i => (List.range (w / 2)).map fun j =>
        chromaSample form (cellAt p 0 (2 * i) (2 * j)) (cellAt p 0 (2 * i) (2 * j + 1))
          (cellAt p 0 (2 * i + 1) (2 * j)) (cellAt p 0 (2 * i + 1) (2 * j + 1)) := by
  unfold chromaPlane
  rw [pairUp_eq_map p [], hr, List.map_map]
  apply List.map_congr_left
  intro i hi
  have hi := List.mem_range.mp hi
  have l : ∀ k, k < h → (p.getD k []).length = w := by
    intro k hk
    rw [List.getD_eq_getElem _ _ (by omega)]
    exact hc _ (List.getElem_mem _)
  simp only [Function.comp_apply, chromaRow]
  rw [pairUp_eq_map _ (0 : Word), pairUp_eq_map _ (0 : Word), l _ (by omega), l _ (by omega)]
  apply List.ext_getElem
  · simp
  · intro j h1 h2
    simp [cellAt]

theorem doubled_eq_map {α : Type} (xs : List α) (dflt : α) :
    doubled xs = (List.range (2 * xs.length)).map fun j => xs.getD (j / 2) dflt := by
  induction xs with
  | nil => rfl
  | cons x xs ih =>
    have hd : doubled (x :: xs) = x :: x :: doubled xs := rfl
    rw [hd, ih, List.length_cons, Nat.mul_add, List.range_succ_eq_map, List.range_succ_eq_map]
    simp only [List.map_cons, List.map_map, Function.comp_def]
    have h : ∀ a : Nat, (a.succ.succ) / 2 = a / 2 + 1 := fun a => by omega
    simp [h]

theorem zip_map_range {α β : Type} (f : Nat → α) (g : Nat → β) (n : Nat) :
    ((List.range n).map f).zip ((List.range n).map g) = (List.range n).map fun i => (f i, g i) := by
  apply List.ext_getElem <;> simp

/-- `InverseColor`, pixel by pixel, of planes whose sides are even (41_color R452). -/
theorem inverseColor_eq_map (y cb cr : List (List Int)) (h w : Nat) (h2 : h % 2 = 0) (w2 : w % 2 = 0)
    (hy : y.length = h) (cy : ∀ row ∈ y, row.length = w) (hb : cb.length = h / 2) (cb2 : ∀ row ∈ cb, row.length = w / 2)
    (hr : cr.length = h / 2) (cr2 : ∀ row ∈ cr, row.length = w / 2) :
    inverseColor y cb cr =
      (List.range h).map fun i => (List.range w).map fun j =>
        inversePixel (cellAt y 0 i j) (cellAt cb 0 (i / 2) (j / 2)) (cellAt cr 0 (i / 2) (j / 2)) := by
  have l : ∀ (m : List (List Int)), m.length = h / 2 → (∀ row ∈ m, row.length = w / 2) → ∀ i, i < h →
      (m.getD (i / 2) []).length = w / 2 := by
    intro m hm hc i hi
    rw [List.getD_eq_getElem _ _ (by omega)]
    exact hc _ (List.getElem_mem _)
  unfold inverseColor
  rw [doubled_eq_map cb [], doubled_eq_map cr [], hb, hr, show 2 * (h / 2) = h by omega, zip_map_range]
  have hyl := eq_map_getD y [] h hy
  conv_lhs => rw [hyl, zip_map_range, List.map_map]
  apply List.map_congr_left
  intro i hi
  have hi := List.mem_range.mp hi
  have hrow : (y.getD i []).length = w := by
    rw [List.getD_eq_getElem _ _ (by omega)]
    exact cy _ (List.getElem_mem _)
  simp only [Function.comp_apply, inverseRow]
  rw [doubled_eq_map _ (0 : Int), doubled_eq_map _ (0 : Int), l cb hb cb2 i hi, l cr hr cr2 i hi,
    show 2 * (w / 2) = w by omega, zip_map_range]
  have hyr := eq_map_getD (y.getD i []) 0 w hrow
  conv_lhs => rw [hyr, zip_map_range, List.map_map]
  rfl

/-! Blocks back into a plane -/

theorem chunks_length {α : Type} (n k : Nat) (xs : List α) : (chunks n k xs).length = k := by
  induction k generalizing xs with
  | zero => rfl
  | succ k ih => simp [chunks, ih]

theorem chunks_getD {α : Type} (n k : Nat) (xs : List α) (i : Nat) (hi : i < k) :
    (chunks n k xs).getD i [] = (xs.drop (n * i)).take n := by
  induction k generalizing xs i with
  | zero => omega
  | succ k ih =>
    cases i with
    | zero => simp [chunks]
    | succ i =>
      have := ih (xs.drop n) i (by omega)
      simp only [chunks, List.getD_cons_succ, this, List.drop_drop]
      congr 2
      rw [Nat.mul_succ]; omega

/-- A list of equally long lists, joined: entry `m · i + j` is entry `j` of list `i`. -/
theorem flatMap_getD {α β : Type} (f : α → List β) (xs : List α) (m : Nat) (hm : ∀ x ∈ xs, (f x).length = m) (dflt : β)
    (i j : Nat) (hj : j < m) (x : α) (hx : xs[i]? = some x) : (xs.flatMap f).getD (m * i + j) dflt = (f x).getD j dflt := by
  induction xs generalizing i with
  | nil => simp at hx
  | cons y ys ih =>
    have hy : (f y).length = m := hm y (by simp)
    rw [List.flatMap_cons]
    cases i with
    | zero =>
      simp only [List.getElem?_cons_zero, Option.some.injEq] at hx
      subst hx
      rw [Nat.mul_zero, Nat.zero_add, List.getD_append _ _ _ _ (by omega)]
    | succ i =>
      rw [List.getElem?_cons_succ] at hx
      rw [List.getD_append_right _ _ _ _ (by rw [hy, Nat.mul_succ]; omega), hy,
        show m * (i + 1) + j - m = m * i + j by rw [Nat.mul_succ]; omega]
      exact ih (fun z hz => hm z (by simp [hz])) i hx

theorem flatMap_length_const {α β : Type} (f : α → List β) (xs : List α) (m : Nat) (hm : ∀ x ∈ xs, (f x).length = m) :
    (xs.flatMap f).length = xs.length * m := by
  induction xs with
  | nil => simp
  | cons y ys ih =>
    rw [List.flatMap_cons, List.length_append, hm y (by simp), ih fun z hz => hm z (by simp [hz]), List.length_cons,
      Nat.succ_mul, Nat.add_comm]

/-- An 8×8 block. -/
def isBlock {α : Type} (b : List (List α)) : Prop := b.length = 8 ∧ ∀ row ∈ b, row.length = 8

theorem isBlock.row_length {α : Type} {b : List (List α)} (h : isBlock b) (i : Nat) (hi : i < 8) :
    (b.getD i []).length = 8 := by
  rw [List.getD_eq_getElem _ _ (by rw [h.1]; exact hi)]
  exact h.2 _ (List.getElem_mem _)

/-- The shape of a plane put together from its blocks (45_patch R707). -/
theorem planeOfBlocks_shape (blocks : List (List (List Int))) (ph pw : Nat) (h8 : ph % 8 = 0) (w8 : pw % 8 = 0)
    (hl : blocks.length = ph / 8 * (pw / 8)) (hb : ∀ b ∈ blocks, isBlock b) :
    (planeOfBlocks blocks ph pw).length = ph ∧ ∀ row ∈ planeOfBlocks blocks ph pw, row.length = pw := by
  have hj : ∀ c ∈ chunks (pw / 8) (ph / 8) blocks, (joinBlocks c).length = 8 := by simp [joinBlocks]
  constructor
  · unfold planeOfBlocks
    rw [flatMap_length_const _ _ 8 hj, chunks_length]
    omega
  · intro row hrow
    simp only [planeOfBlocks, List.mem_flatMap] at hrow
    obtain ⟨c, hc, hrow⟩ := hrow
    obtain ⟨r, hr, rfl⟩ := List.mem_iff_getElem.mp hc
    rw [chunks_length] at hr
    have hcr : (chunks (pw / 8) (ph / 8) blocks)[r] = (blocks.drop (pw / 8 * r)).take (pw / 8) := by
      rw [← chunks_getD (pw / 8) (ph / 8) blocks r hr, List.getD_eq_getElem _ _ (by rw [chunks_length]; exact hr)]
    rw [hcr] at hrow
    simp only [joinBlocks, List.mem_map, List.mem_range] at hrow
    obtain ⟨i, hi, rfl⟩ := hrow
    have hmem : ∀ b ∈ (blocks.drop (pw / 8 * r)).take (pw / 8), (b.getD i []).length = 8 := by
      intro b hbm
      exact (hb b (List.mem_of_mem_drop (List.mem_of_mem_take hbm))).row_length i hi
    rw [flatMap_length_const _ _ 8 hmem, List.length_take, List.length_drop, hl]
    have : pw / 8 * r + pw / 8 ≤ ph / 8 * (pw / 8) := by
      rw [Nat.mul_comm (ph / 8), ← Nat.mul_succ]
      exact Nat.mul_le_mul_left _ hr
    omega

/-- Entry (8r + i, 8c + j) of a plane put together from blocks is entry (i, j) of the block in row `r` and column `c` of the
blocks (45_patch R707). -/
theorem cellAt_planeOfBlocks (blocks : List (List (List Int))) (ph pw r c i j : Nat)
    (hl : blocks.length = ph / 8 * (pw / 8)) (hb : ∀ b ∈ blocks, isBlock b) (hr : r < ph / 8) (hc : c < pw / 8)
    (hi : i < 8) (hj : j < 8) :
    cellAt (planeOfBlocks blocks ph pw) 0 (8 * r + i) (8 * c + j) = cellAt (blocks.getD (r * (pw / 8) + c) []) 0 i j := by
  have hlen : r * (pw / 8) + c < blocks.length := by
    rw [hl]
    calc r * (pw / 8) + c < r * (pw / 8) + pw / 8 := by omega
      _ = (r + 1) * (pw / 8) := by rw [Nat.succ_mul]
      _ ≤ ph / 8 * (pw / 8) := Nat.mul_le_mul_right _ hr
  have hjn : ∀ x ∈ chunks (pw / 8) (ph / 8) blocks, (joinBlocks x).length = 8 := by simp [joinBlocks]
  have hx : (chunks (pw / 8) (ph / 8) blocks)[r]? = some ((blocks.drop (pw / 8 * r)).take (pw / 8)) := by
    have h2 : r < (chunks (pw / 8) (ph / 8) blocks).length := by rw [chunks_length]; exact hr
    rw [List.getElem?_eq_getElem h2, ← chunks_getD (pw / 8) (ph / 8) blocks r hr, List.getD_eq_getElem _ _ h2]
  have hrow : ∀ b ∈ (blocks.drop (pw / 8 * r)).take (pw / 8), (b.getD i []).length = 8 := fun b hbm =>
    (hb b (List.mem_of_mem_drop (List.mem_of_mem_take hbm))).row_length i hi
  have hy : ((blocks.drop (pw / 8 * r)).take (pw / 8))[c]? = some (blocks[r * (pw / 8) + c]) := by
    rw [List.getElem?_take_of_lt hc, List.getElem?_drop, Nat.mul_comm, List.getElem?_eq_getElem hlen]
  unfold cellAt planeOfBlocks
  rw [flatMap_getD joinBlocks _ 8 hjn [] r i hi _ hx]
  have hji : (joinBlocks ((blocks.drop (pw / 8 * r)).take (pw / 8))).getD i [] =
      ((blocks.drop (pw / 8 * r)).take (pw / 8)).flatMap fun b => b.getD i [] := by simp [joinBlocks, hi]
  rw [hji, flatMap_getD _ _ 8 hrow 0 c j hj _ hy, List.getD_eq_getElem _ _ hlen]

/-! Zig-zag -/

/-- The 64 entries of a block in zig-zag order, entry by entry (44_entropy R601). -/
theorem zigzag_eq_map {α : Type} (dflt : α) (b : List (List α)) (h : isBlock b) :
    zigzag dflt b = zigzagOrder.map fun k => cellAt b dflt (k / 8) (k % 8) := by
  unfold zigzag
  apply List.map_congr_left
  intro k hk
  have hk64 : k < 64 := by
    revert k
    decide
  have hk8 : k / 8 < b.length := by rw [h.1]; omega
  have hrow : b[k / 8]? = some b[k / 8] := List.getElem?_eq_getElem hk8
  have := flatMap_getD (fun row : List α => row) b 8 h.2 dflt (k / 8) (k % 8) (by omega) _ hrow
  rw [List.flatMap_id', Nat.div_add_mod] at this
  rw [this, cellAt, List.getD_eq_getElem _ _ hk8]

/-- The block whose zig-zag sequence this is, entry by entry (44_entropy R602). -/
theorem unzigzag_eq_map {α : Type} (dflt : α) (seq : List α) :
    unzigzag dflt seq =
      (List.range 8).map fun i => (List.range 8).map fun j => seq.getD (zigzagIndex.getD (8 * i + j) 0) dflt := rfl

/-! Segments -/

theorem wordBytes_bytesWord (b0 b1 b2 b3 : Byte) : wordBytes (bytesWord b0 b1 b2 b3) = [b0, b1, b2, b3] := by
  have h0 := b0.isLt
  have h1 := b1.isLt
  have h2 := b2.isLt
  have h3 := b3.isLt
  have hw : (bytesWord b0 b1 b2 b3).toNat = b0.toNat * 2 ^ 24 + b1.toNat * 2 ^ 16 + b2.toNat * 2 ^ 8 + b3.toNat := by
    simp only [bytesWord, BitVec.toNat_ofNat]
    omega
  simp only [wordBytes, hw, bitField]
  congr 1
  · apply BitVec.eq_of_toNat_eq; simp only [BitVec.toNat_ofNat]; omega
  congr 1
  · apply BitVec.eq_of_toNat_eq; simp only [BitVec.toNat_ofNat]; omega
  congr 1
  · apply BitVec.eq_of_toNat_eq; simp only [BitVec.toNat_ofNat]; omega
  congr 1
  · apply BitVec.eq_of_toNat_eq; simp only [BitVec.toNat_ofNat]; omega

theorem u32_natCast_toNat (n : Nat) (h : n < 2 ^ 32) : (u32 (n : Int)).toNat = n := by
  simp only [u32, BitVec.toNat_ofNat]
  omega

/-- The front segment of a payload: its length as four bytes, then as many bytes (45_patch R705, R707). -/
theorem takeSegment_eq_some (d seg rest : List Byte) :
    takeSegment d = some (seg, rest) ↔ d = be32 seg.length ++ seg ++ rest ∧ seg.length < 2 ^ 32 := by
  constructor
  · intro h
    unfold takeSegment takeWord at h
    split at h
    · cases h
    · rename_i n r hr
      split at hr
      · rename_i b0 b1 b2 b3 r'
        simp only [Option.some.injEq, Prod.mk.injEq] at hr
        obtain ⟨rfl, rfl⟩ := hr
        split at h
        · cases h
        · rename_i hn
          simp only [Option.some.injEq, Prod.mk.injEq] at h
          obtain ⟨rfl, rfl⟩ := h
          have hlen : (r'.take (bytesWord b0 b1 b2 b3).toNat).length = (bytesWord b0 b1 b2 b3).toNat := by
            rw [List.length_take]; omega
          refine ⟨?_, ?_⟩
          · rw [hlen, be32]
            have : u32 ((bytesWord b0 b1 b2 b3).toNat : Int) = bytesWord b0 b1 b2 b3 :=
              BitVec.eq_of_toNat_eq (u32_natCast_toNat _ (BitVec.isLt _))
            rw [this, wordBytes_bytesWord, List.append_assoc, List.take_append_drop]
            rfl
          · rw [hlen]; exact BitVec.isLt _
      · cases hr
  · rintro ⟨rfl, hlt⟩
    have hw : takeWord (be32 seg.length ++ seg ++ rest) = some (u32 (seg.length : Int), seg ++ rest) := by
      simp only [be32, wordBytes, List.cons_append, List.nil_append, takeWord, bytesWord_wordBytes]
    unfold takeSegment
    rw [hw]
    simp only
    rw [u32_natCast_toNat _ hlt, if_neg (by simp)]
    simp

end Sys2Proof.Machine
end

