-- ==== Sys2Proof/Laws/Dct.lean ====
section
/-! SUPPORT. Rounding a block and the one-dimensional passes entry by entry (42_dct R503, R504); the transforms on blocks of
one value and on blocks with a DC coefficient alone (42_dct R505, R506). -/

namespace Sys2Proof.Machine

/-! Rounding -/

theorem roundOne_eq (x : F64) :
    roundOne x = if x.isFinite = true ∧ inS32 x.round = true then .ok x.round else .error .numeric := by
  unfold roundOne F64.roundS32
  cases x.isFinite <;> cases inS32 x.round <;> rfl

/-- A map that answers `g x` or one error: it answers the list of the `g x` or that error. -/
theorem mapExcept_ite {ε α β : Type} (f : α → Except ε β) (ok : α → Prop) [DecidablePred ok] (g : α → β) (e : ε)
    (xs : List α) (h : ∀ x ∈ xs, f x = if ok x then .ok (g x) else .error e) :
    mapExcept f xs = if ∀ x ∈ xs, ok x then .ok (xs.map g) else .error e := by
  induction xs with
  | nil => simp [mapExcept]
  | cons x xs ih =>
    have hx := h x (by simp)
    have ih := ih fun y hy => h y (by simp [hy])
    by_cases h1 : ok x
    · by_cases h2 : ∀ y ∈ xs, ok y
      · have hall : ∀ y ∈ x :: xs, ok y := List.forall_mem_cons.mpr ⟨h1, h2⟩
        rw [if_pos h1] at hx
        rw [if_pos h2] at ih
        simp only [mapExcept, hx, ih, if_pos hall, List.map_cons]
      · have hall : ¬ ∀ y ∈ x :: xs, ok y := fun hc => h2 (List.forall_mem_cons.mp hc).2
        rw [if_pos h1] at hx
        rw [if_neg h2] at ih
        simp only [mapExcept, hx, ih, if_neg hall]
    · have hall : ¬ ∀ y ∈ x :: xs, ok y := fun hc => h1 (List.forall_mem_cons.mp hc).1
      rw [if_neg h1] at hx
      simp only [mapExcept, hx, if_neg hall]

/-- A computation over rows that rounds a number for each entry of an 8×8 block. -/
theorem roundsTo_of_rows {α : Type} (f : α → Except FaultCode Int) (v : α → F64) (rows : List (List α)) (d : α)
    (hr : isBlock rows) (hf : ∀ x, f x = roundOne (v x)) :
    roundsTo (fun i j => v (cellAt rows d i j)) (mapExcept (mapExcept f) rows) := by
  have hrow : ∀ row ∈ rows, mapExcept f row =
      if (∀ x ∈ row, (v x).isFinite = true ∧ inS32 (v x).round = true) then .ok (row.map fun x => (v x).round)
      else .error .numeric := by
    intro row _
    exact mapExcept_ite f (fun x => (v x).isFinite = true ∧ inS32 (v x).round = true) _ _ row fun x _ => by
      rw [hf, roundOne_eq]
  have hall := mapExcept_ite (mapExcept f)
    (fun row => ∀ x ∈ row, (v x).isFinite = true ∧ inS32 (v x).round = true) _ _ rows hrow
  have hiff : (∀ row ∈ rows, ∀ x ∈ row, (v x).isFinite = true ∧ inS32 (v x).round = true) ↔
      ∀ i j : Fin 8, (v (cellAt rows d i j)).isFinite = true ∧ inS32 (v (cellAt rows d i j)).round = true := by
    constructor
    · intro h i j
      have hi : i.val < rows.length := by rw [hr.1]; exact i.isLt
      have hj : j.val < rows[i.val].length := by rw [hr.2 _ (List.getElem_mem hi)]; exact j.isLt
      have := h _ (List.getElem_mem hi) _ (List.getElem_mem hj)
      simpa [cellAt, hi, hj] using this
    · intro h row hrowm x hx
      obtain ⟨i, hi, rfl⟩ := List.mem_iff_getElem.mp hrowm
      obtain ⟨j, hj, rfl⟩ := List.mem_iff_getElem.mp hx
      have h8 := hr.2 _ hrowm
      have hi8 : i < 8 := by rw [← hr.1]; exact hi
      have hj8 : j < 8 := by rw [← h8]; exact hj
      simpa [cellAt, hi, hj] using h ⟨i, hi8⟩ ⟨j, hj8⟩
  unfold roundsTo
  rw [hall]
  by_cases h : ∀ i j : Fin 8, (v (cellAt rows d i j)).isFinite = true ∧ inS32 (v (cellAt rows d i j)).round = true
  · rw [if_pos h, if_pos (hiff.mpr h)]
    refine ⟨_, rfl, by simp [hr.1], ?_, ?_⟩
    · intro row hrowm
      obtain ⟨r, hrm, rfl⟩ := List.mem_map.mp hrowm
      simp [hr.2 _ hrm]
    · intro i j
      have hi : i.val < rows.length := by rw [hr.1]; exact i.isLt
      have hj : j.val < rows[i.val].length := by rw [hr.2 _ (List.getElem_mem hi)]; exact j.isLt
      simp [cellAt, hi, hj]
  · rw [if_neg h, if_neg fun hc => h (hiff.mp hc)]

/-! Passes -/

theorem passCols_isBlock (pass : List F64 → List F64) (w : List (List F64)) : isBlock (passCols pass w) := by
  constructor
  · simp [passCols, transposed]
  · intro row hrow
    simp only [passCols, transposed, List.mem_map] at hrow
    obtain ⟨j, -, rfl⟩ := hrow
    simp

theorem fdct1_length (d : List F64) (h : d.length = 8) : (fdct1 d).length = 8 := by
  match d, h with
  | [_, _, _, _, _, _, _, _], _ => rfl

theorem idct1_length (d : List F64) (h : d.length = 8) : (idct1 d).length = 8 := by
  match d, h with
  | [_, _, _, _, _, _, _, _], _ => rfl

theorem passRows_isBlock {pass : List F64 → List F64} (hp : ∀ d : List F64, d.length = 8 → (pass d).length = 8)
    {w : List (List F64)} (hw : isBlock w) : isBlock (passRows pass w) := by
  constructor
  · simp [passRows, hw.1]
  · intro row hrow
    obtain ⟨r, hr, rfl⟩ := List.mem_map.mp hrow
    exact hp r (hw.2 r hr)

/-- A row of an 8×8 block is the list of its entries. -/
theorem row_eq_ofFn (w : List (List F64)) (hw : isBlock w) (i : Fin 8) :
    w.getD i [] = List.ofFn fun j : Fin 8 => cellAt w (F64.ofInt 0) i j := by
  have hi : i.val < w.length := by rw [hw.1]; exact i.isLt
  have hl : w[i.val].length = 8 := hw.2 _ (List.getElem_mem hi)
  rw [List.getD_eq_getElem _ _ hi]
  apply List.ext_getElem
  · rw [hl, List.length_ofFn]
  · intro j h1 h2
    rw [List.getElem_ofFn, cellAt, List.getD_eq_getElem _ _ hi, List.getD_eq_getElem _ _ h1]

/-- An entry after a pass over the rows. -/
theorem cellAt_passRows (pass : List F64 → List F64) (w : List (List F64)) (hw : isBlock w) (i j : Fin 8) :
    cellAt (passRows pass w) (F64.ofInt 0) i j =
      (pass (List.ofFn fun c : Fin 8 => cellAt w (F64.ofInt 0) i c)).getD j (F64.ofInt 0) := by
  rw [← row_eq_ofFn w hw i]
  have hi : i.val < w.length := by rw [hw.1]; exact i.isLt
  simp [cellAt, passRows, hi]

/-- An entry after a pass over the columns. -/
theorem cellAt_passCols (pass : List F64 → List F64) (w : List (List F64)) (hw : isBlock w) (i j : Fin 8) :
    cellAt (passCols pass w) (F64.ofInt 0) i j =
      (pass (List.ofFn fun r : Fin 8 => cellAt w (F64.ofInt 0) r j)).getD i (F64.ofInt 0) := by
  have hcol : (w.map fun row => row.getD j.val (F64.ofInt 0)) = List.ofFn fun r : Fin 8 => cellAt w (F64.ofInt 0) r j := by
    apply List.ext_getElem
    · rw [List.length_map, hw.1, List.length_ofFn]
    · intro r h1 h2
      have hr : r < w.length := by simpa using h1
      rw [List.getElem_ofFn, List.getElem_map, cellAt, List.getD_eq_getElem _ _ hr]
  rw [← hcol]
  simp [cellAt, passCols, transposed]

/-! Constant blocks -/

/-- The zero of the transforms. -/
theorem zero_mul_constants :
    F64.mul (F64.ofInt 0) dctFC4 = F64.ofInt 0 ∧ F64.mul (F64.ofInt 0) dctFC6 = F64.ofInt 0 ∧
    F64.mul dctFC2mC6 (F64.ofInt 0) = F64.ofInt 0 ∧ F64.mul dctFC2pC6 (F64.ofInt 0) = F64.ofInt 0 ∧
    F64.mul (F64.ofInt 0) dctIS2 = F64.ofInt 0 ∧ F64.mul (F64.ofInt 0) dctI2C2 = F64.ofInt 0 ∧
    F64.mul dctI2C2mC6 (F64.ofInt 0) = F64.ofInt 0 ∧
    F64.add (F64.mul dctIm2C2pC6 (F64.ofInt 0)) (F64.ofInt 0) = F64.ofInt 0 := by decide +kernel

/-- The forward pass over eight equal integers (42_dct R501). -/
theorem fdct1_constant (a : Int) (h : a.natAbs < 2 ^ 49) :
    fdct1 (List.replicate 8 (F64.ofInt a)) = F64.ofInt (8 * a) :: List.replicate 7 (F64.ofInt 0) := by
  obtain ⟨z1, z2, z3, z4, -⟩ := zero_mul_constants
  have d1 : F64.add (F64.ofInt a) (F64.ofInt a) = F64.ofInt (a + a) := F64.add_ofInt _ _ (by omega) (by omega) (by omega)
  have d2 : F64.add (F64.ofInt (a + a)) (F64.ofInt (a + a)) = F64.ofInt (a + a + (a + a)) :=
    F64.add_ofInt _ _ (by omega) (by omega) (by omega)
  have d3 : F64.add (F64.ofInt (a + a + (a + a))) (F64.ofInt (a + a + (a + a))) = F64.ofInt (8 * a) := by
    rw [F64.add_ofInt _ _ (by omega) (by omega) (by omega)]; congr 1; omega
  have s1 : ∀ b : Int, b.natAbs < 2 ^ 52 → F64.sub (F64.ofInt b) (F64.ofInt b) = F64.ofInt 0 := by
    intro b hb; rw [F64.sub_ofInt _ _ (by omega) (by omega) (by omega), Int.sub_self]
  have a0 : F64.add (F64.ofInt 0) (F64.ofInt 0) = F64.ofInt 0 := F64.add_ofInt 0 0 (by simp) (by simp) (by simp)
  simp only [List.replicate, fdct1, d1, d2, d3, s1 a (by omega), s1 (a + a) (by omega),
    s1 (a + a + (a + a)) (by omega), s1 0 (by simp), a0, z1, z2, z3, z4]

/-- The inverse pass over an integer and seven zeros (42_dct R502). -/
theorem idct1_dc (a : Int) (h : a.natAbs < 2 ^ 53) :
    idct1 (F64.ofInt a :: List.replicate 7 (F64.ofInt 0)) = List.replicate 8 (F64.ofInt a) := by
  obtain ⟨-, -, -, -, z1, z2, z3, z4⟩ := zero_mul_constants
  have d1 : F64.add (F64.ofInt a) (F64.ofInt 0) = F64.ofInt a := by
    rw [F64.add_ofInt _ _ (by omega) (by simp) (by omega), Int.add_zero]
  have d2 : F64.sub (F64.ofInt a) (F64.ofInt 0) = F64.ofInt a := by
    rw [F64.sub_ofInt _ _ (by omega) (by simp) (by omega), Int.sub_zero]
  have a0 : F64.add (F64.ofInt 0) (F64.ofInt 0) = F64.ofInt 0 := F64.add_ofInt 0 0 (by simp) (by simp) (by simp)
  have s0 : F64.sub (F64.ofInt 0) (F64.ofInt 0) = F64.ofInt 0 := F64.sub_ofInt 0 0 (by simp) (by simp) (by simp)
  simp only [List.replicate, idct1, d1, d2, a0, s0, z1, z2, z3, z4]

/-- An integer in the s32 range rounds to itself. -/
theorem roundOne_ofInt (n : Int) (h : inS32 n = true) : roundOne (F64.ofInt n) = .ok n := by
  have hn : n.natAbs < 2 ^ 53 := by
    simp [inS32] at h
    omega
  simp [roundOne, F64.roundS32, F64.isFinite_ofInt n hn, F64.round_ofInt n hn, h]

/-- A constant block k gives 64k at (0, 0) and 0 elsewhere (42_dct R505). -/
theorem forwardDct_constant (k : Int) (h1 : -(2 ^ 25) ≤ k) (h2 : k < 2 ^ 25) :
    forwardDct (List.replicate 8 (List.replicate 8 k)) =
      .ok ((64 * k :: List.replicate 7 0) :: List.replicate 7 (List.replicate 8 0)) := by
  have r1 := fdct1_constant k (by omega)
  have r2 := fdct1_constant (8 * k) (by omega)
  have r0 := fdct1_constant 0 (by simp)
  have o1 : roundOne (F64.ofInt (64 * k)) = .ok (64 * k) := roundOne_ofInt _ (by simp [inS32]; omega)
  have o0 : roundOne (F64.ofInt 0) = .ok 0 := roundOne_ofInt 0 (by decide)
  rw [show 8 * (8 * k) = 64 * k by omega] at r2
  simp only [List.replicate, Int.mul_zero] at r0 r1 r2 ⊢
  simp only [forwardDct, passRows, passCols, List.map, r1, transposed, List.range, List.range.loop, List.getD_cons_zero,
    List.getD_cons_succ, r2, r0, roundAll, mapExcept, o1, o0]

/-- The output scale on an integer (42_dct R504): Round(c × 1/64) = (c + 32) div 64. -/
theorem roundOne_outScale (c : Int) (h : inS32 c = true) :
    roundOne (F64.mul (F64.ofInt c) dctOutScale) = .ok ((c + 32) / 64) := by
  have hs : -(2 ^ 31) ≤ c ∧ c < 2 ^ 31 := by simp [inS32] at h; omega
  by_cases h0 : c = 0
  · subst h0; decide +kernel
  have hc : c.natAbs ≠ 0 := by omega
  have hlt : c.natAbs < 2 ^ 53 := by omega
  obtain ⟨k, hv, hn, hp⟩ := F64.holds_ofInt c hlt
  have ho : dctOutScale.view = .fin false (2 ^ 52) (-58) := by decide +kernel
  have hm : F64.mul (F64.ofInt c) dctOutScale = F64.ofScaled (decide (c < 0)) c.natAbs (-6) := by
    simp only [F64.mul, hv, ho, Bool.xor_false]
    rw [Nat.mul_assoc, ← pow_add, ← F64.ofScaled_shift _ c.natAbs (k + 52) (-6) hlt (by omega) (by omega)]
    congr 1
    omega
  have hl : Nat.log2 c.natAbs ≤ 52 := by
    have := (Nat.log2_lt hc).mpr hlt
    omega
  have hview := F64.view_ofScaled (decide (c < 0)) c.natAbs (-6) hc hlt (by omega) (by omega)
  have hr : (F64.ofScaled (decide (c < 0)) c.natAbs (-6)).round = (c + 32) / 64 := by
    simp only [F64.round, hview]
    rw [if_neg (by omega), signed_natAbs c _ _ hn hp, floorScaled, if_neg (by omega)]
    have e1 : (-(-6 + (Nat.log2 c.natAbs : Int) - 52)).toNat = (52 - Nat.log2 c.natAbs) + 6 := by omega
    have e2 : (-(-6 + (Nat.log2 c.natAbs : Int) - 52 - 1)).toNat = (52 - Nat.log2 c.natAbs) + 7 := by omega
    rw [e1, e2, pow_add, pow_add]
    generalize 52 - Nat.log2 c.natAbs = j
    have hj : (0 : Int) < 2 ^ j := by positivity
    rw [show 2 * (c * ((2 ^ j : Nat) : Int)) + 2 ^ j * 2 ^ 6 = 2 ^ j * (2 * c + 64) by push_cast; ring,
      Int.mul_ediv_mul_of_pos _ _ hj]
    omega
  have hf : (F64.ofScaled (decide (c < 0)) c.natAbs (-6)).isFinite = true := by simp [F64.isFinite, hview]
  rw [hm]
  simp only [roundOne, F64.roundS32, hf, hr]
  have : inS32 ((c + 32) / 64) = true := by simp [inS32]; omega
  simp [this]

/-- A block with `c` at (0, 0) alone gives (c + 32) div 64 everywhere (42_dct R506). -/
theorem inverseDct_dc (c : Int) (h : inS32 c = true) :
    inverseDct ((c :: List.replicate 7 0) :: List.replicate 7 (List.replicate 8 0)) =
      .ok (List.replicate 8 (List.replicate 8 ((c + 32) / 64))) := by
  have hs : -(2 ^ 31) ≤ c ∧ c < 2 ^ 31 := by simp [inS32] at h; omega
  have r1 := idct1_dc c (by omega)
  have r0 := idct1_dc 0 (by simp)
  have o1 := roundOne_outScale c h
  simp only [List.replicate] at r0 r1 ⊢
  simp only [inverseDct, passRows, passCols, List.map, transposed, List.range, List.range.loop, List.getD_cons_zero,
    List.getD_cons_succ, r1, r0, roundAll, mapExcept, o1]

end Sys2Proof.Machine
end

