-- ==== Sys2Proof/Laws/Launch.lean ====
section
/-! SUPPORT. A list of well-formed commands whose last is HALT is a list that the launch premise takes. -/

namespace Sys2Proof.Machine

/-- The OPC field of a header word is its OPC. -/
theorem headerFields_headerWord_opc (h : Header) (ho : h.opc < 256) (hi : h.imm8 < 256) :
    (headerFields (headerWord h)).opc = h.opc := by
  have := h.a.isLt; have := h.b.isLt; have := h.c.isLt; have := h.d.isLt
  simp only [headerFields, headerWord, bitField, BitVec.toNat_ofNat]
  omega

/-- A decoder finds a well-formed command by its header word alone (30_encoding R307). -/
theorem ofCode_header (i : Instr) (h : i.wellFormed = true) :
    Opcode.ofCode (headerFields i.header).opc = some i.opcode := by
  have ho : i.headerOf.opc = i.opcode.row.code := by cases i <;> rfl
  rw [Instr.header, headerFields_headerWord_opc, ho]
  · cases i.opcode <;> rfl
  · rw [ho]; cases i.opcode <;> decide
  · cases i
    case quant t _ _ _ => exact (Bool.toNat_lt t).trans (by decide)
    case dequant t _ _ _ => exact (Bool.toNat_lt t).trans (by decide)
    all_goals first
      | (show 0 < 256; decide)
      | exact of_decide_eq_true h

/-- A command has the argument words of its row (30_encoding R304). -/
theorem args_length (i : Instr) : i.args.length = i.opcode.row.narg := by cases i <;> rfl

/-- Argument words are passed over. -/
theorem endsInHalt_append (args rest : List Word) : endsInHalt args.length (args ++ rest) = endsInHalt 0 rest := by
  induction args with
  | nil => rfl
  | cons w args ih => exact ih

/-- The words of well-formed commands, the last of them HALT, end in their HALT. -/
theorem endsInHalt_commands (commands : List Instr) (hw : ∀ i ∈ commands, i.wellFormed = true)
    (hl : commands.getLast? = some .halt) : endsInHalt 0 (commands.flatMap encode) = true := by
  induction commands with
  | nil => cases hl
  | cons i rest ih =>
    simp only [List.flatMap_cons, encode, List.cons_append, endsInHalt, ofCode_header i (hw i (by simp))]
    cases rest with
    | nil => simp at hl; subst hl; decide
    | cons j rest =>
      rw [if_neg (by simp [encode]), ← args_length, endsInHalt_append]
      exact ih (fun k hk => hw k (by simp [hk])) (by simpa using hl)

/-- LMEM that holds the encodings of such commands meets the part of the launch premise that is about the list. -/
theorem launchable_commands (s : State) (a : Word) (commands : List Instr) (hr : s.engine ≠ .running)
    (hp : s.resetPending = false) (ha : a.toNat % 4 = 0)
    (hm : ∀ m ∈ s.moves, ∀ addr bytes, m.act ≠ .lmemWrite addr bytes)
    (hw : ∀ i ∈ commands, i.wellFormed = true) (hl : commands.getLast? = some .halt)
    (hf : a.toNat + (commands.flatMap encodeBytes).length ≤ s.cfg.lmemBytes)
    (hb : holdsBytes s.lmem a.toNat (commands.flatMap encodeBytes)) :
    s.launchable a (commands.flatMap encode) := by
  have he : bytesOfWords (commands.flatMap encode) = commands.flatMap encodeBytes := List.flatMap_assoc ..
  exact ⟨hr, hp, ha, hm, endsInHalt_commands commands hw hl, he ▸ hf, he ▸ hb⟩

end Sys2Proof.Machine
end

