-- ==== Sys2Proof/Laws/PerInstr.lean ====
section
/-! SUPPORT. The family EncodedForm: the header and the argument words of each well-formed command have the form of
30_encoding R300-R305. -/

namespace Sys2Proof.Laws

/-- Every field of a header comes back from its word (30_encoding R300). -/
theorem headerFields_headerWord (h : Header) (ho : h.opc < 2 ^ 8) (hi : h.imm8 < 2 ^ 8) :
    headerFields (headerWord h) = h := by
  obtain ⟨opc, a, b, c, d, imm⟩ := h
  have ha := a.isLt
  have hb := b.isLt
  have hc := c.isLt
  have hd := d.isLt
  simp only at ho hi
  have hw : (headerWord ⟨opc, a, b, c, d, imm⟩).toNat =
      opc * 2 ^ 24 + a.val * 2 ^ 20 + b.val * 2 ^ 16 + c.val * 2 ^ 12 + d.val * 2 ^ 8 + imm := by
    simp only [headerWord, BitVec.toNat_ofNat]
    omega
  simp only [headerFields, hw, bitField, Header.mk.injEq, Fin.ext_iff, Fin.val_ofNat]
  omega

/-- The header of the command has its opcode, zero in every reserved field, and comes back from its word; the command
has as many argument words as its opcode's NARG (30_encoding R300, R304, R305). -/
def EncodedForm.Statement (i : Instr) : Prop :=
  i.wellFormed = true →
    headerFields i.header = i.headerOf ∧ i.args.length = i.opcode.row.narg ∧
    i.opcode.reservedClear i.headerOf = true ∧ Opcode.ofCode i.headerOf.opc = some i.opcode

theorem EncodedForm.nop : EncodedForm.Statement (.nop) :=
  fun _ => ⟨headerFields_headerWord _ (by simp [Instr.headerOf, Instr.opcode, Opcode.row])
    (by simp [Instr.headerOf, Instr.opcode, Opcode.row]), rfl, rfl, rfl⟩

theorem EncodedForm.halt : EncodedForm.Statement (.halt) :=
  fun _ => ⟨headerFields_headerWord _ (by simp [Instr.headerOf, Instr.opcode, Opcode.row])
    (by simp [Instr.headerOf, Instr.opcode, Opcode.row]), rfl, rfl, rfl⟩

theorem EncodedForm.setd (a : DescReg) (base pitch rows cols len : Nat) : EncodedForm.Statement (.setd a base pitch rows cols len) :=
  fun _ => ⟨headerFields_headerWord _ (by simp [Instr.headerOf, Instr.opcode, Opcode.row])
    (by simp [Instr.headerOf, Instr.opcode, Opcode.row]), rfl, rfl, rfl⟩

theorem EncodedForm.csrw (csr : Nat) (value : Word) : EncodedForm.Statement (.csrw csr value) :=
  fun _ => ⟨headerFields_headerWord _ (by simp [Instr.headerOf, Instr.opcode, Opcode.row])
    (by simp [Instr.headerOf, Instr.opcode, Opcode.row]), rfl, rfl, rfl⟩

theorem EncodedForm.csrr (csr addr : Nat) : EncodedForm.Statement (.csrr csr addr) :=
  fun _ => ⟨headerFields_headerWord _ (by simp [Instr.headerOf, Instr.opcode, Opcode.row])
    (by simp [Instr.headerOf, Instr.opcode, Opcode.row]), rfl, rfl, rfl⟩

theorem EncodedForm.setq (q : Nat) : EncodedForm.Statement (.setq q) :=
  fun h => ⟨headerFields_headerWord _ (by simp [Instr.headerOf, Instr.opcode, Opcode.row])
    (by simpa [Instr.headerOf, Instr.wellFormed, fitsU8] using h), rfl, rfl, rfl⟩

theorem EncodedForm.absorb : EncodedForm.Statement (.absorb) :=
  fun _ => ⟨headerFields_headerWord _ (by simp [Instr.headerOf, Instr.opcode, Opcode.row])
    (by simp [Instr.headerOf, Instr.opcode, Opcode.row]), rfl, rfl, rfl⟩

theorem EncodedForm.fdct (a : DescReg) (row col : Nat) : EncodedForm.Statement (.fdct a row col) :=
  fun _ => ⟨headerFields_headerWord _ (by simp [Instr.headerOf, Instr.opcode, Opcode.row])
    (by simp [Instr.headerOf, Instr.opcode, Opcode.row]), rfl, rfl, rfl⟩

theorem EncodedForm.idct (a : DescReg) (row col : Nat) : EncodedForm.Statement (.idct a row col) :=
  fun _ => ⟨headerFields_headerWord _ (by simp [Instr.headerOf, Instr.opcode, Opcode.row])
    (by simp [Instr.headerOf, Instr.opcode, Opcode.row]), rfl, rfl, rfl⟩

theorem EncodedForm.quant (chroma : Bool) (a : DescReg) (row col : Nat) : EncodedForm.Statement (.quant chroma a row col) :=
  fun _ => ⟨headerFields_headerWord _ (by simp [Instr.headerOf, Instr.opcode, Opcode.row])
    (by cases chroma <;> simp [Instr.headerOf]), rfl,
    by cases chroma <;> simp [Instr.headerOf, Instr.opcode, Opcode.reservedClear, Opcode.row], rfl⟩

theorem EncodedForm.dequant (chroma : Bool) (a : DescReg) (row col : Nat) : EncodedForm.Statement (.dequant chroma a row col) :=
  fun _ => ⟨headerFields_headerWord _ (by simp [Instr.headerOf, Instr.opcode, Opcode.row])
    (by cases chroma <;> simp [Instr.headerOf]), rfl,
    by cases chroma <;> simp [Instr.headerOf, Instr.opcode, Opcode.reservedClear, Opcode.row], rfl⟩

theorem EncodedForm.zigzag (a b : DescReg) (row col index : Nat) : EncodedForm.Statement (.zigzag a b row col index) :=
  fun _ => ⟨headerFields_headerWord _ (by simp [Instr.headerOf, Instr.opcode, Opcode.row])
    (by simp [Instr.headerOf, Instr.opcode, Opcode.row]), rfl, rfl, rfl⟩

theorem EncodedForm.unzigzag (a b : DescReg) (index row col : Nat) : EncodedForm.Statement (.unzigzag a b index row col) :=
  fun _ => ⟨headerFields_headerWord _ (by simp [Instr.headerOf, Instr.opcode, Opcode.row])
    (by simp [Instr.headerOf, Instr.opcode, Opcode.row]), rfl, rfl, rfl⟩

theorem EncodedForm.enc (a b : DescReg) (nblk : Nat) : EncodedForm.Statement (.enc a b nblk) :=
  fun _ => ⟨headerFields_headerWord _ (by simp [Instr.headerOf, Instr.opcode, Opcode.row])
    (by simp [Instr.headerOf, Instr.opcode, Opcode.row]), rfl, rfl, rfl⟩

theorem EncodedForm.dec (a b : DescReg) (nblk : Nat) : EncodedForm.Statement (.dec a b nblk) :=
  fun _ => ⟨headerFields_headerWord _ (by simp [Instr.headerOf, Instr.opcode, Opcode.row])
    (by simp [Instr.headerOf, Instr.opcode, Opcode.row]), rfl, rfl, rfl⟩

theorem EncodedForm.rgb2ycc (a b c d : DescReg) : EncodedForm.Statement (.rgb2ycc a b c d) :=
  fun _ => ⟨headerFields_headerWord _ (by simp [Instr.headerOf, Instr.opcode, Opcode.row])
    (by simp [Instr.headerOf, Instr.opcode, Opcode.row]), rfl, rfl, rfl⟩

theorem EncodedForm.ycc2rgb (a b c d : DescReg) : EncodedForm.Statement (.ycc2rgb a b c d) :=
  fun _ => ⟨headerFields_headerWord _ (by simp [Instr.headerOf, Instr.opcode, Opcode.row])
    (by simp [Instr.headerOf, Instr.opcode, Opcode.row]), rfl, rfl, rfl⟩

theorem EncodedForm.scale (a b : DescReg) : EncodedForm.Statement (.scale a b) :=
  fun _ => ⟨headerFields_headerWord _ (by simp [Instr.headerOf, Instr.opcode, Opcode.row])
    (by simp [Instr.headerOf, Instr.opcode, Opcode.row]), rfl, rfl, rfl⟩

theorem EncodedForm.tenc (a b : DescReg) : EncodedForm.Statement (.tenc a b) :=
  fun _ => ⟨headerFields_headerWord _ (by simp [Instr.headerOf, Instr.opcode, Opcode.row])
    (by simp [Instr.headerOf, Instr.opcode, Opcode.row]), rfl, rfl, rfl⟩

theorem EncodedForm.tdec (a b : DescReg) : EncodedForm.Statement (.tdec a b) :=
  fun _ => ⟨headerFields_headerWord _ (by simp [Instr.headerOf, Instr.opcode, Opcode.row])
    (by simp [Instr.headerOf, Instr.opcode, Opcode.row]), rfl, rfl, rfl⟩

theorem EncodedForm.hash (a : DescReg) : EncodedForm.Statement (.hash a) :=
  fun _ => ⟨headerFields_headerWord _ (by simp [Instr.headerOf, Instr.opcode, Opcode.row])
    (by simp [Instr.headerOf, Instr.opcode, Opcode.row]), rfl, rfl, rfl⟩

theorem EncodedForm.diff (a b : DescReg) (ctx : Nat) : EncodedForm.Statement (.diff a b ctx) :=
  fun h => ⟨headerFields_headerWord _ (by simp [Instr.headerOf, Instr.opcode, Opcode.row])
    (by simpa [Instr.headerOf, Instr.wellFormed, fitsU8] using h), rfl, rfl, rfl⟩

theorem EncodedForm.full (a b : DescReg) : EncodedForm.Statement (.full a b) :=
  fun _ => ⟨headerFields_headerWord _ (by simp [Instr.headerOf, Instr.opcode, Opcode.row])
    (by simp [Instr.headerOf, Instr.opcode, Opcode.row]), rfl, rfl, rfl⟩

theorem EncodedForm.hctxrst (ctx : Nat) : EncodedForm.Statement (.hctxrst ctx) :=
  fun h => ⟨headerFields_headerWord _ (by simp [Instr.headerOf, Instr.opcode, Opcode.row])
    (by simpa [Instr.headerOf, Instr.wellFormed, fitsU8] using h), rfl, rfl, rfl⟩

theorem EncodedForm.cvreset : EncodedForm.Statement (.cvreset) :=
  fun _ => ⟨headerFields_headerWord _ (by simp [Instr.headerOf, Instr.opcode, Opcode.row])
    (by simp [Instr.headerOf, Instr.opcode, Opcode.row]), rfl, rfl, rfl⟩

theorem EncodedForm.cvset (a : DescReg) : EncodedForm.Statement (.cvset a) :=
  fun _ => ⟨headerFields_headerWord _ (by simp [Instr.headerOf, Instr.opcode, Opcode.row])
    (by simp [Instr.headerOf, Instr.opcode, Opcode.row]), rfl, rfl, rfl⟩

theorem EncodedForm.cvread (a : DescReg) (y x : Nat) : EncodedForm.Statement (.cvread a y x) :=
  fun _ => ⟨headerFields_headerWord _ (by simp [Instr.headerOf, Instr.opcode, Opcode.row])
    (by simp [Instr.headerOf, Instr.opcode, Opcode.row]), rfl, rfl, rfl⟩

theorem EncodedForm.stitch (a : DescReg) (x y : Int) : EncodedForm.Statement (.stitch a x y) :=
  fun _ => ⟨headerFields_headerWord _ (by simp [Instr.headerOf, Instr.opcode, Opcode.row])
    (by simp [Instr.headerOf, Instr.opcode, Opcode.row]), rfl, rfl, rfl⟩

theorem EncodedForm.apply (a : DescReg) : EncodedForm.Statement (.apply a) :=
  fun _ => ⟨headerFields_headerWord _ (by simp [Instr.headerOf, Instr.opcode, Opcode.row])
    (by simp [Instr.headerOf, Instr.opcode, Opcode.row]), rfl, rfl, rfl⟩

theorem EncodedForm.pser (a b : DescReg) (x y w h : Int) : EncodedForm.Statement (.pser a b x y w h) :=
  fun _ => ⟨headerFields_headerWord _ (by simp [Instr.headerOf, Instr.opcode, Opcode.row])
    (by simp [Instr.headerOf, Instr.opcode, Opcode.row]), rfl, rfl, rfl⟩

theorem EncodedForm.phdr (a : DescReg) : EncodedForm.Statement (.phdr a) :=
  fun _ => ⟨headerFields_headerWord _ (by simp [Instr.headerOf, Instr.opcode, Opcode.row])
    (by simp [Instr.headerOf, Instr.opcode, Opcode.row]), rfl, rfl, rfl⟩

end Sys2Proof.Laws
end

