-- ==== Sys2Proof/Laws/Step.lean ====
section
/-! SUPPORT. Everything a step can do, said once: a host move, a stopped engine's wait, or one command and its
boundary. -/

namespace Sys2Proof.Machine

/-- A command's step: the meaning of the command fetched, or the fault of its fetch. -/
theorem runCommand_eq_next {s u : State} (h : runCommand s = .next u) :
    (∃ i, s.fetch = .ok i ∧ exec i s = .next u) ∨
    ∃ f, s.fetch = .error f ∧ u = takeFault f.code f.info [] s := by
  unfold runCommand at h
  split at h
  · exact .inl ⟨_, ‹_›, h⟩
  · cases h
    exact .inr ⟨_, ‹_›, rfl⟩

/-- The engine's step. -/
theorem engineStep_eq_next {s t : State} (h : engineStep s = .next t) :
    (s.engine ≠ .running ∧ t = s) ∨ (s.engine = .running ∧ ∃ u, runCommand s = .next u ∧ t = u.boundary) := by
  unfold engineStep at h
  split at h
  · refine .inr ⟨‹_›, ?_⟩
    cases hr : runCommand s with
    | next u => exact ⟨u, rfl, by rw [hr] at h; cases h; rfl⟩
    | fault f => rw [hr] at h; cases h
    | refused r => rw [hr] at h; cases h
  · cases h
    exact .inl ⟨‹_›, rfl⟩

/-- A host move changes registers through `hostWrite`, or LMEM of an engine that is not RUNNING. -/
theorem hostMove_eq_next {act : HostAct} {s t : State} (h : hostMove act s = .next t) :
    (∃ off v, act = .regWrite off v ∧ t = s.hostWrite off v) ∨
    ∃ a bytes, act = .lmemWrite a bytes ∧
      (t = s ∨ (s.engine ≠ .running ∧ a + bytes.length ≤ s.cfg.lmemBytes ∧
        t = s.setLmem (Memory.store s.lmem a bytes))) := by
  cases act with
  | regWrite off v => cases h; exact .inl ⟨off, v, rfl, rfl⟩
  | lmemWrite a bytes =>
    refine .inr ⟨a, bytes, rfl, ?_⟩
    simp only [hostMove, hostStore] at h
    split at h
    · cases h; exact .inl rfl
    · split at h
      · cases h
      · cases h
        rename_i h1 h2
        exact .inr ⟨fun he => h1 (.inl he), by omega, rfl⟩

/-- The three ways a step goes on. -/
theorem step_eq_next {s t : State} (h : step s = .next t) :
    (∃ act rest, s.moves = ⟨0, act⟩ :: rest ∧ hostMove act { s with moves := rest } = .next t) ∨
    (s.moves = [] ∧ engineStep s = .next t) ∨
    ∃ n act rest, s.moves = ⟨n + 1, act⟩ :: rest ∧ engineStep { s with moves := ⟨n, act⟩ :: rest } = .next t := by
  unfold step at h
  split at h
  · exact .inr (.inl ⟨‹_›, h⟩)
  · exact .inl ⟨_, _, ‹_›, h⟩
  · exact .inr (.inr ⟨_, _, _, ‹_›, h⟩)

end Sys2Proof.Machine
end

