-- ==== Sys2Proof/Tests/Slice0.lean ====
section
/-! SUPPORT. Tests: refusals of ill-formed terms, every command's decoding from words written out by hand, one-step
tests whose expected results are those of 95_test_vectors or of the rules named, and for every obligation with
hypotheses a state and operands that meet them. -/

namespace Sys2Proof.Tests

open Sys2Proof Sys2Proof.Machine

set_option Elab.async false

/-! Helpers -/

/-- `s` with words stored from `a` on. -/
def put (s : State) (a : Nat) (ws : List Int) : State := s.setLmem (Memory.storeWords s.lmem a (ws.map u32))

/-- `s` with bytes stored from `a` on. -/
def putBytes (s : State) (a : Nat) (bs : List Byte) : State := s.setLmem (Memory.store s.lmem a bs)

/-- `s` with a matrix descriptor. -/
def matrix (s : State) (k : DescReg) (base pitch rows cols : Nat) : State :=
  s.setDesc k ⟨BitVec.ofNat 32 base, BitVec.ofNat 32 pitch, BitVec.ofNat 16 rows, BitVec.ofNat 16 cols, 0⟩

/-- `s` with a sequence or stream descriptor. -/
def stream (s : State) (k : DescReg) (base len : Nat) : State :=
  s.setDesc k ⟨BitVec.ofNat 32 base, 0, 0, 0, BitVec.ofNat 32 len⟩

/-- The reset state with the engine running. -/
def ready : State := { State.reset with engine := .running }

/-- The state a command leaves (none after a stop of the model). -/
def ran (i : Instr) (s : State) : Option State :=
  match exec i s with
  | .next t => some t
  | _ => none

/-- A fact about the state a command leaves. -/
def after (i : Instr) (s : State) (p : State → Bool) : Bool :=
  match exec i s with
  | .next t => p t
  | _ => false

/-- A fact about the state a step leaves. -/
def afterStep (s : State) (p : State → Bool) : Bool :=
  match step s with
  | .next t => p t
  | _ => false

/-- `n` words from `a` on, signed. -/
def wordsAt (s : State) (a n : Nat) : List Int := (Memory.loadWords s.lmem a n).map s32

/-- `n` bytes from `a` on. -/
def bytesAt (s : State) (a n : Nat) : List Nat := (Memory.load s.lmem a n).map (·.toNat)

/-- RES0 .. RES7 as numbers. -/
def results (s : State) : List Nat := s.res.toList.map (·.toNat)

/-- The command completed: the engine still runs. -/
def completed (s : State) : Bool := s.engine == .running

/-- The command faulted with this code, its header in FAULT_INFO and CPC kept. -/
def faulted (code info : Nat) (s : State) : Bool :=
  s.engine == .faulted && s.faultCode.toNat == code && s.faultInfo.toNat == info && s.faultCpc == s.cpc && s.irqPend

/-- The bytes of words. -/
def ofWords (ws : List Nat) : List Byte := bytesOfWords (ws.map (BitVec.ofNat 32))

/-- These words decode to this command, and it encodes to them. -/
def means (ws : List Nat) (i : Instr) : Bool :=
  (match decode (ofWords ws) with
    | .ok (j, rest) => j == i && rest.isEmpty
    | .error _ => false) && encode i == ws.map (BitVec.ofNat 32) && i.wellFormed

/-- These words are refused for this reason. -/
def refused (ws : List Nat) (e : DecodeError) : Bool :=
  match decode (ofWords ws) with
  | .ok _ => false
  | .error f => f == e

/-! Ill-formed terms, one for each check of WellFormed -/

theorem test_illformed_setd :
    [Instr.setd 0 (2 ^ 32) 0 0 0 0, .setd 0 0 (2 ^ 32) 0 0 0, .setd 0 0 0 65536 0 0, .setd 0 0 0 0 65536 0,
      .setd 0 0 0 0 0 (2 ^ 32)].any Instr.wellFormed = false := by decide

theorem test_illformed_control :
    [Instr.csrw (2 ^ 32) 0, .csrr (2 ^ 32) 0, .csrr 0 (2 ^ 32), .setq 256].any Instr.wellFormed = false := by decide

theorem test_illformed_blocks :
    [Instr.fdct 0 65536 0, .fdct 0 0 65536, .idct 0 65536 0, .idct 0 0 65536, .quant false 0 65536 0,
      .quant false 0 0 65536, .dequant true 0 65536 0, .dequant true 0 0 65536].any Instr.wellFormed = false := by decide

theorem test_illformed_entropy :
    [Instr.zigzag 0 1 65536 0 0, .zigzag 0 1 0 65536 0, .zigzag 0 1 0 0 (2 ^ 32), .unzigzag 0 1 (2 ^ 32) 0 0,
      .unzigzag 0 1 0 65536 0, .unzigzag 0 1 0 0 65536, .enc 0 1 (2 ^ 32), .dec 0 1 (2 ^ 32)].any Instr.wellFormed =
      false := by decide

theorem test_illformed_frames :
    [Instr.diff 0 1 256, .hctxrst 256, .cvread 0 65536 0, .cvread 0 0 65536, .stitch 0 (2 ^ 31) 0,
      .stitch 0 0 (-(2 ^ 31) - 1), .pser 0 1 (2 ^ 31) 0 0 0, .pser 0 1 0 (-(2 ^ 31) - 1) 0 0, .pser 0 1 0 0 (2 ^ 31) 0,
      .pser 0 1 0 0 0 (2 ^ 31)].any Instr.wellFormed = false := by decide

/-! Encodings, from V-X1 of 95_test_vectors (30_encoding R300-R304) -/

theorem test_encoding_control :
    (means [0x00000000] .nop && means [0x01000000] .halt &&
      means [0x02200000, 0x00010000, 0x00000100, 0x00400040, 0] (.setd 2 0x10000 256 64 64 0) &&
      means [0x03000000, 5, 0x10] (.csrw 5 16) && means [0x04000000, 0, 0x800] (.csrr 0 0x800)) = true := by decide

theorem test_encoding_quant :
    (means [0x0800004B] (.setq 75) && means [0x09000000] .absorb && means [0x12000000, 0] (.quant false 0 0 0) &&
      means [0x12500001, 8] (.quant true 5 0 8) && means [0x13500001, 8] (.dequant true 5 0 8)) = true := by decide

theorem test_encoding_dct :
    (means [0x10000000, 0x00080010] (.fdct 0 8 16) && means [0x11300000, 0] (.idct 3 0 0)) = true := by decide

theorem test_encoding_entropy :
    (means [0x14010000, 0, 0x40] (.zigzag 0 1 0 0 64) && means [0x15100000, 0x40, 0] (.unzigzag 1 0 64 0 0) &&
      means [0x20120000, 1] (.enc 1 2 1) && means [0x21210000, 1] (.dec 2 1 1)) = true := by decide

theorem test_encoding_color :
    (means [0x30012300] (.rgb2ycc 0 1 2 3) && means [0x31123400] (.ycc2rgb 1 2 3 4) && means [0x32670000] (.scale 6 7)) =
      true := by decide

theorem test_encoding_patch :
    (means [0x38010000] (.tenc 0 1) && means [0x39100000] (.tdec 1 0) &&
      means [0x55120000, 0xFFFFFFF8, 4, 16, 16] (.pser 1 2 (-8) 4 16 16) && means [0x56100000] (.phdr 1)) = true := by
  decide

theorem test_encoding_tilediff :
    (means [0x40400000] (.hash 4) && means [0x41130002] (.diff 1 3 2) && means [0x42010000] (.full 0 1) &&
      means [0x43000003] (.hctxrst 3)) = true := by decide

theorem test_encoding_compositor :
    (means [0x50000000] .cvreset && means [0x51900000] (.cvset 9) && means [0x52300000, 0x00010000] (.cvread 3 1 0) &&
      means [0x53200000, 0xFFFFFFF8, 4] (.stitch 2 (-8) 4) && means [0x54F00000] (.apply 15)) = true := by decide

/-- V-X2 and 30_encoding R305, R306: each reserved field, an illegal opcode, words cut short. -/
theorem test_refused_words :
    (refused [0x05000000] .illegalOpcode && refused [0xFF123456] .illegalOpcode && refused [0x00000001] .reservedField &&
      refused [0x10A10000, 0] .reservedField && refused [0x12000002, 0] .reservedField &&
      refused [0x09010000] .reservedField && refused [0x10000100, 4] .reservedField &&
      refused [0x01000001] .reservedField && refused [] .shortHeader && refused [0x02000000, 0, 0, 0] .shortArgs) =
      true := by decide

/-- The numbering of spec/opcode_table.json: bit 0 is the least significant bit of the first word. -/
theorem test_table_word :
    decodeTableWord 32 0x41130002 = some (.diff 1 3 2) ∧
    decodeTableWord 64 (0x12500001 + 8 * 2 ^ 32) = some (.quant true 5 0 8) ∧
    decodeTableWord 32 0x02200000 = some (.setd 2 0 0 0 0 0) ∧ decodeTableWord 32 0x05000000 = none := by decide

/-! Tables -/

/-- The reset tables are those that SETQ 50 and then ABSORB leave (70_reset R950). -/
theorem test_reset_tables_are_setq50_absorb :
    absorbTable resetScale (plainTable lumaBase 50) = resetQtl ∧
    absorbTable resetScale (plainTable chromaBase 50) = resetQtc := by decide +kernel

/-- The zig-zag order of 44_entropy R600, and its inverse. -/
theorem test_zigzag_order :
    zigzagOrder.take 16 = [0, 1, 8, 16, 9, 2, 3, 10, 17, 24, 32, 25, 18, 11, 4, 5] ∧ zigzagOrder.getD 63 0 = 63 ∧
    (List.range 64).map (fun k => zigzagIndex.getD (zigzagOrder.getD k 0) 64) = List.range 64 := by decide +kernel

/-- Codes of 44_entropy R604 and R605: DC category 0 is 00, EOB is 1010, ZRL is 11111111001. -/
theorem test_huffman_codes :
    codeBits dcCodes 0 = [false, false] ∧ codeBits acCodes 0x00 = [true, false, true, false] ∧
    codeBits acCodes 0xF0 = bitsOf 11 0x7F9 ∧ dcCodes.length = 12 ∧ acCodes.length = 162 := by decide +kernel

/-- Binary64 against values worked by hand: 1/3, 2^53 + 1 (a tie, to even), overflow, the smallest subnormal. -/
theorem test_binary64 :
    F64.div (F64.ofInt 1) (F64.ofInt 3) = ⟨0x3FD5555555555555⟩ ∧ F64.ofInt (2 ^ 53 + 1) = ⟨0x4340000000000000⟩ ∧
    F64.mul ⟨0x7FEFFFFFFFFFFFFF⟩ (F64.ofInt 2) = F64.inf false ∧ F64.div ⟨1⟩ (F64.ofInt 2) = ⟨0⟩ ∧
    F64.sub (F64.ofInt 1) (F64.ofInt 1) = ⟨0⟩ ∧ (F64.mk 0xBFE0000000000000).round = 0 := by decide +kernel

/-! One step of each command: results from 95_test_vectors, or worked from the rule named -/

/-- 40_control R400, R401 -/
theorem test_nop_halt :
    after .nop ready (fun t => t.cpc == 4 && completed t) = true ∧
    after .halt ready (fun t => t.cpc == 4 && t.engine == .halted && t.irqPend) = true := by decide +kernel

/-- V-N2 -/
theorem test_setd :
    after (.setd 15 0xFFFFFFFC 3 0xFFFF 0 7) ready
      (fun t => t.desc 15 == ⟨0xFFFFFFFC, 3, 0xFFFF, 0, 7⟩ && t.desc 14 == Desc.zero && t.cpc == 20) = true := by
  decide +kernel

/-- V-N2, V-N3 -/
theorem test_csrw :
    after (.csrw 5 65520) ready (fun t => t.tsize == 65520 && t.cpc == 12) = true ∧
    after (.csrw 5 65536) ready (faulted 0x06 0x03000000) = true ∧
    after (.csrw 2 60) ready (faulted 0x05 0x03000000) = true ∧
    after (.csrw 0x2F 0) ready (fun t => t.scale[7] == ⟨0x3FF480D900000000⟩) = true := by decide +kernel

/-- V-N1, V-N3: big-endian, and the last word of LMEM -/
theorem test_csrr :
    after (.csrr 0 0xFFFFFC) ready (fun t => bytesAt t 0xFFFFFC 4 == [0x44, 0x43, 0x54, 0x38] && t.cpc == 12) = true ∧
    after (.csrr 0x200 0x802) ready (faulted 0x05 0x04000000) = true ∧
    after (.csrr 0 0x802) ready (faulted 0x07 0x04000000) = true ∧
    after (.csrr 0 0x1000000) ready (faulted 0x08 0x04000000) = true := by decide +kernel

/-- V-Q1, V-Q4 -/
theorem test_setq :
    after (.setq 75) ready (fun t => (t.qtl.toList.take 8).map F64.round == [8, 6, 5, 8, 12, 20, 26, 31] &&
      (t.qtc.toList.take 8).map F64.round == [9, 9, 12, 24, 50, 50, 50, 50] && t.quality == 75 && !t.absorbed) = true ∧
    after (.setq 0) ready (faulted 0x04 0x08000000) = true ∧ after (.setq 100) ready (faulted 0x04 0x08000064) = true := by
  decide +kernel

/-- V-Q4, and QTL[0] of V-Q3 -/
theorem test_absorb :
    after .absorb ready (faulted 0x11 0x09000000) = true ∧
    after .absorb { ready with qtl := plainTable lumaBase 50, qtc := plainTable chromaBase 50, absorbed := false }
      (fun t => t.qtl[0] == ⟨0x405FFFFFFFFFFFFE⟩ && t.absorbed && completed t) = true := by decide +kernel

/-- A block of 64 equal samples at 0x10000, D0 on it. -/
def flat (v : Int) : State := matrix (put ready 0x10000 (List.replicate 64 v)) 0 0x10000 32 8 8

/-- V-D1: 100 everywhere gives DC 6400 and nothing else -/
theorem test_fdct :
    after (.fdct 0 0 0) (flat 100) (fun t => wordsAt t 0x10000 64 == 6400 :: List.replicate 63 0 && t.cpc == 8) = true := by
  decide +kernel

/-- V-D7: 2^25 everywhere does not fit -/
theorem test_fdct_numeric :
    after (.fdct 0 0 0) (flat (2 ^ 25)) (fun t => faulted 0x0E 0x10000000 t && t.draws == 1) = true ∧
    after (.fdct 0 4 0) (flat 0) (faulted 0x09 0x10000000) = true := by decide +kernel

/-- V-D6 -/
theorem test_idct :
    after (.idct 0 0 0) (put (flat 0) 0x10004 [512])
      (fun t => wordsAt t 0x10020 8 == [8, 7, 5, 2, -2, -5, -7, -8]) = true := by decide +kernel

/-- V-Q4: ties go up -/
theorem test_quant :
    after (.quant false 0 0 0) (put (flat 0) 0x10000 [64]) (fun t => wordsAt t 0x10000 2 == [1, 0]) = true ∧
    after (.quant false 0 0 0) (put (flat 0) 0x10000 [-64]) (fun t => wordsAt t 0x10000 2 == [-1, 0]) = true := by
  decide +kernel

/-- V-Q4 -/
theorem test_dequant :
    after (.dequant false 0 0 0) (put (flat 0) 0x10000 [2 ^ 24 - 1]) (fun t => wordsAt t 0x10000 1 == [2147483520]) =
      true ∧
    after (.dequant true 0 0 0) (put (flat 0) 0x10000 [2 ^ 24]) (faulted 0x0E 0x13000001) = true := by decide +kernel

/-- V-Z2 -/
theorem test_zigzag :
    after (.zigzag 0 1 0 0 64) (stream (matrix (put ready 0x10000 ((List.range 64).map Int.ofNat)) 0 0x10000 32 8 8) 1 0x11000 512)
      (fun t => wordsAt t 0x11100 8 == [0, 1, 8, 16, 9, 2, 3, 10]) = true ∧
    after (.zigzag 0 1 0 0 0) (stream (flat 0) 1 0x100E0 512) (faulted 0x0B 0x14010000) = true := by decide +kernel

/-- V-Z2 -/
theorem test_unzigzag :
    after (.unzigzag 1 0 0 0 0) (stream (matrix (put ready 0x11000 ((List.range 64).map Int.ofNat)) 0 0x10000 32 8 8) 1 0x11000 256)
      (fun t => wordsAt t 0x10000 8 == [0, 1, 5, 6, 14, 15, 27, 28] &&
        wordsAt t 0x100E0 8 == [35, 36, 48, 49, 57, 58, 62, 63]) = true := by decide +kernel

/-- A sequence of 64 elements at 0x10000 that starts with `xs`, as D1, and a stream of `len` bytes at 0x20000, as D2. -/
def sequenceOf (xs : List Int) (len : Nat) : State :=
  stream (stream (put ready 0x10000 (xs ++ List.replicate (64 - xs.length) 0)) 1 0x10000 256) 2 0x20000 len

/-- V-E: Huffman and RLE -/
theorem test_enc :
    after (.enc 1 2 1) (sequenceOf [5, -3] 4096)
      (fun t => bytesAt t 0x20000 2 == [0x95, 0x2B] && results t == [2, 0, 0, 0, 0, 0, 0, 0]) = true ∧
    after (.enc 1 2 1) { sequenceOf [0] 4 with emode := 0 }
      (fun t => bytesAt t 0x20000 4 == [0, 0, 0, 0x40] && results t == [4, 0, 0, 0, 0, 0, 0, 0]) = true ∧
    after (.enc 1 2 1) (sequenceOf [2048] 4096) (fun t => faulted 0x0D 0x20120000 t && t.draws == 1) = true := by
  decide +kernel

/-- A stream of these bytes at 0x20000, as D2, and a sequence of 64 words, 9 each, at 0x10000, as D1. -/
def streamOf (bs : List Byte) : State :=
  stream (stream (putBytes (put ready 0x10000 (List.replicate 64 9)) 0x20000 bs) 1 0x10000 256) 2 0x20000 bs.length

/-- V-E: a decode that ends well, one cut short, and a code that does not exist -/
theorem test_dec :
    after (.dec 2 1 1) (streamOf [0x95, 0x2B]) (fun t => wordsAt t 0x10000 3 == [5, -3, 0] && results t == [0, 2, 0, 0, 0, 0, 0, 0]) =
      true ∧
    after (.dec 2 1 1) (streamOf []) (fun t => wordsAt t 0x10000 1 == [9] && results t == [1, 0, 0, 0, 0, 0, 0, 0]) = true ∧
    after (.dec 2 1 1) (streamOf [0xFF, 0xFF])
      (fun t => wordsAt t 0x10000 1 == [9] && results t == [2, 0, 0, 0, 0, 0, 0, 0]) = true := by decide +kernel

/-- V-C1: red, green, blue, white -/
theorem test_rgb2ycc :
    after (.rgb2ycc 0 1 2 3) (matrix (matrix (matrix (matrix (put ready 0x1000 [0xFF0000, 0xFF00, 0xFF, 0xFFFFFF])
        0 0x1000 8 2 2) 1 0x2000 8 2 2) 2 0x3000 4 1 1) 3 0x4000 4 1 1)
      (fun t => wordsAt t 0x2000 4 == [76, 150, 29, 255] && wordsAt t 0x3000 1 == [128] && wordsAt t 0x4000 1 == [128]) =
      true := by decide +kernel

/-- V-C4 -/
theorem test_ycc2rgb :
    after (.ycc2rgb 0 1 2 3) (matrix (matrix (matrix (matrix (put (put (put ready 0x1000 [255, 0, 128, 16]) 0x2000 [128])
        0x3000 [255]) 0 0x1000 8 2 2) 1 0x2000 4 1 1) 2 0x3000 4 1 1) 3 0x4000 8 2 2)
      (fun t => wordsAt t 0x4000 4 == [0xFFA4FF, 0xB20000, 0xFF2580, 0xC20010]) = true := by decide +kernel

/-- V-S1 -/
theorem test_scale :
    after (.scale 0 1) (matrix (matrix (put ready 0x1000 [0x000000, 0x0A141E, 0x141E28, 0x1E2832]) 0 0x1000 16 1 4)
        1 0x2000 12 1 3)
      (fun t => wordsAt t 0x2000 3 == [0, 0x0D1721, 0x1B252F]) = true ∧
    after (.scale 0 1) (matrix (matrix ready 0 0x1000 8 2 2) 1 0x1004 8 2 2) (faulted 0x0B 0x32010000) = true := by
  decide +kernel

/-- V-T4 -/
theorem test_hash :
    after (.hash 0) { matrix (put ready 0x1000 [0x123456]) 0 0x1000 4 1 1 with hstride := 255 }
      (fun t => t.hash == 0x0000560003400012#64) = true ∧
    after (.hash 0) (matrix (put ready 0x1000 (List.replicate 15 0xFF)) 0 0x1000 20 3 5)
      (fun t => t.hash == 0x0005FA0000000000#64) = true := by decide +kernel

/-- V-T5 -/
theorem test_hctxrst :
    after (.hctxrst 3) { ready with ctxs := List.replicate 4 ⟨true, ⟨16, 16, 16, 2⟩, 1, 1, [7]⟩ }
      (fun t => !(t.ctx 3).valid && (t.ctx 2).valid) = true ∧
    after (.hctxrst 4) ready (faulted 0x04 0x43000004) = true := by decide +kernel

/-- V-K1 -/
theorem test_cvset :
    after (.cvset 0) (matrix (put ready 0x1000 [1, 2, 3, 0xAB000004]) 0 0x1000 8 2 2)
      (fun t => t.canvas == ⟨2, 2, [[1, 2], [3, 0xAB000004]]⟩) = true ∧
    after (.cvset 0) (matrix ready 0 0x1000 4 4097 1) (faulted 0x0F 0x51000000) = true ∧
    after .cvreset { ready with canvas := ⟨1, 1, [[5]]⟩ } (fun t => t.canvas == Canvas.empty) = true := by decide +kernel

/-- V-K1 -/
theorem test_cvread :
    after (.cvread 1 1 0) { matrix ready 1 0x2000 8 1 2 with canvas := ⟨2, 2, [[1, 2], [3, 4]]⟩ }
      (fun t => wordsAt t 0x2000 2 == [3, 4]) = true ∧
    after (.cvread 1 0 1) { matrix ready 1 0x2000 8 1 2 with canvas := ⟨2, 2, [[1, 2], [3, 4]]⟩ }
      (faulted 0x0A 0x52100000) = true := by decide +kernel

/-- 47_compositor R807, R808: growth to the right and below, clipping on the left -/
theorem test_stitch :
    after (.stitch 0 2 1) { matrix (put ready 0x1000 [7, 8]) 0 0x1000 8 1 2 with canvas := ⟨1, 1, [[5]]⟩ }
      (fun t => t.canvas == ⟨2, 4, [[5, 0, 0, 0], [0, 0, 7, 8]]⟩) = true ∧
    after (.stitch 0 (-1) 0) { matrix (put ready 0x1000 [7, 8]) 0 0x1000 8 1 2 with canvas := ⟨1, 1, [[5]]⟩ }
      (fun t => t.canvas == ⟨1, 1, [[8]]⟩) = true := by decide +kernel

/-- V-P1 -/
theorem test_pser :
    after (.pser 1 2 (-8) 4 16 16) (stream (stream (putBytes ready 0x2000 [0xAA, 0xBB, 0xCC]) 1 0x2000 3) 2 0x3000 64)
      (fun t => bytesAt t 0x3000 23 == [0, 0, 0, 0x13, 0xFF, 0xFF, 0xFF, 0xF8, 0, 0, 0, 4, 0, 0, 0, 16, 0, 0, 0, 16,
        0xAA, 0xBB, 0xCC] && results t == [23, 0, 0, 0, 0, 0, 0, 0]) = true ∧
    after (.pser 1 2 (-8) 4 16 16) (stream (stream ready 1 0x2000 3) 2 0x3000 22) (faulted 0x0C 0x55120000) = true := by
  decide +kernel

/-- The patch at (−8, 4) of three bytes, as V-P1 serializes it. -/
def smallPatch : List Byte := ofWords [0x13, 0xFFFFFFF8, 4, 16, 16] ++ [0xAA, 0xBB, 0xCC]

/-- V-P1 -/
theorem test_phdr :
    after (.phdr 2) (streamOf smallPatch)
      (fun t => results t == [0, 23, 0xFFFFFFF8, 4, 16, 16, 3, 0x20014] && t.desc 2 == ⟨0x20000, 0, 0, 0, 23⟩) = true ∧
    after (.phdr 2) (streamOf (ofWords [0xF, 0, 0, 0, 0])) (fun t => results t == [2, 0, 0, 0, 0, 0, 0, 0]) = true := by
  decide +kernel

/-- The payload of a black 16×16 tile (V-P2). -/
def blackPayload : List Byte := ofWords [3] ++ [0x28, 0xA2, 0x8A] ++ ofWords [2] ++ [0xEF, 0x2B] ++ ofWords [2] ++ [0xEF, 0x2B]

/-- A 16×16 tile of one word. -/
def tileOfWord (w : Word) : List (List Word) := List.replicate 16 (List.replicate 16 w)

/-- The settings after reset: Huffman, and the tables of quality 50. -/
def codec : CodecSettings := ⟨1, resetQtl, resetQtc⟩

/-- V-P2: the black tile, the tile coder alone -/
theorem test_tile_encode : tileEncode codec (tileOfWord 0) 16 16 = .ok blackPayload := by decide +kernel

/-- The planes of the black tile come back from their segments (V-P2). -/
theorem test_decode_planes :
    decodePlane 1 resetQtl [0x28, 0xA2, 0x8A] 16 16 = some (List.replicate 16 (List.replicate 16 0)) ∧
    decodePlane 1 resetQtc [0xEF, 0x2B] 8 8 = some (List.replicate 8 (List.replicate 8 128)) ∧
    inversePixel 0 128 128 = 0 := by decide +kernel

/-- The segments of the black payload, each behind its length (45_patch R706). -/
theorem test_payload_segments :
    takeSegment blackPayload = some ([0x28, 0xA2, 0x8A], blackPayload.drop 7) ∧
    takeSegment (blackPayload.drop 7) = some ([0xEF, 0x2B], blackPayload.drop 13) ∧
    takeSegment (blackPayload.drop 13) = some ([0xEF, 0x2B], []) ∧
    takeSegment (ofWords [4] ++ [0x28, 0xA2, 0x8A]) = none := by decide +kernel

/-- The pixels of the black tile, as the decoder makes them from its planes. -/
def blackPixels : List (List Word) :=
  inverseColor (List.replicate 16 (List.replicate 16 0)) (List.replicate 8 (List.replicate 8 128))
    (List.replicate 8 (List.replicate 8 128))

/-- A payload whose three segments decode is the pixels of its planes (45_patch R707). -/
theorem tileDecode_of_planes (k : CodecSettings) (d d1 d2 sy scb scr : List Byte) (h w ch cw : Nat) (y cb cr : List (List Int))
    (hh : h / 2 = ch) (hw : w / 2 = cw) (h1 : takeSegment d = some (sy, d1)) (h2 : takeSegment d1 = some (scb, d2))
    (h3 : takeSegment d2 = some (scr, [])) (p1 : decodePlane k.emode k.qtl sy h w = some y)
    (p2 : decodePlane k.emode k.qtc scb ch cw = some cb) (p3 : decodePlane k.emode k.qtc scr ch cw = some cr) :
    tileDecode k d h w = some (inverseColor y cb cr) := by
  simp [tileDecode, hh, hw, h1, h2, h3, p1, p2, p3]

/-- V-P2: the payload decodes -/
theorem test_tile_decode : tileDecode codec blackPayload 16 16 = some blackPixels :=
  tileDecode_of_planes codec blackPayload _ _ _ _ _ 16 16 8 8 _ _ _ rfl rfl test_payload_segments.1
    test_payload_segments.2.1 test_payload_segments.2.2.1 test_decode_planes.1 test_decode_planes.2.1
    test_decode_planes.2.1

/-- V-P3: a payload cut in its first segment is CORRUPT -/
theorem test_tile_decode_corrupt : tileDecode codec (ofWords [4] ++ [0x28, 0xA2, 0x8A]) 16 16 = none := by decide +kernel

/-! For every obligation with hypotheses, a state and operands that meet all of them together; for a statement with
several clauses, one for each, at a boundary of its range -/

/-- DecodeOfEncode -/
theorem test_hypotheses_decode_of_encode :
    [Instr.setd 15 0xFFFFFFFF 0xFFFFFFFF 0xFFFF 0xFFFF 0xFFFFFFFF, .diff 15 15 255, .stitch 15 (-(2 ^ 31)) (2 ^ 31 - 1),
      .quant true 15 0xFFFF 0xFFFF].all Instr.wellFormed = true := by decide

/-- EncodeOfDecode -/
theorem test_hypotheses_encode_of_decode :
    decode [0x43, 0, 0, 0xFF, 0x99] = .ok (.hctxrst 255, [0x99]) := by rfl

/-- An FDCT command placed for the next fetch, at 0. -/
def loaded : State := State.reset.withFetchWord 64 (0x10000000 + 0x00080010 * 2 ^ 32)

/-- The last word of LMEM is HALT, and CPC is on it. -/
def lastWord : State := { put ready 0xFFFFFC [0x01000000] with cpc := 0xFFFFFC }

/-- StepRunsDecoded, with a command of two words, at the end of LMEM, and with a host move to come -/
theorem test_hypotheses_step_runs_decoded :
    (let s := loaded
     (Instr.fdct 0 8 16).wellFormed = true ∧ s.engine = .running ∧ s.cpc.toNat % 4 = 0 ∧
      s.cpc.toNat + (Instr.fdct 0 8 16).length ≤ s.cfg.lmemBytes ∧
      (∀ k, k < (Instr.fdct 0 8 16).length →
        s.lmem.read (s.cpc.toNat + k) = (encodeBytes (.fdct 0 8 16)).getD k 0) ∧ s.moves = []) ∧
    (let s := { lastWord with moves := [⟨1, .regWrite 0x18 1⟩] }
     Instr.halt.wellFormed = true ∧ s.engine = .running ∧ s.cpc.toNat % 4 = 0 ∧
      s.cpc.toNat + Instr.halt.length ≤ s.cfg.lmemBytes ∧
      (∀ k, k < Instr.halt.length → s.lmem.read (s.cpc.toNat + k) = (encodeBytes .halt).getD k 0) ∧
      s.moves = [⟨0 + 1, .regWrite 0x18 1⟩]) := by decide +kernel

/-- The hypotheses of FetchChecks. -/
abbrev fetchReady (s : State) : Prop := s.engine = .running ∧ s.moves = [] ∧ s.resetPending = false

/-- FetchChecks: each check, and a command that passes them all -/
theorem test_hypotheses_fetch_checks :
    fetchReady { ready with cpc := 2 } ∧ fetchReady { ready with cpc := 0x1000000 } ∧
    (fetchReady (put ready 0 [0x05000000]) ∧
      Opcode.ofCode (bitField (wordAt (put ready 0 [0x05000000]).lmem 0).toNat 24 8) = none) ∧
    (let s := { put ready 0xFFFFFC [0x02000000] with cpc := 0xFFFFFC }
     fetchReady s ∧ Opcode.ofCode (bitField (wordAt s.lmem s.cpc.toNat).toNat 24 8) = some .setd ∧
      s.cpc.toNat + 4 + 4 * Opcode.setd.row.narg > s.cfg.lmemBytes) ∧
    (fetchReady (put ready 0 [0x00000001]) ∧
      Opcode.reservedClear .nop (headerFields (wordAt (put ready 0 [0x00000001]).lmem 0)) = false) ∧
    (fetchReady lastWord ∧ Opcode.ofCode (bitField (wordAt lastWord.lmem 0xFFFFFC).toNat 24 8) = some .halt ∧
      0xFFFFFC + 4 + 4 * Opcode.halt.row.narg ≤ lastWord.cfg.lmemBytes ∧
      Opcode.reservedClear .halt (headerFields (wordAt lastWord.lmem 0xFFFFFC)) = true) := by decide +kernel

/-- What those states do (V-X2). -/
theorem test_fetch_faults :
    afterStep { ready with cpc := 2 } (faulted 0x01 0) = true ∧
    afterStep { ready with cpc := 0x1000000 } (faulted 0x01 0) = true ∧
    afterStep (put ready 0 [0x05000000]) (faulted 0x02 0x05000000) = true ∧
    afterStep { put ready 0xFFFFFC [0x02000000] with cpc := 0xFFFFFC } (faulted 0x01 0x02000000) = true ∧
    afterStep (put ready 0 [0x00000001]) (faulted 0x03 1) = true ∧
    afterStep lastWord (fun t => t.engine == .halted && t.cpc == 0x1000000) = true := by decide +kernel

/-- StoppedEngineWaits -/
theorem test_hypotheses_stopped_engine_waits :
    (State.reset.engine ≠ .running ∧ State.reset.moves = []) ∧
    { ready with moves := [⟨0, .regWrite 0x04 4⟩, ⟨3, .lmemWrite 0 [1]⟩] }.moves =
      ⟨0, .regWrite 0x04 4⟩ :: [⟨3, .lmemWrite 0 [1]⟩] := by decide +kernel

/-- SoftResetAfterCommand: CSRR ID to 0x800 runs, and then the reset lands -/
def resetWaits : State := { put ready 0x40 [0x04000000, 0, 0x800] with cpc := 0x40, resetPending := true, tsize := 16 }

theorem test_hypotheses_soft_reset_after_command :
    resetWaits.engine = .running ∧ resetWaits.resetPending = true ∧ resetWaits.moves = [] ∧
    afterStep resetWaits (fun t => wordsAt t 0x800 1 == [0x44435438] && t.tsize == 32 && t.cpc == 0 &&
      t.engine == .idle && !t.resetPending) = true := by decide +kernel

/-- HostControlWrite: each case, SOFT_RESET over START over RESUME (V-R1, V-R3) -/
theorem test_host_control :
    (ready.hostWrite 0x04 7).resetPending = true ∧ ({ State.reset with tsize := 16 }.hostWrite 0x04 7).tsize = 32 ∧
    ({ State.reset with hCpcStart := 0x40, cpc := 8 }.hostWrite 0x04 3).cpc = 0x40 ∧
    ({ State.reset with hCpcStart := 0x40, cpc := 8 }.hostWrite 0x04 2).cpc = 8 ∧
    ({ State.reset with hCpcStart := 0x40, cpc := 8 }.hostWrite 0x04 2).engine = .running ∧
    ({ ready with hCpcStart := 0x40, cpc := 8 }.hostWrite 0x04 3).cpc = 8 ∧
    (State.reset.hostWrite 0x04 8).engine = .idle := by decide +kernel

/-- Two commands, NOP and HALT, at 0x40, and the fault registers of an earlier run. -/
def listLoaded : State :=
  { put State.reset 0x40 [0, 0x01000000] with
    cpc := 0x40, hCpcStart := 0x40, engine := .faulted, faultCode := 7, faultCpc := 0x40, faultInfo := 9 }

/-- HostControlWrite: START at H_CPC_START and RESUME at CPC meet the launch premise, with a host move still to come that
writes no LMEM (70_reset R965) -/
theorem test_hypotheses_clean_launch :
    { listLoaded with moves := [⟨3, .regWrite 0x18 1⟩] }.launchable 0x40 [0, 0x01000000] := by
  refine ⟨by decide, rfl, by decide, ?_, by decide +kernel, by decide +kernel, ?_⟩
  · intro m hm addr bytes h
    simp only [List.mem_singleton] at hm
    subst hm
    cases h
  · unfold holdsBytes
    decide +kernel

/-- HostControlWrite: so does the list NOP, `.word 0x05000000`, HALT, whose second word does not decode (V-F1, code 0x02) -/
theorem test_hypotheses_clean_launch_illegal :
    (put State.reset 0x1000 [0, 0x05000000, 0x01000000]).launchable 0x1000 [0, 0x05000000, 0x01000000] := by
  refine ⟨by decide, rfl, by decide, ?_, by decide +kernel, by decide +kernel, ?_⟩
  · intro m hm
    cases hm
  · unfold holdsBytes
    decide +kernel

/-- The launch premise takes the lists of V-F1 that an undecodable word ends (codes 0x02, 0x03), and a list that faults
before its HALT; it takes no list without a HALT, and an argument word is none (30_encoding R307). -/
theorem test_ends_in_halt :
    ([[0, 0x05000000, 0x01000000], [0, 0x01000001, 0x01000000], [0, 0x03000000, 0, 5, 0x01000000],
      [0x05000000, 0x03000000, 0x01000000], [0x01000000, 0, 0x01000000]].all (endsInHalt 0)) = true ∧
    ([[], [0], [0x01000001], [0x03000000, 5, 0x01000000], [0x05000000], [0x02100000, 0x01000000]].any (endsInHalt 0))
      = false := by decide +kernel

/-- What those writes do: the fault registers are cleared, and the engine runs at 0x40. -/
theorem test_clean_launch :
    ([1, 2].all fun v => let t := listLoaded.hostWrite 0x04 v
      t.engine == .running && t.cpc == 0x40 && t.faultCode == 0 && t.faultCpc == 0 && t.faultInfo == 0) = true ∧
    (let t := listLoaded.withFetchWord 32 0x01000000
     t.engine = .running ∧ t.cpc = 0x40 ∧ t.faultCode = 0 ∧ t.faultCpc = 0 ∧ t.faultInfo = 0) := by decide +kernel

/-- HostRegisterMap: listed read-only offsets and the first unlisted one -/
theorem test_hypotheses_host_register_map :
    0x20 ∈ [0x00, 0x08, 0x10, 0x1C, 0x20] ∧ 0x24 % 4 = 0 ∧ 0x24 > 0x20 := by decide

/-- HostMemoryPort: while RUNNING, and up to the last byte of LMEM -/
theorem test_hypotheses_host_memory_port :
    ready.engine = .running ∧ State.reset.engine ≠ .running ∧
    0xFFFFFC + ([1, 2, 3, 4] : List Byte).length ≤ State.reset.cfg.lmemBytes := by decide +kernel

/-- CSRR to the last word of LMEM. -/
def storing : State := put ready 0 [0x04000000, 0, 0xFFFFFC]
/-- CSRW TSIZE, 65520. -/
def setting : State := put ready 0 [0x03000000, 5, 65520]
/-- SETQ 1. -/
def rescaling : State := put ready 0 [0x08000001]
/-- STITCH of a 1×2 matrix at (2, 1) on a 1×1 canvas. -/
def stitching : State :=
  { matrix (put (put ready 0 [0x53000000, 2, 1]) 0x1000 [7, 8]) 0 0x1000 8 1 2 with canvas := ⟨1, 1, [[5]]⟩ }
/-- HCTXRST 3, a context being valid. -/
def forgetting : State :=
  { put ready 0 [0x43000003] with ctxs := List.replicate 4 ⟨true, ⟨16, 32, 16, 2⟩, 1, 2, [7, 9]⟩ }
/-- An illegal opcode. -/
def faulting : State := put ready 0x40 [0x05000000] |>.readyAt 0x40

/-- The hypotheses of the statements that every step keeps an invariant, each with a step that writes what the
invariant is about -/
theorem test_hypotheses_invariants_kept :
    (storing.memoryFits ∧ afterStep storing (fun t => wordsAt t 0xFFFFFC 1 == [0x44435438]) = true) ∧
    (setting.csrsLegal ∧ afterStep setting (fun t => t.tsize == 65520) = true) ∧
    (rescaling.tablesPositive ∧ afterStep rescaling (fun t => t.qtl[0] == F64.ofInt 255) = true) ∧
    (stitching.canvasFits ∧ afterStep stitching (fun t => t.canvas.h == 2 && t.canvas.w == 4) = true) ∧
    (forgetting.contextsFit ∧ afterStep forgetting (fun t => !(t.ctx 3).valid) = true) ∧
    (faulting.stopConsistent ∧ afterStep faulting (faulted 0x02 0x05000000) = true) := by decide +kernel

/-- FaultsArePrecise: a check fault and an execution fault -/
theorem test_hypotheses_faults_are_precise :
    ready.engine = .running ∧ after (.setq 0) ready (faulted 0x04 0x08000000) = true ∧
    executionFault .setq .operand = false ∧
    (sequenceOf [0] 0).engine = .running ∧ after (.enc 1 2 1) (sequenceOf [0] 0) (faulted 0x0C 0x20120000) = true ∧
    executionFault .enc .streamOverflow = true := by decide +kernel

/-- The first failing check gives the fault, and the fault registers, ENGINE_STATE and H_IRQ_PEND are all that changes
(60_exceptions R902, R905). -/
def stops (i : Instr) (code info : Nat) (s : State) : Bool :=
  (firstFault (checks i s)).map (fun c => c.code.toNat) == some code &&
    after i s (fun t => faulted code info t && t.lmem == s.lmem && t.res == s.res && t.draws == s.draws)

/-- A 16×16 matrix with an 8×8 block at its end, a sequence of two windows after it, and nothing that overlaps. -/
def blockAndWindow : State := stream (matrix ready 0 0x10000 64 16 16) 1 0x10400 512

/-- The checks of the entropy commands in their order: each fails alone at a boundary, or before one that also fails
(44_entropy R601, R602, R617, R618). -/
theorem test_checks_entropy :
    (firstFault (checks (.zigzag 0 1 8 8 64) blockAndWindow) = none ∧
      stops (.zigzag 0 1 8 8 65) 0x09 0x14010000 blockAndWindow = true ∧
      stops (.zigzag 0 1 9 8 64) 0x09 0x14010000 blockAndWindow = true ∧
      stops (.zigzag 0 1 9 8 64) 0x07 0x14010000 (stream blockAndWindow 1 0x10402 512) = true ∧
      stops (.zigzag 0 1 8 8 64) 0x08 0x14010000 (stream blockAndWindow 1 0xFFFE04 512) = true ∧
      stops (.zigzag 0 1 8 8 0) 0x0B 0x14010000 (stream blockAndWindow 1 0x103FC 512) = true ∧
      stops (.zigzag 0 1 8 8 64) 0x0A 0x14010000 (matrix blockAndWindow 0 0x10000 60 16 16) = true) ∧
    (firstFault (checks (.unzigzag 1 0 64 8 8) blockAndWindow) = none ∧
      stops (.unzigzag 1 0 64 8 8) 0x07 0x15100000 (stream blockAndWindow 1 0x10400 510) = true ∧
      stops (.unzigzag 1 0 65 8 8) 0x09 0x15100000 blockAndWindow = true ∧
      stops (.unzigzag 1 0 0 8 8) 0x0B 0x15100000 (stream blockAndWindow 1 0x103FC 512) = true) ∧
    (firstFault (checks (.enc 1 2 1) (sequenceOf [0] 1)) = none ∧
      stops (.enc 1 2 2) 0x09 0x20120000 (sequenceOf [0] 1) = true ∧
      stops (.enc 1 2 2) 0x08 0x20120000 (stream (sequenceOf [0] 1) 2 0xFFFFFF 2) = true ∧
      stops (.enc 1 2 1) 0x0B 0x20120000 (stream (sequenceOf [0] 1) 2 0x100FF 1) = true) ∧
    (firstFault (checks (.dec 2 1 1) (streamOf [0x2B])) = none ∧
      stops (.dec 2 1 2) 0x09 0x21210000 (streamOf [0x2B]) = true ∧
      stops (.dec 2 1 1) 0x07 0x21210000 (stream (streamOf [0x2B]) 1 0x10001 256) = true ∧
      stops (.dec 2 1 1) 0x0B 0x21210000 (stream (streamOf [0x2B]) 2 0x100FF 1) = true) := by decide +kernel

/-- Four matrices for a 2×2 frame. -/
def frameOfTwo (base1 rows0 cols0 rows3 cols3 : Nat) : State :=
  matrix (matrix (matrix (matrix ready 0 0x1000 8 rows0 cols0) 1 base1 8 2 2) 2 0x3000 4 1 1) 3 0x4000 8 rows3 cols3

/-- The checks of the colour commands and SCALE in their order (41_color R453, R454; 47_compositor R802). -/
theorem test_checks_color :
    (firstFault (checks (.rgb2ycc 0 1 2 3) (frameOfTwo 0x2000 2 2 1 1)) = none ∧
      stops (.rgb2ycc 0 1 2 3) 0x0A 0x30012300 (frameOfTwo 0x2000 2 1 1 1) = true ∧
      stops (.rgb2ycc 0 1 2 3) 0x0A 0x30012300 (frameOfTwo 0x2000 0 2 1 1) = true ∧
      stops (.rgb2ycc 0 1 2 3) 0x0A 0x30012300 (frameOfTwo 0x1000 2 2 2 2) = true ∧
      stops (.rgb2ycc 0 1 2 3) 0x0B 0x30012300 (frameOfTwo 0x100C 2 2 1 1) = true ∧
      stops (.rgb2ycc 0 1 2 2) 0x0B 0x30012200 (frameOfTwo 0x2000 2 2 1 1) = true ∧
      stops (.rgb2ycc 0 1 2 3) 0x07 0x30012300 (frameOfTwo 0x2002 2 1 1 1) = true) ∧
    (firstFault (checks (.ycc2rgb 0 2 2 3) (frameOfTwo 0x2000 2 2 2 2)) = none ∧
      stops (.ycc2rgb 0 2 2 3) 0x0A 0x31022300 (frameOfTwo 0x2000 2 2 1 1) = true ∧
      stops (.ycc2rgb 0 2 2 0) 0x0B 0x31022000 (frameOfTwo 0x2000 2 2 2 2) = true) ∧
    (firstFault (checks (.scale 0 1) (frameOfTwo 0x2000 1 1 1 1)) = none ∧
      stops (.scale 0 1) 0x0A 0x32010000 (frameOfTwo 0x2000 0 1 1 1) = true ∧
      stops (.scale 0 1) 0x0B 0x32010000 (frameOfTwo 0x1000 1 1 1 1) = true) := by decide +kernel

/-- EveryCommandEnds, WritesOnlyItsOwn and EveryRunEnds: each end of a command, and a run of one step from the last word -/
theorem test_hypotheses_every_command_ends :
    ready.engine = .running ∧ after .halt ready (fun t => t.engine == .halted) = true ∧
    after .nop ready completed = true ∧ after .absorb ready (faulted 0x11 0x09000000) = true ∧
    lastWord.cfg.legal ∧ lastWord.engine = .running ∧ lastWord.moves = [] := by decide +kernel

/-- SetdWritesDescriptor -/
theorem test_hypotheses_setd :
    (Instr.setd 15 0xFFFFFFFF 0xFFFFFFFF 0xFFFF 0xFFFF 0xFFFFFFFF).wellFormed = true ∧ (14 : DescReg) ≠ 15 := by decide

/-- CsrwWrites: the ends of every range of CSR numbers and of every range of values -/
theorem test_csrw_ranges :
    after (.csrw 0x004 1) ready (fun t => t.emode == 1) = true ∧ after (.csrw 0x004 2) ready (faulted 0x06 0x03000000) = true ∧
    after (.csrw 0x005 16) ready (fun t => t.tsize == 16) = true ∧
    after (.csrw 0x005 65521) ready (faulted 0x06 0x03000000) = true ∧
    after (.csrw 0x006 255) ready (fun t => t.hstride == 255) = true ∧
    after (.csrw 0x006 256) ready (faulted 0x06 0x03000000) = true ∧
    after (.csrw 0x017 9) ready (fun t => t.res[7] == 9) = true ∧
    after (.csrw 0x02E 0) ready (fun t => t.scale[7] == ⟨0x00000000D073B428⟩) = true ∧
    [0x003, 0x007, 0x00F, 0x018, 0x01F, 0x030, 0x100, 0x200].all
      (fun n => after (.csrw n 1) ready (faulted 0x05 0x03000000)) = true := by decide +kernel

/-- CsrMap: the ends of the ranges of undefined numbers -/
theorem test_csr_undefined :
    [0x00A, 0x00F, 0x01A, 0x01F, 0x030, 0x0FF, 0x200].all (fun n => (Csr.ofNumber n).isNone) = true ∧
    [0x009, 0x010, 0x019, 0x020, 0x02F, 0x100, 0x1FF].all (fun n => (Csr.ofNumber n).isSome) = true := by decide +kernel

/-- SetqTables: the ends of the legal range and of the field -/
theorem test_setq_ranges :
    after (.setq 1) ready (fun t => t.quality == 1 && t.qtl[0] == F64.ofInt 255) = true ∧
    after (.setq 99) ready (fun t => t.quality == 99 && t.qtl[0] == F64.ofInt 1) = true ∧
    after (.setq 255) ready (faulted 0x04 0x080000FF) = true := by decide +kernel

/-- AbsorbTables: a scale factor of 0 makes every entry infinite -/
theorem test_absorb_numeric :
    after .absorb { ready with scale := tabulate 8 (fun _ => ⟨0⟩), absorbed := false }
      (fun t => faulted 0x0E 0x09000000 t && !t.absorbed && t.draws == 0) = true := by decide +kernel

/-- CsrrReads: each check, and the last word -/
theorem test_hypotheses_csrr :
    Csr.ofNumber 0x200 = none ∧ Csr.ofNumber 0x1FF = some (.qtcLo 63) ∧ 0x802 % 4 ≠ 0 ∧ 0x1000000 % 4 = 0 ∧
    0x1000000 + 4 > ready.cfg.lmemBytes ∧ 0xFFFFFC % 4 = 0 ∧ ¬ 0xFFFFFC + 4 > ready.cfg.lmemBytes := by decide +kernel

/-- An 8×8 block of zeros in the last 256 bytes of LMEM, D15 on it. -/
def lastBlock : State := matrix (put ready 0xFFFF00 (List.replicate 64 0)) 15 0xFFFF00 32 8 8

/-- A block of zeros. -/
def zeroBlock : List (List Int) := List.replicate 8 (List.replicate 8 0)

/-- BlockCommandsComplete: each form, at the end of LMEM -/
theorem test_hypotheses_block_commands_complete :
    (blockForm lastBlock (.fdct 15 0 0) = some (15, 0, 0, forwardDct) ∧
      blockForm lastBlock (.idct 15 0 0) = some (15, 0, 0, inverseDct) ∧
      blockForm lastBlock (.quant true 15 0 0) = some (15, 0, 0, quantize lastBlock.qtc) ∧
      blockForm lastBlock (.dequant false 15 0 0) = some (15, 0, 0, dequantize lastBlock.qtl)) ∧
    (lastBlock.desc 15).matrixOk lastBlock.cfg.lmemBytes ∧ (lastBlock.desc 15).holdsBlock 0 0 ∧
    samples (wordsOf lastBlock.lmem (lastBlock.desc 15) 0 0 8 8) = zeroBlock ∧
    forwardDct zeroBlock = .ok zeroBlock ∧ inverseDct zeroBlock = .ok zeroBlock ∧
    quantize lastBlock.qtc zeroBlock = .ok zeroBlock ∧ dequantize lastBlock.qtl zeroBlock = .ok zeroBlock :=
  ⟨⟨rfl, rfl, rfl, rfl⟩, by decide +kernel⟩

/-- BlockCommandsComplete: an 8×8 block, and the ends of the ranges of a constant block and of a DC coefficient (V-D1, V-D7;
the values follow from 42_dct R505, R506) -/
theorem test_hypotheses_block_functions :
    (zeroBlock.length = 8 ∧ ∀ row ∈ zeroBlock, row.length = 8) ∧
    forwardDct (List.replicate 8 (List.replicate 8 (-(2 ^ 25)))) =
      .ok ((-(2 ^ 31) :: List.replicate 7 0) :: List.replicate 7 (List.replicate 8 0)) ∧
    forwardDct (List.replicate 8 (List.replicate 8 (2 ^ 25))) = .error .numeric ∧ inS32 (-33) = true ∧
    inverseDct ((-33 :: List.replicate 7 0) :: List.replicate 7 (List.replicate 8 0)) =
      .ok (List.replicate 8 (List.replicate 8 (-1))) := by decide +kernel

/-- BlockCommandFaults: each check at its boundary, and a block whose DCT does not fit (V-D7, V-D8) -/
theorem test_hypotheses_block_command_faults :
    blockForm (flat (2 ^ 25)) (.fdct 0 0 0) = some (0, 0, 0, forwardDct) ∧
    (after (.fdct 0 0 0) (matrix ready 0 0x10002 32 8 8) (faulted 0x07 0x10000000) = true ∧
      after (.fdct 0 0 0) (matrix ready 0 0x10000 28 8 8) (faulted 0x0A 0x10000000) = true ∧
      after (.fdct 0 0 0) (matrix ready 0 0xFFFF04 32 8 8) (faulted 0x08 0x10000000) = true ∧
      after (.fdct 0 8 0) (matrix ready 0 0x10000 32 8 8) (faulted 0x09 0x10000000) = true ∧
      ((flat (2 ^ 25)).desc 0).matrixOk (flat (2 ^ 25)).cfg.lmemBytes ∧ ((flat (2 ^ 25)).desc 0).holdsBlock 0 0 ∧
      forwardDct (samples (wordsOf (flat (2 ^ 25)).lmem ((flat (2 ^ 25)).desc 0) 0 0 8 8)) = .error .numeric) :=
  ⟨rfl, by decide +kernel⟩

/-- ZigzagCommands: the last block of a 16×16 matrix and the last window of a sequence that ends with LMEM -/
theorem test_hypotheses_zigzag :
    let s := stream (matrix ready 0 0x10000 64 16 16) 1 0xFFFE00 512
    (s.desc 0).matrixOk s.cfg.lmemBytes ∧ (s.desc 1).sequenceOk s.cfg.lmemBytes ∧ (s.desc 0).holdsBlock 8 8 ∧
      (s.desc 1).holdsWindow 64 ∧ (windowFootprint (s.desc 1) 64).apart (blockFootprint (s.desc 0) 8 8) ∧
      (blockFootprint (s.desc 0) 8 8).apart (windowFootprint (s.desc 1) 64) := by decide +kernel

/-- ZigzagOrder -/
theorem test_hypotheses_zigzag_order :
    (List.replicate 64 (7 : Int)).length = 64 ∧ zeroBlock.length = 8 ∧ ∀ row ∈ zeroBlock, row.length = 8 := by decide

/-- MagnitudeBits: 0, the ends of category 1 and of category 11 -/
theorem test_hypotheses_magnitude_bits :
    category 0 = 0 ∧ category 1 = 1 ∧ category (-1) = 1 ∧ category 1024 = 11 ∧ category (-2047) = 11 ∧
    magnitudeBits (-2047) 11 = 0 ∧ magnitudeBits (-1) 1 = 0 := by decide +kernel

/-- HuffmanRoundTrip: two blocks at the ends of both ranges; one more in the DC difference fails (V-E) -/
theorem test_hypotheses_huffman_round_trip :
    let blks : List (List Int) := [2047 :: 1023 :: List.replicate 62 0, 0 :: List.replicate 62 0 ++ [-1023]]
    (∀ blk ∈ blks, blk.length = 64 ∧ ∀ v ∈ blk, inS32 v = true) ∧ (huffEncode blks).isOk = true ∧
    huffEncode [2048 :: List.replicate 63 0] = .error .codeRange ∧
    huffEncode [0 :: 1024 :: List.replicate 62 0] = .error .codeRange := by decide +kernel

/-- RleRoundTrip (V-E) -/
theorem test_hypotheses_rle_round_trip :
    let blks : List (List Int) := [-32768 :: List.replicate 62 0 ++ [32767]]
    (∀ blk ∈ blks, blk.length = 64) ∧ (rleEncode blks).isOk = true ∧
    rleEncode [32768 :: List.replicate 63 0] = .error .codeRange := by decide +kernel

/-- The hypotheses of EncCommand for `enc 1 2 1`. -/
abbrev encReady (s : State) : Prop :=
  (s.desc 1).sequenceOk s.cfg.lmemBytes ∧ (s.desc 2).streamOk s.cfg.lmemBytes ∧ (s.desc 1).holdsBlocks 1 ∧
  (streamFootprint (s.desc 2)).apart (prefixFootprint (s.desc 1) 1)

/-- EncCommand: a stream that the encoding fills, one a byte too short, and a value out of range -/
theorem test_hypotheses_enc :
    (encReady (sequenceOf [0] 1) ∧
      entropyEncode 1 (blocksOf (sequenceOf [0] 1).lmem ((sequenceOf [0] 1).desc 1) 1) = .ok [0x2B]) ∧
    (encReady (sequenceOf [0] 0) ∧
      entropyEncode 1 (blocksOf (sequenceOf [0] 0).lmem ((sequenceOf [0] 0).desc 1) 1) = .ok [0x2B]) ∧
    (encReady (sequenceOf [2048] 9) ∧
      entropyEncode 1 (blocksOf (sequenceOf [2048] 9).lmem ((sequenceOf [2048] 9).desc 1) 1) = .error .codeRange) := by
  decide +kernel

/-- The hypotheses of DecCommand for `dec 2 1 1`. -/
abbrev decReady (s : State) : Prop :=
  (s.desc 2).streamOk s.cfg.lmemBytes ∧ (s.desc 1).sequenceOk s.cfg.lmemBytes ∧ (s.desc 1).holdsBlocks 1 ∧
  (prefixFootprint (s.desc 1) 1).apart (streamFootprint (s.desc 2))

/-- DecCommand: each of the three outcomes -/
theorem test_hypotheses_dec :
    (decReady (streamOf [0x2B]) ∧
      entropyDecode 1 (bytesOf (streamOf [0x2B]).lmem ((streamOf [0x2B]).desc 2)) 1 = .ok ([List.replicate 64 0], 1)) ∧
    (decReady (streamOf [0xFF]) ∧
      entropyDecode 1 (bytesOf (streamOf [0xFF]).lmem ((streamOf [0xFF]).desc 2)) 1 = .error .incomplete) ∧
    (decReady (streamOf [0xFF, 0xFF]) ∧
      entropyDecode 1 (bytesOf (streamOf [0xFF, 0xFF]).lmem ((streamOf [0xFF, 0xFF]).desc 2)) 1 = .error .corrupt) := by
  decide +kernel

/-- EncThenDec -/
theorem test_hypotheses_enc_then_dec :
    (sequenceOf [5, -3] 9).engine = .running ∧
    after (.enc 1 2 1) (sequenceOf [5, -3] 9)
      (fun t => completed t &&
        after (.dec 3 1 1) { t with descs := t.descs.set 3 { t.desc 2 with len := t.res[0] } }
          (fun v => results v == [0, 2, 0, 0, 0, 0, 0, 0] && wordsAt v 0x10000 3 == [5, -3, 0])) = true ∧
    (1 : DescReg) ≠ 3 := by decide +kernel

/-- Four matrices of a 2×2 frame, the last one at the end of LMEM. -/
def planes (d3rows d3cols : Nat) : State :=
  matrix (matrix (matrix (matrix ready 0 0x1000 8 2 2) 1 0x2000 8 2 2) 2 0x3000 4 1 1) 3 (0x1000000 - 4 * d3rows * d3cols)
    (4 * d3cols) d3rows d3cols

/-- Rgb2yccCommand -/
theorem test_hypotheses_rgb2ycc :
    let s := planes 1 1
    (s.desc 0).matrixOk s.cfg.lmemBytes ∧ (s.desc 1).matrixOk s.cfg.lmemBytes ∧ (s.desc 2).matrixOk s.cfg.lmemBytes ∧
    (s.desc 3).matrixOk s.cfg.lmemBytes ∧ (s.desc 0).evenSides ∧ (s.desc 1).shaped 2 2 ∧ (s.desc 2).shaped (2 / 2) (2 / 2) ∧
    (s.desc 3).shaped (2 / 2) (2 / 2) ∧
    [matrixFootprint (s.desc 0), matrixFootprint (s.desc 1), matrixFootprint (s.desc 2),
      matrixFootprint (s.desc 3)].Pairwise Footprint.apart := by decide +kernel

/-- Ycc2rgbCommand, with one chroma matrix for both planes -/
theorem test_hypotheses_ycc2rgb :
    let s := planes 2 2
    (s.desc 0).matrixOk s.cfg.lmemBytes ∧ (s.desc 2).matrixOk s.cfg.lmemBytes ∧ (s.desc 3).matrixOk s.cfg.lmemBytes ∧
    (s.desc 0).evenSides ∧ (s.desc 2).shaped (2 / 2) (2 / 2) ∧ (s.desc 3).shaped 2 2 ∧
    ∀ x, x ∈ ([0, 2, 2] : List DescReg) → (matrixFootprint (s.desc 3)).apart (matrixFootprint (s.desc x)) := by
  decide +kernel

/-- PatchRoundTrip: the ends of the signed range, the shortest payload, and the last proper prefix -/
theorem test_hypotheses_patch_round_trip :
    fitsS32 (-(2 ^ 31)) = true ∧ fitsS32 (2 ^ 31 - 1) = true ∧ ([] : List Byte).length ≤ 2 ^ 31 - 17 ∧
    ([0xAA, 0xBB, 0xCC] : List Byte).length ≤ 2 ^ 31 - 17 ∧ 22 < 20 + ([0xAA, 0xBB, 0xCC] : List Byte).length := by decide

/-- PserCommand: a stream that the patch fills, and one a byte too short -/
theorem test_hypotheses_pser :
    (let s := stream (stream ready 1 0x2000 3) 2 (0x1000000 - 23) 23
     (s.desc 1).streamOk s.cfg.lmemBytes ∧ (s.desc 2).streamOk s.cfg.lmemBytes ∧
      (streamFootprint (s.desc 2)).apart (streamFootprint (s.desc 1)) ∧ 20 + (s.desc 1).len.toNat ≤ (s.desc 2).len.toNat) ∧
    (let s := stream (stream ready 1 0x2000 3) 2 (0x1000000 - 22) 22
     (s.desc 1).streamOk s.cfg.lmemBytes ∧ (s.desc 2).streamOk s.cfg.lmemBytes ∧
      (streamFootprint (s.desc 2)).apart (streamFootprint (s.desc 1)) ∧
      ¬ 20 + (s.desc 1).len.toNat ≤ (s.desc 2).len.toNat) := by decide +kernel

/-- PhdrCommand: each outcome -/
theorem test_hypotheses_phdr :
    ((streamOf (smallPatch.take 22)).desc 2).streamOk ready.cfg.lmemBytes ∧
    patchParse (bytesOf (streamOf (smallPatch.take 22)).lmem ((streamOf (smallPatch.take 22)).desc 2)) = .error .incomplete ∧
    patchParse (bytesOf (streamOf (ofWords [0xF])).lmem ((streamOf (ofWords [0xF])).desc 2)) = .error .corrupt ∧
    patchParse (bytesOf (streamOf (ofWords [0xF, 0, 0, 0, 0])).lmem ((streamOf (ofWords [0xF, 0, 0, 0, 0])).desc 2)) =
      .error .corrupt ∧
    patchParse (bytesOf (streamOf smallPatch).lmem ((streamOf smallPatch).desc 2)) =
      .ok ⟨23, -8, 4, 16, 16, [0xAA, 0xBB, 0xCC]⟩ := by decide +kernel

/-- A black 16×16 frame at 0x10000, as D0, and an output stream of `len` bytes at 0x40000, as D1. -/
def blackFrame (len : Nat) : State :=
  stream (matrix (put ready 0x10000 (List.replicate 256 0)) 0 0x10000 64 16 16) 1 0x40000 len

/-- The frame as the statements read it. -/
theorem test_black_frame_pixels : pixelsOf (blackFrame 0).lmem ((blackFrame 0).desc 0) = tileOfWord 0 := by
  rw [← pixels_readMatrix]
  decide +kernel

/-- The hypotheses of TencCommand and FullCommand on descriptors 0 and 1. -/
abbrev frameReady (s : State) : Prop :=
  (s.desc 0).matrixOk s.cfg.lmemBytes ∧ (s.desc 1).streamOk s.cfg.lmemBytes ∧ (s.desc 0).tileSides ∧
  (streamFootprint (s.desc 1)).apart (matrixFootprint (s.desc 0))

/-- TENC of the black frame (V-P2), and sides that are no multiples of 16 -/
theorem test_tenc :
    after (.tenc 0 1) (blackFrame 19)
      (fun t => Memory.load t.lmem 0x40000 19 == blackPayload && results t == [19, 0, 0, 0, 0, 0, 0, 0]) = true ∧
    after (.tenc 0 1) (matrix (blackFrame 19) 0 0x10000 32 8 8) (faulted 0x0A 0x38010000) = true := by decide +kernel

/-- DIFF and FULL: an undefined context, and sides that are no multiples of 16 (V-T5) -/
theorem test_diff_full_checks :
    after (.diff 0 1 4) (blackFrame 39) (faulted 0x04 0x41010004) = true ∧
    after (.diff 0 1 3) (matrix (blackFrame 39) 0 0x10000 160 40 40) (faulted 0x0A 0x41010003) = true ∧
    after (.full 0 1) (matrix (blackFrame 39) 0 0x10000 64 16 0) (faulted 0x0A 0x42010000) = true := by decide +kernel

/-- A table whose entries are all `x`. -/
def flatTable (x : F64) : Vector F64 64 := tabulate 64 fun _ => x

/-- The execution faults of TENC, DIFF and FULL: a DC difference of 8192, a quotient that is not finite, and a stream that is
too short; the context and RES are kept (45_patch R706; 60_exceptions R903) -/
theorem test_frame_execution_faults :
    (let kept (t : State) : Bool := t.draws == 1 && !(t.ctx 3).valid && results t == [0, 0, 0, 0, 0, 0, 0, 0]
     after (.tenc 0 1) { blackFrame 39 with qtc := flatTable (F64.ofInt 1) }
        (fun t => faulted 0x0D 0x38010000 t && kept t) &&
      after (.diff 0 1 3) { blackFrame 39 with qtc := flatTable ⟨1⟩ } (fun t => faulted 0x0E 0x41010003 t && kept t) &&
      after (.full 0 1) (blackFrame 38) (fun t => faulted 0x0C 0x42010000 t && kept t)) = true := by decide +kernel

/-- The checks of TENC, FULL, DIFF, TDEC and HASH in their order (45_patch R709, R710; 46_tilediff R754, R755, R757) -/
theorem test_checks_frames :
    (firstFault (checks (.tenc 0 1) (blackFrame 19)) = none ∧
      stops (.tenc 0 1) 0x08 0x38010000 (stream (blackFrame 19) 1 0xFFFFFF 2) = true ∧
      stops (.full 0 1) 0x0A 0x42010000 (matrix (blackFrame 39) 0 0x10000 68 16 17) = true ∧
      stops (.full 0 1) 0x0B 0x42010000 (stream (blackFrame 39) 1 0x103FF 39) = true) ∧
    (firstFault (checks (.diff 0 1 3) (blackFrame 39)) = none ∧
      stops (.diff 0 1 4) 0x04 0x41010004 (matrix (blackFrame 39) 0 0x10002 64 16 16) = true ∧
      stops (.diff 0 1 3) 0x07 0x41010003 (matrix (blackFrame 39) 0 0x10002 64 16 16) = true ∧
      stops (.diff 0 1 3) 0x10 0x41010003 { matrix (blackFrame 39) 0 0x10000 64 16 16 with
        cfg := { Config.default with maxTiles := 0 } } = true ∧
      stops (.diff 0 1 3) 0x0B 0x41010003 (stream (blackFrame 39) 1 0xFFFF 2) = true) ∧
    (firstFault (checks (.hash 0) (blackFrame 0)) = none ∧
      stops (.hash 0) 0x0A 0x40000000 (matrix (blackFrame 0) 0 0x10000 60 16 16) = true) := by decide +kernel

/-- TencCommand: a stream that the payload fills, and one a byte too short (V-P3) -/
theorem test_hypotheses_tenc :
    (frameReady (blackFrame 19) ∧ frameReady (blackFrame 18) ∧ blackPayload.length = 19) ∧
    tileEncode ⟨(blackFrame 19).emode, (blackFrame 19).qtl, (blackFrame 19).qtc⟩
      (pixelsOf (blackFrame 19).lmem ((blackFrame 19).desc 0)) 16 16 = .ok blackPayload := by
  refine ⟨by decide +kernel, ?_⟩
  have h : pixelsOf (blackFrame 19).lmem ((blackFrame 19).desc 0) = tileOfWord 0 := test_black_frame_pixels
  rw [h]
  exact test_tile_encode

/-- FullCommand: a stream that the patch fills (V-T5) -/
theorem test_hypotheses_full :
    (frameReady (blackFrame 39) ∧ (patchSer 0 0 16 16 blackPayload).length ≤ ((blackFrame 39).desc 1).len.toNat) ∧
    tileEncode ⟨(blackFrame 39).emode, (blackFrame 39).qtl, (blackFrame 39).qtc⟩
      (pixelsOf (blackFrame 39).lmem ((blackFrame 39).desc 0)) 16 16 = .ok blackPayload := by
  refine ⟨by decide +kernel, ?_⟩
  have h : pixelsOf (blackFrame 39).lmem ((blackFrame 39).desc 0) = tileOfWord 0 := test_black_frame_pixels
  rw [h]
  exact test_tile_encode

/-- DiffCommand: a fresh context, one dirty tile, and a stream that its patch fills -/
theorem test_hypotheses_diff :
    (3 < (blackFrame 39).cfg.nHctx ∧ frameReady (blackFrame 39) ∧ ceilDiv 16 32 * ceilDiv 16 32 ≤ (blackFrame 39).cfg.maxTiles ∧
      1 ≤ (blackFrame 39).hstride.toNat) ∧
    after (.diff 0 1 3) (blackFrame 39) (fun t =>
      Memory.load t.lmem 0x40000 39 == patchSer 0 0 16 16 blackPayload && results t == [1, 39, 0, 0, 0, 0, 0, 0] &&
        t.ctx 3 == ⟨true, ⟨16, 16, 32, 2⟩, 1, 1, [0]⟩) = true := by decide +kernel

/-- IdenticalFrames: a DIFF that completes -/
theorem test_hypotheses_identical_frames :
    let s := { blackFrame 0 with ctxs := List.replicate 4 ⟨true, ⟨16, 16, 32, 2⟩, 1, 1, [0]⟩ }
    s.contextsFit ∧ s.engine = .running ∧ after (.diff 0 1 3) s completed = true := by decide +kernel

/-- A payload in LMEM, as D0, and a 16×16 output matrix, as D1. -/
def payloadState (payload : List Byte) : State :=
  matrix (stream (putBytes ready 0x40000 payload) 0 0x40000 payload.length) 1 0x50000 64 16 16

/-- A payload whose first segment is longer than what is left. -/
def cutPayload : List Byte := ofWords [4] ++ [0x28, 0xA2, 0x8A]

/-- The hypotheses of TdecCommand for `tdec 0 1`. -/
abbrev tdecReady (s : State) : Prop :=
  (s.desc 0).streamOk s.cfg.lmemBytes ∧ (s.desc 1).matrixOk s.cfg.lmemBytes ∧ (s.desc 1).tileSides ∧
  (matrixFootprint (s.desc 1)).apart (streamFootprint (s.desc 0))

/-- TdecCommand: a good payload, and a CORRUPT one (V-P3) -/
theorem test_hypotheses_tdec :
    (tdecReady (payloadState blackPayload) ∧
      bytesOf (payloadState blackPayload).lmem ((payloadState blackPayload).desc 0) = blackPayload ∧
      tdecReady (payloadState cutPayload) ∧
      bytesOf (payloadState cutPayload).lmem ((payloadState cutPayload).desc 0) = cutPayload) ∧
    tileDecode codec blackPayload 16 16 = some blackPixels ∧ tileDecode codec cutPayload 16 16 = none :=
  ⟨by decide +kernel, test_tile_decode, test_tile_decode_corrupt⟩

/-- TencCommand and TdecCommand: a region that the layout clauses speak of, the smallest one -/
theorem test_hypotheses_tile_layout :
    16 % 16 = 0 ∧ (tileOfWord 0).length = 16 ∧ ∀ row ∈ tileOfWord 0, row.length = 16 := by decide +kernel

/-- The checks of TDEC in their order (45_patch R710) -/
theorem test_checks_tdec :
    firstFault (checks (.tdec 0 1) (payloadState blackPayload)) = none ∧
    stops (.tdec 0 1) 0x08 0x39010000 (stream (payloadState cutPayload) 0 0xFFFFFF 2) = true ∧
    stops (.tdec 0 1) 0x0A 0x39010000 (matrix (payloadState cutPayload) 1 0x50000 64 16 8) = true ∧
    stops (.tdec 0 1) 0x0B 0x39010000 (matrix (payloadState cutPayload) 1 0x3FC04 64 16 16) = true := by decide +kernel

/-- TDEC of a CORRUPT payload (V-P3) -/
theorem test_tdec :
    after (.tdec 0 1) (payloadState cutPayload) (fun t => results t == [2, 0, 0, 0, 0, 0, 0, 0] && completed t) = true ∧
    after (.tdec 0 1) (matrix (payloadState cutPayload) 1 0x50000 32 8 8) (faulted 0x0A 0x39010000) = true := by
  decide +kernel

/-- HashAndHctxrst: a 1×1 matrix at the end of LMEM; the last context and the first undefined one -/
theorem test_hypotheses_hash :
    ((matrix ready 0 0xFFFFFC 4 1 1).desc 0).matrixOk ready.cfg.lmemBytes ∧ 1 ≤ ready.hstride.toNat ∧
    ready.contextsFit ∧ 3 < ready.cfg.nHctx ∧ ¬ 4 < ready.cfg.nHctx := by decide +kernel

/-- ScaleCommand: 1×1 to 1×2, the output at the end of LMEM -/
theorem test_hypotheses_scale :
    let s := matrix (matrix ready 0 0x1000 4 1 1) 1 0xFFFFF8 8 1 2
    (s.desc 0).matrixOk s.cfg.lmemBytes ∧ (s.desc 1).matrixOk s.cfg.lmemBytes ∧ 0 < (s.desc 0).rows.toNat ∧
    0 < (s.desc 0).cols.toNat ∧ 0 < (s.desc 1).rows.toNat ∧ 0 < (s.desc 1).cols.toNat ∧
    (matrixFootprint (s.desc 1)).apart (matrixFootprint (s.desc 0)) := by decide +kernel

/-- CvresetAndCvset: the largest canvas, one row too many, and no rows -/
theorem test_hypotheses_cvset :
    (let d := (matrix ready 0 0 16384 256 4096).desc 0
     d.matrixOk ready.cfg.lmemBytes ∧ ¬ d.cols.toNat > ready.cfg.canvasMaxW) ∧
    (let d := (matrix ready 0 0 4 4097 1).desc 0
     d.matrixOk ready.cfg.lmemBytes ∧ d.rows.toNat > ready.cfg.canvasMaxH) ∧
    (let d := (matrix ready 0 0 0 0 5).desc 0
     d.matrixOk ready.cfg.lmemBytes ∧ d.rows.toNat = 0) := by decide +kernel

/-- CvreadCommand: a window that reaches the corner of the canvas, and one a column beyond it -/
theorem test_hypotheses_cvread :
    let s := { matrix ready 1 0xFFFFF8 8 1 2 with canvas := ⟨2, 2, [[1, 2], [3, 4]]⟩ }
    s.canvasFits ∧ (s.desc 1).matrixOk s.cfg.lmemBytes ∧
    (1 + (s.desc 1).rows.toNat ≤ s.canvas.h ∧ 0 + (s.desc 1).cols.toNat ≤ s.canvas.w) ∧
    ¬ (1 + (s.desc 1).rows.toNat ≤ s.canvas.h ∧ 1 + (s.desc 1).cols.toNat ≤ s.canvas.w) := by decide +kernel

/-- StitchCommand: the last offset that fits the capacity, and the next one -/
theorem test_hypotheses_stitch :
    let s := { matrix (put ready 0x1000 [7, 8]) 0 0x1000 8 1 2 with canvas := ⟨1, 1, [[5]]⟩ }
    s.canvasFits ∧ (s.desc 0).matrixOk s.cfg.lmemBytes ∧ (s.desc 0).rows.toNat ≠ 0 ∧ (s.desc 0).cols.toNat ≠ 0 ∧
    ¬ max (s.canvas.h : Int) (4095 + (s.desc 0).rows.toNat) > s.cfg.canvasMaxH ∧
    max (s.canvas.h : Int) (4096 + (s.desc 0).rows.toNat) > s.cfg.canvasMaxH := by decide +kernel

/-- ApplyCommand: framing that is not whole, a payload that is corrupt inside good framing, a good patch that reaches the
last row of the capacity, and the same patch one row lower -/
theorem test_hypotheses_apply :
    ((let s := streamOf (smallPatch.take 22)
      (s.desc 2).streamOk s.cfg.lmemBytes ∧ patchParse (bytesOf s.lmem (s.desc 2)) = .error .incomplete) ∧
    (let s := streamOf smallPatch
     (s.desc 2).streamOk s.cfg.lmemBytes ∧
      patchParse (bytesOf s.lmem (s.desc 2)) = .ok ⟨23, -8, 4, 16, 16, [0xAA, 0xBB, 0xCC]⟩ ∧
      tileDecode codec [0xAA, 0xBB, 0xCC] 16 16 = none) ∧
    (let s := streamOf (patchSer 0 4080 16 16 blackPayload)
     (s.desc 2).streamOk s.cfg.lmemBytes ∧
      patchParse (bytesOf s.lmem (s.desc 2)) = .ok ⟨39, 0, 4080, 16, 16, blackPayload⟩ ∧
      ¬ max (s.canvas.h : Int) (4080 + 16) > s.cfg.canvasMaxH) ∧
    (let s := streamOf (patchSer 0 4081 16 16 blackPayload)
     (s.desc 2).streamOk s.cfg.lmemBytes ∧
      patchParse (bytesOf s.lmem (s.desc 2)) = .ok ⟨39, 0, 4081, 16, 16, blackPayload⟩ ∧
      max (s.canvas.h : Int) (4081 + 16) > s.cfg.canvasMaxH)) ∧
    tileDecode codec blackPayload 16 16 = some blackPixels :=
  ⟨by decide +kernel, test_tile_decode⟩

/-- The checks of PSER, PHDR, APPLY and the canvas commands in their order (45_patch R701, R704; 47_compositor R804-R807) -/
theorem test_checks_canvas :
    (stops (.pser 1 2 0 0 16 16) 0x0B 0x55120000 (stream (stream ready 1 0x2000 3) 2 0x2002 22) = true ∧
      stops (.pser 1 2 0 0 16 16) 0x0C 0x55120000 (stream (stream ready 1 0x2000 3) 2 0x2003 22) = true ∧
      stops (.phdr 1) 0x08 0x56100000 (stream ready 1 0xFFFFFF 2) = true ∧
      stops (.apply 1) 0x08 0x54100000 (stream ready 1 0xFFFFFF 2) = true) ∧
    (stops (.cvset 0) 0x0F 0x51000000 (matrix ready 0 0 4 4097 1) = true ∧
      stops (.cvread 0 0 0) 0x0A 0x52000000 (matrix ready 0 0 4 1 1) = true ∧
      stops (.stitch 0 0 0) 0x0A 0x53000000 (matrix ready 0 0 4 0 1) = true ∧
      stops (.stitch 0 0 4096) 0x0F 0x53000000 (matrix ready 0 0 4 1 1) = true ∧
      firstFault (checks (.stitch 0 0 4095) (matrix ready 0 0 4 1 1)) = none) := by decide +kernel

/-- APPLY of a corrupt payload and of an empty stream (V-K2) -/
theorem test_apply :
    after (.apply 2) (streamOf smallPatch)
      (fun t => results t == [2, 23, 0xFFFFFFF8, 4, 16, 16, 3, 0x20014] && t.desc 2 == ⟨0x20017, 0, 0, 0, 0⟩ &&
        t.canvas == Canvas.empty) = true ∧
    after (.apply 2) (streamOf [])
      (fun t => results t == [1, 0, 0, 0, 0, 0, 0, 0] && t.desc 2 == ⟨0x20000, 0, 0, 0, 0⟩) = true := by decide +kernel

/-- RoundRule and ArithmeticRoundsOnce: finite values, and two whose sum is too large -/
theorem test_hypotheses_arithmetic :
    (F64.ofInt 1).view = .fin false (2 ^ 52) (-52) ∧ (F64.mk 0xC004000000000000).view = .fin true (5 * 2 ^ 50) (-51) ∧
    (F64.mk 0x7FEFFFFFFFFFFFFF).view = .fin false (2 ^ 53 - 1) 971 ∧
    F64.add ⟨0x7FEFFFFFFFFFFFFF⟩ ⟨0x7FEFFFFFFFFFFFFF⟩ = F64.inf false ∧
    (-(2 ^ 53 - 1) : Int).natAbs < 2 ^ 53 := by decide +kernel

end Sys2Proof.Tests
end

