-- ==== Sys2Proof/Proofs/Scope.lean ====
section
/-! Round on the exact value (00_scope R12): both branches of `F64.round` are the floor of x + 1/2 over the rationals. -/

namespace Sys2Proof

/-- From the binary point upward a scaled integer is an integer. -/
theorem intCast_mul_two_zpow_natCast (m : Int) (k : Nat) : (m : ℚ) * (2 : ℚ) ^ (k : Int) = ((m * 2 ^ k : Int) : ℚ) := by
  push_cast
  rw [zpow_natCast]

/-- The model's integer floor of `m · 2^e` is the floor of the rational number. -/
theorem floorScaled_eq_floor (m e : Int) : floorScaled m e = ⌊(m : ℚ) * (2 : ℚ) ^ e⌋ := by
  unfold floorScaled
  split
  case isTrue h =>
    obtain ⟨k, rfl⟩ := Int.eq_ofNat_of_zero_le h
    rw [intCast_mul_two_zpow_natCast, Int.floor_intCast, Int.toNat_natCast]
  case isFalse h =>
    obtain ⟨k, rfl⟩ : ∃ k : Nat, e = -(k : Int) := ⟨(-e).toNat, by omega⟩
    have hdiv : (m : ℚ) * (2 : ℚ) ^ (-(k : Int)) = (m : ℚ) / ((2 ^ k : Nat) : ℚ) := by
      rw [zpow_neg, zpow_natCast, div_eq_mul_inv, Nat.cast_pow, Nat.cast_ofNat]
    rw [hdiv, Rat.floor_intCast_div_natCast, neg_neg, Int.toNat_natCast, Nat.cast_pow, Nat.cast_ofNat]

/-- Adding 1/2 to an integer does not change its floor. -/
theorem floor_intCast_add_half (n : Int) : ⌊(n : ℚ) + 1 / 2⌋ = n := by
  rw [Int.floor_intCast_add]
  norm_num

/-- Below the binary point 1/2 is a whole number of halved units: the numerator that `F64.round` takes the floor of. -/
theorem scaled_add_half (v : Int) (k : Nat) :
    ((2 * v + 2 ^ k : Int) : ℚ) * (2 : ℚ) ^ (-(k : Int) - 1) = (v : ℚ) * (2 : ℚ) ^ (-(k : Int)) + 1 / 2 := by
  have hk : (2 : ℚ) ^ k ≠ 0 := by positivity
  rw [zpow_sub_one₀ two_ne_zero, zpow_neg, zpow_natCast]
  push_cast
  field_simp

/-- `Round(x)` is the floor of x + 1/2 on the exact value of x (00_scope R12). -/
theorem F64.round_eq_floor {x : F64} {neg : Bool} {m : Nat} {e : Int} (hx : x.view = .fin neg m e) :
    x.round = ⌊(signed neg m : ℚ) * (2 : ℚ) ^ e + 1 / 2⌋ := by
  simp only [F64.round, hx]
  split
  case isTrue h =>
    obtain ⟨k, rfl⟩ := Int.eq_ofNat_of_zero_le h
    rw [floorScaled_eq_floor, intCast_mul_two_zpow_natCast, floor_intCast_add_half, Int.floor_intCast]
  case isFalse h =>
    obtain ⟨k, rfl⟩ : ∃ k : Nat, e = -(k : Int) := ⟨(-e).toNat, by omega⟩
    rw [floorScaled_eq_floor, neg_neg, Int.toNat_natCast, scaled_add_half]

/-- Settles O58: `Round` is a floor, and R12's two inequalities say which integer the floor is. -/
theorem roundRule : Obligations.RoundRule :=
  ⟨fun _ _ _ _ hx _ => by rw [F64.round_eq_floor hx, Int.floor_eq_iff],
    by decide +kernel, by decide +kernel, by decide +kernel⟩

end Sys2Proof
end

/-! The control, descriptor and CSR commands (40_control R400-R404): what each completes with, and the fault its checks
take. -/

namespace Sys2Proof.Machine

/-! The checks of a command -/

theorem firstFault_cons_of_fails {p : Prop} [Decidable p] {code : FaultCode} {cs : List Check} (h : p) :
    firstFault ((decide p, code) :: cs) = some code := by
  simp [firstFault, h]

theorem firstFault_cons_of_passes {p : Prop} [Decidable p] {code : FaultCode} {cs : List Check} (h : ¬ p) :
    firstFault ((decide p, code) :: cs) = firstFault cs := by
  simp [firstFault, h]

/-- A command whose first failing check reports `code` takes that fault and changes nothing else (60_exceptions R905). -/
theorem beginsWith.exec_fault {i : Instr} {s : State} {info : Word} {code : FaultCode} (h : beginsWith i s)
    (hi : i.header = info) (hf : firstFault (checks i s) = some code) :
    exec i s = .next (s.faultedWith code.code info) := by
  obtain ⟨body, hbody⟩ := h
  rw [hbody, finish_checked_fault hf, hi]

/-! Header words (30_encoding R300) -/

theorem header_setd (a : DescReg) (base pitch rows cols len : Nat) :
    (Instr.setd a base pitch rows cols len).header = BitVec.ofNat 32 (0x02000000 + a * 2 ^ 20) := by
  apply BitVec.eq_of_toNat_eq
  simp only [Instr.header, Instr.headerOf, headerWord, Instr.opcode, Opcode.row, BitVec.toNat_ofNat, Fin.val_zero]
  omega

theorem header_csrw (n : Nat) (v : Word) : (Instr.csrw n v).header = 0x03000000 := by
  change headerWord ⟨0x03, 0, 0, 0, 0, 0⟩ = 0x03000000
  decide

theorem header_csrr (n addr : Nat) : (Instr.csrr n addr).header = 0x04000000 := by
  change headerWord ⟨0x04, 0, 0, 0, 0, 0⟩ = 0x04000000
  decide

/-! Descriptors -/

@[simp] theorem State.advance_desc (s : State) (n : Nat) (a : DescReg) : (s.advance n).desc a = s.desc a := rfl

@[simp] theorem State.setDesc_desc_same (s : State) (a : DescReg) (d : Desc) : (s.setDesc a d).desc a = d := by
  simp [State.desc]

theorem State.setDesc_desc_other (s : State) {a b : DescReg} (d : Desc) (h : b ≠ a) :
    (s.setDesc a d).desc b = s.desc b := by
  have hab : a.val ≠ b.val := fun he => h (Fin.ext he.symm)
  simp [State.desc, hab]

/-! CSR numbers -/

theorem csrNamed_of_defined {n : Nat} {c : Csr} (h : Csr.ofNumber n = some c) : csrNamed n = .ok c := by
  simp only [csrNamed, h]

theorem csr_ofNumber_res (k : Fin 8) : Csr.ofNumber (0x010 + k) = some (.res k) := by
  decide +revert

theorem csr_ofNumber_scaleHi (k : Fin 8) : Csr.ofNumber (0x020 + 2 * k) = some (.scaleHi k) := by
  decide +revert

theorem csr_ofNumber_scaleLo (k : Fin 8) : Csr.ofNumber (0x021 + 2 * k) = some (.scaleLo k) := by
  decide +revert

/-! The halves of a 64-bit register -/

theorem highWord_toNat (x : BitVec 64) : (highWord x).toNat = x.toNat / 2 ^ 32 := by
  have := x.isLt
  simp only [highWord, BitVec.toNat_ofNat]
  omega

theorem lowWord_toNat (x : BitVec 64) : (lowWord x).toNat = x.toNat % 2 ^ 32 := BitVec.toNat_ofNat ..

theorem joinWords_toNat (hi lo : Word) : (joinWords hi lo).toNat = hi.toNat * 2 ^ 32 + lo.toNat := by
  have := hi.isLt
  have := lo.isLt
  simp only [joinWords, BitVec.toNat_ofNat]
  omega

/-! CSRW -/

/-- CSRW to a writable CSR, of a value it accepts, writes it (40_control R403). -/
theorem exec_csrw_completes {n : Nat} {c : Csr} {v : Word} (s : State) (hc : Csr.ofNumber n = some c)
    (hw : c.writable = true) (hv : c.accepts v = true) :
    exec (.csrw n v) s = .next ((s.csrWrite c v).advance 12) := by
  have hw' : ¬ c.writable = false := by simp [hw]
  have hv' : ¬ c.accepts v = false := by simp [hv]
  simp only [exec, execCsrw, csrNamed_of_defined hc, raiseWhen_neg hw', raiseWhen_neg hv', checked_bind_ok]
  rfl

/-- CSRW to a writable CSR, of a value it refuses, faults with CSR_VALUE (40_control R403, 10_state R122). -/
theorem exec_csrw_refuses {n : Nat} {c : Csr} {v : Word} (s : State) (hc : Csr.ofNumber n = some c)
    (hw : c.writable = true) (hv : c.accepts v = false) :
    exec (.csrw n v) s = .next (s.faultedWith 0x06 0x03000000) := by
  obtain ⟨hwritable, haccepts⟩ := csr_ofNumber_write hc v
  refine (csrw_checks n v s).exec_fault (code := .csrValue) (header_csrw n v) ?_
  rw [checks, firstFault_cons_of_passes (not_not_intro (hwritable.mp hw)), firstFault_cons_of_fails (haccepts.mp hv)]

/-- CSRW to a writable CSR whose legal values are those with `p` (10_state R114). -/
theorem exec_csrw_of_accepts_iff {n : Nat} {c : Csr} {v : Word} {p : Prop} [Decidable p] (s : State)
    (hc : Csr.ofNumber n = some c) (hw : c.writable = true) (hp : c.accepts v = true ↔ p) :
    if p then exec (.csrw n v) s = .next ((s.csrWrite c v).advance 12)
    else exec (.csrw n v) s = .next (s.faultedWith 0x06 0x03000000) := by
  split
  case isTrue h => exact exec_csrw_completes s hc hw (hp.mpr h)
  case isFalse h => exact exec_csrw_refuses s hc hw (Bool.eq_false_iff.mpr (mt hp.mp h))

/-- CSRW to a number that is undefined or read-only faults with CSR (40_control R403). -/
theorem exec_csrw_unwritable {n : Nat} (v : Word) (s : State)
    (h : ¬ ((0x004 ≤ n ∧ n ≤ 0x006) ∨ (0x010 ≤ n ∧ n ≤ 0x017) ∨ (0x020 ≤ n ∧ n ≤ 0x02F))) :
    exec (.csrw n v) s = .next (s.faultedWith 0x05 0x03000000) :=
  (csrw_checks n v s).exec_fault (code := .csr) (header_csrw n v) (firstFault_cons_of_fails h)

/-! CSRR -/

/-- CSRR that passes its checks writes the word of the CSR at ADDR (40_control R404). -/
theorem exec_csrr_completes {n addr : Nat} {c : Csr} {s : State} (hc : Csr.ofNumber n = some c)
    (ha : ¬ addr % 4 ≠ 0) (hb : ¬ addr + 4 > s.cfg.lmemBytes) :
    exec (.csrr n addr) s =
      .next ((s.setLmem (Memory.storeWords s.lmem addr [s.csrRead c])).advance 12) := by
  simp only [exec, execCsrr, csrNamed_of_defined hc, raiseWhen_neg ha, raiseWhen_neg hb, checked_bind_ok]
  rfl

theorem firstFault_csrr_undefined {n : Nat} (addr : Nat) (s : State) (hc : Csr.ofNumber n = none) :
    firstFault (checks (.csrr n addr) s) = some .csr :=
  firstFault_cons_of_fails ((csr_ofNumber_eq_none n).mp hc)

/-- The CSR check passed: ALIGN comes first, then BOUNDS (40_control R404). -/
theorem firstFault_csrr_defined {n : Nat} {c : Csr} (addr : Nat) (s : State) (hc : Csr.ofNumber n = some c) :
    firstFault (checks (.csrr n addr) s) =
      firstFault [(decide (addr % 4 ≠ 0), .align), (decide (s.cfg.lmemBytes < addr + 4), .bounds)] := by
  have hdefined : ¬ Csr.ofNumber n = none := by simp [hc]
  rw [csr_ofNumber_eq_none] at hdefined
  rw [checks, firstFault_cons_of_passes hdefined]

/-- A word stored at `a` is read back there, and no other byte changes. -/
theorem storeWords_one (m : Memory) (a : Nat) (w : Word) :
    wordAt (Memory.storeWords m a [w]) a = w ∧ sameOutside m (Memory.storeWords m a [w]) (rangeBytes a 4) :=
  ⟨wordAt_storeWords_inside m a [w] 0 (by simp),
    fun x hx => read_storeWords_outside m a [w] x (by
      simp only [rangeBytes] at hx
      simp only [List.length_singleton]
      omega)⟩

end Sys2Proof.Machine

namespace Sys2Proof

open Sys2Proof.Machine

/-- Settles O24: neither command has a check, so both complete (`finish_ok`). -/
theorem nopAndHalt : Obligations.NopAndHalt :=
  ⟨rfl, rfl, fun s => ⟨finish_ok .nop s s, finish_ok .halt s s.halt⟩⟩

/-- Settles O25: SETD has no check, and each argument that fits its field is the field's value. -/
theorem setdWritesDescriptor : Obligations.SetdWritesDescriptor := by
  intro a base pitch rows cols len s hfits
  simp only [Instr.wellFormed, fitsU32, fitsU16, Bool.and_eq_true, decide_eq_true_eq, and_assoc] at hfits
  obtain ⟨hbase, hpitch, hrows, hcols, hlen⟩ := hfits
  refine ⟨congrArg (· :: _) (header_setd a base pitch rows cols len), _, finish_ok _ s _, rfl, ?_⟩
  simp only [State.advance_desc, State.setDesc_desc_same, BitVec.toNat_ofNat, Nat.mod_eq_of_lt,
    hbase, hpitch, hrows, hcols, hlen, true_and]
  exact fun b hb => s.setDesc_desc_other _ hb

/-- Settles O26: a number in one of the three writable ranges completes or is refused by its CSR's own legal values; a
SCALE half is joined with the other half as it was. -/
theorem csrwWrites : Obligations.CsrwWrites := by
  intro csr v s done faults
  refine ⟨congrArg (· :: _) (header_csrw csr v), ?emode, ?tsize, ?hstride, ?res, ?scaleHi, ?scaleLo, ?unwritable⟩
  case emode =>
    rintro rfl
    exact exec_csrw_of_accepts_iff (c := .emode) s rfl rfl (by simp [Csr.accepts])
  case tsize =>
    rintro rfl
    exact exec_csrw_of_accepts_iff (c := .tsize) s rfl rfl (by simp [Csr.accepts, and_assoc])
  case hstride =>
    rintro rfl
    exact exec_csrw_of_accepts_iff (c := .hstride) s rfl rfl (by simp [Csr.accepts])
  case res =>
    rintro k rfl
    exact exec_csrw_completes s (csr_ofNumber_res k) rfl rfl
  case scaleHi =>
    rintro k rfl
    refine ⟨_, exec_csrw_completes s (csr_ofNumber_scaleHi k) rfl rfl, ?_⟩
    rw [joinWords_toNat, lowWord_toNat]
  case scaleLo =>
    rintro k rfl
    refine ⟨_, exec_csrw_completes s (csr_ofNumber_scaleLo k) rfl rfl, ?_⟩
    rw [joinWords_toNat, highWord_toNat]
  case unwritable =>
    intro hconfig hres hscale
    exact exec_csrw_unwritable v s (by tauto)

/-- Settles O28: the first failing check of CSR, ALIGN and BOUNDS gives the fault; with none, one word is stored. -/
theorem csrrReads : Obligations.CsrrReads := by
  intro csr addr s
  refine ⟨congrArg (· :: _) (header_csrr csr addr), ?_⟩
  have hfault {code : FaultCode} := (csrr_checks csr addr s).exec_fault (header_csrr csr addr) (code := code)
  cases hc : Csr.ofNumber csr with
  | none => exact hfault (firstFault_csrr_undefined addr s hc)
  | some c =>
    rw [firstFault_csrr_defined addr s hc] at hfault
    dsimp only
    split
    case isTrue halign => exact hfault (firstFault_cons_of_fails halign)
    case isFalse halign =>
      split
      case isTrue hbounds =>
        rw [firstFault_cons_of_passes halign] at hfault
        exact hfault (firstFault_cons_of_fails hbounds)
      case isFalse hbounds =>
        exact ⟨_, exec_csrr_completes hc halign hbounds, storeWords_one s.lmem addr (s.csrRead c)⟩

end Sys2Proof

section
/-! The quantization tables (43_quant R551-R553): the entries SETQ and ABSORB leave, and the faults their checks take. -/

namespace Sys2Proof.Machine

/-! Header words (30_encoding R300) -/

theorem header_setq (q : Nat) : (Instr.setq q).header = BitVec.ofNat 32 (0x08000000 + q) := by
  apply BitVec.eq_of_toNat_eq
  simp only [Instr.header, Instr.headerOf, headerWord, Instr.opcode, Opcode.row, BitVec.toNat_ofNat, Fin.val_zero]
  omega

theorem header_absorb : Instr.absorb.header = 0x09000000 := by decide

/-! Entries of a table -/

theorem getElem_tabulate {α : Type} (n : Nat) (f : Nat → α) (k : Nat) (hk : k < n) : (tabulate n f)[k] = f k := by
  simp [tabulate]

theorem getElem_plainTable (base : List Nat) (q : Nat) (k : Fin 64) :
    (plainTable base q)[k] = F64.ofInt ((scaledEntry (base.getD k 0) q : Nat) : Int) :=
  getElem_tabulate 64 _ k k.isLt

/-- Entry 8i + j of an absorbed table is the entry of coefficient (i, j) (43_quant R553). -/
theorem getElem_absorbTable (s : State) (t : Vector F64 64) (i j : Fin 8) :
    (absorbTable s.scale t)[8 * i.val + j.val] = absorbedEntry s t i j := by
  have hrow : Fin.ofNat 8 ((8 * i.val + j.val) / 8) = i := Fin.ext (by simp only [Fin.val_ofNat]; omega)
  have hcol : Fin.ofNat 8 (8 * i.val + j.val) = j := Fin.ext (by simp only [Fin.val_ofNat]; omega)
  have hentry : t[Fin.ofNat 64 (8 * i.val + j.val)] = t[8 * i.val + j.val] := by
    simp only [Fin.getElem_fin, Fin.val_ofNat, Nat.mod_eq_of_lt (show 8 * i.val + j.val < 64 by omega)]
  rw [absorbTable, getElem_tabulate, hrow, hcol, hentry, absorbEntry, absorbedEntry]

/-! SETQ -/

/-- SETQ of a legal quality replaces both tables, QUALITY and ABSORBED (43_quant R552). -/
theorem exec_setq_completes {q : Nat} (s : State) (hq : ¬ (q < 1 ∨ q > 99)) :
    exec (.setq q) s =
      .next ((((s.setTables (plainTable lumaBase q) (plainTable chromaBase q)).setQuality q).setAbsorbed false).advance
        4) := by
  simp only [exec, execSetq, raiseWhen_neg hq, checked_bind_ok]
  rfl

/-- SETQ of any other quality faults with OPERAND (43_quant R552). -/
theorem exec_setq_refuses {q : Nat} (s : State) (hq : q < 1 ∨ 99 < q) :
    exec (.setq q) s = .next (s.faultedWith 0x04 (0x08000000 + BitVec.ofNat 32 q)) :=
  (setq_checks q s).exec_fault (code := .operand) ((header_setq q).trans (BitVec.ofNat_add ..))
    (firstFault_cons_of_fails hq)

/-! ABSORB -/

/-- All 128 entries that ABSORB computes are finite and positive (43_quant R553). -/
abbrev State.absorbable (s : State) : Prop :=
  ∀ i j : Fin 8, F64.isFinitePos (absorbedEntry s s.qtl i j) = true ∧ F64.isFinitePos (absorbedEntry s s.qtc i j) = true

theorem State.absorbable_iff_tablesPositive (s : State) :
    s.absorbable ↔
      tablePositive (absorbTable s.scale s.qtl) = true ∧ tablePositive (absorbTable s.scale s.qtc) = true := by
  simp only [State.absorbable, tablePositive_absorb, forall_and]

/-- ABSORB of tables not yet absorbed, with 128 legal results, replaces both tables (43_quant R553). -/
theorem exec_absorb_completes {s : State} (hfresh : ¬ s.absorbed = true) (hpos : s.absorbable) :
    exec .absorb s =
      .next (((s.setTables (absorbTable s.scale s.qtl) (absorbTable s.scale s.qtc)).setAbsorbed true).advance 4) := by
  obtain ⟨hluma, hchroma⟩ := s.absorbable_iff_tablesPositive.mp hpos
  have hlegal : ¬ (tablePositive (absorbTable s.scale s.qtl) = false ∨
      tablePositive (absorbTable s.scale s.qtc) = false) := by simp [hluma, hchroma]
  simp only [exec, execAbsorb, raiseWhen_neg hfresh, raiseWhen_neg hlegal, checked_bind_ok]
  rfl

/-- ABSORB of absorbed tables faults with ABSORB_TWICE (43_quant R553). -/
theorem exec_absorb_twice {s : State} (habsorbed : s.absorbed = true) :
    exec .absorb s = .next (s.faultedWith 0x11 0x09000000) :=
  (absorb_checks s).exec_fault (code := .absorbTwice) header_absorb (by simp [checks, firstFault, habsorbed])

/-- ABSORB of tables not yet absorbed, with a result that is no finite positive number, faults with NUMERIC
(43_quant R553). -/
theorem exec_absorb_numeric {s : State} (hfresh : ¬ s.absorbed = true) (hpos : ¬ s.absorbable) :
    exec .absorb s = .next (s.faultedWith 0x0E 0x09000000) := by
  refine (absorb_checks s).exec_fault (code := .numeric) header_absorb ?_
  rw [checks, Bool.eq_false_iff.mpr hfresh]
  exact firstFault_cons_of_fails hpos

end Sys2Proof.Machine

namespace Sys2Proof

open Sys2Proof.Machine

/-- Settles O29: a legal quality completes with two plain tables, whose entries are the scaled base entries. -/
theorem setqTables : Obligations.SetqTables := by
  intro q s _
  refine ⟨congrArg (· :: _) (header_setq q), ?_⟩
  split
  case isTrue hq =>
    exact ⟨_, exec_setq_completes s (by omega), rfl,
      fun k => ⟨getElem_plainTable lumaBase q k, getElem_plainTable chromaBase q k⟩⟩
  case isFalse hq => exact exec_setq_refuses s (by omega)

/-- Settles O30: ABSORB_TWICE comes before NUMERIC; past both, each table holds its absorbed entries. -/
theorem absorbTables : Obligations.AbsorbTables := by
  intro s entry
  refine ⟨congrArg (· :: _) header_absorb, ?_⟩
  split
  case isTrue habsorbed => exact exec_absorb_twice habsorbed
  case isFalse hfresh =>
    split
    case isTrue hpos =>
      exact ⟨_, exec_absorb_completes hfresh hpos, rfl,
        fun i j => ⟨getElem_absorbTable s s.qtl i j, getElem_absorbTable s s.qtc i j⟩⟩
    case isFalse hpos => exact exec_absorb_numeric hfresh hpos

end Sys2Proof
end

section
/-! The zig-zag order (44_entropy R600): two index tables that undo each other move 64 entries there and back. -/

namespace Sys2Proof.Machine

/-- Rows of `n` entries, put end to end and cut again. -/
theorem chunks_flatten {α : Type} (n : Nat) (rows : List (List α)) (h : ∀ row ∈ rows, row.length = n) :
    chunks n rows.length rows.flatten = rows := by
  induction rows with
  | nil => rfl
  | cons row rows ih =>
    obtain ⟨hrow, hrows⟩ := List.forall_mem_cons.mp h
    rw [List.flatten_cons, List.length_cons, chunks, List.take_left' hrow, List.drop_left' hrow, ih hrows]

/-- A list cut into rows of `n`, put end to end again. -/
theorem flatten_chunks {α : Type} (n k : Nat) (xs : List α) (h : xs.length = n * k) : (chunks n k xs).flatten = xs := by
  induction k generalizing xs with
  | zero => rw [List.eq_nil_of_length_eq_zero h]; rfl
  | succ k ih =>
    have hdrop : (xs.drop n).length = n * k := by rw [List.length_drop, h, Nat.mul_succ, Nat.add_sub_cancel]
    rw [chunks, List.flatten_cons, ih _ hdrop, List.take_append_drop]

/-- Entries moved by an index table and back by its inverse are where they were. -/
theorem map_getD_of_inverse {α : Type} {p q : List Nat} {n : Nat} (hpq : p.map (fun k => q.getD k n) = List.range n)
    (dflt : α) (xs : List α) (hxs : xs.length = n) :
    p.map (fun k => (q.map fun j => xs.getD j dflt).getD k dflt) = xs := by
  have hdflt : xs.getD n dflt = dflt := List.getD_eq_default _ _ hxs.le
  calc p.map (fun k => (q.map fun j => xs.getD j dflt).getD k dflt)
      = p.map (fun k => xs.getD (q.getD k n) dflt) :=
        List.map_congr_left fun k _ => by
          have hmap := List.getD_map q n (n := k) fun j => xs.getD j dflt
          rwa [hdflt] at hmap
    _ = (List.range n).map fun k => xs.getD k dflt := by rw [← hpq, List.map_map]; rfl
    _ = xs := List.ext_getElem (by simp [hxs]) fun i _ hi => by simp [hi]

/-- The second table of 44_entropy R600 is the inverse of the first. -/
theorem zigzagIndex_zigzagOrder : zigzagOrder.map (fun k => zigzagIndex.getD k 64) = List.range 64 := by decide +kernel

theorem zigzagOrder_zigzagIndex : zigzagIndex.map (fun k => zigzagOrder.getD k 64) = List.range 64 := by decide +kernel

theorem zigzag_unzigzag {α : Type} (dflt : α) (seq : List α) (h : seq.length = 64) :
    zigzag dflt (unzigzag dflt seq) = seq := by
  rw [zigzag, unzigzag, flatten_chunks 8 8 _ (by rw [List.length_map]; rfl)]
  exact map_getD_of_inverse zigzagIndex_zigzagOrder dflt seq h

theorem unzigzag_zigzag {α : Type} (dflt : α) (blk : List (List α)) (h : isBlock blk) :
    unzigzag dflt (zigzag dflt blk) = blk := by
  have hflat : blk.flatten.length = 64 := by
    rw [← List.flatMap_id', flatMap_length_const _ _ 8 h.2, h.1]
  have hcut := chunks_flatten 8 blk h.2
  rw [h.1] at hcut
  rw [unzigzag, zigzag, map_getD_of_inverse zigzagOrder_zigzagIndex dflt _ hflat, hcut]

end Sys2Proof.Machine

namespace Sys2Proof.Entropy

open Sys2Proof.Machine

/-- Settles O34: the tables are compared entry by entry, and each undoes the other on any 64 entries. -/
theorem zigzagOrder : Obligations.ZigzagOrder :=
  ⟨by decide +kernel, by decide +kernel, fun seq h => zigzag_unzigzag 0 seq h,
    fun blk hrows hcols => unzigzag_zigzag 0 blk ⟨hrows, hcols⟩⟩

end Sys2Proof.Entropy

/-! Categories and magnitude bits (44_entropy R603). -/

namespace Sys2Proof.Machine

/-- `Cat(v)` is the least `n` with |v| below 2^n. -/
theorem category_le_iff (v : Int) (n : Nat) : category v ≤ n ↔ v.natAbs < 2 ^ n := by
  unfold category
  split
  case isTrue hv => simp [hv]
  case isFalse hv => rw [Nat.succ_le_iff, Nat.log2_lt (Int.natAbs_ne_zero.mpr hv)]

theorem natAbs_lt_two_pow_category (v : Int) : v.natAbs < 2 ^ category v := (category_le_iff v _).mp le_rfl

theorem category_eq_zero_iff (v : Int) : category v = 0 ↔ v = 0 := by
  rw [← Nat.le_zero, category_le_iff]
  omega

theorem two_pow_le_natAbs {v : Int} (hv : v ≠ 0) : 2 ^ (category v - 1) ≤ v.natAbs := by
  have hpos : category v ≠ 0 := fun h => hv ((category_eq_zero_iff v).mp h)
  rw [← Nat.not_lt, ← category_le_iff]
  omega

theorem magnitudeBits_of_nonneg {v : Int} (h : 0 ≤ v) (n : Nat) : (magnitudeBits v n : Int) = v := by
  rw [magnitudeBits, if_pos h, Int.toNat_of_nonneg h]

theorem magnitudeBits_of_neg {v : Int} {n : Nat} (h : v < 0) (hn : v.natAbs < 2 ^ n) :
    (magnitudeBits v n : Int) = v + (2 ^ n : Nat) - 1 := by
  have hcast : ((2 ^ n : Nat) : Int) = 2 ^ n := Nat.cast_pow 2 n
  rw [magnitudeBits, if_neg (by omega), ← hcast, Int.toNat_of_nonneg (by omega)]

theorem magnitudeBits_lt (v : Int) : magnitudeBits v (category v) < 2 ^ category v := by
  have hlt := natAbs_lt_two_pow_category v
  rcases lt_or_ge v 0 with hneg | hnonneg
  · have hbits := magnitudeBits_of_neg hneg hlt
    omega
  · have hbits := magnitudeBits_of_nonneg hnonneg (category v)
    omega

/-- The top bit of the field tells the sign. -/
theorem two_pow_le_magnitudeBits_iff {v : Int} (hv : v ≠ 0) :
    2 ^ (category v - 1) ≤ magnitudeBits v (category v) ↔ 0 < v := by
  have hlt := natAbs_lt_two_pow_category v
  have hle := two_pow_le_natAbs hv
  have hdouble := Nat.two_pow_pred_mul_two (Nat.pos_of_ne_zero (mt (category_eq_zero_iff v).mp hv))
  rcases lt_or_ge v 0 with hneg | hnonneg
  · have hbits := magnitudeBits_of_neg hneg hlt
    omega
  · have hbits := magnitudeBits_of_nonneg hnonneg (category v)
    omega

theorem extendBits_magnitudeBits (v : Int) : extendBits (magnitudeBits v (category v)) (category v) = v := by
  rcases eq_or_ne v 0 with rfl | hv
  · rfl
  have hcat : category v ≠ 0 := mt (category_eq_zero_iff v).mp hv
  have htop := two_pow_le_magnitudeBits_iff hv
  simp only [extendBits, hcat, false_or, ge_iff_le, htop]
  split
  case isTrue hpos => exact magnitudeBits_of_nonneg hpos.le _
  case isFalse hnpos =>
    rw [magnitudeBits_of_neg (by omega) (natAbs_lt_two_pow_category v), Nat.cast_pow, Nat.cast_ofNat]
    omega

end Sys2Proof.Machine

namespace Sys2Proof.Entropy

open Sys2Proof.Machine

/-- Settles O35: each clause is the lemma about `Cat`, `Bits` or `Extend` that states it. -/
theorem magnitudeBits : Obligations.MagnitudeBits := by
  refine ⟨fun _ _ => rfl, ?_⟩
  rintro v _ rfl
  have hne (h : 1 ≤ category v) : v ≠ 0 := mt (category_eq_zero_iff v).mpr (by omega)
  have hlt := natAbs_lt_two_pow_category v
  refine ⟨?_, extendBits_magnitudeBits v, magnitudeBits_lt v, category_eq_zero_iff v,
    fun h => ⟨two_pow_le_natAbs (hne h), by omega⟩, fun h => (two_pow_le_magnitudeBits_iff (hne h)).symm⟩
  split
  case isTrue hnonneg => exact magnitudeBits_of_nonneg hnonneg _
  case isFalse hneg => rw [magnitudeBits_of_neg (by omega) hlt, Nat.cast_pow, Nat.cast_ofNat]

end Sys2Proof.Entropy
end

section
/-! Bits, bytes and code tables of the Huffman backend (44_entropy R606, R607, R609). -/

namespace Sys2Proof.Machine

/-! Bits and numbers -/

@[simp] theorem bitsOf_length (n v : Nat) : (bitsOf n v).length = n := by
  induction n with
  | zero => rfl
  | succ n ih => rw [bitsOf, List.length_cons, ih]

/-- Reading on after bits that gave `a`. -/
theorem foldl_bitsOf (n v a : Nat) :
    (bitsOf n v).foldl (fun acc b => 2 * acc + b.toNat) a = a * 2 ^ n + v % 2 ^ n := by
  induction n generalizing a with
  | zero => simp [bitsOf, Nat.mod_one]
  | succ n ih =>
    have hbit : (v / 2 ^ n % 2 == 1).toNat = v / 2 ^ n % 2 := by
      rcases Nat.mod_two_eq_zero_or_one (v / 2 ^ n) with h | h <;> rw [h] <;> rfl
    rw [bitsOf, List.foldl_cons, ih, hbit, Nat.mod_pow_succ]
    ring

theorem natOfBits_bitsOf {n v : Nat} (h : v < 2 ^ n) : natOfBits (bitsOf n v) = v := by
  rw [natOfBits, foldl_bitsOf, Nat.zero_mul, Nat.zero_add, Nat.mod_eq_of_lt h]

theorem readBits_bitsOf {n v : Nat} (h : v < 2 ^ n) (rest : List Bool) :
    readBits n (bitsOf n v ++ rest) = .ok (v, rest) := by
  rw [readBits, if_neg (by simp), List.take_left' (bitsOf_length n v), List.drop_left' (bitsOf_length n v),
    natOfBits_bitsOf h]

/-! Bits and bytes -/

@[simp] theorem unpackBits_length (bs : List Byte) : (unpackBits bs).length = 8 * bs.length := by
  rw [unpackBits, flatMap_length_const _ _ 8 fun b _ => bitsOf_length 8 b.toNat, Nat.mul_comm]

/-- The byte made of eight bits has these bits. -/
theorem bitsOf_byte (bs : List Bool) (h : bs.length = 8) : bitsOf 8 (BitVec.ofNat 8 (natOfBits bs)).toNat = bs := by
  have hbytes : ∀ b7 b6 b5 b4 b3 b2 b1 b0 : Bool,
      bitsOf 8 (BitVec.ofNat 8 (natOfBits [b7, b6, b5, b4, b3, b2, b1, b0])).toNat = [b7, b6, b5, b4, b3, b2, b1, b0] := by
    decide +kernel
  match bs, h with
  | [b7, b6, b5, b4, b3, b2, b1, b0], _ => exact hbytes b7 b6 b5 b4 b3 b2 b1 b0

/-- A last byte of less than eight bits is padded (44_entropy R607). -/
theorem packBits_of_short {bs : List Bool} (hne : bs ≠ []) (hlt : bs.length < 8) :
    packBits bs = [BitVec.ofNat 8 (natOfBits (bs ++ List.replicate (8 - bs.length) true))] := by
  have hpad : (bs ++ List.replicate 8 true).take 8 = bs ++ List.replicate (8 - bs.length) true := by
    rw [List.take_append, List.take_of_length_le hlt.le, List.take_replicate, Nat.min_eq_left (Nat.sub_le _ _)]
  have hfew (b7 b6 b5 b4 b3 b2 b1 b0 : Bool) (rest : List Bool) :
      bs ≠ b7 :: b6 :: b5 :: b4 :: b3 :: b2 :: b1 :: b0 :: rest := by
    rintro rfl
    simp only [List.length_cons] at hlt
    omega
  rw [← hpad, packBits.eq_3 _ hfew hne]

/-- Packed bits come back with less than a byte of padding behind them (44_entropy R607, R609). -/
theorem unpackBits_packBits (bits : List Bool) :
    ∃ pad : List Bool, pad.length < 8 ∧ unpackBits (packBits bits) = bits ++ pad := by
  induction bits using packBits.induct with
  | case1 b7 b6 b5 b4 b3 b2 b1 b0 rest ih =>
    obtain ⟨pad, hpad, hrest⟩ := ih
    refine ⟨pad, hpad, ?_⟩
    rw [packBits, unpackBits, List.flatMap_cons, bitsOf_byte _ rfl, ← unpackBits, hrest]
    rfl
  | case2 => exact ⟨[], by simp, rfl⟩
  | case3 bs hfull hnil =>
    have hshort : bs.length < 8 := by
      by_contra hlong
      have htake : (bs.take 8).length = 8 := by rw [List.length_take, Nat.min_eq_left (Nat.le_of_not_lt hlong)]
      match hbyte : bs.take 8, htake with
      | [b7, b6, b5, b4, b3, b2, b1, b0], _ =>
        exact hfull b7 b6 b5 b4 b3 b2 b1 b0 (bs.drop 8) ((List.take_append_drop 8 bs).symm.trans (by rw [hbyte]; rfl))
    refine ⟨List.replicate (8 - bs.length) true, ?_, ?_⟩
    · have hpos := List.length_pos_iff.mpr hnil
      rw [List.length_replicate]
      omega
    · rw [packBits_of_short hnil hshort, unpackBits, List.flatMap_singleton, bitsOf_byte _ (by simp; omega)]

/-- Eight bits a byte, less than a byte of padding: the bits used count the bytes (44_entropy R610). -/
theorem ceilDiv_sub_pad (n : Nat) {pad : Nat} (h : pad < 8) : ceilDiv (8 * n - pad) 8 = n := by
  unfold ceilDiv
  omega

/-! Symbols of a code table: with every code padded to 16 bits in all ways, the codes of a table own intervals of numbers
that do not meet, so the first bits of a code are no other code (44_entropy R606). -/

/-- Every 16-bit number that starts with the code `c` is below every one that starts with the code `d`. -/
def HuffCode.before (c d : HuffCode) : Prop := (c.code + 1) * 2 ^ (16 - c.len) ≤ d.code * 2 ^ (16 - d.len)

/-- A table of codes of 1 to 16 bits, in rising order. -/
def risingCodes (table : List HuffCode) : Prop :=
  table.Pairwise HuffCode.before ∧ ∀ c ∈ table, 0 < c.len ∧ c.len ≤ 16 ∧ c.code < 2 ^ c.len

theorem risingCodes_dcCodes : risingCodes dcCodes := by
  unfold risingCodes HuffCode.before
  decide +kernel

theorem risingCodes_acCodes : risingCodes acCodes := by
  unfold risingCodes HuffCode.before
  decide +kernel

/-- A code and what starts it are not one before the other. -/
theorem HuffCode.not_before_of_leadingBits {c d : HuffCode} {n : Nat} (hc : c.len ≤ 16) (hn : n < c.len)
    (hlen : d.len = c.len - n) (hcode : d.code = c.code / 2 ^ n) : ¬ c.before d ∧ ¬ d.before c := by
  have hpow : 2 ^ (16 - d.len) = 2 ^ n * 2 ^ (16 - c.len) := by
    rw [← Nat.pow_add]
    congr 1
    omega
  have hfloor := Nat.div_mul_le_self c.code (2 ^ n)
  have hceil : c.code < (c.code / 2 ^ n + 1) * 2 ^ n :=
    Nat.lt_mul_of_div_lt (Nat.lt_succ_self (c.code / 2 ^ n)) (Nat.two_pow_pos n)
  simp only [HuffCode.before, hpow, hcode, ← Nat.mul_assoc, Nat.mul_le_mul_right_iff (Nat.two_pow_pos (16 - c.len))]
  exact ⟨by omega, by omega⟩

/-- In a table of rising codes, what starts a code is no other code. -/
theorem risingCodes.eq_of_leadingBits {table : List HuffCode} (h : risingCodes table) {c d : HuffCode} (hc : c ∈ table)
    (hd : d ∈ table) {n : Nat} (hn : n < c.len) (hlen : d.len = c.len - n) (hcode : d.code = c.code / 2 ^ n) : d = c := by
  obtain ⟨hrising, hbounds⟩ := h
  obtain ⟨-, hlen16, -⟩ := hbounds c hc
  have hnot := HuffCode.not_before_of_leadingBits hlen16 hn hlen hcode
  obtain ⟨i, hi, rfl⟩ := List.mem_iff_getElem.mp hc
  obtain ⟨j, hj, rfl⟩ := List.mem_iff_getElem.mp hd
  have hbefore := List.pairwise_iff_getElem.mp hrising
  rcases lt_trichotomy i j with hij | rfl | hji
  · exact absurd (hbefore i j hi hj hij) hnot.1
  · rfl
  · exact absurd (hbefore j i hj hi hji) hnot.2

/-- With `n + 1` bits of `c` to read, `DecodeSym` reads them and answers its symbol (44_entropy R609). -/
theorem decodeSymFrom_bitsOf {table : List HuffCode} (h : risingCodes table) {c : HuffCode} (hc : c ∈ table)
    (rest : List Bool) (n fuel : Nat) (hn : n < c.len) (hfuel : n < fuel) :
    decodeSymFrom table fuel (c.len - (n + 1)) (c.code / 2 ^ (n + 1)) (bitsOf (n + 1) c.code ++ rest) =
      .ok (c.sym, rest) := by
  obtain ⟨fuel, rfl⟩ := Nat.exists_eq_add_of_lt hfuel
  have hlen : c.len - (n + 1) + 1 = c.len - n := by omega
  have hcode : 2 * (c.code / 2 ^ (n + 1)) + (c.code / 2 ^ n % 2 == 1).toNat = c.code / 2 ^ n := by
    rw [Nat.pow_succ, ← Nat.div_div_eq_div_mul]
    rcases Nat.mod_two_eq_zero_or_one (c.code / 2 ^ n) with h | h <;> rw [h] <;> simp <;> omega
  have hmatch (d : HuffCode) (hd : d ∈ table) (hp : (d.len == c.len - n && d.code == c.code / 2 ^ n) = true) : d = c := by
    rw [Bool.and_eq_true, beq_iff_eq, beq_iff_eq] at hp
    exact h.eq_of_leadingBits hc hd hn hp.1 hp.2
  rw [bitsOf, List.cons_append, decodeSymFrom, hcode, hlen]
  cases n with
  | zero =>
    have hsome : (table.find? fun d => d.len == c.len - 0 && d.code == c.code / 2 ^ 0).isSome :=
      List.find?_isSome.mpr ⟨c, hc, by simp⟩
    obtain ⟨d, hd⟩ := Option.isSome_iff_exists.mp hsome
    have hdc := hmatch d (List.mem_of_find?_eq_some hd) (by simpa using List.find?_some hd)
    rw [hd, hdc]
    rfl
  | succ n =>
    have hnone : (table.find? fun d => d.len == c.len - (n + 1) && d.code == c.code / 2 ^ (n + 1)) = none := by
      refine List.find?_eq_none.mpr fun d hd hp => ?_
      rw [hmatch d hd hp, Bool.and_eq_true, beq_iff_eq] at hp
      omega
    rw [hnone]
    exact decodeSymFrom_bitsOf h hc rest n _ (by omega) (by omega)

/-- A symbol that has a code is read back from it (44_entropy R606, R609). -/
theorem decodeSym_codeBits {table : List HuffCode} (h : risingCodes table) {sym : Nat}
    (hsym : (table.find? fun c => c.sym == sym).isSome) (rest : List Bool) :
    decodeSym table (codeBits table sym ++ rest) = .ok (sym, rest) := by
  obtain ⟨c, hfind⟩ := Option.isSome_iff_exists.mp hsym
  have hc := List.mem_of_find?_eq_some hfind
  obtain ⟨hpos, hlen, hcode⟩ := h.2 c hc
  have hcsym : c.sym = sym := by simpa using List.find?_some hfind
  have hread := decodeSymFrom_bitsOf h hc rest (c.len - 1) 16 (by omega) (by omega)
  rw [Nat.sub_add_cancel hpos, Nat.sub_self, Nat.div_eq_of_lt hcode, hcsym] at hread
  rw [codeBits, hfind]
  exact hread

/-! The symbols the encoder uses -/

theorem dcCodes_category {t : Nat} (h : t ≤ 11) : (dcCodes.find? fun c => c.sym == t).isSome := by
  have hall : ∀ t < 12, (dcCodes.find? fun c => c.sym == t).isSome := by decide +kernel
  exact hall t (by omega)

theorem acCodes_runCategory {r t : Nat} (hr : r < 16) (ht : 0 < t) (ht10 : t ≤ 10) :
    (acCodes.find? fun c => c.sym == r * 16 + t).isSome := by
  have hall : ∀ r < 16, ∀ t < 10, (acCodes.find? fun c => c.sym == r * 16 + (t + 1)).isSome := by decide +kernel
  have hcode := hall r hr (t - 1) (by omega)
  rwa [Nat.sub_add_cancel ht] at hcode

end Sys2Proof.Machine
end

section
/-! The Huffman backend encodes exactly the values in range, and decoding undoes it (44_entropy R608-R611). -/

namespace Sys2Proof.Machine

/-! What the encoder answers (44_entropy R608) -/

/-- A value of category `t` is coded as the symbol of `t`, then the `t` bits of the value. -/
theorem encodeDc_eq_ok_iff {diff : Int} {bits : List Bool} :
    encodeDc diff = .ok bits ↔ category diff ≤ 11 ∧
      bits = codeBits dcCodes (category diff) ++ bitsOf (category diff) (magnitudeBits diff (category diff)) := by
  unfold encodeDc
  split
  case isTrue h => simp [h]
  case isFalse h => simp [Nat.le_of_not_lt h, eq_comm]

theorem encodeAc_zero (run : Nat) (vs : List Int) : encodeAc run (0 :: vs) = encodeAc (run + 1) vs := by
  rw [encodeAc, if_pos rfl]

theorem encodeAc_cons_eq_ok_iff {run : Nat} {v : Int} (hv : v ≠ 0) {vs : List Int} {bits : List Bool} :
    encodeAc run (v :: vs) = .ok bits ↔ category v ≤ 10 ∧ ∃ rest, encodeAc 0 vs = .ok rest ∧
      bits = (List.replicate (run / 16) (codeBits acCodes 0xF0)).flatten ++
        codeBits acCodes (run % 16 * 16 + category v) ++ bitsOf (category v) (magnitudeBits v (category v)) ++ rest := by
  rw [encodeAc, if_neg hv]
  split
  case isTrue h => simp [h]
  case isFalse h => cases encodeAc 0 vs <;> simp [Nat.le_of_not_lt h, eq_comm]

theorem huffBits_cons_eq_ok_iff {prevDC : Int} {blk : List Int} {blks : List (List Int)} {bits : List Bool} :
    huffBits prevDC (blk :: blks) = .ok bits ↔ ∃ dc ac rest, encodeDc (blk.headD 0 - prevDC) = .ok dc ∧
      encodeAc 0 blk.tail = .ok ac ∧ huffBits (blk.headD 0) blks = .ok rest ∧ bits = dc ++ ac ++ rest := by
  rw [huffBits]
  cases encodeDc (blk.headD 0 - prevDC) <;> cases encodeAc 0 blk.tail <;> cases huffBits (blk.headD 0) blks <;>
    simp [eq_comm]

theorem huffEncode_eq_ok_iff {blks : List (List Int)} {e : List Byte} :
    huffEncode blks = .ok e ↔ ∃ bits, huffBits 0 blks = .ok bits ∧ e = packBits bits := by
  rw [huffEncode]
  cases huffBits 0 blks <;> simp [eq_comm]

/-! When the encoder answers bits: the ranges of 44_entropy R611 -/

theorem exists_encodeDc_iff (diff : Int) : (∃ bits, encodeDc diff = .ok bits) ↔ diff.natAbs ≤ 2047 := by
  simp only [encodeDc_eq_ok_iff, exists_and_left, exists_eq, and_true, category_le_iff]
  omega

theorem exists_encodeAc_iff (run : Nat) (vs : List Int) :
    (∃ bits, encodeAc run vs = .ok bits) ↔ ∀ v ∈ vs, v.natAbs ≤ 1023 := by
  induction vs generalizing run with
  | nil => simp [encodeAc]
  | cons v vs ih =>
    rw [List.forall_mem_cons]
    rcases eq_or_ne v 0 with rfl | hv
    · simp [encodeAc_zero, ih]
    · have hcat : category v ≤ 10 ↔ v.natAbs ≤ 1023 := by rw [category_le_iff]; omega
      rw [← ih 0, ← hcat]
      simp only [encodeAc_cons_eq_ok_iff hv, exists_and_left]
      rw [exists_comm]
      simp

/-- Block after block, each difference is taken from the block before it (44_entropy R608, R613). -/
theorem exists_huffBits_iff (prevDC : Int) (blks : List (List Int)) :
    (∃ bits, huffBits prevDC blks = .ok bits) ↔
      ∀ p ∈ blks.zip (prevDC :: blks.map fun blk => blk.headD 0),
        (p.1.headD 0 - p.2).natAbs ≤ 2047 ∧ ∀ v ∈ p.1.tail, v.natAbs ≤ 1023 := by
  induction blks generalizing prevDC with
  | nil => simp [huffBits]
  | cons blk blks ih =>
    rw [List.map_cons, List.zip_cons_cons, List.forall_mem_cons, ← ih, ← exists_encodeDc_iff, ← exists_encodeAc_iff 0]
    constructor
    · rintro ⟨bits, hbits⟩
      obtain ⟨dc, ac, rest, hdc, hac, hrest, -⟩ := huffBits_cons_eq_ok_iff.mp hbits
      exact ⟨⟨⟨dc, hdc⟩, ⟨ac, hac⟩⟩, ⟨rest, hrest⟩⟩
    · rintro ⟨⟨⟨dc, hdc⟩, ⟨ac, hac⟩⟩, ⟨rest, hrest⟩⟩
      exact ⟨_, huffBits_cons_eq_ok_iff.mpr ⟨dc, ac, rest, hdc, hac, hrest, rfl⟩⟩

/-! One turn of the decoder on each kind of AC code (44_entropy R610) -/

/-- EOB: the block ends in zeros. -/
theorem decodeAc_endOfBlock {k : Nat} (hk : k ≤ 63) (fuel : Nat) (rest : List Bool) :
    decodeAc (fuel + 1) k (codeBits acCodes 0x00 ++ rest) = .ok (List.replicate (64 - k) 0, rest) := by
  have hsym : (acCodes.find? fun c => c.sym == 0x00).isSome := by decide +kernel
  simp [decodeAc, decodeSym_codeBits risingCodes_acCodes hsym, Nat.not_lt.mpr hk]

/-- ZRL: sixteen zeros, and the block goes on. -/
theorem decodeAc_zeroRun {k fuel : Nat} (hk : k + 16 ≤ 63) {bits rest : List Bool} {vs : List Int}
    (h : decodeAc fuel (k + 16) bits = .ok (vs, rest)) :
    decodeAc (fuel + 1) k (codeBits acCodes 0xF0 ++ bits) = .ok (List.replicate 16 0 ++ vs, rest) := by
  have hsym : (acCodes.find? fun c => c.sym == 0xF0).isSome := by decide +kernel
  have hk63 : ¬ k > 63 := by omega
  simp [decodeAc, decodeSym_codeBits risingCodes_acCodes hsym, hk63, Nat.not_lt.mpr hk, h]

/-- As many ZRL as a run holds: their zeros, and the block goes on. -/
theorem decodeAc_zeroRuns {k fuel n : Nat} (hk : k + 16 * n ≤ 63) {bits rest : List Bool} {vs : List Int}
    (h : decodeAc fuel (k + 16 * n) bits = .ok (vs, rest)) :
    decodeAc (fuel + n) k ((List.replicate n (codeBits acCodes 0xF0)).flatten ++ bits) =
      .ok (List.replicate (16 * n) 0 ++ vs, rest) := by
  induction n generalizing k with
  | zero => simpa using h
  | succ n ih =>
    have hnext : decodeAc fuel (k + 16 + 16 * n) bits = .ok (vs, rest) := by
      rwa [show k + 16 + 16 * n = k + 16 * (n + 1) by ring]
    have hturn := decodeAc_zeroRun (by omega) (ih (by omega) hnext)
    rw [List.replicate_succ, List.flatten_cons, List.append_assoc, ← Nat.add_assoc, hturn, ← List.append_assoc,
      List.replicate_append_replicate, Nat.mul_succ, Nat.add_comm 16]

/-- A run of `r` zeros and a value. -/
theorem decodeAc_coefficient {k r fuel : Nat} {v : Int} (hr : r < 16) (hk : k + r ≤ 63) (hv : v ≠ 0)
    (hv10 : category v ≤ 10) {bits rest : List Bool} {vs : List Int}
    (h : decodeAc fuel (k + r + 1) bits = .ok (vs, rest)) :
    decodeAc (fuel + 1) k
        (codeBits acCodes (r * 16 + category v) ++ (bitsOf (category v) (magnitudeBits v (category v)) ++ bits)) =
      .ok (List.replicate r 0 ++ v :: vs, rest) := by
  have hcat : category v ≠ 0 := mt (category_eq_zero_iff v).mp hv
  have hsym := acCodes_runCategory hr (Nat.pos_of_ne_zero hcat) hv10
  have hdiv : (r * 16 + category v) / 16 = r := by omega
  have hmod : (r * 16 + category v) % 16 = category v := by omega
  have hk63 : ¬ k > 63 := by omega
  have hkr : ¬ k + r > 63 := by omega
  simp only [decodeAc, decodeSym_codeBits risingCodes_acCodes hsym, hdiv, hmod, hcat, hk63, hkr, if_false,
    readBits_bitsOf (magnitudeBits_lt v), extendBits_magnitudeBits, h]

/-! Decoding undoes encoding -/

/-- The AC bits encoded after `run` zeros, decoded from where these zeros began, give the zeros and the coefficients. -/
theorem decodeAc_encodeAc {run : Nat} {vs : List Int} {bits : List Bool} (h : encodeAc run vs = .ok bits)
    {k fuel : Nat} (hk : k + run + vs.length = 64) (hfuel : 64 < fuel + k) (rest : List Bool) :
    decodeAc fuel k (bits ++ rest) = .ok (List.replicate run 0 ++ vs, rest) := by
  induction vs generalizing run bits k fuel with
  | nil =>
    rw [List.length_nil] at hk
    obtain ⟨f, rfl⟩ : ∃ f, fuel = f + 1 := ⟨fuel - 1, by omega⟩
    rcases Nat.eq_zero_or_pos run with rfl | hrun
    · obtain rfl : [] = bits := by simpa [encodeAc] using h
      obtain rfl : k = 64 := by omega
      rfl
    · obtain rfl : codeBits acCodes 0x00 = bits := by simpa [encodeAc, hrun] using h
      rw [decodeAc_endOfBlock (by omega), List.append_nil, show 64 - k = run by omega]
  | cons v vs ih =>
    rw [List.length_cons] at hk
    rcases eq_or_ne v 0 with rfl | hv
    · rw [encodeAc_zero] at h
      rw [ih h (by omega) hfuel, List.replicate_succ', List.append_assoc]
      rfl
    · obtain ⟨hcat, acRest, hrest, rfl⟩ := (encodeAc_cons_eq_ok_iff hv).mp h
      obtain ⟨f, rfl⟩ : ∃ f, fuel = f + 1 + run / 16 := ⟨fuel - 1 - run / 16, by omega⟩
      have hnext := ih hrest (k := k + 16 * (run / 16) + run % 16 + 1) (fuel := f) (by omega) (by omega)
      have hcoeff := decodeAc_coefficient (Nat.mod_lt run (by omega)) (by omega) hv hcat hnext
      have hruns := decodeAc_zeroRuns (by omega) hcoeff
      simp only [List.append_assoc]
      rw [hruns, ← List.append_assoc, List.replicate_append_replicate, Nat.div_add_mod]
      rfl

/-- A block comes back, with the bits behind it left over. -/
theorem decodeBlock_encode {prevDC dcValue : Int} {acValues : List Int} {dc ac : List Bool}
    (hdc : encodeDc (dcValue - prevDC) = .ok dc) (hac : encodeAc 0 acValues = .ok ac) (hlen : acValues.length = 63)
    (hs32 : inS32 dcValue = true) (rest : List Bool) :
    decodeBlock prevDC (dc ++ (ac ++ rest)) = .ok (dcValue :: acValues, rest) := by
  obtain ⟨hcat, rfl⟩ := encodeDc_eq_ok_iff.mp hdc
  have hvalue : prevDC + (dcValue - prevDC) = dcValue := by omega
  have htail := decodeAc_encodeAc hac (k := 1) (fuel := 64) (by omega) (by omega) rest
  simp [decodeBlock, decodeSym_codeBits risingCodes_dcCodes (dcCodes_category hcat), readBits_bitsOf (magnitudeBits_lt _),
    extendBits_magnitudeBits, hvalue, hs32, htail]

/-- Every block comes back, with the bits behind them left over. -/
theorem decodeBlocks_huffBits {prevDC : Int} {blks : List (List Int)} {bits : List Bool}
    (h : huffBits prevDC blks = .ok bits) (hblks : ∀ blk ∈ blks, blk.length = 64 ∧ ∀ v ∈ blk, inS32 v = true)
    (rest : List Bool) : decodeBlocks blks.length prevDC (bits ++ rest) = .ok (blks, rest) := by
  induction blks generalizing prevDC bits with
  | nil =>
    obtain rfl : [] = bits := by simpa [huffBits] using h
    rfl
  | cons blk blks ih =>
    obtain ⟨⟨hlen, hs32⟩, hrest⟩ := List.forall_mem_cons.mp hblks
    obtain ⟨dc, ac, more, hdc, hac, hmore, rfl⟩ := huffBits_cons_eq_ok_iff.mp h
    obtain ⟨dcValue, acValues, rfl⟩ := List.exists_cons_of_length_eq_add_one hlen
    have hblock := decodeBlock_encode hdc hac (by simpa using hlen) (hs32 dcValue List.mem_cons_self) (more ++ rest)
    have hblocks := ih hmore hrest
    simp only [List.headD_cons, List.tail_cons] at hblock hblocks
    simp only [List.length_cons, decodeBlocks, List.append_assoc, hblock, List.headD_cons, hblocks]

theorem huffDecode_huffEncode {blks : List (List Int)} {e : List Byte} (h : huffEncode blks = .ok e)
    (hblks : ∀ blk ∈ blks, blk.length = 64 ∧ ∀ v ∈ blk, inS32 v = true) :
    huffDecode e blks.length = .ok (blks, e.length) := by
  obtain ⟨bits, hbits, rfl⟩ := huffEncode_eq_ok_iff.mp h
  obtain ⟨pad, hpad, hunpack⟩ := unpackBits_packBits bits
  have hblocks := decodeBlocks_huffBits hbits hblks pad
  rw [← hunpack] at hblocks
  rw [huffDecode, hblocks, unpackBits_length]
  exact congrArg (fun n => Except.ok (blks, n)) (ceilDiv_sub_pad _ hpad)

theorem exists_huffEncode_iff (blks : List (List Int)) :
    (∃ e, huffEncode blks = .ok e) ↔ ∃ bits, huffBits 0 blks = .ok bits := by
  simp only [huffEncode_eq_ok_iff]
  rw [exists_comm]
  simp

end Sys2Proof.Machine

namespace Sys2Proof.Entropy

open Sys2Proof.Machine

/-- Settles O37: decoding undoes encoding block by block, and encoding answers bits exactly in the two ranges. -/
theorem huffmanRoundTrip : Obligations.HuffmanRoundTrip := by
  intro blks hblks
  refine ⟨fun e he => huffDecode_huffEncode he hblks, ?_⟩
  rw [exists_huffEncode_iff, exists_huffBits_iff, List.all_eq_true]
  simp only [decide_eq_true_eq]

end Sys2Proof.Entropy
end

section
/-! Patch framing (45_patch R700-R703): a field reads back from where it was written, so a whole serialized patch parses to
its fields, and of a cut one either the length is missing or the unit it announces. -/

namespace Sys2Proof.Machine

/-! The fields of the framing -/

theorem s32_u32 {v : Int} (h : fitsS32 v = true) : s32 (u32 v) = v := by
  simp only [fitsS32, Bool.and_eq_true, decide_eq_true_eq] at h
  simp only [s32, u32, BitVec.toNat_ofNat]
  omega

/-- `fieldAt` inverts `be32` at the front of a byte string. -/
theorem fieldAt_be32_append {v : Int} (hv : fitsS32 v = true) (d : List Byte) : fieldAt (be32 v ++ d) 0 = v :=
  calc
    fieldAt (be32 v ++ d) 0 = s32 (u32 v) := congrArg s32 (bytesWord_wordBytes (u32 v))
    _ = v := s32_u32 hv

/-- Behind a field, every field stands four bytes further on. -/
theorem fieldAt_be32_append_add_four (v : Int) (d : List Byte) (k : Nat) : fieldAt (be32 v ++ d) (k + 4) = fieldAt d k :=
  rfl

@[simp] theorem be32_length (v : Int) : (be32 v).length = 4 := wordBytes_length _

@[simp] theorem patchSer_length (x y w h : Int) (p : List Byte) : (patchSer x y w h p).length = 20 + p.length := by
  simp only [patchSer, List.length_append, be32_length]

theorem fitsS32_patchLength {p : List Byte} (h : p.length ≤ 2 ^ 31 - 17) : fitsS32 (16 + p.length) = true := by
  simp only [fitsS32, Bool.and_eq_true, decide_eq_true_eq]
  omega

/-! The outcomes of parsing -/

theorem patchParse_missing_length {d : List Byte} (h : d.length < 4) : patchParse d = .error .incomplete := if_pos h

/-- A unit of `n + 4` bytes is announced, and fewer are there. -/
theorem patchParse_missing_unit {d : List Byte} {n : Nat} (hfield : fieldAt d 0 = n) (hn : 16 ≤ n)
    (hd : d.length < 4 + n) : patchParse d = .error .incomplete := by
  unfold patchParse
  rw [hfield, if_neg (by omega : ¬ (n : Int) < 16), if_pos (by omega : 4 + (n : Int) > d.length), ite_self]

/-- A unit of `n + 4` bytes is announced and there. -/
theorem patchParse_whole_unit {d : List Byte} {n : Nat} (hfield : fieldAt d 0 = n) (hn : 16 ≤ n) (hd : 4 + n ≤ d.length) :
    patchParse d =
      .ok ⟨4 + n, fieldAt d 4, fieldAt d 8, fieldAt d 12, fieldAt d 16, (d.take (4 + n)).drop 20⟩ := by
  unfold patchParse
  rw [if_neg (by omega), hfield, if_neg (by omega), if_neg (by omega), show (4 + (n : Int)).toNat = 4 + n by omega]

/-! The round trip -/

theorem patchSer_append (x y w h : Int) (p rest : List Byte) :
    patchSer x y w h p ++ rest =
      be32 (16 + p.length) ++ (be32 x ++ (be32 y ++ (be32 w ++ (be32 h ++ (p ++ rest))))) := by
  simp only [patchSer, List.append_assoc]

theorem patchSer_append_payload (x y w h : Int) (p rest : List Byte) :
    ((patchSer x y w h p ++ rest).take (20 + p.length)).drop 20 = p := by
  rw [List.take_left' (patchSer_length ..), patchSer]
  exact List.drop_left' (by simp only [List.length_append, be32_length])

theorem patchParse_patchSer_append {x y w h : Int} {p : List Byte} (hx : fitsS32 x = true) (hy : fitsS32 y = true)
    (hw : fitsS32 w = true) (hh : fitsS32 h = true) (hp : p.length ≤ 2 ^ 31 - 17) (rest : List Byte) :
    patchParse (patchSer x y w h p ++ rest) = .ok ⟨20 + p.length, x, y, w, h, p⟩ := by
  have hfield : fieldAt (patchSer x y w h p ++ rest) 0 = (16 + p.length : Nat) := by
    rw [patchSer_append, fieldAt_be32_append (fitsS32_patchLength hp), Nat.cast_add, Nat.cast_ofNat]
  have htotal : 4 + (16 + p.length) = 20 + p.length := by omega
  rw [patchParse_whole_unit hfield (by omega) (by simp only [List.length_append, patchSer_length]; omega), htotal,
    patchSer_append_payload, patchSer_append]
  simp only [fieldAt_be32_append_add_four, fieldAt_be32_append, hx, hy, hw, hh]

/-- A proper prefix either ends inside the length or keeps it and lacks bytes of the unit. -/
theorem patchParse_take_patchSer {x y w h : Int} {p : List Byte} {n : Nat} (hp : p.length ≤ 2 ^ 31 - 17)
    (hn : n < 20 + p.length) : patchParse ((patchSer x y w h p).take n) = .error .incomplete := by
  have hlength : ((patchSer x y w h p).take n).length = n := by
    rw [List.length_take, patchSer_length, Nat.min_eq_left hn.le]
  by_cases h4 : n < 4
  · exact patchParse_missing_length (hlength.trans_lt h4)
  · have hfield : fieldAt ((patchSer x y w h p).take n) 0 = (16 + p.length : Nat) := by
      rw [← List.append_nil (patchSer x y w h p), patchSer_append, List.take_append, be32_length,
        List.take_of_length_le (by rw [be32_length]; omega), fieldAt_be32_append (fitsS32_patchLength hp), Nat.cast_add,
        Nat.cast_ofNat]
    exact patchParse_missing_unit hfield (by omega) (by omega)

end Sys2Proof.Machine

namespace Sys2Proof

open Sys2Proof.Machine

/-- Settles O44: the checks are `patchParse`'s own branches; a serialized patch, whole or cut, is read off its length. -/
theorem patchRoundTrip : Obligations.PatchRoundTrip :=
  ⟨fun _ => rfl, fun _ _ _ _ _ rest hx hy hw hh hp =>
    ⟨patchParse_patchSer_append hx hy hw hh hp rest, fun _ hn => patchParse_take_patchSer hp hn⟩⟩

end Sys2Proof
end


section
/-! The command encoding (30_encoding R300-R307): words and halves read back, one lemma per command for its operands, and
the decoder's answer for the bytes of any command. -/

namespace Sys2Proof

open Sys2Proof.Laws Sys2Proof.Machine

/-! Words at the front of a byte string -/

theorem takeWord_wordBytes_append (w : Word) (rest : List Byte) : takeWord (wordBytes w ++ rest) = some (w, rest) :=
  congrArg (fun v => some (v, rest)) (bytesWord_wordBytes w)

/-- A word is taken exactly from its four bytes. -/
theorem takeWord_eq_some_iff {bs rest : List Byte} {w : Word} :
    takeWord bs = some (w, rest) ↔ bs = wordBytes w ++ rest := by
  constructor
  · intro h
    match bs, h with
    | b0 :: b1 :: b2 :: b3 :: bs, h =>
      obtain ⟨rfl, rfl⟩ := Prod.mk.inj (Option.some.inj h)
      rw [wordBytes_bytesWord]
      rfl
  · rintro rfl
    exact takeWord_wordBytes_append w rest

/-- As many words are taken as are asked for, exactly from their bytes. -/
theorem takeWords_eq_some_iff {n : Nat} {bs rest : List Byte} {ws : List Word} :
    takeWords n bs = some (ws, rest) ↔ ws.length = n ∧ bs = bytesOfWords ws ++ rest := by
  induction n generalizing bs ws with
  | zero =>
    rw [takeWords, List.length_eq_zero_iff]
    constructor
    · intro h
      obtain ⟨rfl, rfl⟩ := Prod.mk.inj (Option.some.inj h)
      exact ⟨rfl, rfl⟩
    · rintro ⟨rfl, rfl⟩
      rfl
  | succ n ih =>
    rw [takeWords]
    constructor
    · intro h
      cases hw : takeWord bs with
      | none => simp [hw] at h
      | some p =>
        obtain ⟨w, bs'⟩ := p
        cases hws : takeWords n bs' with
        | none => simp [hw, hws] at h
        | some q =>
          obtain ⟨ws', rest'⟩ := q
          simp only [hw, hws, Option.some.injEq, Prod.mk.injEq] at h
          obtain ⟨rfl, rfl⟩ := h
          obtain ⟨hlen, rfl⟩ := ih.mp hws
          refine ⟨by rw [List.length_cons, hlen], ?_⟩
          rw [takeWord_eq_some_iff.mp hw, ← List.append_assoc]
          rfl
    · rintro ⟨hlen, rfl⟩
      cases ws with
      | nil => cases hlen
      | cons w ws =>
        have hcut : bytesOfWords (w :: ws) ++ rest = wordBytes w ++ (bytesOfWords ws ++ rest) := by
          rw [← List.append_assoc]
          rfl
        have hws := ih.mpr ⟨Nat.succ.inj hlen, rfl⟩
        simp only [hcut, takeWord_wordBytes_append, hws]

/-! Fields of an argument word (30_encoding R302) -/

theorem toNat_ofNat_of_fitsU32 {n : Nat} (h : fitsU32 n = true) : (BitVec.ofNat 32 n).toNat = n := by
  rw [fitsU32, decide_eq_true_eq] at h
  rw [BitVec.toNat_ofNat, Nat.mod_eq_of_lt h]

theorem fitsU32_toNat (w : Word) : fitsU32 w.toNat = true := decide_eq_true w.isLt

theorem halves_toNat {hi lo : Nat} (hh : fitsU16 hi = true) (hl : fitsU16 lo = true) :
    (halves hi lo).toNat = hi * 2 ^ 16 + lo := by
  rw [fitsU16, decide_eq_true_eq] at hh hl
  rw [halves, BitVec.toNat_ofNat]
  omega

theorem hiHalf_halves {hi lo : Nat} (hh : fitsU16 hi = true) (hl : fitsU16 lo = true) : hiHalf (halves hi lo) = hi := by
  rw [hiHalf, bitField, halves_toNat hh hl]
  rw [fitsU16, decide_eq_true_eq] at hh hl
  omega

theorem loHalf_halves {hi lo : Nat} (hh : fitsU16 hi = true) (hl : fitsU16 lo = true) : loHalf (halves hi lo) = lo := by
  rw [loHalf, bitField, halves_toNat hh hl]
  rw [fitsU16, decide_eq_true_eq] at hh hl
  omega

theorem fitsU16_hiHalf (w : Word) : fitsU16 (hiHalf w) = true := decide_eq_true (Nat.mod_lt _ (by decide))

theorem fitsU16_loHalf (w : Word) : fitsU16 (loHalf w) = true := decide_eq_true (Nat.mod_lt _ (by decide))

theorem halves_hiHalf_loHalf (w : Word) : halves (hiHalf w) (loHalf w) = w := by
  apply BitVec.eq_of_toNat_eq
  have := w.isLt
  rw [halves_toNat (fitsU16_hiHalf w) (fitsU16_loHalf w), hiHalf, loHalf, bitField, bitField]
  omega

theorem fitsS32_s32 (w : Word) : fitsS32 (s32 w) = true := by
  have := w.isLt
  rw [fitsS32, Bool.and_eq_true, decide_eq_true_eq, decide_eq_true_eq, s32]
  split <;> omega

theorem u32_s32 (w : Word) : u32 (s32 w) = w := by
  apply BitVec.eq_of_toNat_eq
  have := w.isLt
  rw [u32, BitVec.toNat_ofNat, s32]
  split <;> omega

/-! Headers (30_encoding R300, R304, R305) -/

/-- Every well-formed command has the form of 30_encoding R300-R305. -/
theorem encodedForm (i : Instr) : EncodedForm.Statement i := by
  cases i with
  | nop => exact EncodedForm.nop
  | halt => exact EncodedForm.halt
  | setd a base pitch rows cols len => exact EncodedForm.setd a base pitch rows cols len
  | csrw csr value => exact EncodedForm.csrw csr value
  | csrr csr addr => exact EncodedForm.csrr csr addr
  | setq q => exact EncodedForm.setq q
  | absorb => exact EncodedForm.absorb
  | fdct a row col => exact EncodedForm.fdct a row col
  | idct a row col => exact EncodedForm.idct a row col
  | quant chroma a row col => exact EncodedForm.quant chroma a row col
  | dequant chroma a row col => exact EncodedForm.dequant chroma a row col
  | zigzag a b row col index => exact EncodedForm.zigzag a b row col index
  | unzigzag a b index row col => exact EncodedForm.unzigzag a b index row col
  | enc a b nblk => exact EncodedForm.enc a b nblk
  | dec a b nblk => exact EncodedForm.dec a b nblk
  | rgb2ycc a b c d => exact EncodedForm.rgb2ycc a b c d
  | ycc2rgb a b c d => exact EncodedForm.ycc2rgb a b c d
  | scale a b => exact EncodedForm.scale a b
  | tenc a b => exact EncodedForm.tenc a b
  | tdec a b => exact EncodedForm.tdec a b
  | hash a => exact EncodedForm.hash a
  | diff a b ctx => exact EncodedForm.diff a b ctx
  | full a b => exact EncodedForm.full a b
  | hctxrst ctx => exact EncodedForm.hctxrst ctx
  | cvreset => exact EncodedForm.cvreset
  | cvset a => exact EncodedForm.cvset a
  | cvread a y x => exact EncodedForm.cvread a y x
  | stitch a x y => exact EncodedForm.stitch a x y
  | apply a => exact EncodedForm.apply a
  | pser a b x y w h => exact EncodedForm.pser a b x y w h
  | phdr a => exact EncodedForm.phdr a

theorem headerWord_headerFields (w : Word) : headerWord (headerFields w) = w := by
  apply BitVec.eq_of_toNat_eq
  have := w.isLt
  simp only [headerWord, headerFields, Fin.val_ofNat, bitField, BitVec.toNat_ofNat]
  omega

theorem headerFields_imm8_lt (w : Word) : (headerFields w).imm8 < 2 ^ 8 := Nat.mod_lt _ (by decide)

theorem headerFields_opc_lt (w : Word) : (headerFields w).opc < 2 ^ 8 := Nat.mod_lt _ (by decide)

/-- Only the OPC value of an opcode's row is its own (30_encoding R304, R306). -/
theorem Opcode.ofCode_eq_some_iff {n : Nat} {op : Opcode} (hn : n < 2 ^ 8) : Opcode.ofCode n = some op ↔ n = op.row.code := by
  have hall : ∀ n < 2 ^ 8, (match Opcode.ofCode n with | some op => n == op.row.code | none => true) = true := by
    decide +kernel
  constructor
  · intro h
    have hrow := hall n hn
    rw [h] at hrow
    exact beq_iff_eq.mp hrow
  · rintro rfl
    cases op <;> rfl

/-! Commands and their parts -/

/-- The operands of a well-formed command are read back from its header and argument words (30_encoding R301, R302). -/
theorem assemble_of_wellFormed (i : Instr) (h : i.wellFormed = true) : assemble i.opcode i.headerOf i.args = i := by
  cases i with
  | nop | halt | absorb | cvreset => rfl
  | rgb2ycc a b c d | ycc2rgb a b c d => rfl
  | scale a b | tenc a b | tdec a b | full a b => rfl
  | hash a | cvset a | apply a | phdr a => rfl
  | setq q | diff a b q | hctxrst q => rfl
  | quant t a row col | dequant t a row col =>
    simp only [Instr.wellFormed, Bool.and_eq_true] at h
    obtain ⟨hrow, hcol⟩ := h
    cases t <;> simp [assemble, Instr.opcode, Instr.args, Instr.headerOf, hiHalf_halves hrow hcol, loHalf_halves hrow hcol]
  | _ =>
    simp only [Instr.wellFormed, Bool.and_eq_true, and_assoc] at h
    simp_all [assemble, Instr.opcode, Instr.args, Instr.headerOf, hiHalf_halves, loHalf_halves, toNat_ofNat_of_fitsU32,
      s32_u32, -BitVec.toNat_ofNat]

theorem assemble_opcode (op : Opcode) (h : Header) (args : List Word) : (assemble op h args).opcode = op := by
  cases op <;> rfl

/-- A list of one, two or four words is its entries. -/
theorem eq_getD_of_length_one {ws : List Word} (h : ws.length = 1) : ws = [ws.getD 0 0] := by
  match ws, h with
  | [_], _ => rfl

theorem eq_getD_of_length_two {ws : List Word} (h : ws.length = 2) : ws = [ws.getD 0 0, ws.getD 1 0] := by
  match ws, h with
  | [_, _], _ => rfl

theorem eq_getD_of_length_four {ws : List Word} (h : ws.length = 4) :
    ws = [ws.getD 0 0, ws.getD 1 0, ws.getD 2 0, ws.getD 3 0] := by
  match ws, h with
  | [_, _, _, _], _ => rfl

/-- No bit of an argument word is lost in the operands (30_encoding R305). -/
theorem assemble_args (op : Opcode) (h : Header) (args : List Word) (hlen : args.length = op.row.narg) :
    (assemble op h args).args = args := by
  cases op with
  | setd | pser =>
    conv_rhs => rw [eq_getD_of_length_four hlen]
    simp [assemble, Instr.args, halves_hiHalf_loHalf, u32_s32]
  | csrw | csrr | zigzag | unzigzag | stitch =>
    conv_rhs => rw [eq_getD_of_length_two hlen]
    simp [assemble, Instr.args, halves_hiHalf_loHalf, u32_s32]
  | fdct | idct | quant | dequant | enc | dec | cvread =>
    conv_rhs => rw [eq_getD_of_length_one hlen]
    simp [assemble, Instr.args, halves_hiHalf_loHalf]
  | _ => exact (List.eq_nil_of_length_eq_zero hlen).symm

/-- No bit of a header is lost: what its command does not use is zero (30_encoding R305). -/
theorem assemble_headerOf (op : Opcode) (h : Header) (args : List Word) (hcode : h.opc = op.row.code)
    (hclear : op.reservedClear h = true) : (assemble op h args).headerOf = h := by
  obtain ⟨opc, a, b, c, d, imm⟩ := h
  subst hcode
  have hbit : imm / 2 = 0 → (imm % 2 == 1).toNat = imm := by
    intro hz
    rcases (by omega : imm = 0 ∨ imm = 1) with rfl | rfl <;> rfl
  cases op <;>
    simp_all [Opcode.reservedClear, Opcode.row, assemble, Instr.headerOf, Instr.opcode]

theorem assemble_wellFormed (op : Opcode) (h : Header) (args : List Word) (himm : h.imm8 < 2 ^ 8) :
    (assemble op h args).wellFormed = true := by
  have hfits : fitsU8 h.imm8 = true := decide_eq_true himm
  cases op <;>
    simp [assemble, Instr.wellFormed, fitsU32_toNat, fitsU16_hiHalf, fitsU16_loHalf, fitsS32_s32, hfits]

/-! Decoding -/

theorem encodeBytes_eq_append (i : Instr) : encodeBytes i = wordBytes i.header ++ bytesOfWords i.args := List.flatMap_cons

theorem decode_of_parts {bs tail rest : List Byte} {hdr : Word} {op : Opcode} {args : List Word}
    (hw : takeWord bs = some (hdr, tail)) (hop : Opcode.ofCode (headerFields hdr).opc = some op)
    (hargs : takeWords op.row.narg tail = some (args, rest)) (hclear : op.reservedClear (headerFields hdr) = true) :
    decode bs = .ok (assemble op (headerFields hdr) args, rest) := by
  simp only [decode, hw, hop, hargs, hclear, if_true]

theorem decode_encodeBytes_append (i : Instr) (rest : List Byte) (hwf : i.wellFormed = true) :
    decode (encodeBytes i ++ rest) = .ok (i, rest) := by
  obtain ⟨hheader, hlen, hclear, hcode⟩ := encodedForm i hwf
  rw [← hheader] at hclear hcode
  rw [encodeBytes_eq_append, List.append_assoc,
    decode_of_parts (takeWord_wordBytes_append _ _) hcode (takeWords_eq_some_iff.mpr ⟨hlen, rfl⟩) hclear, hheader,
    assemble_of_wellFormed i hwf]

/-- What the decoder reads is an opcode's header and its argument words, put together. -/
theorem decode_eq_ok {bs rest : List Byte} {i : Instr} (h : decode bs = .ok (i, rest)) :
    ∃ hdr op args, Opcode.ofCode (headerFields hdr).opc = some op ∧ args.length = op.row.narg ∧
      op.reservedClear (headerFields hdr) = true ∧ bs = wordBytes hdr ++ (bytesOfWords args ++ rest) ∧
      i = assemble op (headerFields hdr) args := by
  unfold decode at h
  split at h
  · cases h
  rename_i hdr tail hw
  split at h
  · cases h
  rename_i op hop
  split at h
  · cases h
  rename_i args rest' hargs
  split at h
  case isFalse => cases h
  case isTrue hclear =>
    obtain ⟨rfl, rfl⟩ := Prod.mk.inj (Except.ok.inj h)
    obtain ⟨hlen, rfl⟩ := takeWords_eq_some_iff.mp hargs
    exact ⟨hdr, op, args, hop, hlen, hclear, takeWord_eq_some_iff.mp hw, rfl⟩

theorem header_assemble {hdr : Word} {op : Opcode} (args : List Word) (hop : Opcode.ofCode (headerFields hdr).opc = some op)
    (hclear : op.reservedClear (headerFields hdr) = true) : (assemble op (headerFields hdr) args).header = hdr := by
  have hcode := (Opcode.ofCode_eq_some_iff (headerFields_opc_lt hdr)).mp hop
  rw [Instr.header, assemble_headerOf op _ args hcode hclear, headerWord_headerFields]

/-- Settles O1: a well-formed command's bytes are what the decoder takes. -/
theorem decodeOfEncode : Obligations.DecodeOfEncode :=
  decode_encodeBytes_append

/-- Settles O2: what the decoder takes is a header and argument words that the command read keeps, bit by bit. -/
theorem encodeOfDecode : Obligations.EncodeOfDecode := by
  intro bs i rest h
  obtain ⟨hdr, op, args, hop, hlen, hclear, rfl, rfl⟩ := decode_eq_ok h
  refine ⟨assemble_wellFormed op _ args (headerFields_imm8_lt hdr), ?_⟩
  rw [encodeBytes_eq_append, header_assemble args hop hclear, assemble_args op _ args hlen, List.append_assoc]

/-- Settles O3: seven byte strings, decoded. -/
theorem workedEncodings : Obligations.WorkedEncodings :=
  ⟨rfl, rfl, rfl, rfl, rfl, rfl, rfl⟩

end Sys2Proof
end


section
/-! Fetch and the engine's step (30_encoding R303, 60_exceptions R902): the words at CPC that the decoder takes, the check of
fetch and decode that fails first, and the command run when none does. -/

namespace Sys2Proof.Machine

open Sys2Proof.Laws

theorem headerFields_opc (w : Word) : (headerFields w).opc = bitField w.toNat 24 8 := rfl

/-! Words of LMEM at the front of a load -/

theorem takeWord_load {n : Nat} (m : Memory) (a : Nat) (h : 4 ≤ n) :
    takeWord (Memory.load m a n) = some (wordAt m a, Memory.load m (a + 4) (n - 4)) := by
  have hfour : Memory.load m a 4 = [m.read a, m.read (a + 1), m.read (a + 2), m.read (a + 3)] := by
    simp [load_eq_map, List.range_succ]
  rw [show n = 4 + (n - 4) by omega, load_append, hfour, Nat.add_sub_cancel_left]
  rfl

theorem takeWord_load_short {n : Nat} (m : Memory) (a : Nat) (h : n < 4) : takeWord (Memory.load m a n) = none := by
  interval_cases n <;> simp [load_eq_map, List.range_succ, takeWord]

/-- The words that a load holds whole, from address `a` on. -/
theorem takeWords_load (m : Memory) (a k n : Nat) :
    takeWords k (Memory.load m a n) =
      if 4 * k ≤ n then
        some ((List.range k).map (fun j => wordAt m (a + 4 * j)), Memory.load m (a + 4 * k) (n - 4 * k))
      else none := by
  induction k generalizing a n with
  | zero => simp [takeWords]
  | succ k ih =>
    rw [takeWords]
    by_cases h4 : 4 ≤ n
    · simp only [takeWord_load m a h4, ih]
      by_cases hk : 4 * (k + 1) ≤ n
      · have hk' : 4 * k ≤ n - 4 := by omega
        have hend : a + 4 + 4 * k = a + 4 * (k + 1) := by omega
        have hlen : n - 4 - 4 * k = n - 4 * (k + 1) := by omega
        have hwords : (fun j => wordAt m (a + 4 + 4 * j)) = (fun j => wordAt m (a + 4 * j)) ∘ Nat.succ :=
          funext fun j => congrArg (wordAt m) (by rw [Nat.succ_eq_add_one]; omega)
        simp only [if_pos hk, if_pos hk', hend, hlen, hwords, List.range_succ_eq_map, List.map_cons, List.map_map,
          Nat.mul_zero, Nat.add_zero]
      · have hk' : ¬ 4 * k ≤ n - 4 := by omega
        simp only [if_neg hk, if_neg hk']
    · have hk : ¬ 4 * (k + 1) ≤ n := by omega
      simp only [takeWord_load_short m a (Nat.lt_of_not_le h4), if_neg hk]

/-! Fetch -/

/-- Fetch fails before it reads: CPC is unaligned, or the header lies outside LMEM (30_encoding R303). -/
theorem fetch_misplaced {s : State} (h : s.cpc.toNat % 4 ≠ 0 ∨ s.cpc.toNat + 4 > s.cfg.lmemBytes) :
    s.fetch = .error ⟨.fetch, 0⟩ := if_pos h

/-- The header word is the first that fetch reads. -/
theorem takeWord_fetchBytes {s : State} (h : ¬ (s.cpc.toNat % 4 ≠ 0 ∨ s.cpc.toNat + 4 > s.cfg.lmemBytes)) :
    takeWord s.fetchBytes =
      some (wordAt s.lmem s.cpc.toNat,
        Memory.load s.lmem (s.cpc.toNat + 4) (min 20 (s.cfg.lmemBytes - s.cpc.toNat) - 4)) :=
  takeWord_load _ _ (by omega)

theorem row_narg_le (op : Opcode) : op.row.narg ≤ 4 := by cases op <;> decide

/-! What the decoder answers when a check of fetch fails (30_encoding R303) -/

section
variable {bs tail : List Byte} {hdr : Word} {op : Opcode} (hw : takeWord bs = some (hdr, tail))
include hw

theorem decode_illegalOpcode (hop : Opcode.ofCode (headerFields hdr).opc = none) :
    decode bs = .error .illegalOpcode := by
  simp only [decode, hw, hop]

theorem decode_shortArgs (hop : Opcode.ofCode (headerFields hdr).opc = some op)
    (hargs : takeWords op.row.narg tail = none) : decode bs = .error .shortArgs := by
  simp only [decode, hw, hop, hargs]

theorem decode_reservedField {p : List Word × List Byte} (hop : Opcode.ofCode (headerFields hdr).opc = some op)
    (hargs : takeWords op.row.narg tail = some p) (hclear : op.reservedClear (headerFields hdr) = false) :
    decode bs = .error .reservedField := by
  simp only [decode, hw, hop, hargs, hclear, Bool.false_eq_true, if_false]

end

/-! Fetch of a header that lies in LMEM -/

section
variable {s : State} {op : Opcode} (h : ¬ (s.cpc.toNat % 4 ≠ 0 ∨ s.cpc.toNat + 4 > s.cfg.lmemBytes))
include h

theorem fetch_of_decode_error {e : DecodeError} (hd : decode s.fetchBytes = .error e) :
    s.fetch = .error ⟨decodeFault e, wordAt s.lmem s.cpc.toNat⟩ := by
  have hhdr : headerAt s.fetchBytes = wordAt s.lmem s.cpc.toNat := by simp only [headerAt, takeWord_fetchBytes h]
  simp only [State.fetch, if_neg h, hd, hhdr]

/-- The argument words are read whole exactly when they lie in LMEM. -/
theorem takeWords_fetchBytes (op : Opcode) :
    takeWords op.row.narg (Memory.load s.lmem (s.cpc.toNat + 4) (min 20 (s.cfg.lmemBytes - s.cpc.toNat) - 4)) =
      if s.cpc.toNat + 4 + 4 * op.row.narg > s.cfg.lmemBytes then none
      else some ((List.range op.row.narg).map (fun k => wordAt s.lmem (s.cpc.toNat + 4 + 4 * k)),
        Memory.load s.lmem (s.cpc.toNat + 4 + 4 * op.row.narg)
          (min 20 (s.cfg.lmemBytes - s.cpc.toNat) - 4 - 4 * op.row.narg)) := by
  have hnarg := row_narg_le op
  rw [takeWords_load]
  by_cases hb : s.cpc.toNat + 4 + 4 * op.row.narg > s.cfg.lmemBytes
  · rw [if_pos hb, if_neg (by omega)]
  · rw [if_neg hb, if_pos (by omega)]

theorem fetch_illegalOpcode (hop : Opcode.ofCode (headerFields (wordAt s.lmem s.cpc.toNat)).opc = none) :
    s.fetch = .error ⟨.illegalOpcode, wordAt s.lmem s.cpc.toNat⟩ :=
  fetch_of_decode_error h (decode_illegalOpcode (takeWord_fetchBytes h) hop)

variable (hop : Opcode.ofCode (headerFields (wordAt s.lmem s.cpc.toNat)).opc = some op)
include hop

theorem fetch_shortArgs (hb : s.cpc.toNat + 4 + 4 * op.row.narg > s.cfg.lmemBytes) :
    s.fetch = .error ⟨.fetch, wordAt s.lmem s.cpc.toNat⟩ :=
  fetch_of_decode_error h
    (decode_shortArgs (takeWord_fetchBytes h) hop ((takeWords_fetchBytes h op).trans (if_pos hb)))

variable (hb : ¬ s.cpc.toNat + 4 + 4 * op.row.narg > s.cfg.lmemBytes)
include hb

theorem fetch_reserved (hclear : op.reservedClear (headerFields (wordAt s.lmem s.cpc.toNat)) = false) :
    s.fetch = .error ⟨.reserved, wordAt s.lmem s.cpc.toNat⟩ :=
  fetch_of_decode_error h
    (decode_reservedField (takeWord_fetchBytes h) hop ((takeWords_fetchBytes h op).trans (if_neg hb)) hclear)

theorem fetch_command (hclear : op.reservedClear (headerFields (wordAt s.lmem s.cpc.toNat)) = true) :
    s.fetch = .ok (assemble op (headerFields (wordAt s.lmem s.cpc.toNat))
      ((List.range op.row.narg).map fun k => wordAt s.lmem (s.cpc.toNat + 4 + 4 * k))) := by
  have hd := decode_of_parts (takeWord_fetchBytes h) hop ((takeWords_fetchBytes h op).trans (if_neg hb)) hclear
  simp only [State.fetch, if_neg h, hd]

end

/-! The engine's step -/

/-- The step of a RUNNING engine with no host move to come. -/
theorem step_running {s : State} (he : s.engine = .running) (hm : s.moves = []) :
    step s = atBoundary (runCommand s) := by
  simp only [step, hm, engineStep, he, if_true]

theorem boundary_of_notPending {s : State} (h : s.resetPending = false) : s.boundary = s := by
  rw [State.boundary, h]
  rfl

/-- A fault of fetch or decode, with no SOFT_RESET waiting, is the step's next state. -/
theorem step_fetchFault {s : State} {f : FetchFault} (he : s.engine = .running) (hm : s.moves = [])
    (hr : s.resetPending = false) (hf : s.fetch = .error f) : step s = .next (s.faultedWith f.code.code f.info) := by
  rw [step_running he hm, runCommand, hf]
  exact congrArg Host.Outcome.next (boundary_of_notPending hr)

theorem step_fetched {s : State} {i : Instr} (he : s.engine = .running) (hm : s.moves = []) (hf : s.fetch = .ok i) :
    step s = atBoundary (exec i s) := by
  rw [step_running he hm, runCommand, hf]

/-- The bytes of a well-formed command at CPC are fetched as that command. -/
theorem fetch_encoded {s : State} {i : Instr} (hwf : i.wellFormed = true) (ha : s.cpc.toNat % 4 = 0)
    (hb : s.cpc.toNat + i.length ≤ s.cfg.lmemBytes)
    (hbytes : ∀ k, k < i.length → s.lmem.read (s.cpc.toNat + k) = (encodeBytes i).getD k 0) : s.fetch = .ok i := by
  have hlen : (encodeBytes i).length = i.length := by
    rw [encodeBytes, bytesOfWords_length, encode, List.length_cons, args_length, Instr.length, Nat.add_comm]
  have hnarg := row_narg_le i.opcode
  have hlength : i.length = 4 * (1 + i.opcode.row.narg) := rfl
  have hload : Memory.load s.lmem s.cpc.toNat i.length = encodeBytes i := by
    rw [load_eq_map, eq_map_getD (encodeBytes i) 0 _ hlen]
    exact List.map_congr_left fun k hk => hbytes k (List.mem_range.mp hk)
  have hfetch : s.fetchBytes = encodeBytes i ++ Memory.load s.lmem (s.cpc.toNat + i.length)
      (min 20 (s.cfg.lmemBytes - s.cpc.toNat) - i.length) := by
    rw [← hload, ← load_append, State.fetchBytes]
    congr 1
    omega
  rw [State.fetch, if_neg (by omega), hfetch, decode_encodeBytes_append i _ hwf]

end Sys2Proof.Machine

namespace Sys2Proof

open Sys2Proof.Machine

/-- Settles O5: the first check of fetch that fails gives the fault, and the command fetched keeps every bit of its
words. -/
theorem fetchChecks : Obligations.FetchChecks := by
  intro s he hm hr
  have hfault {f : FetchFault} (hf : s.fetch = .error f) := step_fetchFault he hm hr hf
  split
  case isTrue h => exact hfault (fetch_misplaced h)
  case isFalse h =>
    dsimp only
    rw [← headerFields_opc]
    split
    case h_1 hop => exact hfault (fetch_illegalOpcode h hop)
    case h_2 op hop =>
      split
      case isTrue hb => exact hfault (fetch_shortArgs h hop hb)
      case isFalse hb =>
        split
        case isTrue hclear => exact hfault (fetch_reserved h hop hb hclear)
        case isFalse hclear =>
          rw [Bool.not_eq_false] at hclear
          exact ⟨_, assemble_opcode op _ _, header_assemble _ hop hclear,
            assemble_wellFormed op _ _ (headerFields_imm8_lt _),
            assemble_args op _ _ (by rw [List.length_map, List.length_range]),
            step_fetched he hm (fetch_command h hop hb hclear)⟩

/-- Settles O4: the command's bytes are fetched as that command; the host moves still to come are no part of a fetch. -/
theorem stepRunsDecoded : Obligations.StepRunsDecoded := by
  intro s i hwf he ha hb hbytes
  have hfetch := fetch_encoded hwf ha hb hbytes
  refine ⟨fun hm => step_fetched he hm hfetch, fun n act rest hm => ?_, fun _ => rfl⟩
  have hlater : step s = engineStep { s with moves := ⟨n, act⟩ :: rest } := by simp only [step, hm]
  have hrun : runCommand { s with moves := ⟨n, act⟩ :: rest } = exec i { s with moves := ⟨n, act⟩ :: rest } := by
    rw [runCommand, show State.fetch { s with moves := ⟨n, act⟩ :: rest } = .ok i from hfetch]
  rw [hlater, engineStep, if_pos he, hrun]

/-- Settles O6: both are branches of the step. -/
theorem stoppedEngineWaits : Obligations.StoppedEngineWaits :=
  ⟨fun s he hm => by simp only [step, hm, engineStep, if_neg he], fun s act rest hm => by simp only [step, hm]⟩

end Sys2Proof
end


section
/-! The host's side and the state after reset (10_state R130, 20_memory R213, 60_exceptions R908-R911, 70_reset R950). -/

namespace Sys2Proof.Machine

/-! Bits of a register -/

theorem bitAt_eq_decide (v : Word) (k : Nat) : bitAt v k = decide (bitField v.toNat k 1 = 1) := by
  rw [bitAt, Bool.beq_eq_decide_eq]

theorem bitAt_zero (v : Word) : bitAt v 0 = decide (v.toNat % 2 = 1) := by
  rw [bitAt_eq_decide, bitField, pow_zero, Nat.div_one, pow_one]

theorem not_bitAt_zero (v : Word) : (!bitAt v 0) = decide (v.toNat % 2 = 0) := by
  rw [bitAt_zero, ← decide_not]
  exact decide_eq_decide.mpr (by omega)

/-! Host registers -/

theorem hStatus_toNat (s : State) : s.hStatus.toNat = s.faultCode.toNat * 2 ^ 8 + s.engine.code := by
  have hcode := s.faultCode.isLt
  have hengine : s.engine.code < 2 ^ 8 := by cases s.engine <;> decide
  rw [State.hStatus, BitVec.toNat_ofNat]
  omega

/-- H_CTRL with its three bits as propositions (60_exceptions R910). -/
theorem hostControl_eq (s : State) (v : Word) :
    s.hostControl v =
      if bitField v.toNat 2 1 = 1 then s.requestReset
      else if bitField v.toNat 0 1 = 1 then s.start
      else if bitField v.toNat 1 1 = 1 then s.resume else s := by
  simp only [State.hostControl, bitAt_eq_decide, decide_eq_true_eq]

theorem start_of_stopped {s : State} (h : s.engine ≠ .running) :
    s.start = { s with cpc := s.hCpcStart, faultCode := 0, faultCpc := 0, faultInfo := 0, engine := .running } :=
  if_neg h

theorem resume_of_stopped {s : State} (h : s.engine ≠ .running) :
    s.resume = { s with faultCode := 0, faultCpc := 0, faultInfo := 0, engine := .running } := if_neg h

/-- An offset past the map is no register (10_state R130). -/
theorem hostRead_unlisted (s : State) {off : Nat} (h : off > 0x20) : s.hostRead off = 0 := by
  unfold State.hostRead
  split <;> first | omega | rfl

theorem hostWrite_unlisted (s : State) (v : Word) {off : Nat} (h : off > 0x20) : s.hostWrite off v = s := by
  unfold State.hostWrite
  split <;> first | omega | rfl

/-! Contexts after reset -/

theorem ctx_reset_valid (c : Nat) : (State.reset.ctx c).valid = false := by
  unfold State.ctx
  cases h : State.reset.ctxs[c]? with
  | none => rw [List.getD_eq_getElem?_getD, h]; rfl
  | some x =>
    rw [List.getD_eq_getElem?_getD, h, List.eq_of_mem_replicate (List.mem_of_getElem? h)]
    rfl

end Sys2Proof.Machine

namespace Sys2Proof

open Sys2Proof.Machine

/-- Settles O8: the three bits of H_CTRL in their order; a launch is a START or a RESUME of a stopped engine. -/
theorem hostControlWrite : Obligations.HostControlWrite := by
  intro s v
  have hmove : hostMove (.regWrite 0x04 v) s = .next (s.hostControl v) := rfl
  rw [hmove, hostControl_eq]
  constructor
  · simp only [State.requestReset, State.start, State.resume, apply_ite Host.Outcome.next]
    rfl
  · intro list a hbits hlaunch
    obtain ⟨hstopped, -⟩ := id hlaunch
    refine ⟨_, rfl, ⟨hlaunch, ?_⟩, ?_⟩
    all_goals
      rcases hbits with ⟨h2, h0, rfl⟩ | ⟨h2, h0, h1, rfl⟩
      · simp [h2, h0, start_of_stopped hstopped]
      · simp [h2, h0, h1, resume_of_stopped hstopped]

/-- Settles O9: each clause is one entry of the map. -/
theorem hostRegisterMap : Obligations.HostRegisterMap := by
  intro s v
  refine ⟨rfl, rfl, rfl, rfl, rfl, rfl, rfl, rfl, ?status, rfl, ?irqEn, ?irqPend, ?readOnly, ?unlisted, ?irq⟩
  case status =>
    rw [← show s.hStatus = s.hostRead 0x08 from rfl, hStatus_toNat]
    cases s.engine <;> rfl
  case irqEn =>
    rw [← bitAt_zero]
    rfl
  case irqPend =>
    rw [← not_bitAt_zero]
    rfl
  case readOnly =>
    intro off hoff
    simp only [List.mem_cons, List.not_mem_nil, or_false] at hoff
    rcases hoff with rfl | rfl | rfl | rfl | rfl <;> rfl
  case unlisted =>
    exact fun off _ hoff => ⟨hostRead_unlisted s hoff, congrArg Host.Outcome.next (hostWrite_unlisted s v hoff)⟩
  case irq => rw [State.irq, Bool.and_eq_true]

/-- Settles O10: while RUNNING the port is shut; else it is a store and a load. -/
theorem hostMemoryPort : Obligations.HostMemoryPort := by
  intro s a bs n
  refine ⟨fun he => ⟨if_pos (.inl he), if_pos he⟩, fun he hb => ⟨?_, ?_⟩⟩
  · by_cases hbs : bs = []
    · subst hbs
      exact ⟨s.lmem, if_pos (.inr rfl), fun k hk => absurd hk (Nat.not_lt_zero k), fun _ _ => rfl⟩
    · refine ⟨Memory.store s.lmem a bs, ?_, fun k hk => read_store_inside _ _ _ _ hk, fun x hx => ?_⟩
      · rw [hostMove, hostStore, if_neg (not_or.mpr ⟨he, hbs⟩), if_neg (Nat.not_lt.mpr hb)]
        rfl
      · exact read_store_outside _ _ _ _ (by rw [rangeBytes] at hx; omega)
  · rw [State.hostLoad, if_neg he, load_eq_map]

/-- Settles O11: the fields of `State.reset`, read one by one. -/
theorem resetValues : Obligations.ResetValues := by
  refine ⟨rfl, by decide, rfl, ?descs, by decide, rfl, rfl, rfl, rfl, rfl, rfl, rfl, ?scale, rfl, rfl, rfl, rfl,
    ctx_reset_valid, rfl, rfl, rfl, rfl, rfl, rfl, rfl, rfl, rfl⟩
  case descs => decide +kernel
  case scale => decide +kernel

/-- Settles O19: each invariant of the reset state is a closed fact. -/
theorem invariantAtReset : Obligations.InvariantAtReset := by
  refine ⟨⟨reset_lmem_wf, by decide⟩, by decide, by decide +kernel, by decide, by decide, by decide⟩

/-- Settles O12: SETQ 50 and ABSORB, executed on the reset state, leave the 128 bit patterns listed for reset. -/
theorem resetTables : Obligations.ResetTables := by
  refine ⟨_, _, exec_setq_completes State.reset (by decide), exec_absorb_completes (by decide) ?_, ?_, ?_, rfl⟩
  · rw [State.absorbable_iff_tablesPositive]
    decide +kernel
  · decide +kernel
  · decide +kernel

end Sys2Proof
end


section
/-! Every command is its checks and then the rest of its meaning (60_exceptions R905): the rest of each, said once. -/

namespace Sys2Proof.Machine

/-- What a command computes once its checks have passed. -/
def afterChecks (i : Instr) (s : State) : Checked State :=
  let block (f : List (List Int) → Except FaultCode (List (List Int))) (d : Desc) (row col : Nat) : Checked State := do
    let y ← orDraw (blockRanges d row col) (f (samples (readBlock s.lmem d row col)))
    pure (s.setLmem (writeBlock s.lmem d row col (sampleWords y)))
  match i with
  | .nop => pure s
  | .halt => pure s.halt
  | .setd a base pitch rows cols len =>
    pure (s.setDesc a ⟨BitVec.ofNat 32 base, BitVec.ofNat 32 pitch, BitVec.ofNat 16 rows, BitVec.ofNat 16 cols,
      BitVec.ofNat 32 len⟩)
  | .csrw csr value => pure (((Csr.ofNumber csr).map fun c => s.csrWrite c value).getD s)
  | .csrr csr addr =>
    pure (((Csr.ofNumber csr).map fun c => s.setLmem (Memory.storeWords s.lmem addr [s.csrRead c])).getD s)
  | .setq q => pure (((s.setTables (plainTable lumaBase q) (plainTable chromaBase q)).setQuality q).setAbsorbed false)
  | .absorb => pure ((s.setTables (absorbTable s.scale s.qtl) (absorbTable s.scale s.qtc)).setAbsorbed true)
  | .fdct a row col => block forwardDct (s.desc a) row col
  | .idct a row col => block inverseDct (s.desc a) row col
  | .quant chroma a row col => block (quantize (s.table chroma)) (s.desc a) row col
  | .dequant chroma a row col => block (dequantize (s.table chroma)) (s.desc a) row col
  | .zigzag a b row col index =>
    pure (s.setLmem (writeSeq s.lmem (s.desc b) index (zigzag 0 (readBlock s.lmem (s.desc a) row col))))
  | .unzigzag a b index row col =>
    pure (s.setLmem (writeBlock s.lmem (s.desc b) row col (unzigzag 0 (readSeq s.lmem (s.desc a) index 64))))
  | .enc a b nblk => do
    let e ← orDraw (streamRanges (s.desc b))
      (entropyEncode s.emode (chunks 64 nblk ((readSeq s.lmem (s.desc a) 0 (64 * nblk)).map s32)))
    drawWhen (e.length > (s.desc b).len.toNat) .streamOverflow (streamRanges (s.desc b))
    pure ((s.setLmem (writeStream s.lmem (s.desc b) e)).setRes 0 (BitVec.ofNat 32 e.length))
  | .dec a b nblk =>
    match entropyDecode s.emode (readStream s.lmem (s.desc a)) nblk with
    | .ok (blks, consumed) =>
      pure ((s.setLmem (writeSeq s.lmem (s.desc b) 0 (blks.flatten.map u32))).setRes01 statusOk
        (BitVec.ofNat 32 consumed))
    | .error st => pure (s.setRes01 st.status 0)
  | .rgb2ycc a b c d =>
    let planes := forwardColor (pixels (readMatrix s.lmem (s.desc a)))
    pure (s.setLmem (writeMatrix (writeMatrix (writeMatrix s.lmem (s.desc b) (sampleWords planes.1)) (s.desc c)
      (sampleWords planes.2.1)) (s.desc d) (sampleWords planes.2.2)))
  | .ycc2rgb a b c d =>
    pure (s.setLmem (writeMatrix s.lmem (s.desc d)
      (inverseColor (samples (readMatrix s.lmem (s.desc a))) (samples (readMatrix s.lmem (s.desc b)))
        (samples (readMatrix s.lmem (s.desc c))))))
  | .scale a b =>
    pure (s.setLmem (writeMatrix s.lmem (s.desc b)
      (bilinear (pixels (readMatrix s.lmem (s.desc a))) (s.desc a).rows.toNat (s.desc a).cols.toNat
        (s.desc b).rows.toNat (s.desc b).cols.toNat)))
  | .tenc a b => do
    let e ← orDraw (streamRanges (s.desc b))
      (tileEncode s.codec (pixels (readMatrix s.lmem (s.desc a))) (s.desc a).rows.toNat (s.desc a).cols.toNat)
    drawWhen (e.length > (s.desc b).len.toNat) .streamOverflow (streamRanges (s.desc b))
    pure ((s.setLmem (writeStream s.lmem (s.desc b) e)).setRes 0 (BitVec.ofNat 32 e.length))
  | .tdec a b =>
    match tileDecode s.codec (readStream s.lmem (s.desc a)) (s.desc b).rows.toNat (s.desc b).cols.toNat with
    | none => pure (s.setRes01 statusCorrupt 0)
    | some p => pure ((s.setLmem (writeMatrix s.lmem (s.desc b) p)).setRes01 statusOk (s.desc a).len)
  | .hash a => pure (s.setHash (tileHash s.hstride.toNat (pixels (readMatrix s.lmem (s.desc a)))))
  | .diff a b ctx => do
    let rows := (s.desc a).rows.toNat
    let cols := (s.desc a).cols.toNat
    let m := pixels (readMatrix s.lmem (s.desc a))
    let geom : Geometry := ⟨rows, cols, s.tsize.toNat, s.hstride.toNat⟩
    let tiles := tilesOf rows cols s.tsize.toNat
    let hashes := tiles.map (fun t => tileHash s.hstride.toNat (tilePixels m t))
    let dirty := dirtyTiles (isFresh (s.ctx ctx) geom) (s.ctx ctx).hashes tiles hashes
    let patches ← orDraw (streamRanges (s.desc b)) (mapExcept (tilePatch s.codec m) dirty)
    drawWhen (patches.flatten.length > (s.desc b).len.toNat) .streamOverflow (streamRanges (s.desc b))
    pure (((s.setLmem (writeStream s.lmem (s.desc b) patches.flatten)).setCtx ctx
      ⟨true, geom, ceilDiv rows s.tsize.toNat, ceilDiv cols s.tsize.toNat, hashes⟩).setRes01
      (BitVec.ofNat 32 dirty.length) (BitVec.ofNat 32 patches.flatten.length))
  | .full a b => do
    let out ← orDraw (streamRanges (s.desc b))
      (tilePatch s.codec (pixels (readMatrix s.lmem (s.desc a))) ⟨0, 0, (s.desc a).rows.toNat, (s.desc a).cols.toNat⟩)
    drawWhen (out.length > (s.desc b).len.toNat) .streamOverflow (streamRanges (s.desc b))
    pure ((s.setLmem (writeStream s.lmem (s.desc b) out)).setRes01 1 (BitVec.ofNat 32 out.length))
  | .hctxrst ctx => pure (s.setCtx ctx { s.ctx ctx with valid := false })
  | .cvreset => pure (s.setCanvas Canvas.empty)
  | .cvset a =>
    pure (s.setCanvas (if (s.desc a).rows.toNat = 0 ∨ (s.desc a).cols.toNat = 0 then Canvas.empty
      else ⟨(s.desc a).rows.toNat, (s.desc a).cols.toNat, readMatrix s.lmem (s.desc a)⟩))
  | .cvread a y x =>
    pure (s.setLmem (writeMatrix s.lmem (s.desc a)
      (region s.canvas.pixels y x (s.desc a).rows.toNat (s.desc a).cols.toNat)))
  | .stitch a x y =>
    pure (s.setCanvas (stitched s.canvas (readMatrix s.lmem (s.desc a)) (s.desc a).rows.toNat (s.desc a).cols.toNat x y))
  | .apply a =>
    match patchParse (readStream s.lmem (s.desc a)) with
    | .error st => pure (s.setResAll [st.status])
    | .ok p =>
      match patchPixels s.codec p with
      | none =>
        pure ((s.setResAll (patchResults statusCorrupt (s.desc a).base.toNat p)).setDesc a
          ((s.desc a).skip p.consumed))
      | some px =>
        pure (((s.setCanvas (stitched s.canvas px p.h.toNat p.w.toNat p.x p.y)).setResAll
          (patchResults statusOk (s.desc a).base.toNat p)).setDesc a ((s.desc a).skip p.consumed))
  | .pser a b x y w h =>
    pure ((s.setLmem (writeStream s.lmem (s.desc b) (patchSer x y w h (readStream s.lmem (s.desc a))))).setRes 0
      (BitVec.ofNat 32 (20 + (s.desc a).len.toNat)))
  | .phdr a =>
    match patchParse (readStream s.lmem (s.desc a)) with
    | .error st => pure (s.setResAll [st.status])
    | .ok p => pure (s.setResAll (patchResults statusOk (s.desc a).base.toNat p))

/-- A command is its checks, in the order of its rule, and then the rest of its meaning. -/
theorem exec_eq_afterChecks (i : Instr) (s : State) :
    exec i s = finish i s (checked (checks i s) >>= fun _ => afterChecks i s) := by
  cases i with
  | nop | halt | setd | cvreset => rfl
  | csrw csr v =>
    cases hc : Csr.ofNumber csr with
    | none =>
      have hundefined := (csr_ofNumber_eq_none csr).mp hc
      have hfault : firstFault (checks (.csrw csr v) s) = some .csr := firstFault_cons_of_fails (by omega)
      rw [(csrw_checks csr v s).exec_fault rfl hfault, finish_checked_fault hfault]
    | some c =>
      obtain ⟨hwritable, haccepts⟩ := csr_ofNumber_write hc v
      simp only [exec, execCsrw, afterChecks, csrNamed, hc, checks, checked_cons _ (_ :: _), checked_bind_assoc,
        ← raiseWhen_eq_checked, checked_bind_ok, ← hwritable, ← haccepts, Bool.not_eq_true]
      rfl
  | csrr csr addr =>
    cases hc : Csr.ofNumber csr with
    | none =>
      have hfault := firstFault_csrr_undefined addr s hc
      rw [(csrr_checks csr addr s).exec_fault rfl hfault, finish_checked_fault hfault]
    | some c =>
      have hdefined : ¬ Csr.ofNumber csr = none := by simp [hc]
      rw [csr_ofNumber_eq_none] at hdefined
      simp only [exec, execCsrr, afterChecks, csrNamed, hc, checks, checked_cons _ (_ :: _), checked_bind_assoc,
        ← raiseWhen_eq_checked, checked_bind_ok, raiseWhen_neg hdefined, gt_iff_lt]
      rfl
  | absorb =>
    simp only [exec, execAbsorb, afterChecks, checks, checked_cons _ (_ :: _), checked_bind_assoc]
    rw [raiseWhen_eq_checked (s.absorbed = true), Bool.decide_eq_true, ← raiseWhen_eq_checked (¬ _)]
    refine congrArg (finish .absorb s) (congrArg _ (funext fun _ => congrArg (· >>= _) (raiseWhen_congr ?_)))
    simp only [← Bool.not_eq_true, tablePositive_absorb, ← not_and_or, ← forall_and]
  | stitch a x y =>
    simp only [exec, execStitch, afterChecks, stitch_eq_checked, checks, checked_append, checked_cons _ (_ :: _),
      checked_bind_assoc, raiseWhen_eq_checked, matDesc_eq_checked]
    rfl
  | apply a =>
    simp only [exec, execApply, afterChecks, checks, checked_append, checked_bind_assoc, strDesc_eq_checked,
      patchTooLarge, readStream_eq_bytesOf, patchPixels, State.codec]
    cases patchParse (bytesOf s.lmem (s.desc a)) with
    | error st => rfl
    | ok p =>
      by_cases hs : 0 < p.w ∧ 0 < p.h ∧ p.w % 16 = 0 ∧ p.h % 16 = 0
      · cases hd : tileDecode ⟨s.emode, s.qtl, s.qtc⟩ p.payload p.h.toNat p.w.toNat with
        | none => simp only [if_pos hs, hd, decide_eq_true hs, Option.isSome_none, Bool.and_false, Bool.false_and,
            checked_false]; rfl
        | some px =>
          simp only [if_pos hs, hd, stitch_eq_checked, checked_bind_assoc, decide_eq_true hs, Option.isSome_some,
            Bool.true_and]
          rfl
      · simp only [if_neg hs, decide_eq_false hs, Bool.false_and, checked_false]
        rfl
  | rgb2ycc a b c d =>
    simp only [exec, execRgb2ycc, checks, checked_append, checked_bind_assoc, ← shapeChecks_eq_checked,
      matDesc_eq_checked, overlapCheck_eq_checked]
    rfl
  | ycc2rgb a b c d =>
    simp only [exec, execYcc2rgb, checks, checked_append, checked_bind_assoc, ← shapeChecks_eq_checked,
      matDesc_eq_checked, overlapCheck_eq_checked]
    rfl
  | fdct | idct | quant | dequant =>
    simp only [exec, execFdct, execIdct, execQuant, execDequant, checks, checked_append, checked_bind_assoc,
      blockCommand, matDesc_eq_checked, blockCheck_eq_checked]
    rfl
  | _ =>
    simp only [exec, execZigzag, execUnzigzag, execEnc, execDec, execScale, execTenc, execTdec, execHash, execDiff,
      execFull, execHctxrst, execCvset, execCvread, execPser, execPhdr, execSetq, checks, checked_append,
      checked_cons _ (_ :: _), checked_bind_assoc, matDesc_eq_checked, seqDesc_eq_checked, strDesc_eq_checked,
      blockCheck_eq_checked, windowCheck_eq_checked, prefixCheck_eq_checked, tileShapeCheck_eq_checked,
      overlapCheck_eq_checked, raiseWhen_eq_checked, gt_iff_lt, ge_iff_le]
    rfl

end Sys2Proof.Machine
end


section
/-! What the codec's computations answer (42_dct R503, R504; 43_quant R554, R555; 44_entropy R608-R615; 45_patch R705-R707):
the one fault each can meet, and the shape of each answer. -/

namespace Sys2Proof.Machine

/-! Faults -/

/-- A map that stops answers the error of an element. -/
theorem mapExcept_eq_error {ε α β : Type} {f : α → Except ε β} {xs : List α} {e : ε} (h : mapExcept f xs = .error e) :
    ∃ x ∈ xs, f x = .error e := by
  induction xs with
  | nil => cases h
  | cons x xs ih =>
    cases hx : f x with
    | error e' =>
      simp only [mapExcept, hx, Except.error.injEq] at h
      exact ⟨x, by simp, by rw [hx, h]⟩
    | ok y =>
      cases hxs : mapExcept f xs with
      | ok ys => simp [mapExcept, hx, hxs] at h
      | error e' =>
        simp only [mapExcept, hx, hxs, Except.error.injEq] at h
        obtain ⟨z, hz, hfz⟩ := ih (by rw [hxs, h])
        exact ⟨z, by simp [hz], hfz⟩

theorem roundOne_eq_error {x : F64} {e : FaultCode} (h : roundOne x = .error e) : e = .numeric := by
  rw [roundOne_eq] at h
  split at h <;> cases h
  rfl

theorem roundAll_eq_error {w : List (List F64)} {e : FaultCode} (h : roundAll w = .error e) : e = .numeric := by
  obtain ⟨row, -, hrow⟩ := mapExcept_eq_error h
  obtain ⟨x, -, hx⟩ := mapExcept_eq_error hrow
  exact roundOne_eq_error hx

theorem forwardDct_eq_error {x : List (List Int)} {e : FaultCode} (h : forwardDct x = .error e) : e = .numeric :=
  roundAll_eq_error h

theorem inverseDct_eq_error {x : List (List Int)} {e : FaultCode} (h : inverseDct x = .error e) : e = .numeric :=
  roundAll_eq_error h

theorem quantize_eq_error {t : Vector F64 64} {x : List (List Int)} {e : FaultCode} (h : quantize t x = .error e) :
    e = .numeric := by
  obtain ⟨row, -, hrow⟩ := mapExcept_eq_error h
  obtain ⟨c, -, hc⟩ := mapExcept_eq_error hrow
  exact roundOne_eq_error hc

theorem dequantize_eq_error {t : Vector F64 64} {x : List (List Int)} {e : FaultCode} (h : dequantize t x = .error e) :
    e = .numeric := by
  obtain ⟨row, -, hrow⟩ := mapExcept_eq_error h
  obtain ⟨c, -, hc⟩ := mapExcept_eq_error hrow
  exact roundOne_eq_error hc

theorem encodeDc_eq_error {diff : Int} {e : FaultCode} (h : encodeDc diff = .error e) : e = .codeRange := by
  unfold encodeDc at h
  split at h <;> cases h
  rfl

theorem encodeAc_eq_error {run : Nat} {vs : List Int} {e : FaultCode} (h : encodeAc run vs = .error e) :
    e = .codeRange := by
  induction vs generalizing run with
  | nil => cases h
  | cons v vs ih =>
    unfold encodeAc at h
    split at h
    case isTrue => exact ih h
    case isFalse =>
      split at h
      case isTrue => cases h; rfl
      case isFalse =>
        split at h
        case h_1 hvs => cases h; exact ih hvs
        case h_2 => cases h

theorem huffBits_eq_error {prevDC : Int} {blks : List (List Int)} {e : FaultCode} (h : huffBits prevDC blks = .error e) :
    e = .codeRange := by
  induction blks generalizing prevDC with
  | nil => cases h
  | cons blk blks ih =>
    unfold huffBits at h
    split at h
    case h_1 hdc => cases h; exact encodeDc_eq_error hdc
    case h_2 =>
      split at h
      case h_1 hac => cases h; exact encodeAc_eq_error hac
      case h_2 =>
        split at h
        case h_1 hrest => cases h; exact ih hrest
        case h_2 => cases h

theorem rleWords_eq_error {run : Nat} {vs : List Int} {e : FaultCode} (h : rleWords run vs = .error e) :
    e = .codeRange := by
  induction vs generalizing run with
  | nil => cases h
  | cons v vs ih =>
    unfold rleWords at h
    split at h
    case isTrue => exact ih h
    case isFalse =>
      split at h
      case isTrue => cases h; rfl
      case isFalse =>
        split at h
        case h_1 hvs => cases h; exact ih hvs
        case h_2 => cases h

/-- Entropy coding fails with CODE_RANGE alone (44_entropy R611, R614). -/
theorem entropyEncode_eq_error {emode : Word} {blks : List (List Int)} {e : FaultCode}
    (h : entropyEncode emode blks = .error e) : e = .codeRange := by
  unfold entropyEncode at h
  split at h
  case isTrue =>
    unfold huffEncode at h
    split at h
    case h_1 hb => cases h; exact huffBits_eq_error hb
    case h_2 => cases h
  case isFalse =>
    unfold rleEncode at h
    split at h
    case h_1 hb =>
      cases h
      obtain ⟨blk, -, hblk⟩ := mapExcept_eq_error hb
      exact rleWords_eq_error hblk
    case h_2 => cases h

theorem encodeBlock_eq_error {t : Vector F64 64} {x : List (List Int)} {e : FaultCode} (h : encodeBlock t x = .error e) :
    e = .numeric := by
  unfold encodeBlock at h
  split at h
  case h_1 hd => cases h; exact forwardDct_eq_error hd
  case h_2 =>
    split at h
    case h_1 hq => cases h; exact quantize_eq_error hq
    case h_2 => cases h

theorem encodePlane_eq_error {emode : Word} {t : Vector F64 64} {plane : List (List Int)} {ph pw : Nat} {e : FaultCode}
    (h : encodePlane emode t plane ph pw = .error e) : e = .codeRange ∨ e = .numeric := by
  unfold encodePlane at h
  split at h
  case h_1 hb =>
    cases h
    obtain ⟨b, -, hb⟩ := mapExcept_eq_error hb
    exact .inr (encodeBlock_eq_error hb)
  case h_2 =>
    split at h
    case h_1 hs => cases h; exact .inl (entropyEncode_eq_error hs)
    case h_2 => cases h

/-- A region fails to encode with CODE_RANGE or NUMERIC (45_patch R709). -/
theorem tileEncode_eq_error {k : CodecSettings} {p : List (List Word)} {h w : Nat} {e : FaultCode}
    (he : tileEncode k p h w = .error e) : e = .codeRange ∨ e = .numeric := by
  simp only [tileEncode, bind, Except.bind, pure, Except.pure] at he
  split at he
  case h_1 hy => cases he; exact encodePlane_eq_error hy
  case h_2 =>
    split at he
    case h_1 hcb => cases he; exact encodePlane_eq_error hcb
    case h_2 =>
      split at he
      case h_1 hcr => cases he; exact encodePlane_eq_error hcr
      case h_2 => cases he

theorem tilePatch_eq_error {k : CodecSettings} {m : List (List Word)} {t : Tile} {e : FaultCode}
    (h : tilePatch k m t = .error e) : e = .codeRange ∨ e = .numeric := by
  unfold tilePatch at h
  split at h
  case h_1 hp => cases h; exact tileEncode_eq_error hp
  case h_2 => cases h

/-! Shapes of blocks -/

theorem isBlock_map {α β : Type} {w : List (List α)} (f : α → β) (h : isBlock w) : isBlock (w.map fun row => row.map f) := by
  refine ⟨by rw [List.length_map, h.1], fun row hrow => ?_⟩
  obtain ⟨r, hr, rfl⟩ := List.mem_map.mp hrow
  rw [List.length_map, h.2 r hr]

theorem isBlock_of_mapExcept {α β ε : Type} {f : α → Except ε β} {w : List (List α)} {y : List (List β)} (hw : isBlock w)
    (h : mapExcept (mapExcept f) w = .ok y) : isBlock y := by
  refine ⟨by rw [mapExcept_length h, hw.1], fun row hrow => ?_⟩
  obtain ⟨j, hj, rfl⟩ := List.mem_iff_getElem.mp hrow
  have hw' : j < w.length := by rwa [← mapExcept_length h]
  have hf := (List.forall₂_iff_get.mp ((mapExcept_eq_ok _ _ _).mp h)).2 j hw' hj
  rw [List.get_eq_getElem, List.get_eq_getElem] at hf
  rw [mapExcept_length hf, hw.2 _ (List.getElem_mem hw')]

theorem forwardDct_isBlock {x y : List (List Int)} (h : forwardDct x = .ok y) : isBlock y :=
  isBlock_of_mapExcept (passCols_isBlock _ _) h

theorem inverseDct_isBlock {x y : List (List Int)} (h : inverseDct x = .ok y) : isBlock y :=
  isBlock_of_mapExcept (isBlock_map _ (passRows_isBlock idct1_length (passCols_isBlock _ _))) h

/-- The rows of a table that stands beside a block (43_quant R554, R555). -/
theorem tableRows_isBlock (t : Vector F64 64) : isBlock (chunks 8 8 t.toList) := by
  refine ⟨chunks_length 8 8 _, fun row hrow => ?_⟩
  obtain ⟨i, hi, rfl⟩ := List.mem_iff_getElem.mp hrow
  have hi8 : i < 8 := by rwa [chunks_length] at hi
  rw [← List.getD_eq_getElem _ [] hi, chunks_getD 8 8 _ i hi8]
  simp only [List.length_take, List.length_drop, Vector.length_toList]
  omega

/-- A coefficient beside its table entry, row by row. -/
def besideTable (t : Vector F64 64) (blk : List (List Int)) : List (List (Int × F64)) :=
  (blk.zip (chunks 8 8 t.toList)).map fun row => row.1.zip row.2

theorem perCoefficient_eq (f : Int → F64 → Except FaultCode Int) (t : Vector F64 64) (blk : List (List Int)) :
    perCoefficient f t blk = mapExcept (mapExcept fun e => f e.1 e.2) (besideTable t blk) :=
  (mapExcept_map (mapExcept fun e : Int × F64 => f e.1 e.2) (fun row : List Int × List F64 => row.1.zip row.2) _).symm

theorem besideTable_isBlock (t : Vector F64 64) {blk : List (List Int)} (h : isBlock blk) : isBlock (besideTable t blk) := by
  have ht := tableRows_isBlock t
  refine ⟨by rw [besideTable, List.length_map, List.length_zip, h.1, ht.1]; rfl, fun row hrow => ?_⟩
  obtain ⟨p, hp, rfl⟩ := List.mem_map.mp hrow
  obtain ⟨h1, h2⟩ := List.of_mem_zip hp
  rw [List.length_zip, h.2 _ h1, ht.2 _ h2]
  rfl

theorem perCoefficient_isBlock {f : Int → F64 → Except FaultCode Int} {t : Vector F64 64} {x y : List (List Int)}
    (hx : isBlock x) (h : perCoefficient f t x = .ok y) : isBlock y :=
  isBlock_of_mapExcept (besideTable_isBlock t hx) (perCoefficient_eq f t x ▸ h)

/-! Shapes of decoded sequences -/

theorem decodeAc_length {fuel k : Nat} {bits rest : List Bool} {vs : List Int} (hk : k ≤ 64)
    (h : decodeAc fuel k bits = .ok (vs, rest)) : vs.length = 64 - k := by
  induction fuel generalizing k bits vs rest with
  | zero => cases h
  | succ fuel ih =>
    simp only [decodeAc] at h
    split at h
    case isTrue hend =>
      obtain ⟨rfl, -⟩ := Prod.mk.inj (Except.ok.inj h)
      rw [List.length_nil]; omega
    case isFalse =>
      split at h
      case h_1 => cases h
      case h_2 rs bits1 hsym =>
        split at h
        case isTrue =>
          split at h
          case isTrue =>
            obtain ⟨rfl, -⟩ := Prod.mk.inj (Except.ok.inj h)
            exact List.length_replicate
          case isFalse =>
            split at h
            case isTrue => cases h
            case isFalse =>
              split at h
              case h_1 => cases h
              case h_2 vs' bits2 hac =>
                obtain ⟨rfl, -⟩ := Prod.mk.inj (Except.ok.inj h)
                rw [List.length_append, List.length_replicate, ih (by omega) hac]; omega
        case isFalse =>
          split at h
          case isTrue => cases h
          case isFalse =>
            split at h
            case h_1 => cases h
            case h_2 =>
              split at h
              case h_1 => cases h
              case h_2 vs' bits3 hac =>
                obtain ⟨rfl, -⟩ := Prod.mk.inj (Except.ok.inj h)
                rw [List.length_append, List.length_replicate, List.length_cons, ih (by omega) hac]; omega

theorem decodeBlock_length {prevDC : Int} {bits rest : List Bool} {blk : List Int}
    (h : decodeBlock prevDC bits = .ok (blk, rest)) : blk.length = 64 := by
  unfold decodeBlock at h
  split at h
  case h_1 => cases h
  case h_2 =>
    split at h
    case h_1 => cases h
    case h_2 =>
      split at h
      case isTrue => cases h
      case isFalse =>
        split at h
        case h_1 => cases h
        case h_2 ac bits3 hac =>
          obtain ⟨rfl, -⟩ := Prod.mk.inj (Except.ok.inj h)
          rw [List.length_cons, decodeAc_length (by decide) hac]

/-- `n` blocks of 64 values. -/
def blocksShaped (n : Nat) (blks : List (List Int)) : Prop := blks.length = n ∧ ∀ blk ∈ blks, blk.length = 64

theorem blocksShaped_cons {n : Nat} {blk : List Int} {blks : List (List Int)} (hblk : blk.length = 64)
    (hblks : blocksShaped n blks) : blocksShaped (n + 1) (blk :: blks) :=
  ⟨congrArg (· + 1) hblks.1, List.forall_mem_cons.mpr ⟨hblk, hblks.2⟩⟩

theorem blocksShaped.flatten_length {n : Nat} {blks : List (List Int)} (h : blocksShaped n blks) :
    blks.flatten.length = 64 * n := by
  rw [← List.flatMap_id', flatMap_length_const _ _ 64 h.2, h.1, Nat.mul_comm]

theorem decodeBlocks_shaped {n : Nat} {prevDC : Int} {bits rest : List Bool} {blks : List (List Int)}
    (h : decodeBlocks n prevDC bits = .ok (blks, rest)) : blocksShaped n blks := by
  induction n generalizing prevDC bits blks rest with
  | zero =>
    obtain ⟨rfl, -⟩ := Prod.mk.inj (Except.ok.inj h)
    exact ⟨rfl, by simp⟩
  | succ n ih =>
    unfold decodeBlocks at h
    split at h
    case h_1 => cases h
    case h_2 hblk =>
      split at h
      case h_1 => cases h
      case h_2 hblks =>
        obtain ⟨rfl, -⟩ := Prod.mk.inj (Except.ok.inj h)
        exact blocksShaped_cons (decodeBlock_length hblk) (ih hblks)

theorem rleDecodeFrom_length {fuel k : Nat} {bs rest : List Byte} {vs : List Int} (hk : k ≤ 64)
    (h : rleDecodeFrom fuel k bs = .ok (vs, rest)) : vs.length = 64 - k := by
  induction fuel generalizing k bs vs rest with
  | zero => cases h
  | succ fuel ih =>
    unfold rleDecodeFrom at h
    split at h
    case isTrue =>
      obtain ⟨rfl, -⟩ := Prod.mk.inj (Except.ok.inj h)
      rw [List.length_nil]; omega
    case isFalse =>
      split at h
      case h_1 => cases h
      case h_2 =>
        split at h
        case isTrue =>
          split at h
          case h_1 => cases h
          case h_2 =>
            split at h
            case isTrue => cases h
            case isFalse =>
              split at h
              case h_1 => cases h
              case h_2 hvs =>
                obtain ⟨rfl, -⟩ := Prod.mk.inj (Except.ok.inj h)
                rw [List.length_append, List.length_replicate, ih (by omega) hvs]; omega
        case isFalse =>
          split at h
          case h_1 => cases h
          case h_2 hvs =>
            obtain ⟨rfl, -⟩ := Prod.mk.inj (Except.ok.inj h)
            rw [List.length_cons, ih (by omega) hvs]; omega

theorem rleDecodeBlocks_shaped {n : Nat} {bs rest : List Byte} {blks : List (List Int)}
    (h : rleDecodeBlocks n bs = .ok (blks, rest)) : blocksShaped n blks := by
  induction n generalizing bs blks rest with
  | zero =>
    obtain ⟨rfl, -⟩ := Prod.mk.inj (Except.ok.inj h)
    exact ⟨rfl, by simp⟩
  | succ n ih =>
    unfold rleDecodeBlocks at h
    split at h
    case h_1 => cases h
    case h_2 hblk =>
      split at h
      case h_1 => cases h
      case h_2 hblks =>
        obtain ⟨rfl, -⟩ := Prod.mk.inj (Except.ok.inj h)
        exact blocksShaped_cons (rleDecodeFrom_length (by decide) hblk) (ih hblks)

/-- Either backend decodes as many blocks as it is asked for (44_entropy R618). -/
theorem entropyDecode_shaped {emode : Word} {data : List Byte} {n used : Nat} {blks : List (List Int)}
    (h : entropyDecode emode data n = .ok (blks, used)) : blocksShaped n blks := by
  unfold entropyDecode at h
  split at h
  case isTrue =>
    unfold huffDecode at h
    split at h
    case h_1 => cases h
    case h_2 hb =>
      obtain ⟨rfl, -⟩ := Prod.mk.inj (Except.ok.inj h)
      exact decodeBlocks_shaped hb
  case isFalse =>
    unfold rleDecode at h
    split at h
    case h_1 => cases h
    case h_2 hb =>
      obtain ⟨rfl, -⟩ := Prod.mk.inj (Except.ok.inj h)
      exact rleDecodeBlocks_shaped hb

/-! Shapes of matrices -/

/-- A matrix of `h` rows of `w` entries. -/
def matrixShaped {α : Type} (h w : Nat) (rows : List (List α)) : Prop := rows.length = h ∧ ∀ row ∈ rows, row.length = w

theorem matrixShaped_map_range {α : Type} (h w : Nat) (f : Nat → Nat → α) :
    matrixShaped h w ((List.range h).map fun i => (List.range w).map fun j => f i j) := by
  refine ⟨by simp, fun row hrow => ?_⟩
  obtain ⟨i, -, rfl⟩ := List.mem_map.mp hrow
  simp

theorem matrixShaped_map {α β : Type} {h w : Nat} {rows : List (List α)} (f : α → β) (hs : matrixShaped h w rows) :
    matrixShaped h w (rows.map fun row => row.map f) := by
  refine ⟨by rw [List.length_map, hs.1], fun row hrow => ?_⟩
  obtain ⟨r, hr, rfl⟩ := List.mem_map.mp hrow
  rw [List.length_map, hs.2 r hr]

theorem readMatrix_shaped (m : Memory) (d : Desc) : matrixShaped d.rows.toNat d.cols.toNat (readMatrix m d) := by
  rw [readMatrix_eq_map]
  exact matrixShaped_map_range ..

theorem pixelsOf_shaped (m : Memory) (d : Desc) : matrixShaped d.rows.toNat d.cols.toNat (pixelsOf m d) :=
  matrixShaped_map_range ..

theorem readBlock_isBlock (m : Memory) (d : Desc) (r c : Nat) : isBlock (readBlock m d r c) := by
  rw [readBlock_eq_map]
  exact matrixShaped_map_range 8 8 _

theorem unzigzag_isBlock {α : Type} (dflt : α) (seq : List α) : isBlock (unzigzag dflt seq) :=
  matrixShaped_map_range 8 8 fun i j => seq.getD (zigzagIndex.getD (8 * i + j) 0) dflt

theorem zigzag_length {α : Type} (dflt : α) (b : List (List α)) : (zigzag dflt b).length = 64 := List.length_map ..

theorem lumaPlane_shaped {p : List (List Word)} {h w : Nat} (hp : matrixShaped h w p) :
    matrixShaped h w (lumaPlane p) := by
  rw [lumaPlane_eq_map p h w hp.1 hp.2]
  exact matrixShaped_map_range ..

theorem chromaPlane_shaped (form : Word → F64) {p : List (List Word)} {h w : Nat} (hp : matrixShaped h w p) :
    matrixShaped (h / 2) (w / 2) (chromaPlane form p) := by
  rw [chromaPlane_eq_map form p h w hp.1 hp.2]
  exact matrixShaped_map_range ..

theorem inverseColor_shaped {y cb cr : List (List Int)} {h w : Nat} (h2 : h % 2 = 0) (w2 : w % 2 = 0)
    (hy : matrixShaped h w y) (hcb : matrixShaped (h / 2) (w / 2) cb) (hcr : matrixShaped (h / 2) (w / 2) cr) :
    matrixShaped h w (inverseColor y cb cr) := by
  rw [inverseColor_eq_map y cb cr h w h2 w2 hy.1 hy.2 hcb.1 hcb.2 hcr.1 hcr.2]
  exact matrixShaped_map_range ..

theorem bilinear_shaped (m : List (List Word)) (inH inW outH outW : Nat) :
    matrixShaped outH outW (bilinear m inH inW outH outW) :=
  matrixShaped_map_range outH outW _

theorem decodeTileBlock_isBlock {t : Vector F64 64} {seq : List Int} {b : List (List Int)}
    (h : decodeTileBlock t seq = .ok b) : isBlock b := by
  unfold decodeTileBlock at h
  split at h
  case h_1 => cases h
  case h_2 => exact inverseDct_isBlock h

/-- What a plane decodes to (45_patch R707): blocks that the entropy data holds to its end, each decoded, put together. -/
theorem decodePlane_eq_some {emode : Word} {t : Vector F64 64} {seg : List Byte} {ph pw : Nat} {x : List (List Int)} :
    decodePlane emode t seg ph pw = some x ↔
      ∃ blks bs, entropyDecode emode seg (ph / 8 * (pw / 8)) = .ok (blks, seg.length) ∧
        mapExcept (decodeTileBlock t) blks = .ok bs ∧ x = planeOfBlocks bs ph pw := by
  unfold decodePlane
  cases hd : entropyDecode emode seg (ph / 8 * (pw / 8)) with
  | error st => simp
  | ok p =>
    obtain ⟨blks, used⟩ := p
    by_cases hu : used = seg.length
    · cases hm : mapExcept (decodeTileBlock t) blks with
      | error e => simp [hu, hm]
      | ok bs => simp [hu, hm, eq_comm]
    · simp [hu]

theorem decodedBlocks_shape {t : Vector F64 64} {n : Nat} {blks : List (List Int)} {bs : List (List (List Int))}
    (hblks : blocksShaped n blks) (hbs : mapExcept (decodeTileBlock t) blks = .ok bs) :
    bs.length = n ∧ ∀ b ∈ bs, isBlock b := by
  refine ⟨by rw [mapExcept_length hbs, hblks.1], fun b hb => ?_⟩
  obtain ⟨j, hj, rfl⟩ := List.mem_iff_getElem.mp hb
  have hj' : j < blks.length := by rwa [← mapExcept_length hbs]
  exact decodeTileBlock_isBlock ((List.forall₂_iff_get.mp ((mapExcept_eq_ok _ _ _).mp hbs)).2 j hj' hj)

theorem decodePlane_shaped {emode : Word} {t : Vector F64 64} {seg : List Byte} {ph pw : Nat} {x : List (List Int)}
    (h8 : ph % 8 = 0) (w8 : pw % 8 = 0) (h : decodePlane emode t seg ph pw = some x) : matrixShaped ph pw x := by
  obtain ⟨blks, bs, hd, hm, rfl⟩ := decodePlane_eq_some.mp h
  obtain ⟨hlen, hblock⟩ := decodedBlocks_shape (entropyDecode_shaped hd) hm
  exact planeOfBlocks_shape bs ph pw h8 w8 hlen hblock

/-- What a payload decodes to (45_patch R707): three segments with nothing after them, a plane from each. -/
theorem tileDecode_eq_some {k : CodecSettings} {d : List Byte} {h w : Nat} {px : List (List Word)} :
    tileDecode k d h w = some px ↔
      ∃ segY d1 y segCb d2 cb segCr d3 cr, takeSegment d = some (segY, d1) ∧ decodePlane k.emode k.qtl segY h w = some y ∧
        takeSegment d1 = some (segCb, d2) ∧ decodePlane k.emode k.qtc segCb (h / 2) (w / 2) = some cb ∧
        takeSegment d2 = some (segCr, d3) ∧ decodePlane k.emode k.qtc segCr (h / 2) (w / 2) = some cr ∧
        d3 = [] ∧ px = inverseColor y cb cr := by
  unfold tileDecode
  simp only [Option.bind_eq_bind, Option.bind_eq_some_iff, Prod.exists]
  constructor
  · rintro ⟨segY, d1, h1, y, hy, segCb, d2, h2, cb, hcb, segCr, d3, h3, cr, hcr, hend⟩
    split at hend
    case isFalse => cases hend
    case isTrue hnil =>
      exact ⟨segY, d1, y, segCb, d2, cb, segCr, d3, cr, h1, hy, h2, hcb, h3, hcr, List.isEmpty_iff.mp hnil,
        (Option.some.inj hend).symm⟩
  · rintro ⟨segY, d1, y, segCb, d2, cb, segCr, d3, cr, h1, hy, h2, hcb, h3, hcr, rfl, rfl⟩
    exact ⟨segY, d1, h1, y, hy, segCb, d2, h2, cb, hcb, segCr, [], h3, cr, hcr, rfl⟩

theorem tileDecode_shaped {k : CodecSettings} {d : List Byte} {h w : Nat} {px : List (List Word)} (h16 : h % 16 = 0)
    (w16 : w % 16 = 0) (hd : tileDecode k d h w = some px) : matrixShaped h w px := by
  obtain ⟨segY, d1, y, segCb, d2, cb, segCr, d3, cr, -, hy, -, hcb, -, hcr, -, rfl⟩ := tileDecode_eq_some.mp hd
  exact inverseColor_shaped (by omega) (by omega) (decodePlane_shaped (by omega) (by omega) hy)
    (decodePlane_shaped (by omega) (by omega) hcb) (decodePlane_shaped (by omega) (by omega) hcr)

end Sys2Proof.Machine
end


section
/-! When every check of a command passes, and the bytes of LMEM that its writes may reach (20_memory R206, R207, R218). -/

namespace Sys2Proof.Machine

/-! Passing checks -/

theorem firstFault_append_eq_none (cs ds : List Check) :
    firstFault (cs ++ ds) = none ↔ firstFault cs = none ∧ firstFault ds = none := by
  rw [firstFault_append, Option.or_eq_none_iff]

theorem firstFault_cons_eq_none (p : Prop) [Decidable p] (code : FaultCode) (cs : List Check) :
    firstFault ((decide p, code) :: cs) = none ↔ ¬ p ∧ firstFault cs = none := by
  by_cases h : p <;> simp [firstFault, h]

theorem firstFault_cons_bool_eq_none (failing : Bool) (code : FaultCode) (cs : List Check) :
    firstFault ((failing, code) :: cs) = none ↔ failing = false ∧ firstFault cs = none := by
  cases failing <;> simp [firstFault]

theorem firstFault_nil : firstFault [] = none := rfl

theorem checked_eq_ok_iff (cs : List Check) : checked cs = .ok () ↔ firstFault cs = none := by
  unfold checked
  cases firstFault cs <;> simp

section
variable (s : State) (d : Desc)

theorem matrixChecks_pass : firstFault (matrixChecks s.cfg.lmemBytes d) = none ↔ d.matrixOk s.cfg.lmemBytes := by
  rw [← checked_eq_ok_iff, ← matDesc_eq_checked, matDesc_eq_ok]

theorem sequenceChecks_pass : firstFault (sequenceChecks s.cfg.lmemBytes d) = none ↔ d.sequenceOk s.cfg.lmemBytes := by
  rw [← checked_eq_ok_iff, ← seqDesc_eq_checked, seqDesc_eq_ok]

theorem streamChecks_pass : firstFault (streamChecks s.cfg.lmemBytes d) = none ↔ d.streamOk s.cfg.lmemBytes := by
  rw [← checked_eq_ok_iff, ← strDesc_eq_checked, strDesc_eq_ok]

end

theorem overlapChecks_pass (ins outs : List Footprint) :
    firstFault (overlapChecks ins outs) = none ↔
      (∀ o ∈ outs, ∀ f ∈ ins, o.apart f) ∧ outs.Pairwise Footprint.apart := by
  rw [overlapChecks, firstFault_cons_eq_none, not_not]
  exact and_iff_left firstFault_nil

/-- One output apart from one input passes the overlap rule. -/
theorem overlapChecks_pass_one (f o : Footprint) : firstFault (overlapChecks [f] [o]) = none ↔ o.apart f := by
  rw [overlapChecks_pass]
  simp

/-- A command whose checks all pass ends as the rest of its meaning does. -/
theorem exec_of_passes {i : Instr} {s : State} (h : firstFault (checks i s) = none) :
    exec i s = finish i s (afterChecks i s) := by
  rw [exec_eq_afterChecks, finish_checked_pass h]

/-- A command completes when its checks pass and the rest of its meaning answers. -/
theorem exec_completes {i : Instr} {s u : State} (h : firstFault (checks i s) = none) (hu : afterChecks i s = .ok u) :
    exec i s = .next (u.advance i.length) := by
  rw [exec_of_passes h, hu, finish_ok]

/-- A command takes its execution fault when its checks pass and the rest of its meaning raises it. -/
theorem exec_raises {i : Instr} {s : State} {e : Raise} (h : firstFault (checks i s) = none)
    (he : afterChecks i s = .error e) : exec i s = .next (takeFault e.code i.header e.drawn s) := by
  rw [exec_of_passes h, he, finish_error]

/-- Every command takes the fault of the first of its checks that fails (60_exceptions R902, R905). -/
theorem exec_faultsOnChecks (i : Instr) (s : State) : faultsOnChecks i s := fun _ h => by
  rw [exec_eq_afterChecks, finish_checked_fault h]

/-! Writing within a set of addresses -/

/-- `m'` is `m` with bytes written at addresses of `written` only; the canonical form is kept. -/
structure Memory.WritesWithin (written : Nat → Prop) (m m' : Memory) : Prop where
  canonical : m.wf → m'.wf
  outside : sameOutside m m' written
  cells : ∀ c ∈ m', c ∈ m ∨ written c.1

section
variable {P Q : Nat → Prop} {m m₁ m₂ : Memory}

theorem Memory.WritesWithin.refl (P : Nat → Prop) (m : Memory) : Memory.WritesWithin P m m :=
  ⟨id, fun _ _ => rfl, fun _ h => .inl h⟩

theorem Memory.WritesWithin.trans (h₁ : WritesWithin P m m₁) (h₂ : WritesWithin P m₁ m₂) : WritesWithin P m m₂ :=
  ⟨h₂.canonical ∘ h₁.canonical, fun a ha => (h₂.outside a ha).trans (h₁.outside a ha),
    fun c hc => (h₂.cells c hc).elim (h₁.cells c) .inr⟩

theorem Memory.WritesWithin.mono (hPQ : ∀ a, P a → Q a) (h : WritesWithin P m m₁) : WritesWithin Q m m₁ :=
  ⟨h.canonical, fun a ha => h.outside a (mt (hPQ a) ha), fun c hc => (h.cells c hc).imp_right (hPQ c.1)⟩

end

theorem store_writesWithin (m : Memory) (a : Nat) (bs : List Byte) :
    Memory.WritesWithin (rangeBytes a bs.length) m (Memory.store m a bs) :=
  ⟨store_wf m a bs, fun x hx => read_store_outside m a bs x (by rw [rangeBytes] at hx; omega), mem_store m a bs⟩

/-- A store of no more than `n` bytes. -/
theorem store_writesWithin_of_le (m : Memory) (a : Nat) {bs : List Byte} {n : Nat} (h : bs.length ≤ n) :
    Memory.WritesWithin (rangeBytes a n) m (Memory.store m a bs) :=
  (store_writesWithin m a bs).mono fun x hx => by rw [rangeBytes] at hx ⊢; omega

theorem storeWords_writesWithin (m : Memory) (a : Nat) (ws : List Word) :
    Memory.WritesWithin (rangeBytes a (4 * ws.length)) m (Memory.storeWords m a ws) := by
  rw [← bytesOfWords_length]
  exact store_writesWithin m a _

/-- Rows of words `pitch` bytes apart write the bytes of their words alone: the gaps between them stay. -/
theorem storeRows_writesWithin (m : Memory) (a pitch : Nat) (rows : List (List Word)) :
    Memory.WritesWithin (fun x => ∃ i j, i < rows.length ∧ j < (rows.getD i []).length ∧
      rangeBytes (a + i * pitch + 4 * j) 4 x) m (Memory.storeRows m a pitch rows) := by
  induction rows generalizing m a with
  | nil => exact .refl _ m
  | cons r rs ih =>
    refine ((storeWords_writesWithin m a r).mono fun x hx => ?_).trans ((ih _ (a + pitch)).mono fun x hx => ?_)
    · rw [rangeBytes] at hx
      refine ⟨0, (x - a) / 4, by simp, by rw [List.getD_cons_zero]; omega, ?_⟩
      rw [rangeBytes]
      omega
    · obtain ⟨i, j, hi, hj, hx⟩ := hx
      refine ⟨i + 1, j, by simpa using hi, by rwa [List.getD_cons_succ], ?_⟩
      rw [rangeBytes, Nat.succ_mul] at *
      omega

/-- Rows written over the h×w region at (r, c) of a matrix write bytes of the region's elements alone. -/
theorem storeRows_writesRegion (m : Memory) (d : Desc) (r c : Nat) {h w : Nat} {rows : List (List Word)}
    (hr : rows.length ≤ h) (hc : ∀ row ∈ rows, row.length ≤ w) :
    Memory.WritesWithin (regionBytes d r c h w) m (Memory.storeRows m (matAddr d r c) d.pitch.toNat rows) :=
  (storeRows_writesWithin m _ _ rows).mono fun x ⟨i, j, hi, hj, hx⟩ => by
    rw [List.getD_eq_getElem _ _ hi] at hj
    have hw := hc _ (List.getElem_mem hi)
    refine ⟨i, j, by omega, by omega, ?_⟩
    rw [show matAddr d (r + i) (c + j) = matAddr d r c + i * d.pitch.toNat + 4 * j by
      simp only [matAddr, Nat.add_mul]; omega]
    exact hx

theorem writeMatrix_writes (m : Memory) {d : Desc} {rows : List (List Word)}
    (h : matrixShaped d.rows.toNat d.cols.toNat rows) :
    Memory.WritesWithin (matrixBytes d) m (writeMatrix m d rows) :=
  storeRows_writesRegion m d 0 0 h.1.le fun row hrow => (h.2 row hrow).le

theorem writeBlock_writes (m : Memory) (d : Desc) (r c : Nat) {rows : List (List Word)} (h : isBlock rows) :
    Memory.WritesWithin (regionBytes d r c 8 8) m (writeBlock m d r c rows) :=
  storeRows_writesRegion m d r c h.1.le fun row hrow => (h.2 row hrow).le

theorem drawRanges_writesWithin (n : Nat) (m : Memory) (fs : List Footprint) :
    Memory.WritesWithin (inRanges fs) m (drawRanges n m (fs.map fun f => (f.lo, f.len))) := by
  induction fs generalizing m with
  | nil => exact .refl _ m
  | cons f fs ih =>
    have hfirst : Memory.WritesWithin (rangeBytes f.lo f.len) m (Memory.store m f.lo (drawnBytes n f.lo f.len)) :=
      store_writesWithin_of_le m f.lo (by rw [drawnBytes, List.length_map, List.length_range])
    refine (hfirst.mono fun x hx => ⟨f, by simp, hx⟩).trans ((ih _).mono fun x hx => ?_)
    obtain ⟨g, hg, hx⟩ := hx
    exact ⟨g, by simp [hg], hx⟩

/-! The bytes of an operand lie in its footprint (20_memory R208) -/

theorem matrixBytes_footprint {d : Desc} {a : Nat} (h : matrixBytes d a) :
    rangeBytes (matrixFootprint d).lo (matrixFootprint d).len a := by
  obtain ⟨i, j, hi, hj, hx⟩ := h
  have hrow : i * d.pitch.toNat ≤ (d.rows.toNat - 1) * d.pitch.toNat := Nat.mul_le_mul_right _ (by omega)
  rw [matrixFootprint, if_neg (by omega)]
  simp only [rangeBytes, matAddr, Nat.zero_add] at hx ⊢
  omega

theorem blockBytes_footprint {d : Desc} {r c a : Nat} (h : regionBytes d r c 8 8 a) :
    rangeBytes (blockFootprint d r c).lo (blockFootprint d r c).len a := by
  obtain ⟨i, j, hi, hj, hx⟩ := h
  have hrow : i * d.pitch.toNat ≤ 7 * d.pitch.toNat := Nat.mul_le_mul_right _ (by omega)
  simp only [rangeBytes, matAddr, blockFootprint, Nat.add_mul] at hx ⊢
  omega

/-- The eight rows of 32 bytes of a block are the bytes of its elements. -/
theorem inRanges_blockRows (d : Desc) (r c a : Nat) :
    inRanges ((List.range 8).map fun k => ⟨matAddr d (r + k) c, 32⟩) a ↔ regionBytes d r c 8 8 a := by
  constructor
  · rintro ⟨f, hf, hx⟩
    obtain ⟨k, hk, rfl⟩ := List.mem_map.mp hf
    have hk := List.mem_range.mp hk
    simp only [rangeBytes, matAddr] at hx
    refine ⟨k, (a - matAddr d (r + k) c) / 4, hk, ?_, ?_⟩
    all_goals
      simp only [rangeBytes, matAddr]
      omega
  · rintro ⟨i, j, hi, hj, hx⟩
    refine ⟨⟨matAddr d (r + i) c, 32⟩, List.mem_map.mpr ⟨i, List.mem_range.mpr hi, rfl⟩, ?_⟩
    simp only [rangeBytes, matAddr] at hx ⊢
    omega

theorem inRanges_singleton (f : Footprint) (a : Nat) : inRanges [f] a ↔ rangeBytes f.lo f.len a := by
  simp [inRanges]

/-! Operands that pass their checks lie in LMEM -/

theorem matrixFootprint_inside {n : Nat} {d : Desc} (h : d.matrixOk n) {a : Nat}
    (ha : rangeBytes (matrixFootprint d).lo (matrixFootprint d).len a) : a < n := by
  obtain ⟨-, -, -, hb⟩ := h
  rw [matrixFootprint] at ha
  split at ha
  · simp only [rangeBytes] at ha
    omega
  · have hin := hb (by omega) (by omega)
    simp only [rangeBytes] at ha
    omega

/-- A byte of a region that lies inside a matrix is a byte of the matrix. -/
theorem regionBytes_matrix {d : Desc} {r c h w a : Nat} (hr : r + h ≤ d.rows.toNat) (hc : c + w ≤ d.cols.toNat)
    (ha : regionBytes d r c h w a) : matrixBytes d a := by
  obtain ⟨i, j, hi, hj, hx⟩ := ha
  exact ⟨r + i, c + j, by omega, by omega, by rwa [Nat.zero_add, Nat.zero_add]⟩

theorem block_inside {n : Nat} {d : Desc} {r c a : Nat} (h : d.matrixOk n) (hb : d.holdsBlock r c)
    (ha : regionBytes d r c 8 8 a) : a < n :=
  matrixFootprint_inside h (matrixBytes_footprint (regionBytes_matrix hb.2.2.1 hb.2.2.2 ha))

/-- The bounding range of a block lies in LMEM with its matrix. -/
theorem blockFootprint_inside {n : Nat} {d : Desc} {r c a : Nat} (h : d.matrixOk n) (hb : d.holdsBlock r c)
    (ha : rangeBytes (blockFootprint d r c).lo (blockFootprint d r c).len a) : a < n := by
  obtain ⟨-, -, -, hbounds⟩ := h
  obtain ⟨-, -, hr, hc⟩ := hb
  have hin := hbounds (by omega) (by omega)
  have hrow : (r + 7) * d.pitch.toNat ≤ (d.rows.toNat - 1) * d.pitch.toNat := Nat.mul_le_mul_right _ (by omega)
  simp only [rangeBytes, blockFootprint, Nat.add_mul] at ha hrow
  omega

/-- Every byte that a command may write lies in LMEM once its checks have passed (20_memory R206). -/
theorem outputRanges_inside {i : Instr} {s : State} (h : firstFault (checks i s) = none) {a : Nat}
    (ha : inRanges (outputRanges i s) a) : a < s.cfg.lmemBytes := by
  cases i with
  | csrr csr addr =>
    simp only [checks, firstFault_cons_eq_none] at h
    obtain ⟨-, -, hb, -⟩ := h
    simp only [outputRanges, inRanges_singleton, rangeBytes] at ha
    omega
  | fdct b r c | idct b r c | quant chroma b r c | dequant chroma b r c =>
    simp only [checks, firstFault_append_eq_none, matrixChecks_pass, firstFault_cons_eq_none, not_not] at h
    obtain ⟨hm, hb, -⟩ := h
    rw [outputRanges, inRanges_blockRows] at ha
    exact block_inside hm hb ha
  | zigzag b d r c index =>
    simp only [checks, firstFault_append_eq_none, sequenceChecks_pass, firstFault_cons_eq_none, not_not] at h
    obtain ⟨⟨⟨-, hs⟩, -, hw, -⟩, -⟩ := h
    rw [outputRanges, inRanges_singleton] at ha
    simp only [rangeBytes, windowFootprint, Desc.holdsWindow, Desc.sequenceOk] at ha hw hs
    omega
  | unzigzag b d index r c =>
    simp only [checks, firstFault_append_eq_none, matrixChecks_pass, firstFault_cons_eq_none, not_not] at h
    obtain ⟨⟨⟨-, hm⟩, hb, -⟩, -⟩ := h
    rw [outputRanges, inRanges_singleton] at ha
    exact blockFootprint_inside hm hb ha
  | dec b d nblk =>
    simp only [checks, firstFault_append_eq_none, sequenceChecks_pass, firstFault_cons_eq_none, not_not] at h
    obtain ⟨⟨⟨-, hs⟩, hn, -⟩, -⟩ := h
    rw [outputRanges, inRanges_singleton] at ha
    simp only [rangeBytes, prefixFootprint, Desc.holdsBlocks, Desc.sequenceOk] at ha hn hs
    omega
  | rgb2ycc b c d e =>
    simp only [checks, firstFault_append_eq_none, matrixChecks_pass] at h
    obtain ⟨⟨⟨⟨⟨-, hc⟩, hd⟩, he⟩, -⟩, -⟩ := h
    obtain ⟨f, hf, hx⟩ := ha
    simp only [outputRanges, List.mem_cons, List.not_mem_nil, or_false] at hf
    rcases hf with rfl | rfl | rfl
    · exact matrixFootprint_inside hc hx
    · exact matrixFootprint_inside hd hx
    · exact matrixFootprint_inside he hx
  | ycc2rgb b c d e =>
    simp only [checks, firstFault_append_eq_none, matrixChecks_pass] at h
    obtain ⟨⟨⟨-, he⟩, -⟩, -⟩ := h
    rw [outputRanges, inRanges_singleton] at ha
    exact matrixFootprint_inside he ha
  | scale b d | tdec b d =>
    simp only [checks, firstFault_append_eq_none, matrixChecks_pass] at h
    obtain ⟨⟨⟨-, hd⟩, -⟩, -⟩ := h
    rw [outputRanges, inRanges_singleton] at ha
    exact matrixFootprint_inside hd ha
  | cvread b y x =>
    simp only [checks, firstFault_append_eq_none, matrixChecks_pass] at h
    rw [outputRanges, inRanges_singleton] at ha
    exact matrixFootprint_inside h.1 ha
  | enc b d nblk | tenc b d | diff b d ctx | full b d | pser b d x y w ht =>
    simp only [checks, firstFault_append_eq_none, streamChecks_pass] at h
    rw [outputRanges, inRanges_singleton] at ha
    simp only [rangeBytes, streamFootprint, Desc.streamOk] at ha h
    omega
  | _ =>
    obtain ⟨f, hf, -⟩ := ha
    cases hf

end Sys2Proof.Machine
end


section
/-! Everything a command can do, said once: which execution fault it can take, and what it leaves when it completes. -/

namespace Sys2Proof.Machine

/-! The canvas stays a rectangle (10_state R116, 47_compositor R808) -/

theorem overlay_length {α β : Type} (f : α → β → α) (old : List α) (new : List β) (at0 : Int) :
    (overlay f old new at0).length = old.length := by
  simp only [overlay, List.length_append, List.length_take, List.length_zipWith, List.length_drop]
  omega

theorem padTo_length {α : Type} (n : Nat) (dflt : α) (xs : List α) : (padTo n dflt xs).length = max n xs.length := by
  simp only [padTo, List.length_append, List.length_replicate]
  omega

/-- A canvas of `h` rows of `w` words, within the capacity. -/
abbrev Canvas.fits (cfg : Config) (c : Canvas) : Prop :=
  c.pixels.length = c.h ∧ (∀ row ∈ c.pixels, row.length = c.w) ∧ c.h ≤ cfg.canvasMaxH ∧ c.w ≤ cfg.canvasMaxW

theorem grow_shaped {c : Canvas} {nh nw : Nat} (hl : c.pixels.length = c.h) (hc : ∀ row ∈ c.pixels, row.length = c.w)
    (hh : c.h ≤ nh) (hw : c.w ≤ nw) : matrixShaped nh nw (c.grow nh nw).pixels := by
  refine ⟨by rw [Canvas.grow, padTo_length, List.length_map, hl, Nat.max_eq_left hh], fun row hrow => ?_⟩
  simp only [Canvas.grow, padTo, List.mem_append, List.mem_map, List.mem_replicate] at hrow
  rcases hrow with ⟨r, hr, rfl⟩ | ⟨-, rfl⟩
  · rw [← padTo, padTo_length, hc r hr, Nat.max_eq_left hw]
  · exact List.length_replicate

/-- Rows of a matrix with new rows laid over some of them. -/
theorem overlay_rows_shaped {rows p : List (List Word)} {h w : Nat} (hs : matrixShaped h w rows) (x y : Int) :
    matrixShaped h w (overlay (fun row prow => overlay (fun _ q : Word => q) row prow x) rows p y) := by
  refine ⟨by rw [overlay_length, hs.1], fun row hrow => ?_⟩
  simp only [overlay, List.mem_append] at hrow
  rcases hrow with (hrow | hrow) | hrow
  · exact hs.2 row (List.mem_of_mem_take hrow)
  · obtain ⟨k, hk, rfl⟩ := List.mem_iff_getElem.mp hrow
    rw [List.getElem_zipWith]
    exact (overlay_length _ _ _ _).trans (hs.2 _ (List.mem_of_mem_drop (List.getElem_mem _)))
  · exact hs.2 row (List.mem_of_mem_drop (List.mem_of_mem_drop hrow))

theorem stitched_shaped {c : Canvas} (hl : c.pixels.length = c.h) (hc : ∀ row ∈ c.pixels, row.length = c.w)
    (p : List (List Word)) (h w : Nat) (x y : Int) :
    matrixShaped (grownSize c.h y h) (grownSize c.w x w) (stitched c p h w x y).pixels :=
  overlay_rows_shaped (grow_shaped hl hc (le_max_left ..) (le_max_left ..)) x y

theorem canvasTooLarge_eq_false {s : State} {y x : Int} {h w : Nat} :
    canvasTooLarge s y x h w = false ↔
      grownSize s.canvas.h y h ≤ s.cfg.canvasMaxH ∧ grownSize s.canvas.w x w ≤ s.cfg.canvasMaxW := by
  rw [canvasTooLarge, decide_eq_false_iff_not, not_or, ← grownSize_gt, ← grownSize_gt, Nat.not_lt, Nat.not_lt]

theorem stitched_fits {s : State} (hs : s.canvasFits) {p : List (List Word)} {h w : Nat} {x y : Int}
    (hroom : canvasTooLarge s y x h w = false) : (stitched s.canvas p h w x y).fits s.cfg := by
  obtain ⟨hl, hc, -⟩ := hs
  obtain ⟨hlen, hrows⟩ := stitched_shaped hl hc p h w x y
  exact ⟨hlen, hrows, canvasTooLarge_eq_false.mp hroom⟩

/-! Hash contexts (10_state R115) -/

/-- A valid context holds one hash per tile of its grid, and at most `n` of them. -/
abbrev HashContext.fits (n : Nat) (c : HashContext) : Prop :=
  c.valid = true → c.gr = ceilDiv c.geom.rows c.geom.tsize ∧ c.gc = ceilDiv c.geom.cols c.geom.tsize ∧
    c.hashes.length = c.gr * c.gc ∧ c.gr * c.gc ≤ n

theorem tilesOf_length (rows cols ts : Nat) : (tilesOf rows cols ts).length = ceilDiv rows ts * ceilDiv cols ts := by
  rw [tilesOf, List.length_map, List.length_range]

/-! Completion -/

/-- The commands whose one effect on the state is on LMEM. -/
def memoryCommands : List Opcode :=
  [.csrr, .fdct, .idct, .quant, .dequant, .zigzag, .unzigzag, .rgb2ycc, .ycc2rgb, .scale, .cvread]

/-- The commands whose one effect on the state is on LMEM and RES. -/
def resultCommands : List Opcode := [.enc, .dec, .tenc, .tdec, .full, .pser, .phdr]

/-- The commands whose one effect on the state is on the canvas. -/
def canvasCommands : List Opcode := [.cvreset, .cvset, .stitch]

/-- What a command leaves when it completes, CPC apart: the parts of the state that it writes, with what an invariant
needs to know of each. -/
inductive Effect (s : State) : Instr → State → Prop
  | nop : Effect s .nop s
  | halt : Effect s .halt s.halt
  | setd (a base pitch rows cols len d) : Effect s (.setd a base pitch rows cols len) (s.setDesc a d)
  | csrw (csr value c) (hw : c.writable = true) (ha : c.accepts value = true) :
    Effect s (.csrw csr value) (s.csrWrite c value)
  | setq (q) (h1 : 1 ≤ q) (h2 : q ≤ 99) :
    Effect s (.setq q) (((s.setTables (plainTable lumaBase q) (plainTable chromaBase q)).setQuality q).setAbsorbed false)
  | absorb (h : s.absorbable) :
    Effect s .absorb ((s.setTables (absorbTable s.scale s.qtl) (absorbTable s.scale s.qtc)).setAbsorbed true)
  | memory (i m) (hi : i.opcode ∈ memoryCommands)
    (hm : Memory.WritesWithin (inRanges (outputRanges i s)) s.lmem m) : Effect s i (s.setLmem m)
  | results (i m r) (hi : i.opcode ∈ resultCommands)
    (hm : Memory.WritesWithin (inRanges (outputRanges i s)) s.lmem m) : Effect s i { s with lmem := m, res := r }
  | hash (a v) : Effect s (.hash a) (s.setHash v)
  | diff (a b ctx m r x) (hm : Memory.WritesWithin (inRanges (outputRanges (.diff a b ctx) s)) s.lmem m)
    (hx : x.fits s.cfg.maxTiles) :
    Effect s (.diff a b ctx) { s with lmem := m, res := r, ctxs := s.ctxs.set ctx x }
  | hctxrst (ctx) : Effect s (.hctxrst ctx) (s.setCtx ctx { s.ctx ctx with valid := false })
  | canvas (i c) (hi : i.opcode ∈ canvasCommands) (hc : s.canvasFits → c.fits s.cfg) : Effect s i (s.setCanvas c)
  | apply (a r ds c) (hc : s.canvasFits → c.fits s.cfg) :
    Effect s (.apply a) { s with res := r, descs := ds, canvas := c }

theorem checked_pure_eq_ok {α : Type} {x y : α} : (pure x : Checked α) = .ok y ↔ y = x :=
  ⟨fun h => (Except.ok.inj h).symm, fun h => congrArg Except.ok h.symm⟩

/-- A block command that completes writes bytes of its block alone. -/
theorem block_effect {i : Instr} {s u : State} {a : DescReg} {r c : Nat} {y : List (List Int)}
    (hi : i.opcode ∈ memoryCommands)
    (hout : outputRanges i s = (List.range 8).map fun k => ⟨matAddr (s.desc a) (r + k) c, 32⟩) (hy : isBlock y)
    (hu : u = s.setLmem (writeBlock s.lmem (s.desc a) r c (sampleWords y))) : Effect s i u := by
  rw [hu]
  refine .memory i _ hi ((writeBlock_writes s.lmem (s.desc a) r c (isBlock_map u32 hy)).mono fun x hx => ?_)
  rw [hout, inRanges_blockRows]
  exact hx

theorem writeStream_writes (m : Memory) (d : Desc) {bs : List Byte} (h : bs.length ≤ d.len.toNat) :
    Memory.WritesWithin (inRanges [streamFootprint d]) m (writeStream m d bs) :=
  (store_writesWithin_of_le m _ h).mono fun x hx => (inRanges_singleton _ x).mpr hx

theorem writeMatrix_writesFootprint (m : Memory) {d : Desc} {rows : List (List Word)}
    (h : matrixShaped d.rows.toNat d.cols.toNat rows) :
    Memory.WritesWithin (rangeBytes (matrixFootprint d).lo (matrixFootprint d).len) m (writeMatrix m d rows) :=
  (writeMatrix_writes m h).mono fun _ => matrixBytes_footprint

theorem writeSeq_writes (m : Memory) (d : Desc) (k : Nat) (ws : List Word) :
    Memory.WritesWithin (rangeBytes (d.base.toNat + 4 * k) (4 * ws.length)) m (writeSeq m d k ws) :=
  storeWords_writesWithin m _ ws

/-- What a command whose checks pass leaves when it completes. -/
theorem effect_of_completes {i : Instr} {s u : State} (h : firstFault (checks i s) = none)
    (hu : afterChecks i s = .ok u) : Effect s i u := by
  cases i with
  | nop => rw [checked_pure_eq_ok.mp hu]; exact .nop
  | halt => rw [checked_pure_eq_ok.mp hu]; exact .halt
  | setd a base pitch rows cols len => rw [checked_pure_eq_ok.mp hu]; exact .setd ..
  | csrw csr v =>
    simp only [checks, firstFault_cons_eq_none, not_not] at h
    obtain ⟨hw, hv, -⟩ := h
    cases hc : Csr.ofNumber csr with
    | none =>
      have := (csr_ofNumber_eq_none csr).mp hc
      omega
    | some c =>
      obtain ⟨hwritable, haccepts⟩ := csr_ofNumber_write hc v
      rw [checked_pure_eq_ok.mp hu, hc]
      exact .csrw csr v c (hwritable.mpr hw) (Bool.not_eq_false _ ▸ mt haccepts.mp hv)
  | csrr csr addr =>
    rw [checked_pure_eq_ok.mp hu]
    cases Csr.ofNumber csr with
    | none => exact .memory _ s.lmem (by simp [memoryCommands, Instr.opcode]) (.refl _ _)
    | some c =>
      exact .memory _ _ (by simp [memoryCommands, Instr.opcode])
        ((storeWords_writesWithin s.lmem addr [s.csrRead c]).mono fun x hx => (inRanges_singleton _ x).mpr hx)
  | setq q =>
    simp only [checks, firstFault_cons_eq_none] at h
    rw [checked_pure_eq_ok.mp hu]
    exact .setq q (by omega) (by omega)
  | absorb =>
    rw [checks, firstFault_cons_bool_eq_none, firstFault_cons_eq_none, not_not] at h
    rw [checked_pure_eq_ok.mp hu]
    exact .absorb h.2.1
  | fdct a r c =>
    simp only [afterChecks, checked_bind_eq_ok, orDraw_eq_ok, checked_pure_eq_ok] at hu
    obtain ⟨y, hy, hu⟩ := hu
    exact block_effect (by simp [memoryCommands, Instr.opcode]) rfl (forwardDct_isBlock hy) hu
  | idct a r c =>
    simp only [afterChecks, checked_bind_eq_ok, orDraw_eq_ok, checked_pure_eq_ok] at hu
    obtain ⟨y, hy, hu⟩ := hu
    exact block_effect (by simp [memoryCommands, Instr.opcode]) rfl (inverseDct_isBlock hy) hu
  | quant t a r c | dequant t a r c =>
    simp only [afterChecks, checked_bind_eq_ok, orDraw_eq_ok, checked_pure_eq_ok] at hu
    obtain ⟨y, hy, hu⟩ := hu
    exact block_effect (by simp [memoryCommands, Instr.opcode]) rfl
      (perCoefficient_isBlock (isBlock_map s32 (readBlock_isBlock _ _ _ _)) hy) hu
  | zigzag a b r c index =>
    rw [checked_pure_eq_ok.mp hu]
    refine .memory _ _ (by simp [memoryCommands, Instr.opcode]) ((writeSeq_writes s.lmem _ _ _).mono fun x hx => (inRanges_singleton _ x).mpr ?_)
    rwa [zigzag_length] at hx
  | unzigzag a b index r c =>
    rw [checked_pure_eq_ok.mp hu]
    exact .memory _ _ (by simp [memoryCommands, Instr.opcode]) ((writeBlock_writes s.lmem _ r c (unzigzag_isBlock _ _)).mono fun x hx =>
      (inRanges_singleton _ x).mpr (blockBytes_footprint hx))
  | enc a b nblk | tenc a b | full a b =>
    simp only [afterChecks, checked_bind_eq_ok, orDraw_eq_ok, drawWhen_eq_ok, checked_pure_eq_ok, exists_unit] at hu
    obtain ⟨e, -, hlen, rfl⟩ := hu
    exact .results _ _ _ (by simp [resultCommands, Instr.opcode]) (writeStream_writes s.lmem _ (Nat.le_of_not_lt hlen))
  | dec a b nblk =>
    simp only [afterChecks] at hu
    split at hu
    case h_1 blks used hd =>
      rw [checked_pure_eq_ok.mp hu]
      refine .results _ _ _ (by simp [resultCommands, Instr.opcode]) ((writeSeq_writes s.lmem _ _ _).mono fun x hx =>
        (inRanges_singleton _ x).mpr ?_)
      rw [List.length_map, (entropyDecode_shaped hd).flatten_length] at hx
      simp only [rangeBytes, prefixFootprint] at hx ⊢
      omega
    case h_2 st hd =>
      rw [checked_pure_eq_ok.mp hu]
      exact .results _ s.lmem _ (by simp [resultCommands, Instr.opcode]) (.refl _ _)
  | rgb2ycc a b c d =>
    simp only [checks, firstFault_append_eq_none, firstFault_cons_eq_none, not_not] at h
    obtain ⟨⟨-, ⟨-, hb, hc, hd⟩, -⟩, -⟩ := h
    have hp := matrixShaped_map pixelOf (readMatrix_shaped s.lmem (s.desc a))
    have hy := matrixShaped_map u32 (lumaPlane_shaped hp)
    have hcb := matrixShaped_map u32 (chromaPlane_shaped cbForm hp)
    have hcr := matrixShaped_map u32 (chromaPlane_shaped crForm hp)
    rw [← hb.1, ← hb.2] at hy
    rw [← hc.1, ← hc.2] at hcb
    rw [← hd.1, ← hd.2] at hcr
    rw [checked_pure_eq_ok.mp hu]
    refine .memory _ _ (by simp [memoryCommands, Instr.opcode]) (((writeMatrix_writesFootprint s.lmem hy).mono fun x hx => ⟨_, ?_, hx⟩).trans
      (((writeMatrix_writesFootprint _ hcb).mono fun x hx => ⟨_, ?_, hx⟩).trans
        ((writeMatrix_writesFootprint _ hcr).mono fun x hx => ⟨_, ?_, hx⟩)))
    all_goals simp [outputRanges]
  | ycc2rgb a b c d =>
    simp only [checks, firstFault_append_eq_none, firstFault_cons_eq_none, not_not] at h
    obtain ⟨⟨-, ⟨he, hb, hc, hd⟩, -⟩, -⟩ := h
    have hplane (e : DescReg) := matrixShaped_map s32 (readMatrix_shaped s.lmem (s.desc e))
    have hbp := hplane b
    have hcp := hplane c
    rw [hb.1, hb.2] at hbp
    rw [hc.1, hc.2] at hcp
    have hpx := inverseColor_shaped he.2.2.1 he.2.2.2 (hplane a) hbp hcp
    rw [← hd.1, ← hd.2] at hpx
    rw [checked_pure_eq_ok.mp hu]
    exact .memory _ _ (by simp [memoryCommands, Instr.opcode]) ((writeMatrix_writesFootprint s.lmem hpx).mono fun x hx =>
      (inRanges_singleton _ x).mpr hx)
  | scale a b =>
    rw [checked_pure_eq_ok.mp hu]
    exact .memory _ _ (by simp [memoryCommands, Instr.opcode]) ((writeMatrix_writesFootprint s.lmem (bilinear_shaped ..)).mono fun x hx =>
      (inRanges_singleton _ x).mpr hx)
  | tdec a b =>
    simp only [checks, firstFault_append_eq_none, firstFault_cons_eq_none, not_not] at h
    obtain ⟨⟨-, ⟨-, -, h16, w16⟩, -⟩, -⟩ := h
    simp only [afterChecks] at hu
    split at hu
    case h_1 =>
      rw [checked_pure_eq_ok.mp hu]
      exact .results _ s.lmem _ (by simp [resultCommands, Instr.opcode]) (.refl _ _)
    case h_2 p hp =>
      rw [checked_pure_eq_ok.mp hu]
      exact .results _ _ _ (by simp [resultCommands, Instr.opcode]) ((writeMatrix_writesFootprint s.lmem (tileDecode_shaped h16 w16 hp)).mono
        fun x hx => (inRanges_singleton _ x).mpr hx)
  | hash a => rw [checked_pure_eq_ok.mp hu]; exact .hash ..
  | diff a b ctx =>
    simp only [checks, firstFault_append_eq_none, firstFault_cons_eq_none, Nat.not_lt] at h
    obtain ⟨⟨-, -, hcap, -⟩, -⟩ := h
    simp only [afterChecks, checked_bind_eq_ok, orDraw_eq_ok, drawWhen_eq_ok, checked_pure_eq_ok, exists_unit] at hu
    obtain ⟨patches, -, hlen, rfl⟩ := hu
    refine .diff a b ctx _ _ _ (writeStream_writes s.lmem _ (Nat.le_of_not_lt hlen)) fun _ => ⟨rfl, rfl, ?_, hcap⟩
    rw [List.length_map, tilesOf_length]
  | hctxrst ctx => rw [checked_pure_eq_ok.mp hu]; exact .hctxrst ctx
  | cvreset =>
    rw [checked_pure_eq_ok.mp hu]
    exact .canvas _ _ (by simp [canvasCommands, Instr.opcode]) fun _ => ⟨rfl, by simp [Canvas.empty], Nat.zero_le _, Nat.zero_le _⟩
  | cvset a =>
    simp only [checks, firstFault_append_eq_none, firstFault_cons_eq_none] at h
    obtain ⟨-, hcap, -⟩ := h
    rw [checked_pure_eq_ok.mp hu]
    refine .canvas _ _ (by simp [canvasCommands, Instr.opcode]) fun _ => ?_
    split
    · exact ⟨rfl, by simp [Canvas.empty], Nat.zero_le _, Nat.zero_le _⟩
    · obtain ⟨hl, hr⟩ := readMatrix_shaped s.lmem (s.desc a)
      rw [not_or, Nat.not_lt, Nat.not_lt] at hcap
      exact ⟨hl, hr, hcap⟩
  | cvread a y x =>
    simp only [checks, firstFault_append_eq_none, firstFault_cons_eq_none] at h
    rw [checked_pure_eq_ok.mp hu]
    refine .memory _ _ (by simp [memoryCommands, Instr.opcode]) ((storeRows_writesRegion s.lmem (s.desc a) 0 0 ?_ fun row hrow => ?_).mono fun x hx =>
      (inRanges_singleton _ x).mpr (matrixBytes_footprint hx))
    · simp only [region, List.length_map, List.length_take]
      omega
    · obtain ⟨r, -, rfl⟩ := List.mem_map.mp hrow
      rw [List.length_take]
      omega
  | stitch a x y =>
    simp only [checks, firstFault_append_eq_none, firstFault_cons_eq_none] at h
    obtain ⟨-, -, hroom⟩ := h
    rw [firstFault_cons_bool_eq_none] at hroom
    rw [checked_pure_eq_ok.mp hu]
    exact .canvas _ _ (by simp [canvasCommands, Instr.opcode]) fun hs => stitched_fits hs hroom.1
  | apply a =>
    rw [checks, firstFault_append_eq_none, firstFault_cons_bool_eq_none] at h
    obtain ⟨-, hroom, -⟩ := h
    simp only [afterChecks, readStream_eq_bytesOf] at hu
    split at hu
    case h_1 =>
      rw [checked_pure_eq_ok.mp hu]
      exact .apply a _ s.descs s.canvas id
    case h_2 p hp =>
      split at hu
      case h_1 =>
        rw [checked_pure_eq_ok.mp hu]
        exact .apply a _ _ s.canvas id
      case h_2 px hpx =>
        have hshape := hpx
        unfold patchPixels at hshape
        split at hshape
        case isFalse => cases hshape
        case isTrue hwh =>
          rw [State.codec] at hshape
          simp only [patchTooLarge, hp, decide_eq_true hwh, hshape, Option.isSome_some, Bool.true_and] at hroom
          rw [checked_pure_eq_ok.mp hu]
          exact .apply a _ _ _ fun hs => stitched_fits hs hroom
  | pser a b x y w ht =>
    simp only [checks, firstFault_append_eq_none, firstFault_cons_eq_none] at h
    obtain ⟨-, hlen, -⟩ := h
    rw [checked_pure_eq_ok.mp hu]
    refine .results _ _ _ (by simp [resultCommands, Instr.opcode]) (writeStream_writes s.lmem _ ?_)
    rw [patchSer_length, readStream, load_length]
    omega
  | phdr a =>
    simp only [afterChecks] at hu
    split at hu
    all_goals
      rw [checked_pure_eq_ok.mp hu]
      exact .results _ s.lmem _ (by simp [resultCommands, Instr.opcode]) (.refl _ _)

/-! Execution faults -/

/-- The byte ranges that an execution fault of a command draws: its output ranges (60_exceptions R903). -/
def drawnRanges (i : Instr) (s : State) : List (Nat × Nat) := (outputRanges i s).map fun f => (f.lo, f.len)

theorem drawnRanges_block {i : Instr} {s : State} {a : DescReg} {r c : Nat}
    (hout : outputRanges i s = (List.range 8).map fun k => ⟨matAddr (s.desc a) (r + k) c, 32⟩) :
    drawnRanges i s = blockRanges (s.desc a) r c := by
  rw [drawnRanges, hout, List.map_map]
  rfl

/-- A computation whose one fault draws its outputs. -/
theorem orDraw_bind_eq_error {α β : Type} {drawn : List (Nat × Nat)} {r : Except FaultCode α} {g : α → β} {e : Raise}
    (h : (orDraw drawn r >>= fun y => (pure (g y) : Checked β)) = .error e) :
    ∃ code, r = .error code ∧ e = ⟨code, drawn⟩ := by
  rw [checked_bind_eq_error, orDraw_eq_error] at h
  rcases h with h | ⟨y, -, h⟩
  · exact h
  · cases h

/-- A computation of bytes for an output stream: its own fault, or STREAM_OVERFLOW. -/
theorem toStream_eq_error {α β : Type} {drawn : List (Nat × Nat)} {r : Except FaultCode α} {long : α → Prop}
    [DecidablePred long] {g : α → β} {e : Raise}
    (h : (orDraw drawn r >>= fun y => drawWhen (long y) .streamOverflow drawn >>= fun _ => (pure (g y) : Checked β)) =
      .error e) :
    (∃ code, r = .error code ∧ e = ⟨code, drawn⟩) ∨ ∃ y, r = .ok y ∧ long y ∧ e = ⟨.streamOverflow, drawn⟩ := by
  simp only [checked_bind_eq_error, orDraw_eq_error, drawWhen_eq_error, orDraw_eq_ok] at h
  rcases h with h | ⟨y, hy, ⟨hlong, he⟩ | ⟨u, -, h⟩⟩
  · exact .inl h
  · exact .inr ⟨y, hy, hlong, he⟩
  · cases h

/-- Past its checks a command raises its execution faults alone. -/
theorem afterChecks_eq_error {i : Instr} {s : State} {e : Raise} (h : afterChecks i s = .error e) :
    executionFault i.opcode e.code = true ∧ e.drawn = drawnRanges i s := by
  cases i with
  | fdct a r c =>
    obtain ⟨code, hcode, rfl⟩ := orDraw_bind_eq_error h
    rw [forwardDct_eq_error hcode]
    exact ⟨rfl, (drawnRanges_block rfl).symm⟩
  | idct a r c =>
    obtain ⟨code, hcode, rfl⟩ := orDraw_bind_eq_error h
    rw [inverseDct_eq_error hcode]
    exact ⟨rfl, (drawnRanges_block rfl).symm⟩
  | quant t a r c =>
    obtain ⟨code, hcode, rfl⟩ := orDraw_bind_eq_error h
    rw [quantize_eq_error hcode]
    exact ⟨rfl, (drawnRanges_block rfl).symm⟩
  | dequant t a r c =>
    obtain ⟨code, hcode, rfl⟩ := orDraw_bind_eq_error h
    rw [dequantize_eq_error hcode]
    exact ⟨rfl, (drawnRanges_block rfl).symm⟩
  | enc a b nblk =>
    rcases toStream_eq_error h with ⟨code, hcode, rfl⟩ | ⟨x, -, -, rfl⟩
    · rw [entropyEncode_eq_error hcode]
      exact ⟨rfl, rfl⟩
    · exact ⟨rfl, rfl⟩
  | tenc a b =>
    rcases toStream_eq_error h with ⟨code, hcode, rfl⟩ | ⟨x, -, -, rfl⟩
    · rcases tileEncode_eq_error hcode with rfl | rfl <;> exact ⟨rfl, rfl⟩
    · exact ⟨rfl, rfl⟩
  | diff a b ctx =>
    rcases toStream_eq_error h with ⟨code, hcode, rfl⟩ | ⟨x, -, -, rfl⟩
    · obtain ⟨t, -, ht⟩ := mapExcept_eq_error hcode
      rcases tilePatch_eq_error ht with rfl | rfl <;> exact ⟨rfl, rfl⟩
    · exact ⟨rfl, rfl⟩
  | full a b =>
    rcases toStream_eq_error h with ⟨code, hcode, rfl⟩ | ⟨x, -, -, rfl⟩
    · rcases tilePatch_eq_error hcode with rfl | rfl <;> exact ⟨rfl, rfl⟩
    · exact ⟨rfl, rfl⟩
  | dec a b nblk | tdec a b | phdr a =>
    simp only [afterChecks] at h
    split at h <;> cases h
  | apply a =>
    simp only [afterChecks] at h
    split at h
    · cases h
    · split at h <;> cases h
  | _ => cases h

/-- A command that takes an execution fault writes some output. -/
theorem drawnRanges_ne_nil {i : Instr} {code : FaultCode} (s : State) (h : executionFault i.opcode code = true) :
    drawnRanges i s ≠ [] := by
  have hop : i.opcode ∈ [Opcode.fdct, .idct, .quant, .dequant, .enc, .tenc, .diff, .full] := by
    revert h
    generalize i.opcode = op
    cases code <;> cases op <;> decide
  cases i with
  | fdct | idct | quant | dequant | enc | tenc | diff | full => simp [drawnRanges, outputRanges]
  | _ => simp [Instr.opcode] at hop

/-! The outcomes of a command -/

/-- The three ways a command ends: the fault of its first failing check, completion, or an execution fault. -/
inductive Outcome (i : Instr) (s : State) : State → Prop
  | checkFault (code : FaultCode) (h : firstFault (checks i s) = some code) :
    Outcome i s (s.faultedWith code.code i.header)
  | completes (u : State) (h : firstFault (checks i s) = none) (hu : afterChecks i s = .ok u) (he : Effect s i u) :
    Outcome i s (u.advance i.length)
  | executionFault (code : FaultCode) (h : firstFault (checks i s) = none)
    (hx : Sys2Proof.Machine.executionFault i.opcode code = true) :
    Outcome i s (takeFault code i.header (drawnRanges i s) s)

/-- Every command ends in a next state, in one of the three ways (60_exceptions R903). -/
theorem exists_outcome (i : Instr) (s : State) : ∃ t, exec i s = .next t ∧ Outcome i s t := by
  cases h : firstFault (checks i s) with
  | some code => exact ⟨_, exec_faultsOnChecks i s code h, .checkFault code h⟩
  | none =>
    cases hr : afterChecks i s with
    | ok u => exact ⟨_, exec_completes h hr, .completes u h hr (effect_of_completes h hr)⟩
    | error e =>
      obtain ⟨hx, hd⟩ := afterChecks_eq_error hr
      exact ⟨_, exec_raises h hr, hd ▸ .executionFault e.code h hx⟩

theorem outcome_of_exec {i : Instr} {s t : State} (h : exec i s = .next t) : Outcome i s t := by
  obtain ⟨t', ht', ho⟩ := exists_outcome i s
  rw [h] at ht'
  cases ht'
  exact ho

end Sys2Proof.Machine
end


section
/-! The whole machine: what every command leaves unchanged, what every step keeps, and how every run ends (10_state
R100-R116; 20_memory R206, R218; 60_exceptions R902, R903, R911; 70_reset R951, R961, R964). -/

namespace Sys2Proof.Machine

/-! What a command that completes leaves unchanged -/

/-- What a CSR write may change: RES, SCALE and the three settings. -/
theorem csrWrite_frame (s : State) (c : Csr) (v : Word) :
    s.csrWrite c v = { s with
      res := (s.csrWrite c v).res, scale := (s.csrWrite c v).scale, emode := (s.csrWrite c v).emode,
      tsize := (s.csrWrite c v).tsize, hstride := (s.csrWrite c v).hstride } := by
  cases c <;> rfl

section
variable {i : Instr} {s u : State}

/-- The parts of the state that no command writes when it completes, but for CPC, which then moves. -/
theorem Effect.unchanged (h : Effect s i u) :
    u.cfg = s.cfg ∧ u.cpc = s.cpc ∧ u.faultCode = s.faultCode ∧ u.faultCpc = s.faultCpc ∧ u.faultInfo = s.faultInfo ∧
    u.hCpcStart = s.hCpcStart ∧ u.irqEn = s.irqEn ∧ u.resetPending = s.resetPending ∧ u.draws = s.draws ∧
    u.moves = s.moves := by
  cases h with
  | csrw csr value c => rw [csrWrite_frame]; simp
  | _ => simp

/-- HALT alone stops the engine and raises the interrupt. -/
theorem Effect.engine (h : Effect s i u) :
    u.engine = (if i.opcode = .halt then .halted else s.engine) ∧ (i.opcode ≠ .halt → u.irqPend = s.irqPend) := by
  cases h with
  | csrw csr value c => rw [csrWrite_frame]; simp [Instr.opcode]
  | memory i m hi | results i m r hi | canvas i c hi =>
    have hop : i.opcode ≠ .halt := fun h => by rw [h] at hi; revert hi; decide
    simp [hop]
  | _ => simp [Instr.opcode]

theorem Effect.descs (h : Effect s i u) (hi : i.opcode ∉ [.setd, .apply]) : u.descs = s.descs := by
  cases h with
  | setd | apply => simp [Instr.opcode] at hi
  | csrw csr value c => rw [csrWrite_frame]
  | _ => rfl

theorem Effect.res (h : Effect s i u)
    (hi : i.opcode ∉ [.csrw, .enc, .dec, .tenc, .tdec, .diff, .full, .pser, .phdr, .apply]) : u.res = s.res := by
  cases h with
  | csrw | diff | apply => simp [Instr.opcode] at hi
  | results i m r hr =>
    have hlisted : ∀ op ∈ resultCommands, op ∈ [.csrw, .enc, .dec, .tenc, .tdec, .diff, .full, .pser, .phdr, .apply] := by
      decide
    exact absurd (hlisted _ hr) hi
  | _ => rfl

theorem Effect.hash_eq (h : Effect s i u) (hi : i.opcode ∉ [.hash]) : u.hash = s.hash := by
  cases h with
  | hash => simp [Instr.opcode] at hi
  | csrw csr value c => rw [csrWrite_frame]
  | _ => rfl

theorem Effect.tables (h : Effect s i u) (hi : i.opcode ∉ [.setq, .absorb]) :
    u.qtl = s.qtl ∧ u.qtc = s.qtc ∧ u.absorbed = s.absorbed := by
  cases h with
  | setq | absorb => simp [Instr.opcode] at hi
  | csrw csr value c => rw [csrWrite_frame]; simp
  | _ => exact ⟨rfl, rfl, rfl⟩

theorem Effect.quality (h : Effect s i u) (hi : i.opcode ∉ [.setq]) : u.quality = s.quality := by
  cases h with
  | setq => simp [Instr.opcode] at hi
  | csrw csr value c => rw [csrWrite_frame]
  | _ => rfl

theorem Effect.settings (h : Effect s i u) (hi : i.opcode ∉ [.csrw]) :
    u.emode = s.emode ∧ u.tsize = s.tsize ∧ u.hstride = s.hstride ∧ u.scale = s.scale := by
  cases h with
  | csrw => simp [Instr.opcode] at hi
  | _ => exact ⟨rfl, rfl, rfl, rfl⟩

theorem Effect.ctxs (h : Effect s i u) (hi : i.opcode ∉ [.diff, .hctxrst]) : u.ctxs = s.ctxs := by
  cases h with
  | diff | hctxrst => simp [Instr.opcode] at hi
  | csrw csr value c => rw [csrWrite_frame]
  | _ => rfl

theorem Effect.canvas_eq (h : Effect s i u) (hi : i.opcode ∉ [.cvreset, .cvset, .stitch, .apply]) :
    u.canvas = s.canvas := by
  cases h with
  | apply => simp [Instr.opcode] at hi
  | canvas i c hc =>
    have hlisted : ∀ op ∈ canvasCommands, op ∈ [.cvreset, .cvset, .stitch, .apply] := by decide
    exact absurd (hlisted _ hc) hi
  | csrw csr value c => rw [csrWrite_frame]
  | _ => rfl

theorem Effect.writes (h : Effect s i u) : Memory.WritesWithin (inRanges (outputRanges i s)) s.lmem u.lmem := by
  cases h with
  | memory i m hi hm => exact hm
  | results i m r hi hm => exact hm
  | diff a b ctx m r x hm => exact hm
  | csrw csr value c => rw [csrWrite_frame]; exact .refl _ _
  | _ => exact .refl _ _

end

/-! What an execution fault leaves -/

/-- An execution fault draws its output ranges, and is else a check fault (60_exceptions R903). -/
theorem takeFault_execution {i : Instr} {code : FaultCode} (s : State) (info : Word)
    (hx : executionFault i.opcode code = true) :
    takeFault code info (drawnRanges i s) s =
      { s.faultedWith code.code info with
        lmem := drawRanges s.draws s.lmem (drawnRanges i s), draws := s.draws + 1 } := by
  have hne : (drawnRanges i s).isEmpty = false := by
    rw [List.isEmpty_eq_false_iff]
    exact drawnRanges_ne_nil s hx
  simp [takeFault, State.faultedWith, hne]

theorem drawnRanges_writes (i : Instr) (s : State) (n : Nat) :
    Memory.WritesWithin (inRanges (outputRanges i s)) s.lmem (drawRanges n s.lmem (drawnRanges i s)) :=
  drawRanges_writesWithin n s.lmem (outputRanges i s)

/-- Every byte that a command changes is one of its output ranges (20_memory R218). -/
theorem Outcome.writes {i : Instr} {s t : State} (h : Outcome i s t) :
    Memory.WritesWithin (inRanges (outputRanges i s)) s.lmem t.lmem := by
  cases h with
  | checkFault code => exact .refl _ _
  | completes u hp hu he => exact he.writes
  | executionFault code => exact drawnRanges_writes i s s.draws

/-- A command leaves the parameters alone. -/
theorem Outcome.cfg {i : Instr} {s t : State} (h : Outcome i s t) : t.cfg = s.cfg := by
  cases h with
  | checkFault code => rfl
  | completes u hp hu he => exact he.unchanged.1
  | executionFault code => rfl

/-- Every byte that a command changes lies in LMEM (20_memory R206). -/
theorem Outcome.writesInside {i : Instr} {s t : State} (h : Outcome i s t) :
    Memory.WritesWithin (fun a => a < s.cfg.lmemBytes) s.lmem t.lmem := by
  have hwrites := h.writes
  cases h with
  | checkFault code => exact .refl _ _
  | completes u hp => exact hwrites.mono fun a ha => outputRanges_inside hp ha
  | executionFault code hp => exact hwrites.mono fun a ha => outputRanges_inside hp ha

/-! Everything a step can do -/

/-- What the host can do to the state in one move (60_exceptions R908-R911; 20_memory R213). -/
inductive HostEffect (s : State) : State → Prop
  | same : HostEffect s s
  | registers (c : Word) (e p : Bool) : HostEffect s { s with hCpcStart := c, irqEn := e, irqPend := p }
  | request (h : s.engine = .running) : HostEffect s { s with resetPending := true }
  | reset (h : s.engine ≠ .running) : HostEffect s s.softReset
  | launch (a : Word) (h : s.engine ≠ .running) :
    HostEffect s { s with cpc := a, faultCode := 0, faultCpc := 0, faultInfo := 0, engine := .running }
  | store (a : Nat) (bytes : List Byte) (h : s.engine ≠ .running) (hb : a + bytes.length ≤ s.cfg.lmemBytes) :
    HostEffect s (s.setLmem (Memory.store s.lmem a bytes))

theorem hostEffect_control (s : State) (v : Word) : HostEffect s (s.hostControl v) := by
  by_cases he : s.engine = .running
  · simp only [State.hostControl, State.requestReset, State.start, State.resume, if_pos he, ite_self]
    split
    · exact .request he
    · exact .same
  · simp only [State.hostControl, State.requestReset, start_of_stopped he, resume_of_stopped he, if_neg he]
    split
    · exact .reset he
    · split
      · exact .launch _ he
      · split
        · exact .launch _ he
        · exact .same

theorem hostEffect_of_hostMove {act : HostAct} {s t : State} (h : hostMove act s = .next t) : HostEffect s t := by
  rcases hostMove_eq_next h with ⟨off, v, -, rfl⟩ | ⟨a, bytes, -, rfl | ⟨he, hb, rfl⟩⟩
  · unfold State.hostWrite
    split
    · exact hostEffect_control s v
    · exact .registers v s.irqEn s.irqPend
    · exact .registers s.hCpcStart (bitAt v 0) s.irqPend
    · exact .registers s.hCpcStart s.irqEn (s.irqPend && !bitAt v 0)
    · exact .same
  · exact .same
  · exact .store a bytes he hb

/-- What the engine leaves before the command boundary: the outcome of a command, or the fault of fetch or decode. -/
inductive Ran (s : State) : State → Prop
  | outcome (i : Instr) (t : State) (hf : s.fetch = .ok i) (h : Outcome i s t) : Ran s t
  | fetchFault (code : FaultCode) (info : Word) : Ran s (s.faultedWith code.code info)

theorem exists_ran (s : State) : ∃ t, runCommand s = .next t ∧ Ran s t := by
  unfold runCommand
  cases hf : s.fetch with
  | ok i =>
    obtain ⟨t, ht, ho⟩ := exists_outcome i s
    exact ⟨t, ht, .outcome i t hf ho⟩
  | error f => exact ⟨_, rfl, .fetchFault f.code f.info⟩

theorem ran_of_runCommand {s t : State} (h : runCommand s = .next t) : Ran s t := by
  obtain ⟨u, hu, hr⟩ := exists_ran s
  rw [h] at hu
  cases hu
  exact hr

/-- What every step keeps: a property that the passing of host moves, the host's moves and a whole engine step keep. -/
theorem step_keeps {P : State → Prop} (hmoves : ∀ s moves, P s → P { s with moves := moves })
    (hhost : ∀ s t, HostEffect s t → P s → P t)
    (hran : ∀ s t, s.engine = .running → Ran s t → P s → P t.boundary)
    {s t : State} (hs : P s) (h : step s = .next t) : P t := by
  have hengine {s : State} (hs : P s) (h : engineStep s = .next t) : P t := by
    rcases engineStep_eq_next h with ⟨-, rfl⟩ | ⟨he, u, hu, rfl⟩
    · exact hs
    · exact hran s u he (ran_of_runCommand hu) hs
  rcases step_eq_next h with ⟨act, rest, -, h⟩ | ⟨-, h⟩ | ⟨n, act, rest, -, h⟩
  · exact hhost _ t (hostEffect_of_hostMove h) (hmoves s _ hs)
  · exact hengine hs h
  · exact hengine (hmoves s _ hs) h

/-- A property that no fault, no boundary and no host move can touch is kept by every step when every command that
completes keeps it. -/
theorem step_keeps_of_effect {P : State → Prop} (hmoves : ∀ s moves, P s → P { s with moves := moves })
    (hhost : ∀ s t, HostEffect s t → P s → P t) (hfault : ∀ s code info drawn, P s → P (takeFault code info drawn s))
    (hreset : ∀ s, P s → P s.softReset) (heffect : ∀ i s u n, Effect s i u → P s → P (u.advance n))
    {s t : State} (hs : P s) (h : step s = .next t) : P t := by
  have hboundary (t : State) (ht : P t) : P t.boundary := by
    unfold State.boundary
    split
    · exact hreset t ht
    · exact ht
  refine step_keeps hmoves hhost (fun s t _ hr hs => hboundary t ?_) hs h
  cases hr with
  | fetchFault code info => exact hfault s code info [] hs
  | outcome i t hf ho =>
    cases ho with
    | checkFault code => exact hfault s code _ [] hs
    | completes u hp hu he => exact heffect i s u _ he hs
    | executionFault code => exact hfault s code _ _ hs

/-! Tables -/

theorem F64.isFinitePos_ofInt {n : Nat} (h0 : n ≠ 0) (h : n < 2 ^ 53) : F64.isFinitePos (F64.ofInt n) = true := by
  have hneg : decide ((n : Int) < 0) = false := by simp
  have hview := F64.view_ofScaled false n 0 h0 h (by decide) (by decide)
  rw [F64.isFinitePos, F64.ofInt, hneg, Int.natAbs_natCast, hview]
  simp [h0]

/-- A table entry that SETQ writes is an integer in 1..255. -/
theorem plainTable_positive (base : List Nat) (q : Nat) (t : F64) (ht : t ∈ (plainTable base q).toList) :
    F64.isFinitePos t = true := by
  obtain ⟨k, hk, rfl⟩ := List.mem_iff_getElem.mp ht
  rw [Vector.length_toList] at hk
  rw [Vector.getElem_toList, show (plainTable base q)[k] = _ from getElem_tabulate 64 _ k hk]
  refine F64.isFinitePos_ofInt ?_ ?_
  all_goals
    unfold scaledEntry
    omega

end Sys2Proof.Machine
end


section
/-! The obligations about the whole machine: precise faults, the ends of a command, who writes what, the invariants that
every step keeps, a waiting reset, and the end of every run. -/

namespace Sys2Proof.Machine

/-! The invariants after a reset -/

theorem csrsLegal_powerOn (cfg : Config) : (State.powerOn cfg).csrsLegal := invariantAtReset.2.1

theorem tablesPositive_powerOn (cfg : Config) : (State.powerOn cfg).tablesPositive := invariantAtReset.2.2.1

theorem contextsFit_powerOn (cfg : Config) : (State.powerOn cfg).contextsFit := by
  refine ⟨List.length_replicate, fun c hc hv => ?_⟩
  rw [List.eq_of_mem_replicate hc] at hv
  cases hv

theorem csrWrite_csrsLegal {s : State} {c : Csr} {v : Word} (hs : s.csrsLegal) (ha : c.accepts v = true) :
    (s.csrWrite c v).csrsLegal := by
  obtain ⟨hq1, hq2, he, ht1, ht2, ht3, hh1, hh2⟩ := hs
  cases c with
  | emode => exact ⟨hq1, hq2, Nat.le_of_ble_eq_true ha, ht1, ht2, ht3, hh1, hh2⟩
  | tsize =>
    simp only [Csr.accepts, Bool.and_eq_true, Nat.ble_eq, beq_iff_eq] at ha
    obtain ⟨⟨h1, h2⟩, h3⟩ := ha
    exact ⟨hq1, hq2, he, h1, h2, h3, hh1, hh2⟩
  | hstride =>
    simp only [Csr.accepts, Bool.and_eq_true, Nat.ble_eq] at ha
    exact ⟨hq1, hq2, he, ht1, ht2, ht3, ha⟩
  | _ => exact ⟨hq1, hq2, he, ht1, ht2, ht3, hh1, hh2⟩

/-- A list of contexts that fit, with one of them replaced by one that fits. -/
theorem contexts_set {n m : Nat} {cs : List HashContext} {k : Nat} {x : HashContext}
    (h : cs.length = n ∧ ∀ c ∈ cs, c.fits m) (hx : x.fits m) :
    (cs.set k x).length = n ∧ ∀ c ∈ cs.set k x, c.fits m := by
  refine ⟨by rw [List.length_set]; exact h.1, fun c hc => ?_⟩
  rcases List.mem_or_eq_of_mem_set hc with hc | rfl
  · exact h.2 c hc
  · exact hx

/-- Cells that were in LMEM and cells written inside it are in LMEM. -/
theorem Memory.WritesWithin.fits {n : Nat} {m m' : Memory} (h : WritesWithin (fun a => a < n) m m')
    (hm : m.wf ∧ ∀ c ∈ m, c.1 < n) : m'.wf ∧ ∀ c ∈ m', c.1 < n :=
  ⟨h.canonical hm.1, fun c hc => (h.cells c hc).elim (hm.2 c) id⟩

/-! The invariant of faults and resets -/

theorem stopConsistent_powerOn {s : State} (he : s.engine = .idle) (hc : s.faultCode = 0) (hp : s.faultCpc = 0)
    (hi : s.faultInfo = 0) (hr : s.resetPending = false) : s.stopConsistent := by
  refine ⟨fun h => ?_, fun _ => ⟨hc, hp, hi⟩, fun h => ?_⟩
  · rw [he] at h
    cases h
  · rw [hr] at h
    cases h

/-- At the boundary a waiting reset lands, so that only the other two clauses are to be shown before it. -/
theorem stopConsistent_boundary {t : State}
    (hf : t.engine = .faulted → 1 ≤ t.faultCode.toNat ∧ t.faultCode.toNat ≤ 0x11 ∧ t.faultCpc = t.cpc)
    (h0 : t.engine ≠ .faulted → t.faultCode = 0 ∧ t.faultCpc = 0 ∧ t.faultInfo = 0) : t.boundary.stopConsistent := by
  unfold State.boundary
  split
  case isTrue => exact stopConsistent_powerOn rfl rfl rfl rfl rfl
  case isFalse hr => exact ⟨hf, h0, fun h => absurd h hr⟩

theorem stopConsistent_takeFault (code : FaultCode) (info : Word) (drawn : List (Nat × Nat)) (s : State) :
    (takeFault code info drawn s).boundary.stopConsistent :=
  stopConsistent_boundary (fun _ => ⟨(faultCode_range code).1, (faultCode_range code).2, rfl⟩) (absurd rfl)

theorem stopConsistent_host {s t : State} (h : HostEffect s t) (hs : s.stopConsistent) : t.stopConsistent := by
  cases h with
  | same | registers => exact hs
  | request he => exact ⟨hs.1, hs.2.1, fun _ => he⟩
  | reset => exact stopConsistent_powerOn rfl rfl rfl rfl rfl
  | launch a => exact ⟨(fun h => nomatch h), fun _ => ⟨rfl, rfl, rfl⟩, fun _ => rfl⟩
  | store => exact hs

/-- A command on a RUNNING engine that completes leaves the fault registers 0 and the engine RUNNING or HALTED. -/
theorem stopConsistent_completes {i : Instr} {s u : State} (he : s.engine = .running) (hu : Effect s i u)
    (hs : s.stopConsistent) (n : Nat) : (u.advance n).boundary.stopConsistent := by
  obtain ⟨-, -, hcode, hcpc, hinfo, -⟩ := hu.unchanged
  refine stopConsistent_boundary (fun hf => ?_) fun _ => ?_
  · have hne := hu.engine.1
    rw [he, show u.engine = .faulted from hf] at hne
    split at hne <;> cases hne
  · rw [State.advance_faultCode, State.advance_faultCpc, State.advance_faultInfo, hcode, hcpc, hinfo]
    exact hs.2.1 (by simp [he])

/-! The end of every run -/

/-- A command completed with CPC moved on inside LMEM, while RUNNING: the only way a step of a run goes on. -/
theorem running_after_step {s : State} (he : s.engine = .running) (hm : s.moves = []) :
    ∃ t, step s = .next t ∧ (t.engine = .running →
      t.cfg = s.cfg ∧ t.moves = [] ∧ s.cpc.toNat + 4 ≤ s.cfg.lmemBytes ∧
        ∃ n, t.cpc = s.cpc + BitVec.ofNat 32 (4 * (1 + n)) ∧ n ≤ 4) := by
  obtain ⟨u, hu, hran⟩ := exists_ran s
  refine ⟨u.boundary, by rw [step_running he hm, hu]; rfl, fun hrun => ?_⟩
  have hboundary : u.boundary = u := by
    unfold State.boundary at hrun ⊢
    split
    case isTrue h => rw [if_pos h] at hrun; cases hrun
    case isFalse => rfl
  rw [hboundary] at hrun ⊢
  cases hran with
  | fetchFault => cases hrun
  | outcome i t hf ho =>
    cases ho with
    | checkFault | executionFault => cases hrun
    | completes v hp hv heff =>
      obtain ⟨hcfg, hcpc, -, -, -, -, -, -, -, hmoves⟩ := heff.unchanged
      have hin : ¬ (s.cpc.toNat % 4 ≠ 0 ∨ s.cpc.toNat + 4 > s.cfg.lmemBytes) := fun hbad => by
        rw [fetch_misplaced hbad] at hf
        cases hf
      exact ⟨hcfg, hmoves.trans hm, by omega, i.opcode.row.narg, congrArg (· + _) hcpc, row_narg_le i.opcode⟩

/-- With `n` whole words left before the end of LMEM, a run is over within `n + 1` steps. -/
theorem exists_stop {c : Config} (hc : c.lmemBytes ≤ 2 ^ 31) (n : Nat) {s : State} (hcfg : s.cfg = c)
    (he : s.engine = .running) (hm : s.moves = []) (hn : (c.lmemBytes - s.cpc.toNat) / 4 ≤ n) :
    ∃ k t, k ≤ n + 1 ∧ stepsFrom k s = .next t ∧ t.engine ≠ .running := by
  induction n generalizing s with
  | zero =>
    obtain ⟨t, ht, hgo⟩ := running_after_step he hm
    refine ⟨1, t, le_rfl, by simp only [stepsFrom, ht], fun hrun => ?_⟩
    obtain ⟨-, -, hin, -⟩ := hgo hrun
    rw [hcfg] at hin
    omega
  | succ n ih =>
    obtain ⟨t, ht, hgo⟩ := running_after_step he hm
    by_cases hrun : t.engine = .running
    · obtain ⟨htc, htm, hin, k, hcpc, hk⟩ := hgo hrun
      rw [hcfg] at hin
      have hnext : t.cpc.toNat = s.cpc.toNat + 4 * (1 + k) := by
        rw [hcpc, BitVec.toNat_add, BitVec.toNat_ofNat]
        omega
      obtain ⟨j, u, hj, hu, hend⟩ := ih (htc.trans hcfg) hrun htm (by omega)
      exact ⟨j + 1, u, by omega, by simp only [stepsFrom, ht, hu], hend⟩
    · exact ⟨1, t, by omega, by simp only [stepsFrom, ht], hrun⟩

end Sys2Proof.Machine

namespace Sys2Proof

open Sys2Proof.Machine

/-- Settles O20: the two faults among the three outcomes of a command. -/
theorem faultsArePrecise : Obligations.FaultsArePrecise := by
  intro i s t he h hf
  cases outcome_of_exec h with
  | checkFault code => exact ⟨code, rfl, fun _ => ⟨rfl, rfl⟩, fun _ _ _ => rfl⟩
  | completes u hp hu heff =>
    have hne := heff.engine.1
    rw [he, show u.engine = .faulted from hf] at hne
    split at hne <;> cases hne
  | executionFault code hp hx =>
    refine ⟨code, rfl, fun hx' => ?_, fun _ => (drawnRanges_writes i s s.draws).outside⟩
    rw [hx] at hx'
    cases hx'

/-- Settles O21: the three outcomes of a command. -/
theorem everyCommandEnds : Obligations.EveryCommandEnds := by
  intro i s he
  obtain ⟨t, ht, ho⟩ := exists_outcome i s
  refine ⟨t, ht, ?_⟩
  cases ho with
  | checkFault code hc => rw [hc]
  | completes u hp hu heff =>
    obtain ⟨-, hcpc, hcode, -⟩ := heff.unchanged
    rw [hp]
    exact .inl ⟨he ▸ heff.engine.1, congrArg (· + _) hcpc, hcode⟩
  | executionFault code hp hx =>
    rw [hp]
    exact .inr ⟨code, hx, takeFault_execution s _ hx⟩

/-- Settles O22: a fault keeps every register, and a command that completes has one of the listed effects. -/
theorem writesOnlyItsOwn : Obligations.WritesOnlyItsOwn := by
  intro i s t h
  have ho := outcome_of_exec h
  have hmem := ho.writes.outside
  cases ho with
  | checkFault | executionFault =>
    exact ⟨fun _ => rfl, fun _ => rfl, fun _ => rfl, fun _ => ⟨rfl, rfl, rfl⟩, fun _ => rfl,
      fun _ => ⟨rfl, rfl, rfl, rfl⟩, fun _ => rfl, fun _ => rfl, .inl rfl, absurd rfl, absurd rfl, rfl, rfl, rfl, rfl,
      rfl, hmem⟩
  | completes u hp hu heff =>
    obtain ⟨hcfg, hcpc, hcode, hfcpc, hinfo, hstart, hen, hreset, hdraws, hmoves⟩ := heff.unchanged
    obtain ⟨hengine, hirq⟩ := heff.engine
    refine ⟨heff.descs, heff.res, heff.hash_eq, heff.tables, heff.quality, heff.settings, heff.ctxs, heff.canvas_eq,
      .inr (congrArg (· + _) hcpc), fun _ => ⟨hcode, hfcpc, hinfo, hdraws⟩, fun _ hi => ?_, hcfg, hstart, hen, hreset,
      hmoves, hmem⟩
    rw [List.mem_singleton] at hi
    rw [if_neg hi] at hengine
    exact ⟨hengine, hirq hi⟩

/-- Settles O13: what a command writes lies in its output ranges, and those lie in LMEM once its checks have passed. -/
theorem memoryFitsKept : Obligations.MemoryFitsKept := by
  intro s t hs h
  refine step_keeps (P := fun u => u.memoryFits ∧ u.cfg = s.cfg) (fun _ _ h => h) (fun u v hv hu => ?_)
    (fun u v _ hr hu => ?_) ⟨hs, rfl⟩ h
  · cases hv with
    | same | registers | request | reset | launch => exact hu
    | store a bytes he hb =>
      exact ⟨((store_writesWithin u.lmem a bytes).mono fun x hx => hx.2.trans_le hb).fits hu.1, hu.2⟩
  · have hv : v.memoryFits ∧ v.cfg = s.cfg := by
      cases hr with
      | fetchFault => exact hu
      | outcome i v hf ho =>
        refine ⟨?_, ho.cfg.trans hu.2⟩
        rw [State.memoryFits, ho.cfg]
        exact ho.writesInside.fits hu.1
    unfold State.boundary
    split
    · exact hv
    · exact hv

/-- Settles O14: SETQ and CSRW alone write a setting, each a legal value. -/
theorem csrsLegalKept : Obligations.CsrsLegalKept := by
  intro s t hs h
  refine step_keeps_of_effect (P := State.csrsLegal) (fun _ _ h => h) (fun u v hv hu => ?_) (fun _ _ _ _ h => h)
    (fun u _ => csrsLegal_powerOn u.cfg) (fun i u v n he hu => ?_) hs h
  · cases hv with
    | reset => exact csrsLegal_powerOn u.cfg
    | _ => exact hu
  · cases he with
    | csrw csr value c hw ha => exact csrWrite_csrsLegal (s := u) hu ha
    | setq q h1 h2 =>
      refine ⟨?_, ?_, hu.2.2⟩
      all_goals
        simp only [State.advance_quality, State.setAbsorbed_quality, State.setQuality_quality, BitVec.toNat_ofNat]
        omega
    | _ => exact hu

/-- Settles O15: SETQ writes integers in 1..255, and ABSORB only entries it has found finite and positive. -/
theorem tablesPositiveKept : Obligations.TablesPositiveKept := by
  intro s t hs h
  refine step_keeps_of_effect (P := State.tablesPositive) (fun _ _ h => h) (fun u v hv hu => ?_) (fun _ _ _ _ h => h)
    (fun u _ => tablesPositive_powerOn u.cfg) (fun i u v n he hu => ?_) hs h
  · cases hv with
    | reset => exact tablesPositive_powerOn u.cfg
    | _ => exact hu
  · cases he with
    | csrw csr value c =>
      rw [csrWrite_frame]
      exact hu
    | setq q => exact ⟨plainTable_positive lumaBase q, plainTable_positive chromaBase q⟩
    | absorb ha =>
      obtain ⟨hl, hc⟩ := u.absorbable_iff_tablesPositive.mp ha
      exact ⟨List.all_eq_true.mp hl, List.all_eq_true.mp hc⟩
    | _ => exact hu

/-- Settles O16: every command that writes the canvas leaves a full rectangle within the capacity. -/
theorem canvasFitsKept : Obligations.CanvasFitsKept := by
  intro s t hs h
  have hempty (u : State) : u.softReset.canvasFits := ⟨rfl, by simp [State.softReset, State.powerOn, Canvas.empty],
    Nat.zero_le _, Nat.zero_le _⟩
  refine step_keeps_of_effect (P := State.canvasFits) (fun _ _ h => h) (fun u v hv hu => ?_) (fun _ _ _ _ h => h)
    (fun u _ => hempty u) (fun i u v n he hu => ?_) hs h
  · cases hv with
    | reset => exact hempty u
    | _ => exact hu
  · cases he with
    | csrw csr value c =>
      rw [csrWrite_frame]
      exact hu
    | canvas i c hi hc | apply a r ds c hc => exact hc hu
    | _ => exact hu

/-- Settles O17: DIFF leaves one hash per tile of a grid within the capacity, HCTXRST an invalid context. -/
theorem contextsFitKept : Obligations.ContextsFitKept := by
  intro s t hs h
  refine step_keeps_of_effect (P := State.contextsFit) (fun _ _ h => h) (fun u v hv hu => ?_) (fun _ _ _ _ h => h)
    (fun u _ => contextsFit_powerOn u.cfg) (fun i u v n he hu => ?_) hs h
  · cases hv with
    | reset => exact contextsFit_powerOn u.cfg
    | _ => exact hu
  · cases he with
    | csrw csr value c =>
      rw [csrWrite_frame]
      exact hu
    | diff a b ctx m r x hm hx => exact contexts_set hu hx
    | hctxrst ctx => exact contexts_set hu fun hv => by cases hv
    | _ => exact hu

/-- Settles O18: the clauses hold before the boundary but for a waiting reset, and it lands there. -/
theorem stopConsistentKept : Obligations.StopConsistentKept := by
  intro s t hs h
  refine step_keeps (P := State.stopConsistent) (fun _ _ h => h) (fun _ _ => stopConsistent_host) (fun u v he hr hu => ?_)
    hs h
  cases hr with
  | fetchFault code info => exact stopConsistent_takeFault code info [] u
  | outcome i v hf ho =>
    cases ho with
    | checkFault code => exact stopConsistent_takeFault code _ [] u
    | completes w hp hw heff => exact stopConsistent_completes he heff hu _
    | executionFault code => exact stopConsistent_takeFault code _ _ u

/-- Settles O7: no command and no fault clears the waiting bit, so the reset lands at the boundary. -/
theorem softResetAfterCommand : Obligations.SoftResetAfterCommand := by
  intro s he hr hm
  obtain ⟨u, hu, hran⟩ := exists_ran s
  refine ⟨u, hu, ?_⟩
  have hkept : u.resetPending = s.resetPending ∧ u.cfg = s.cfg ∧ u.moves = s.moves := by
    cases hran with
    | fetchFault => exact ⟨rfl, rfl, rfl⟩
    | outcome i t hf ho =>
      cases ho with
      | checkFault | executionFault => exact ⟨rfl, rfl, rfl⟩
      | completes v hp hv heff =>
        obtain ⟨hcfg, -, -, -, -, -, -, hreset, -, hmoves⟩ := heff.unchanged
        exact ⟨hreset, hcfg, hmoves⟩
  obtain ⟨hreset, hcfg, hmoves⟩ := hkept
  rw [step_running he hm, hu, atBoundary, State.boundary, hreset, hr, if_pos rfl, State.softReset, hcfg, hmoves, hm]
  rfl

/-- Settles O23: each command that completes moves CPC on by at least one word, and at the end of LMEM there is none to
fetch. -/
theorem everyRunEnds : Obligations.EveryRunEnds := by
  intro s hlegal he hm
  exact exists_stop (c := s.cfg) hlegal.2.2.1 (s.cfg.lmemBytes / 4) rfl he hm
    (Nat.div_le_div_right (Nat.sub_le ..))

end Sys2Proof
end


section
/-! The commands on blocks of LMEM: FDCT, IDCT, QUANT, DEQUANT, ZIGZAG and UNZIGZAG (42_dct R505-R507; 43_quant R554, R555;
44_entropy R601, R602). -/

namespace Sys2Proof.Machine

/-! Elements read back -/

/-- An element of rows written over a region of a matrix whose rows lie apart. -/
theorem elementAt_storeRows {n : Nat} {d : Desc} (hd : d.matrixOk n) (m : Memory) {r c h w : Nat}
    {rows : List (List Word)} (hs : matrixShaped h w rows) (hr : r + h ≤ d.rows.toNat) (hc : c + w ≤ d.cols.toNat)
    {i j : Nat} (hi : i < h) (hj : j < w) :
    elementAt (Memory.storeRows m (matAddr d r c) d.pitch.toNat rows) d (r + i) (c + j) = cellAt rows 0 i j := by
  obtain ⟨hlen, hrow⟩ := hs
  have hilen : i < rows.length := by omega
  rw [elementAt, show matAddr d (r + i) (c + j) = matAddr d r c + i * d.pitch.toNat + 4 * j by
    simp only [matAddr, Nat.add_mul]; omega]
  refine wordAt_storeRows_inside m _ _ rows i j (fun h1 row hmem => ?_) hilen ?_
  · have hpitch := hd.2.2.1 (by omega)
    rw [hrow row hmem]
    omega
  · rw [List.getD_eq_getElem _ _ hilen, hrow _ (List.getElem_mem hilen)]
    exact hj

theorem elementAt_writeBlock {n : Nat} {d : Desc} {r c : Nat} (hd : d.matrixOk n) (hb : d.holdsBlock r c) (m : Memory)
    {rows : List (List Word)} (hs : isBlock rows) {i j : Nat} (hi : i < 8) (hj : j < 8) :
    elementAt (writeBlock m d r c rows) d (r + i) (c + j) = cellAt rows 0 i j :=
  elementAt_storeRows hd m hs hb.2.2.1 hb.2.2.2 hi hj

theorem elementAt_writeMatrix {n : Nat} {d : Desc} (hd : d.matrixOk n) (m : Memory) {rows : List (List Word)}
    (hs : matrixShaped d.rows.toNat d.cols.toNat rows) {i j : Nat} (hi : i < d.rows.toNat) (hj : j < d.cols.toNat) :
    elementAt (writeMatrix m d rows) d i j = cellAt rows 0 i j := by
  have h := elementAt_storeRows hd m hs (Nat.zero_add _).le (Nat.zero_add _).le hi hj
  rwa [Nat.zero_add, Nat.zero_add] at h

theorem cellAt_map_map {α β : Type} (f : α → β) {rows : List (List α)} {h w : Nat} (hs : matrixShaped h w rows)
    (x : α) (y : β) {i j : Nat} (hi : i < h) (hj : j < w) :
    cellAt (rows.map fun row => row.map f) y i j = f (cellAt rows x i j) := by
  have hlen : i < rows.length := by rw [hs.1]; exact hi
  have hrow : j < rows[i].length := by rw [hs.2 _ (List.getElem_mem hlen)]; exact hj
  simp [cellAt, hlen, hrow]

theorem sampleWords_shaped {h w : Nat} {rows : List (List Int)} (hs : matrixShaped h w rows) :
    matrixShaped h w (sampleWords rows) := matrixShaped_map u32 hs

/-! Bytes drawn by an execution fault -/

/-- Every byte of the drawn ranges becomes the free byte of its address (20_memory R217). -/
theorem read_drawRanges_inside (n : Nat) (m : Memory) (drawn : List (Nat × Nat)) (x : Nat)
    (h : ∃ r ∈ drawn, r.1 ≤ x ∧ x < r.1 + r.2) : (drawRanges n m drawn).read x = Config.faultByte n x := by
  unfold drawRanges
  induction drawn generalizing m with
  | nil => obtain ⟨r, hr, -⟩ := h; cases hr
  | cons r rs ih =>
    rw [List.foldl_cons]
    by_cases hrest : ∃ q ∈ rs, q.1 ≤ x ∧ x < q.1 + q.2
    · exact ih _ hrest
    · have hin : r.1 ≤ x ∧ x < r.1 + r.2 := by
        obtain ⟨q, hq, hx⟩ := h
        rcases List.mem_cons.mp hq with rfl | hq
        · exact hx
        · exact absurd ⟨q, hq, hx⟩ hrest
      have hkeep := read_drawRanges_outside n (Memory.store m r.1 (drawnBytes n r.1 r.2)) rs x fun q hq => by
        by_contra hout
        exact hrest ⟨q, hq, by omega⟩
      rw [drawRanges] at hkeep
      rw [hkeep, read_store, drawnBytes, List.length_map, List.length_range, if_pos hin,
        List.getD_eq_getElem _ _ (by rw [List.length_map, List.length_range]; omega), List.getElem_map,
        List.getElem_range, Nat.add_sub_cancel' hin.1]

/-! The four block commands -/

section
variable {s : State} {i : Instr} {a : DescReg} {r c : Nat}
  {f : List (List Int) → Except FaultCode (List (List Int))}

/-- The checks of a block command. -/
theorem checks_of_blockForm (h : blockForm s i = some (a, r, c, f)) :
    checks i s = matrixChecks s.cfg.lmemBytes (s.desc a) ++ [(decide (¬ (s.desc a).holdsBlock r c), .block)] := by
  cases i with
  | fdct | idct | quant | dequant => cases h; rfl
  | _ => cases h

/-- What a block command computes: its function of the block as it stood. -/
theorem afterChecks_of_blockForm (h : blockForm s i = some (a, r, c, f)) :
    afterChecks i s = (orDraw (blockRanges (s.desc a) r c) (f (samples (wordsOf s.lmem (s.desc a) r c 8 8))) >>= fun y =>
      pure (s.setLmem (writeBlock s.lmem (s.desc a) r c (sampleWords y)))) := by
  rw [← readBlock_eq_wordsOf]
  cases i with
  | fdct | idct | quant | dequant => cases h; rfl
  | _ => cases h

theorem length_of_blockForm (h : blockForm s i = some (a, r, c, f)) : i.length = 8 := by
  cases i with
  | fdct | idct | quant | dequant => rfl
  | _ => cases h

/-- A block command answers a block, or NUMERIC. -/
theorem answer_of_blockForm (h : blockForm s i = some (a, r, c, f)) {x : List (List Int)} (hx : isBlock x) :
    (∀ y, f x = .ok y → isBlock y) ∧ ∀ e, f x = .error e → e = .numeric := by
  cases i with
  | fdct => cases h; exact ⟨fun _ => forwardDct_isBlock, fun _ => forwardDct_eq_error⟩
  | idct => cases h; exact ⟨fun _ => inverseDct_isBlock, fun _ => inverseDct_eq_error⟩
  | quant => cases h; exact ⟨fun _ => perCoefficient_isBlock hx, fun _ => quantize_eq_error⟩
  | dequant => cases h; exact ⟨fun _ => perCoefficient_isBlock hx, fun _ => dequantize_eq_error⟩
  | _ => cases h

theorem samples_isBlock (m : Memory) (d : Desc) (r c : Nat) : isBlock (samples (wordsOf m d r c 8 8)) := by
  rw [← readBlock_eq_wordsOf]
  exact isBlock_map s32 (readBlock_isBlock m d r c)

theorem passes_of_blockForm (h : blockForm s i = some (a, r, c, f)) (hd : (s.desc a).matrixOk s.cfg.lmemBytes)
    (hb : (s.desc a).holdsBlock r c) : firstFault (checks i s) = none := by
  rw [checks_of_blockForm h, firstFault_append_eq_none, matrixChecks_pass, firstFault_cons_eq_none, not_not]
  exact ⟨hd, hb, rfl⟩

/-- A block command whose function answers writes the answer over the block and moves CPC. -/
theorem exec_block_completes (h : blockForm s i = some (a, r, c, f)) (hd : (s.desc a).matrixOk s.cfg.lmemBytes)
    (hb : (s.desc a).holdsBlock r c) {y : List (List Int)}
    (hy : f (samples (wordsOf s.lmem (s.desc a) r c 8 8)) = .ok y) :
    exec i s = .next { s with lmem := writeBlock s.lmem (s.desc a) r c (sampleWords y), cpc := s.cpc + 8 } := by
  have hafter : afterChecks i s = .ok (s.setLmem (writeBlock s.lmem (s.desc a) r c (sampleWords y))) := by
    rw [afterChecks_of_blockForm h, hy]
    rfl
  rw [exec_completes (passes_of_blockForm h hd hb) hafter, length_of_blockForm h]
  rfl

/-- A block command whose function fails draws the block's bytes and takes NUMERIC. -/
theorem exec_block_numeric (h : blockForm s i = some (a, r, c, f)) (hd : (s.desc a).matrixOk s.cfg.lmemBytes)
    (hb : (s.desc a).holdsBlock r c) {e : FaultCode}
    (he : f (samples (wordsOf s.lmem (s.desc a) r c 8 8)) = .error e) :
    exec i s = .next { s.faultedWith 0x0E i.header with
      lmem := drawRanges s.draws s.lmem (blockRanges (s.desc a) r c), draws := s.draws + 1 } := by
  have hafter : afterChecks i s = .error ⟨.numeric, blockRanges (s.desc a) r c⟩ := by
    rw [afterChecks_of_blockForm h, he, (answer_of_blockForm h (samples_isBlock _ _ _ _)).2 e he]
    rfl
  rw [exec_raises (passes_of_blockForm h hd hb) hafter]
  rfl

end

/-! The functions of the block commands, entry by entry -/

/-- An entry of a table beside its coefficient. -/
theorem cellAt_besideTable (t : Vector F64 64) {x : List (List Int)} (hx : isBlock x) (i j : Fin 8) :
    cellAt (besideTable t x) (0, F64.ofInt 0) i j = (cellAt x 0 i j, t[8 * i.val + j.val]) := by
  have ht := tableRows_isBlock t
  have hi : i.val < x.length := by rw [hx.1]; exact i.isLt
  have hj : j.val < x[i.val].length := by rw [hx.2 _ (List.getElem_mem hi)]; exact j.isLt
  have hi' : i.val < (chunks 8 8 t.toList).length := by rw [ht.1]; exact i.isLt
  have hj' : j.val < (chunks 8 8 t.toList)[i.val].length := by rw [ht.2 _ (List.getElem_mem hi')]; exact j.isLt
  have hentry : (chunks 8 8 t.toList)[i.val][j.val] = t[8 * i.val + j.val] := by
    have hrow : (chunks 8 8 t.toList)[i.val] = (t.toList.drop (8 * i.val)).take 8 := by
      rw [← List.getD_eq_getElem _ [] hi', chunks_getD 8 8 _ i.val i.isLt]
    simp only [hrow, List.getElem_take, List.getElem_drop, Vector.getElem_toList]
  have hpair : j.val < (x[i.val].zip (chunks 8 8 t.toList)[i.val]).length := by
    rw [List.length_zip]
    omega
  simp [cellAt, besideTable, hi, hi', hj, List.getElem?_eq_getElem hpair, hentry]

/-- A coefficient-wise function rounds one number for each coefficient and its table entry (43_quant R554, R555). -/
theorem roundsTo_perCoefficient (op : Int → F64 → F64) (t : Vector F64 64) {x : List (List Int)} (hx : isBlock x) :
    roundsTo (fun i j => op (cellAt x 0 i j) t[8 * i.val + j.val])
      (perCoefficient (fun c q => roundOne (op c q)) t x) := by
  have h := roundsTo_of_rows (fun e : Int × F64 => roundOne (op e.1 e.2)) (fun e => op e.1 e.2) (besideTable t x)
    (0, F64.ofInt 0) (besideTable_isBlock t hx) fun _ => rfl
  simp only [cellAt_besideTable t hx] at h
  rwa [perCoefficient_eq]

/-- The numbers of a block. -/
theorem cellAt_numbers {x : List (List Int)} (hx : isBlock x) (i j : Fin 8) :
    cellAt (x.map fun row => row.map F64.ofInt) (F64.ofInt 0) i j = F64.ofInt (cellAt x 0 i j) :=
  cellAt_map_map F64.ofInt hx 0 (F64.ofInt 0) i.isLt j.isLt

/-- FDCT: the pass over rows, then over columns, each entry rounded (42_dct R503). -/
theorem roundsTo_forwardDct {x : List (List Int)} (hx : isBlock x) :
    roundsTo (fun i j => (fdct1 (List.ofFn fun r : Fin 8 =>
        (fdct1 (List.ofFn fun c : Fin 8 => F64.ofInt (cellAt x 0 r c))).getD j (F64.ofInt 0))).getD i (F64.ofInt 0))
      (forwardDct x) := by
  have hn : isBlock (x.map fun row => row.map F64.ofInt) := isBlock_map F64.ofInt hx
  have hrows := passRows_isBlock fdct1_length hn
  have h := roundsTo_of_rows roundOne id _ (F64.ofInt 0)
    (passCols_isBlock fdct1 (passRows fdct1 (x.map fun row => row.map F64.ofInt))) fun _ => rfl
  simp only [id, cellAt_passCols fdct1 _ hrows, cellAt_passRows fdct1 _ hn, cellAt_numbers hx] at h
  exact h

/-- IDCT: the pass over columns, then over rows, each entry scaled by 1/64 and rounded (42_dct R504). -/
theorem roundsTo_inverseDct {x : List (List Int)} (hx : isBlock x) :
    roundsTo (fun i j => ((idct1 (List.ofFn fun c : Fin 8 =>
        (idct1 (List.ofFn fun r : Fin 8 => F64.ofInt (cellAt x 0 r c))).getD i (F64.ofInt 0))).getD j (F64.ofInt 0)).mul
          dctOutScale)
      (inverseDct x) := by
  have hn : isBlock (x.map fun row => row.map F64.ofInt) := isBlock_map F64.ofInt hx
  have hcols := passCols_isBlock idct1 (x.map fun row => row.map F64.ofInt)
  have hrows := passRows_isBlock idct1_length hcols
  have h := roundsTo_of_rows roundOne id _ (F64.ofInt 0) (isBlock_map (fun v => F64.mul v dctOutScale) hrows) fun _ => rfl
  have hscaled (i j : Fin 8) := cellAt_map_map (fun v => F64.mul v dctOutScale) hrows (F64.ofInt 0) (F64.ofInt 0)
    i.isLt j.isLt
  simp only [id, hscaled, cellAt_passRows idct1 _ hcols, cellAt_passCols idct1 _ hn, cellAt_numbers hx] at h
  exact h

end Sys2Proof.Machine

namespace Sys2Proof

open Sys2Proof.Machine

/-- Settles O31: a block command that completes stores its answer; the answers entry by entry. -/
theorem blockCommandsComplete : Obligations.BlockCommandsComplete := by
  refine ⟨fun i s a r c f y h hd hb hy => ?_, fun t x hl hrow => ?_, fun _ _ _ _ _ _ _ _ => ⟨rfl, rfl⟩,
    forwardDct_constant, inverseDct_dc⟩
  · have hyb := (answer_of_blockForm h (samples_isBlock _ _ _ _)).1 y hy
    refine ⟨_, exec_block_completes h hd hb hy, fun j k hj hk => ?_,
      (writeBlock_writes s.lmem (s.desc a) r c (isBlock_map u32 hyb)).outside⟩
    exact (elementAt_writeBlock hd hb s.lmem (isBlock_map u32 hyb) hj hk).trans (cellAt_map_map u32 hyb 0 0 hj hk)
  · have hx : isBlock x := ⟨hl, hrow⟩
    exact ⟨roundsTo_perCoefficient (fun c q => F64.div (F64.ofInt c) q) t hx,
      roundsTo_perCoefficient (fun c q => F64.mul (F64.ofInt c) q) t hx, roundsTo_forwardDct hx, roundsTo_inverseDct hx⟩

/-- Settles O32: the checks in order, then NUMERIC with the block's bytes drawn. -/
theorem blockCommandFaults : Obligations.BlockCommandFaults := by
  intro i s a r c f h d
  have hfault (code : FaultCode) (hc : firstFault (checks i s) = some code) := exec_faultsOnChecks i s code hc
  simp only [checks_of_blockForm h, matrixChecks, List.cons_append, List.nil_append] at hfault
  split
  case isTrue halign => exact hfault .align (firstFault_cons_of_fails halign)
  case isFalse halign =>
    rw [firstFault_cons_of_passes halign] at hfault
    split
    case isTrue hdim => exact hfault .dimension (firstFault_cons_of_fails hdim)
    case isFalse hdim =>
      rw [firstFault_cons_of_passes hdim] at hfault
      split
      case isTrue hbounds => exact hfault .bounds (firstFault_cons_of_fails hbounds)
      case isFalse hbounds =>
        rw [firstFault_cons_of_passes hbounds] at hfault
        split
        case isTrue hblock => exact hfault .block (firstFault_cons_of_fails hblock)
        case isFalse hblock =>
          intro e he
          have hd : d.matrixOk s.cfg.lmemBytes := by
            rw [← matrixChecks_pass, matrixChecks, firstFault_cons_of_passes halign, firstFault_cons_of_passes hdim,
              firstFault_cons_of_passes hbounds, firstFault_nil]
          refine ⟨_, exec_block_numeric h hd (not_not.mp hblock) he, fun x hx => ?_, ?_⟩
          · obtain ⟨fp, hfp, hin⟩ := (inRanges_blockRows d r c x).mpr hx
            obtain ⟨k, hk, rfl⟩ := List.mem_map.mp hfp
            exact read_drawRanges_inside _ _ _ x ⟨_, List.mem_map.mpr ⟨k, hk, rfl⟩, hin⟩
          · have hw := drawRanges_writesWithin s.draws s.lmem
              ((List.range 8).map fun k => (⟨matAddr d (r + k) c, 32⟩ : Footprint))
            rw [List.map_map] at hw
            exact (hw.mono fun x => (inRanges_blockRows d r c x).mp).outside

end Sys2Proof
end


section
/-! The commands between LMEM and the entropy coder: ZIGZAG, UNZIGZAG, ENC and DEC (44_entropy R600-R602, R617, R618). -/

namespace Sys2Proof.Machine

/-- A command that completes with LMEM alone written. -/
theorem exec_setLmem {i : Instr} {s : State} {m : Memory} (h : firstFault (checks i s) = none)
    (hu : afterChecks i s = .ok (s.setLmem m)) :
    exec i s = .next { s with lmem := m, cpc := s.cpc + BitVec.ofNat 32 i.length } := exec_completes h hu

/-! Words read back -/

theorem wordAt_writeSeq (m : Memory) (d : Desc) (index : Nat) (ws : List Word) {k : Nat} (hk : k < ws.length) :
    wordAt (writeSeq m d index ws) (d.base.toNat + 4 * (index + k)) = ws.getD k 0 := by
  rw [show d.base.toNat + 4 * (index + k) = d.base.toNat + 4 * index + 4 * k by omega]
  exact wordAt_storeWords_inside m _ ws k hk

theorem holdsBytes_writeStream (m : Memory) (d : Desc) (bs : List Byte) :
    holdsBytes (writeStream m d bs) d.base.toNat bs := fun _ hk => read_store_inside m _ bs _ hk

theorem writeStream_writesBytes (m : Memory) (d : Desc) (bs : List Byte) :
    Memory.WritesWithin (rangeBytes d.base.toNat bs.length) m (writeStream m d bs) := store_writesWithin m _ bs

/-- The bytes drawn over a whole output stream. -/
theorem drawStream_writes (n : Nat) (m : Memory) (d : Desc) :
    Memory.WritesWithin (rangeBytes d.base.toNat d.len.toNat) m (drawRanges n m (streamRanges d)) :=
  store_writesWithin_of_le m _ (by rw [drawnBytes, List.length_map, List.length_range])

/-! Zig-zag -/

/-- Entry `k` of a list read in zig-zag order. -/
theorem getD_map_order {α : Type} (f : Nat → α) (dflt : α) {k : Nat} (hk : k < 64) :
    (zigzagOrder.map f).getD k dflt = f (zigzagOrder.getD k 0) := by
  have hlen : k < zigzagOrder.length := hk
  rw [List.getD_eq_getElem _ _ (by rwa [List.length_map]), List.getElem_map, List.getD_eq_getElem _ _ hlen]

/-- Entry `k` of the zig-zag order of a block. -/
theorem zigzag_getD {m : Memory} {d : Desc} {r c k : Nat} (hk : k < 64) :
    (zigzag 0 (readBlock m d r c)).getD k 0 =
      elementAt m d (r + zigzagOrder.getD k 0 / 8) (c + zigzagOrder.getD k 0 % 8) := by
  have hlt : ∀ k < 64, zigzagOrder.getD k 0 < 64 := by decide
  have hpos := hlt k hk
  rw [zigzag_eq_map 0 _ (readBlock_isBlock m d r c), readBlock_eq_map, getD_map_order _ _ hk,
    cellAt_map _ _ 8 8 _ _ (by omega) (by omega)]

/-- The block of a window holds entry `k` of the window at zig-zag position `k`. -/
theorem cellAt_unzigzag {ws : List Word} (hl : ws.length = 64) {k : Nat} (hk : k < 64) :
    cellAt (unzigzag 0 ws) 0 (zigzagOrder.getD k 0 / 8) (zigzagOrder.getD k 0 % 8) = ws.getD k 0 := by
  conv_rhs => rw [← zigzag_unzigzag 0 ws hl, zigzag_eq_map 0 _ (unzigzag_isBlock 0 ws), getD_map_order _ _ hk]

/-! The blocks of a sequence -/

/-- A list of `n` blocks of `w` entries, cut into its blocks. -/
theorem chunks_map_range {α : Type} (w n : Nat) (f : Nat → α) :
    chunks w n ((List.range (w * n)).map f) = (List.range n).map fun b => (List.range w).map fun k => f (w * b + k) := by
  induction n generalizing f with
  | zero => rfl
  | succ n ih =>
    have hsplit : (List.range (w * (n + 1))).map f =
        (List.range w).map f ++ (List.range (w * n)).map fun k => f (w + k) := by
      rw [Nat.mul_succ, Nat.add_comm, List.range_add, List.map_append, List.map_map]
      rfl
    rw [hsplit, chunks, List.take_left' (by simp), List.drop_left' (by simp), ih, List.range_succ_eq_map, List.map_cons,
      List.map_map]
    simp only [Function.comp_def, Nat.mul_zero, Nat.zero_add, Nat.mul_succ, Nat.succ_eq_add_one, Nat.add_comm w,
      Nat.add_assoc]

/-- The blocks that ENC reads (44_entropy R617). -/
theorem blocksOf_eq_chunks (m : Memory) (d : Desc) (nblk : Nat) :
    blocksOf m d nblk = chunks 64 nblk ((readSeq m d 0 (64 * nblk)).map s32) := by
  have hread : (readSeq m d 0 (64 * nblk)).map s32 =
      (List.range (64 * nblk)).map fun k => s32 (wordAt m (d.base.toNat + 4 * k)) := by
    rw [readSeq_eq_map, List.map_map]
    exact List.map_congr_left fun k _ => by rw [Function.comp_apply, Nat.zero_add]
  rw [hread, chunks_map_range, blocksOf]

/-! ENC and DEC past their checks -/

section
variable {s : State} {a b : DescReg} {nblk : Nat}

theorem passes_enc (ha : (s.desc a).sequenceOk s.cfg.lmemBytes) (hb : (s.desc b).streamOk s.cfg.lmemBytes)
    (hn : (s.desc a).holdsBlocks nblk) (hap : (streamFootprint (s.desc b)).apart (prefixFootprint (s.desc a) nblk)) :
    firstFault (checks (.enc a b nblk) s) = none := by
  simp only [checks, firstFault_append_eq_none, sequenceChecks_pass, streamChecks_pass, firstFault_cons_eq_none,
    firstFault_nil, not_not, overlapChecks_pass_one]
  exact ⟨⟨⟨ha, hb⟩, hn, trivial⟩, hap⟩

theorem passes_dec (ha : (s.desc a).streamOk s.cfg.lmemBytes) (hb : (s.desc b).sequenceOk s.cfg.lmemBytes)
    (hn : (s.desc b).holdsBlocks nblk) (hap : (prefixFootprint (s.desc b) nblk).apart (streamFootprint (s.desc a))) :
    firstFault (checks (.dec a b nblk) s) = none := by
  simp only [checks, firstFault_append_eq_none, sequenceChecks_pass, streamChecks_pass, firstFault_cons_eq_none,
    firstFault_nil, not_not, overlapChecks_pass_one]
  exact ⟨⟨⟨ha, hb⟩, hn, trivial⟩, hap⟩

theorem afterChecks_enc : afterChecks (.enc a b nblk) s =
    (orDraw (streamRanges (s.desc b)) (entropyEncode s.emode (blocksOf s.lmem (s.desc a) nblk)) >>= fun e =>
      drawWhen (e.length > (s.desc b).len.toNat) .streamOverflow (streamRanges (s.desc b)) >>= fun _ =>
      pure ((s.setLmem (writeStream s.lmem (s.desc b) e)).setRes 0 (BitVec.ofNat 32 e.length))) := by
  rw [blocksOf_eq_chunks]
  rfl

theorem afterChecks_dec_ok {blks : List (List Int)} {used : Nat}
    (h : entropyDecode s.emode (bytesOf s.lmem (s.desc a)) nblk = .ok (blks, used)) :
    afterChecks (.dec a b nblk) s = .ok ((s.setLmem (writeSeq s.lmem (s.desc b) 0 (blks.flatten.map u32))).setRes01
      statusOk (BitVec.ofNat 32 used)) := by
  simp only [afterChecks, readStream_eq_bytesOf, h]
  rfl

theorem afterChecks_dec_stop {st : DecodeStop}
    (h : entropyDecode s.emode (bytesOf s.lmem (s.desc a)) nblk = .error st) :
    afterChecks (.dec a b nblk) s = .ok (s.setRes01 st.status 0) := by
  simp only [afterChecks, readStream_eq_bytesOf, h]
  rfl

end

/-- A computation of bytes for an output stream, by its cases: the bytes fit, they do not, or there are none. -/
theorem toStream_cases {α β : Type} (drawn : List (Nat × Nat)) (r : Except FaultCode α) (long : α → Prop)
    [DecidablePred long] (g : α → β) :
    (orDraw drawn r >>= fun y => drawWhen (long y) .streamOverflow drawn >>= fun _ => (pure (g y) : Checked β)) =
      match r with
      | .ok y => if long y then .error ⟨.streamOverflow, drawn⟩ else .ok (g y)
      | .error code => .error ⟨code, drawn⟩ := by
  cases r with
  | error code => rfl
  | ok y =>
    by_cases h : long y
    · rw [show orDraw drawn (Except.ok y) = .ok y from rfl, checked_bind_ok, drawWhen, if_pos h]
      exact (if_pos h).symm
    · rw [show orDraw drawn (Except.ok y) = .ok y from rfl, checked_bind_ok, drawWhen, if_neg h]
      exact (if_neg h).symm

/-! A command that puts bytes of its own making in an output stream (44_entropy R617; 60_exceptions R903) -/

section
variable {i : Instr} {s : State} {d : Desc} {α : Type} {r : Except FaultCode α} {long : α → Prop} [DecidablePred long]
  {g : α → State} (hpass : firstFault (checks i s) = none)
  (hafter : afterChecks i s = (orDraw (streamRanges d) r >>= fun y =>
    drawWhen (long y) .streamOverflow (streamRanges d) >>= fun _ => pure (g y)))
include hpass hafter

theorem exec_toStream_completes {y : α} (hr : r = .ok y) (hfit : ¬ long y) :
    exec i s = .next ((g y).advance i.length) := by
  refine exec_completes hpass ?_
  rw [hafter, toStream_cases, hr]
  exact if_neg hfit

/-- Its execution faults draw the whole stream. -/
theorem exec_toStream_faults {code : FaultCode}
    (h : r = .error code ∨ code = .streamOverflow ∧ ∃ y, r = .ok y ∧ long y) :
    ∃ m', exec i s = .next { s.faultedWith code.code i.header with lmem := m', draws := s.draws + 1 } ∧
      sameOutside s.lmem m' (rangeBytes d.base.toNat d.len.toNat) := by
  have hraise : afterChecks i s = .error ⟨code, streamRanges d⟩ := by
    rw [hafter, toStream_cases]
    rcases h with hr | ⟨rfl, y, hr, hlong⟩
    · rw [hr]
    · rw [hr]
      exact if_pos hlong
  exact ⟨_, exec_raises hpass hraise, (drawStream_writes _ _ _).outside⟩

end

end Sys2Proof.Machine

namespace Sys2Proof

open Sys2Proof.Machine

/-- Settles O33: each copy writes the words of the other operand, in zig-zag order. -/
theorem zigzagCommands : Obligations.ZigzagCommands := by
  intro a b r c index s
  refine ⟨exec_faultsOnChecks _ s, exec_faultsOnChecks _ s, fun ha hb hblock hwin hap => ?_, fun ha hb hblock hwin hap => ?_⟩
  · have hpass : firstFault (checks (.zigzag a b r c index) s) = none := by
      simp only [checks, firstFault_append_eq_none, matrixChecks_pass, sequenceChecks_pass, firstFault_cons_eq_none,
        firstFault_nil, not_not, overlapChecks_pass_one]
      exact ⟨⟨⟨ha, hb⟩, hblock, hwin, trivial⟩, hap⟩
    have hlen := zigzag_length 0 (readBlock s.lmem (s.desc a) r c)
    refine ⟨_, exec_completes (u := s.setLmem (writeSeq s.lmem (s.desc b) index (zigzag 0 (readBlock s.lmem (s.desc a) r c))))
      hpass rfl, fun k hk => ?_, ?_⟩
    · exact (wordAt_writeSeq s.lmem _ index _ (by rwa [hlen])).trans (zigzag_getD hk)
    · have hw := writeSeq_writes s.lmem (s.desc b) index (zigzag 0 (readBlock s.lmem (s.desc a) r c))
      rw [hlen] at hw
      exact hw.outside
  · have hpass : firstFault (checks (.unzigzag a b index r c) s) = none := by
      simp only [checks, firstFault_append_eq_none, matrixChecks_pass, sequenceChecks_pass, firstFault_cons_eq_none,
        firstFault_nil, not_not, overlapChecks_pass_one]
      exact ⟨⟨⟨ha, hb⟩, hblock, hwin, trivial⟩, hap⟩
    have hshape := unzigzag_isBlock 0 (readSeq s.lmem (s.desc a) index 64)
    have hafter : afterChecks (.unzigzag a b index r c) s =
        .ok (s.setLmem (writeBlock s.lmem (s.desc b) r c (unzigzag 0 (readSeq s.lmem (s.desc a) index 64)))) := by
      rw [afterChecks, checked_pure_eq_ok]
    refine ⟨writeBlock s.lmem (s.desc b) r c (unzigzag 0 (readSeq s.lmem (s.desc a) index 64)), exec_setLmem hpass hafter,
      fun k hk => ?_, (writeBlock_writes s.lmem (s.desc b) r c hshape).outside⟩
    have hlt : ∀ k < 64, zigzagOrder.getD k 0 < 64 := by decide
    have hpos := hlt k hk
    refine (elementAt_writeBlock hb hblock s.lmem hshape (by omega) (by omega)).trans ?_
    rw [cellAt_unzigzag (by rw [readSeq_eq_map, List.length_map, List.length_range]) hk, readSeq_eq_map,
      List.getD_eq_getElem _ _ (by rwa [List.length_map, List.length_range]), List.getElem_map, List.getElem_range]

/-- Settles O39: ENC's three ends, by what the encoder answers and whether it fits. -/
theorem encCommand : Obligations.EncCommand := by
  intro a b nblk s
  refine ⟨exec_faultsOnChecks _ s, fun ha hb hn hap => ?_⟩
  have hpass := passes_enc ha hb hn hap
  have hfault {code : FaultCode} := exec_toStream_faults hpass afterChecks_enc (code := code)
  cases he : entropyEncode s.emode (blocksOf s.lmem (s.desc a) nblk) with
  | error code =>
    obtain rfl := entropyEncode_eq_error he
    obtain ⟨m', hexec, hsame⟩ := hfault (.inl he)
    exact ⟨m', rfl, hexec, hsame⟩
  | ok e =>
    dsimp only
    split
    case isTrue hfit =>
      exact ⟨_, exec_toStream_completes hpass afterChecks_enc he (Nat.not_lt.mpr hfit), holdsBytes_writeStream _ _ _,
        (writeStream_writesBytes _ _ _).outside⟩
    case isFalse hlong => exact hfault (.inr ⟨rfl, e, he, Nat.not_le.mp hlong⟩)

/-- Settles O40: DEC's three ends, by what the decoder answers. -/
theorem decCommand : Obligations.DecCommand := by
  intro a b nblk s
  refine ⟨exec_faultsOnChecks _ s, fun ha hb hn hap => ?_⟩
  have hpass := passes_dec ha hb hn hap
  split
  case h_1 blks used hd =>
    have hlen : (blks.flatten.map u32).length = 64 * nblk := by
      rw [List.length_map, (entropyDecode_shaped hd).flatten_length]
    refine ⟨_, exec_completes hpass (afterChecks_dec_ok hd), fun k hk => ?_, ?_⟩
    · have hword := wordAt_writeSeq s.lmem (s.desc b) 0 (blks.flatten.map u32) (k := k) (by rwa [hlen])
      rw [Nat.zero_add, List.getD_eq_getElem _ _ (by rwa [hlen]), List.getElem_map] at hword
      rw [List.getD_eq_getElem _ _ (by rwa [← List.length_map (f := u32), hlen])]
      exact hword
    · have hw := writeSeq_writes s.lmem (s.desc b) 0 (blks.flatten.map u32)
      rw [hlen, show 4 * (64 * nblk) = 256 * nblk by omega] at hw
      exact hw.outside
  case h_2 hd => exact exec_completes hpass (afterChecks_dec_stop hd)
  case h_3 hd => exact exec_completes hpass (afterChecks_dec_stop hd)

end Sys2Proof
end


section
/-! The RLE backend (44_entropy R614-R616), and the round trip of ENC and DEC through LMEM (R617, R618). -/

namespace Sys2Proof.Machine

/-! What the RLE encoder answers -/

theorem rleWords_zero (run : Nat) (vs : List Int) : rleWords run (0 :: vs) = rleWords (run + 1) vs := by
  rw [rleWords, if_pos rfl]

/-- A value that is not 0 is coded, in range, as its 16-bit word behind the zeros before it. -/
theorem rleWords_cons_eq_ok_iff {run : Nat} {v : Int} (hv : v ≠ 0) {vs : List Int} {ws : List Nat} :
    rleWords run (v :: vs) = .ok ws ↔ (-32768 ≤ v ∧ v ≤ 32767) ∧ ∃ rest, rleWords 0 vs = .ok rest ∧
      ws = rleFlush run ++ (v % 65536).toNat :: rest := by
  rw [rleWords, if_neg hv]
  split
  case isTrue h =>
    have hout : ¬ (-32768 ≤ v ∧ v ≤ 32767) := by omega
    simp [hout]
  case isFalse h =>
    have hin : -32768 ≤ v ∧ v ≤ 32767 := by omega
    cases rleWords 0 vs <;> simp [hin, eq_comm]

theorem exists_rleWords_iff (run : Nat) (vs : List Int) :
    (∃ ws, rleWords run vs = .ok ws) ↔ ∀ v ∈ vs, -32768 ≤ v ∧ v ≤ 32767 := by
  induction vs generalizing run with
  | nil => simp [rleWords]
  | cons v vs ih =>
    rw [List.forall_mem_cons]
    rcases eq_or_ne v 0 with rfl | hv
    · simp [rleWords_zero, ih]
    · rw [← ih 0]
      simp only [rleWords_cons_eq_ok_iff hv, exists_and_left]
      rw [exists_comm]
      simp

theorem exists_mapExcept_iff {ε α β : Type} (f : α → Except ε β) (xs : List α) :
    (∃ ys, mapExcept f xs = .ok ys) ↔ ∀ x ∈ xs, ∃ y, f x = .ok y := by
  induction xs with
  | nil => simp [mapExcept]
  | cons x xs ih =>
    rw [List.forall_mem_cons, ← ih]
    cases hx : f x <;> cases hxs : mapExcept f xs <;> simp [mapExcept, hx, hxs]

theorem rleEncode_eq_ok_iff {blks : List (List Int)} {e : List Byte} :
    rleEncode blks = .ok e ↔ ∃ ws, mapExcept (rleWords 0) blks = .ok ws ∧ e = ws.flatten.flatMap rleBytes := by
  rw [rleEncode]
  cases mapExcept (rleWords 0) blks <;> simp [eq_comm]

theorem exists_rleEncode_iff (blks : List (List Int)) :
    (∃ e, rleEncode blks = .ok e) ↔ ∀ blk ∈ blks, ∀ v ∈ blk, -32768 ≤ v ∧ v ≤ 32767 := by
  simp only [← exists_rleWords_iff 0, ← exists_mapExcept_iff, rleEncode_eq_ok_iff]
  rw [exists_comm]
  simp

/-! One turn of the decoder -/

theorem rleWord_rleBytes {w : Nat} (hw : w < 65536) (rest : List Byte) : rleWord (rleBytes w ++ rest) = .ok (w, rest) := by
  simp only [rleBytes, List.cons_append, List.nil_append, rleWord, BitVec.toNat_ofNat]
  exact congrArg (fun n => Except.ok (n, rest)) (by omega)

/-- A value in range comes back from its 16-bit word. -/
theorem sext16_emod {v : Int} (h1 : -32768 ≤ v) (h2 : v ≤ 32767) : sext16 (v % 65536).toNat = v := by
  unfold sext16
  split <;> omega

theorem rleDecodeFrom_end (fuel : Nat) (bs : List Byte) : rleDecodeFrom (fuel + 1) 64 bs = .ok ([], bs) := rfl

/-- A run of zeros, and the block goes on. -/
theorem rleDecodeFrom_run {fuel k run : Nat} (hrun : run ≠ 0) (hk : k + run ≤ 64) {bs rest : List Byte} {vs : List Int}
    (h : rleDecodeFrom fuel (k + run) bs = .ok (vs, rest)) :
    rleDecodeFrom (fuel + 1) k ((rleFlush run).flatMap rleBytes ++ bs) = .ok (List.replicate run 0 ++ vs, rest) := by
  have hk63 : ¬ k > 63 := by omega
  have hroom : ¬ (run = 0 ∨ run > 64 - k) := by omega
  have hbytes : (rleFlush run).flatMap rleBytes ++ bs = rleBytes 0 ++ (rleBytes run ++ bs) := by simp [rleFlush, hrun]
  rw [hbytes]
  simp only [rleDecodeFrom, hk63, if_false, rleWord_rleBytes (show 0 < 65536 by omega) _, if_true,
    rleWord_rleBytes (show run < 65536 by omega) _, hroom, h]

/-- A value that is not 0, and the block goes on. -/
theorem rleDecodeFrom_value {fuel k : Nat} {v : Int} (hk : k ≤ 63) (hv : v ≠ 0) (h1 : -32768 ≤ v) (h2 : v ≤ 32767)
    {bs rest : List Byte} {vs : List Int} (h : rleDecodeFrom fuel (k + 1) bs = .ok (vs, rest)) :
    rleDecodeFrom (fuel + 1) k (rleBytes (v % 65536).toNat ++ bs) = .ok (v :: vs, rest) := by
  have hk63 : ¬ k > 63 := by omega
  have hw : (v % 65536).toNat ≠ 0 := by omega
  simp only [rleDecodeFrom, hk63, if_false, rleWord_rleBytes (show (v % 65536).toNat < 65536 by omega) _, hw, h,
    sext16_emod h1 h2]

/-! Decoding undoes encoding -/

/-- The words encoded after `run` zeros, decoded from where these zeros began, give the zeros and the values. -/
theorem rleDecodeFrom_rleWords {run : Nat} {vs : List Int} {ws : List Nat} (h : rleWords run vs = .ok ws) {k fuel : Nat}
    (hk : k + run + vs.length = 64) (hfuel : 64 < fuel + k) (rest : List Byte) :
    rleDecodeFrom fuel k (ws.flatMap rleBytes ++ rest) = .ok (List.replicate run 0 ++ vs, rest) := by
  induction vs generalizing run ws k fuel with
  | nil =>
    rw [List.length_nil] at hk
    obtain ⟨f, rfl⟩ : ∃ f, fuel = f + 1 := ⟨fuel - 1, by omega⟩
    obtain rfl : rleFlush run = ws := by simpa [rleWords] using h
    rcases Nat.eq_zero_or_pos run with rfl | hrun
    · obtain rfl : k = 64 := by omega
      rfl
    · obtain ⟨g, rfl⟩ : ∃ g, f = g + 1 := ⟨f - 1, by omega⟩
      have hend := rleDecodeFrom_end g rest
      rw [show 64 = k + run by omega] at hend
      exact rleDecodeFrom_run hrun.ne' (by omega) hend
  | cons v vs ih =>
    rw [List.length_cons] at hk
    rcases eq_or_ne v 0 with rfl | hv
    · rw [rleWords_zero] at h
      rw [ih h (by omega) hfuel, List.replicate_succ', List.append_assoc]
      rfl
    · obtain ⟨⟨h1, h2⟩, more, hmore, rfl⟩ := (rleWords_cons_eq_ok_iff hv).mp h
      have hbytes : (rleFlush run ++ (v % 65536).toNat :: more).flatMap rleBytes ++ rest =
          (rleFlush run).flatMap rleBytes ++ (rleBytes (v % 65536).toNat ++ (more.flatMap rleBytes ++ rest)) := by
        simp
      rw [hbytes]
      rcases Nat.eq_zero_or_pos run with rfl | hrun
      · obtain ⟨f, rfl⟩ : ∃ f, fuel = f + 1 := ⟨fuel - 1, by omega⟩
        exact rleDecodeFrom_value (by omega) hv h1 h2 (ih hmore (by omega) (by omega))
      · obtain ⟨f, rfl⟩ : ∃ f, fuel = f + 1 + 1 := ⟨fuel - 2, by omega⟩
        exact rleDecodeFrom_run hrun.ne' (by omega)
          (rleDecodeFrom_value (by omega) hv h1 h2 (ih hmore (by omega) (by omega)))

/-- Every block comes back, with the bytes behind them left over. -/
theorem rleDecodeBlocks_rleWords {blks : List (List Int)} {ws : List (List Nat)}
    (h : mapExcept (rleWords 0) blks = .ok ws) (hblks : ∀ blk ∈ blks, blk.length = 64) (rest : List Byte) :
    rleDecodeBlocks blks.length (ws.flatten.flatMap rleBytes ++ rest) = .ok (blks, rest) := by
  induction (mapExcept_eq_ok _ _ _).mp h with
  | nil => rfl
  | @cons blk w blks ws hblk hrest ih =>
    obtain ⟨hlen, hmore⟩ := List.forall_mem_cons.mp hblks
    have hfirst := rleDecodeFrom_rleWords hblk (k := 0) (fuel := 65) (by omega) (by omega)
      (ws.flatten.flatMap rleBytes ++ rest)
    have hblocks := ih ((mapExcept_eq_ok _ _ _).mpr hrest) hmore
    rw [List.replicate_zero, List.nil_append] at hfirst
    simp only [List.length_cons, rleDecodeBlocks, List.flatten_cons, List.flatMap_append, List.append_assoc, hfirst,
      hblocks]

theorem rleDecode_rleEncode {blks : List (List Int)} {e : List Byte} (h : rleEncode blks = .ok e)
    (hblks : ∀ blk ∈ blks, blk.length = 64) : rleDecode e blks.length = .ok (blks, e.length) := by
  obtain ⟨ws, hws, rfl⟩ := rleEncode_eq_ok_iff.mp h
  have hblocks := rleDecodeBlocks_rleWords hws hblks []
  rw [List.append_nil] at hblocks
  rw [rleDecode, hblocks]
  rfl

/-- Entropy decoding undoes entropy encoding in either mode (44_entropy R611, R616). -/
theorem entropyDecode_entropyEncode {emode : Word} {blks : List (List Int)} {e : List Byte}
    (h : entropyEncode emode blks = .ok e) (hblks : ∀ blk ∈ blks, blk.length = 64 ∧ ∀ v ∈ blk, inS32 v = true) :
    entropyDecode emode e blks.length = .ok (blks, e.length) := by
  unfold entropyEncode at h
  unfold entropyDecode
  split
  case isTrue hm =>
    rw [if_pos hm] at h
    exact huffDecode_huffEncode h hblks
  case isFalse hm =>
    rw [if_neg hm] at h
    exact rleDecode_rleEncode h fun blk hblk => (hblks blk hblk).1

/-! Through LMEM -/

theorem inS32_s32 (w : Word) : inS32 (s32 w) = true := by
  have := w.isLt
  unfold inS32 s32
  split <;> simp <;> omega

/-- A command that does not end FAULTED passed its checks and completed. -/
theorem completed_of_notFaulted {i : Instr} {s t : State} (h : exec i s = .next t) (ht : t.engine ≠ .faulted) :
    firstFault (checks i s) = none ∧ ∃ u, afterChecks i s = .ok u ∧ t = u.advance i.length := by
  cases outcome_of_exec h with
  | checkFault | executionFault => exact absurd rfl ht
  | completes u hp hu => exact ⟨hp, u, hu, rfl⟩

/-- The blocks of a sequence are blocks of 64 values of the s32 range. -/
theorem blocksOf_inS32 (m : Memory) (d : Desc) (nblk : Nat) :
    ∀ blk ∈ blocksOf m d nblk, blk.length = 64 ∧ ∀ v ∈ blk, inS32 v = true := by
  intro blk hblk
  obtain ⟨b, -, rfl⟩ := List.mem_map.mp hblk
  refine ⟨by rw [List.length_map, List.length_range], fun v hv => ?_⟩
  obtain ⟨k, -, rfl⟩ := List.mem_map.mp hv
  exact inS32_s32 _

theorem blocksOf_length (m : Memory) (d : Desc) (nblk : Nat) : (blocksOf m d nblk).length = nblk := by
  rw [blocksOf, List.length_map, List.length_range]

/-- Element `k` of the blocks of a sequence, put together. -/
theorem blocksOf_flatten_getD (m : Memory) (d : Desc) {nblk k : Nat} (hk : k < 64 * nblk) :
    (blocksOf m d nblk).flatten.getD k 0 = s32 (wordAt m (d.base.toNat + 4 * k)) := by
  have hrow : (List.range nblk)[k / 64]? = some (k / 64) := List.getElem?_range (by omega)
  have h := flatMap_getD (fun b => (List.range 64).map fun j => s32 (wordAt m (d.base.toNat + 4 * (64 * b + j))))
    (List.range nblk) 64 (fun _ _ => by rw [List.length_map, List.length_range]) 0 (k / 64) (k % 64) (by omega) _ hrow
  rw [Nat.div_add_mod] at h
  rw [blocksOf, ← List.flatMap_def, h, List.getD_eq_getElem _ _ (by rw [List.length_map, List.length_range]; omega),
    List.getElem_map, List.getElem_range, Nat.div_add_mod]

/-- Bytes that stand from an address on are what a stream of their length reads. -/
theorem bytesOf_of_holdsBytes {m : Memory} {d : Desc} {bs : List Byte} (h : holdsBytes m d.base.toNat bs)
    (hlen : d.len.toNat = bs.length) : bytesOf m d = bs := by
  rw [eq_map_getD bs 0 _ rfl, bytesOf, hlen]
  exact List.map_congr_left fun k hk => h k (List.mem_range.mp hk)

/-- What ENC leaves when it completes. -/
theorem enc_completed {a b : DescReg} {nblk : Nat} {s t : State} (h : exec (.enc a b nblk) s = .next t)
    (ht : t.engine = .running) :
    firstFault (checks (.enc a b nblk) s) = none ∧ ∃ e, entropyEncode s.emode (blocksOf s.lmem (s.desc a) nblk) = .ok e ∧
      e.length ≤ (s.desc b).len.toNat ∧
      t = ((s.setLmem (writeStream s.lmem (s.desc b) e)).setRes 0 (BitVec.ofNat 32 e.length)).advance 8 := by
  obtain ⟨hpass, u, hu, rfl⟩ := completed_of_notFaulted h (by simp [ht])
  rw [afterChecks_enc, toStream_cases] at hu
  refine ⟨hpass, ?_⟩
  split at hu
  case h_1 e he =>
    split at hu <;> cases hu
    case isFalse hfit => exact ⟨e, he, Nat.le_of_not_lt hfit, rfl⟩
  case h_2 => cases hu

theorem sameDesc_of_ne {s t : State} {a c : DescReg} {d : Desc} (h : t.descs = s.descs.set c d) (hne : a ≠ c) :
    t.desc a = s.desc a := by
  rw [State.desc, State.desc, h]
  exact Vector.getElem_set_ne _ _ fun hv => hne (Fin.ext hv.symm)

theorem desc_of_set {s t : State} {c : DescReg} {d : Desc} (h : t.descs = s.descs.set c d) : t.desc c = d := by
  rw [State.desc, h]
  exact Vector.getElem_set_self _

end Sys2Proof.Machine

namespace Sys2Proof

open Sys2Proof.Machine

/-- Settles O41: the stream that D[c] names holds the encoding, and it decodes to the blocks that were encoded. -/
theorem encThenDec : Obligations.EncThenDec := by
  intro a b c nblk s t u he h ht hac hu
  obtain ⟨hpass, e, henc, hfit, hleft⟩ := enc_completed h ht
  have hres : t.res[0] = BitVec.ofNat 32 e.length := by rw [hleft]; simp
  simp only [checks, firstFault_append_eq_none, sequenceChecks_pass, streamChecks_pass, firstFault_cons_eq_none,
    firstFault_nil, not_not, overlapChecks_pass_one] at hpass
  obtain ⟨⟨⟨hseq, hstr⟩, hblocks, -⟩, hap⟩ := hpass
  have hlt : e.length < 2 ^ 32 := hfit.trans_lt (s.desc b).len.isLt
  have hdescs : u.descs = s.descs.set c { s.desc b with len := BitVec.ofNat 32 e.length } := by
    rw [hu, hres, hleft]
    rfl
  have hmem : u.lmem = writeStream s.lmem (s.desc b) e := by rw [hu, hleft]; rfl
  have hmode : u.emode = s.emode := by rw [hu, hleft]; rfl
  have hcfg : u.cfg = s.cfg := by rw [hu, hleft]; rfl
  have hda := sameDesc_of_ne hdescs hac
  have hdc := desc_of_set hdescs
  have hlen : (u.desc c).len.toNat = e.length := by
    rw [hdc]
    exact Nat.mod_eq_of_lt hlt
  have hbase : (u.desc c).base = (s.desc b).base := by rw [hdc]
  have hbytes : bytesOf u.lmem (u.desc c) = e := by
    refine bytesOf_of_holdsBytes ?_ hlen
    rw [hmem, hbase]
    exact holdsBytes_writeStream _ _ _
  have hstream : (u.desc c).streamOk u.cfg.lmemBytes := by
    rw [Desc.streamOk, hbase, hlen, hcfg]
    exact (Nat.add_le_add_left hfit _).trans hstr
  have hapart : (prefixFootprint (u.desc a) nblk).apart (streamFootprint (u.desc c)) := by
    simp only [Footprint.apart, streamFootprint, prefixFootprint, hbase, hlen, hda] at hap ⊢
    omega
  have hdecode : entropyDecode u.emode (bytesOf u.lmem (u.desc c)) nblk =
      .ok (blocksOf s.lmem (s.desc a) nblk, e.length) := by
    rw [hbytes]
    have hback := entropyDecode_entropyEncode henc (blocksOf_inS32 _ _ _)
    rwa [blocksOf_length, ← hmode] at hback
  have hchecks := passes_dec hstream (by rw [hda, hcfg]; exact hseq) (by rw [hda]; exact hblocks) hapart
  refine ⟨_, exec_completes hchecks (afterChecks_dec_ok hdecode), ?_, ?_, fun k hk => ?_⟩
  · simp [statusOk]
  · simp [hres]
  · have hflat : ((blocksOf s.lmem (s.desc a) nblk).flatten.map u32).length = 64 * nblk := by
      rw [List.length_map, blocksShaped.flatten_length ⟨blocksOf_length _ _ _, fun blk hblk =>
        (blocksOf_inS32 _ _ _ blk hblk).1⟩]
    have hword := wordAt_writeSeq u.lmem (u.desc a) 0 ((blocksOf s.lmem (s.desc a) nblk).flatten.map u32) (k := k)
      (by rwa [hflat])
    have hentry : ((blocksOf s.lmem (s.desc a) nblk).flatten.map u32).getD k 0 =
        wordAt s.lmem ((s.desc a).base.toNat + 4 * k) := by
      have hk' : k < (blocksOf s.lmem (s.desc a) nblk).flatten.length := by rwa [← List.length_map (f := u32), hflat]
      rw [List.getD_eq_getElem _ _ (by rwa [hflat]), List.getElem_map, ← List.getD_eq_getElem _ 0 hk',
        blocksOf_flatten_getD _ _ hk, u32_s32]
    rw [hentry, Nat.zero_add, hda] at hword
    rw [← hword, hda]
    rfl

/-- Settles O38: each value comes back from its word, each run of zeros from its two. -/
theorem rleRoundTrip : Obligations.RleRoundTrip := by
  intro blks hblks
  exact ⟨fun e he => rleDecode_rleEncode he hblks, exists_rleEncode_iff blks⟩

end Sys2Proof
end


section
/-! The commands that write whole matrices: RGB2YCC, YCC2RGB, SCALE and CVREAD, and the canvas commands CVRESET and CVSET
(41_color R450-R454; 47_compositor R801-R805). -/

namespace Sys2Proof.Machine

/-! Operands apart -/

theorem Footprint.apart_comm (f g : Footprint) : f.apart g ↔ g.apart f := by
  simp only [Footprint.apart]
  omega

/-- Footprints apart share no byte. -/
theorem Footprint.apart.disjoint {f g : Footprint} (h : f.apart g) {a : Nat} (hf : rangeBytes f.lo f.len a) :
    ¬ rangeBytes g.lo g.len a := by
  simp only [Footprint.apart, rangeBytes] at h hf ⊢
  omega

/-- The four bytes of an element are bytes of its matrix. -/
theorem element_matrixBytes {d : Desc} {i j b : Nat} (hi : i < d.rows.toNat) (hj : j < d.cols.toNat) (hb : b < 4) :
    matrixBytes d (matAddr d i j + b) := by
  refine ⟨i, j, hi, hj, ?_⟩
  rw [Nat.zero_add, Nat.zero_add, rangeBytes]
  omega

/-- A write outside a matrix leaves its elements. -/
theorem elementAt_of_writes {f : Footprint} {d : Desc} {m m' : Memory}
    (hw : Memory.WritesWithin (rangeBytes f.lo f.len) m m') (hap : f.apart (matrixFootprint d)) {i j : Nat}
    (hi : i < d.rows.toNat) (hj : j < d.cols.toNat) : elementAt m' d i j = elementAt m d i j :=
  wordAt_congr m m' _ fun _ hb => hw.outside _
    (((Footprint.apart_comm _ _).mp hap).disjoint (matrixBytes_footprint (element_matrixBytes hi hj hb)))

/-! Channels and pixels -/

theorem clamp_range {lo hi : Int} (h : lo ≤ hi) (v : Int) : lo ≤ clamp v lo hi ∧ clamp v lo hi ≤ hi := by
  unfold clamp
  split
  · omega
  · split <;> omega

theorem toChannel_toNat_lt (x : F64) : (toChannel x).toNat < 256 := by
  have := clamp_range (show (0 : Int) ≤ 255 by omega) x.round
  rw [toChannel]
  omega

/-- The word of three channels (20_memory R203). -/
theorem rgb_toNat {r g b : Int} (hr : r.toNat < 256) (hg : g.toNat < 256) (hb : b.toNat < 256) :
    (rgb r g b).toNat = r.toNat * 2 ^ 16 + g.toNat * 2 ^ 8 + b.toNat := by
  rw [rgb, BitVec.toNat_ofNat, Nat.mod_eq_of_lt hr, Nat.mod_eq_of_lt hg, Nat.mod_eq_of_lt hb]
  omega

/-- A linear form reads the three channels of the word (00_scope R15, 41_color R450). -/
theorem linearForm_eq (k0 k1 k2 : F64) (p : Word) :
    linearForm k0 k1 k2 p =
      ((k0.mul (F64.ofInt ((p.toNat / 2 ^ 16 % 256 : Nat) : Int))).add
        (k1.mul (F64.ofInt ((p.toNat / 2 ^ 8 % 256 : Nat) : Int)))).add (k2.mul (F64.ofInt ((p.toNat % 256 : Nat) : Int))) := by
  have hblue : blueOf p = p.toNat % 256 := by simp [blueOf, bitField]
  rw [linearForm, hblue]
  rfl

/-! RGB2YCC and YCC2RGB past their checks -/

section
variable {s : State} {a b c d : DescReg}

theorem passes_rgb2ycc (ha : (s.desc a).matrixOk s.cfg.lmemBytes) (hb : (s.desc b).matrixOk s.cfg.lmemBytes)
    (hc : (s.desc c).matrixOk s.cfg.lmemBytes) (hd : (s.desc d).matrixOk s.cfg.lmemBytes) (he : (s.desc a).evenSides)
    (hsb : (s.desc b).shaped (s.desc a).rows.toNat (s.desc a).cols.toNat)
    (hsc : (s.desc c).shaped ((s.desc a).rows.toNat / 2) ((s.desc a).cols.toNat / 2))
    (hsd : (s.desc d).shaped ((s.desc a).rows.toNat / 2) ((s.desc a).cols.toNat / 2))
    (hap : [matrixFootprint (s.desc a), matrixFootprint (s.desc b), matrixFootprint (s.desc c),
      matrixFootprint (s.desc d)].Pairwise Footprint.apart) : firstFault (checks (.rgb2ycc a b c d) s) = none := by
  simp only [checks, firstFault_append_eq_none, matrixChecks_pass, firstFault_cons_eq_none, firstFault_nil, not_not,
    overlapChecks_pass]
  obtain ⟨hin, hout⟩ := List.pairwise_cons.mp hap
  refine ⟨⟨⟨⟨⟨ha, hb⟩, hc⟩, hd⟩, ⟨he, hsb, hsc, hsd⟩, trivial⟩, fun o ho f hf => ?_, hout⟩
  rw [List.mem_singleton] at hf
  rw [hf, Footprint.apart_comm]
  exact hin o ho

/-- What RGB2YCC computes: the three planes of the pixels, one written after the other. -/
theorem afterChecks_rgb2ycc : afterChecks (.rgb2ycc a b c d) s =
    .ok (s.setLmem (writeMatrix (writeMatrix (writeMatrix s.lmem (s.desc b)
      (sampleWords (lumaPlane (pixelsOf s.lmem (s.desc a))))) (s.desc c)
      (sampleWords (chromaPlane cbForm (pixelsOf s.lmem (s.desc a))))) (s.desc d)
      (sampleWords (chromaPlane crForm (pixelsOf s.lmem (s.desc a)))))) := by
  rw [← pixels_readMatrix]
  rfl

/-- A plane of samples written over a matrix of its shape. -/
theorem elementAt_writeSamples {n h w : Nat} {e : Desc} (he : e.matrixOk n) (m : Memory) (hs : e.shaped h w)
    (f : Nat → Nat → Int) {i j : Nat} (hi : i < h) (hj : j < w) :
    elementAt (writeMatrix m e (sampleWords ((List.range h).map fun i => (List.range w).map fun j => f i j))) e i j =
      u32 (f i j) := by
  obtain ⟨rfl, rfl⟩ := hs
  have hshape := matrixShaped_map_range e.rows.toNat e.cols.toNat f
  rw [elementAt_writeMatrix he m (sampleWords_shaped hshape) hi hj, sampleWords, cellAt_map_map u32 hshape 0 0 hi hj,
    cellAt_map _ _ _ _ _ _ hi hj]

theorem passes_ycc2rgb (ha : (s.desc a).matrixOk s.cfg.lmemBytes) (hb : (s.desc b).matrixOk s.cfg.lmemBytes)
    (hc : (s.desc c).matrixOk s.cfg.lmemBytes) (hd : (s.desc d).matrixOk s.cfg.lmemBytes) (he : (s.desc a).evenSides)
    (hsb : (s.desc b).shaped ((s.desc a).rows.toNat / 2) ((s.desc a).cols.toNat / 2))
    (hsc : (s.desc c).shaped ((s.desc a).rows.toNat / 2) ((s.desc a).cols.toNat / 2))
    (hsd : (s.desc d).shaped (s.desc a).rows.toNat (s.desc a).cols.toNat)
    (hap : ∀ x, x ∈ [a, b, c] → (matrixFootprint (s.desc d)).apart (matrixFootprint (s.desc x))) :
    firstFault (checks (.ycc2rgb a b c d) s) = none := by
  simp only [checks, firstFault_append_eq_none, matrixChecks_pass, firstFault_cons_eq_none, firstFault_nil, not_not,
    overlapChecks_pass]
  refine ⟨⟨⟨⟨⟨ha, hb⟩, hc⟩, hd⟩, ⟨he, hsb, hsc, hsd⟩, trivial⟩, fun o ho f hf => ?_, List.pairwise_singleton _ _⟩
  rw [List.mem_singleton] at ho
  subst ho
  simp only [List.mem_cons, List.not_mem_nil, or_false] at hf
  rcases hf with rfl | rfl | rfl
  · exact hap a (by simp)
  · exact hap b (by simp)
  · exact hap c (by simp)

/-- The samples of a matrix of a known shape, entry by entry. -/
theorem cellAt_samples (m : Memory) {e : Desc} {h w i j : Nat} (hs : e.shaped h w) (hi : i < h) (hj : j < w) :
    cellAt (samples (readMatrix m e)) 0 i j = s32 (elementAt m e i j) := by
  obtain ⟨rfl, rfl⟩ := hs
  rw [samples, cellAt_map_map s32 (readMatrix_shaped m e) 0 0 hi hj, readMatrix_eq_map, cellAt_map _ _ _ _ _ _ hi hj]

theorem samples_shaped (m : Memory) {e : Desc} {h w : Nat} (hs : e.shaped h w) :
    matrixShaped h w (samples (readMatrix m e)) := by
  obtain ⟨rfl, rfl⟩ := hs
  exact matrixShaped_map s32 (readMatrix_shaped m e)

end

end Sys2Proof.Machine

namespace Sys2Proof

open Sys2Proof.Machine

/-- Settles O42: each plane is written over its own matrix, and no later plane reaches it. -/
theorem rgb2yccCommand : Obligations.Rgb2yccCommand := by
  refine ⟨fun p => ?_, fun _ _ _ _ _ => rfl, fun a b c d s => ⟨exec_faultsOnChecks _ s, ?_⟩⟩
  · intro lin
    exact ⟨congrArg toChannel (linearForm_eq _ _ _ p), linearForm_eq _ _ _ p, linearForm_eq _ _ _ p⟩
  · intro rows cols p ha hb hc hd he hsb hsc hsd hap
    have hpass := passes_rgb2ycc ha hb hc hd he hsb hsc hsd hap
    have hpx := pixelsOf_shaped s.lmem (s.desc a)
    have hluma := lumaPlane_eq_map _ rows cols hpx.1 hpx.2
    have hcb := chromaPlane_eq_map cbForm _ rows cols hpx.1 hpx.2
    have hcr := chromaPlane_eq_map crForm _ rows cols hpx.1 hpx.2
    have hw1 := writeMatrix_writes s.lmem (d := s.desc b) (rows := sampleWords (lumaPlane (pixelsOf s.lmem (s.desc a)))) (by
      rw [hsb.1, hsb.2]; exact sampleWords_shaped (lumaPlane_shaped hpx))
    have hw2 (m : Memory) := writeMatrix_writes m (d := s.desc c)
      (rows := sampleWords (chromaPlane cbForm (pixelsOf s.lmem (s.desc a)))) (by
      rw [hsc.1, hsc.2]; exact sampleWords_shaped (chromaPlane_shaped cbForm hpx))
    have hw3 (m : Memory) := writeMatrix_writes m (d := s.desc d)
      (rows := sampleWords (chromaPlane crForm (pixelsOf s.lmem (s.desc a)))) (by
      rw [hsd.1, hsd.2]; exact sampleWords_shaped (chromaPlane_shaped crForm hpx))
    simp only [List.pairwise_cons, List.mem_cons, List.not_mem_nil, or_false] at hap
    obtain ⟨-, hbcd, hcd, -⟩ := hap
    have hcell (i j : Nat) (hi : i < rows) (hj : j < cols) : cellAt (pixelsOf s.lmem (s.desc a)) 0 i j = p i j :=
      cellAt_map _ _ _ _ _ _ hi hj
    refine ⟨_, exec_setLmem hpass afterChecks_rgb2ycc, fun i j hi hj => ?_, fun i j hi hj => ⟨?_, ?_⟩, ?_⟩
    · rw [elementAt_of_writes ((hw3 _).mono fun _ => matrixBytes_footprint)
        ((Footprint.apart_comm _ _).mp (hbcd _ (.inr rfl))) (by rw [hsb.1]; exact hi) (by rw [hsb.2]; exact hj),
        elementAt_of_writes ((hw2 _).mono fun _ => matrixBytes_footprint)
        ((Footprint.apart_comm _ _).mp (hbcd _ (.inl rfl))) (by rw [hsb.1]; exact hi) (by rw [hsb.2]; exact hj), hluma,
        elementAt_writeSamples hb _ hsb _ hi hj, hcell i j hi hj]
    · rw [elementAt_of_writes ((hw3 _).mono fun _ => matrixBytes_footprint)
        ((Footprint.apart_comm _ _).mp (hcd _ rfl)) (by rw [hsc.1]; exact hi) (by rw [hsc.2]; exact hj), hcb,
        elementAt_writeSamples hc _ hsc _ hi hj, hcell _ _ (by omega) (by omega), hcell _ _ (by omega) (by omega),
        hcell _ _ (by omega) (by omega), hcell _ _ (by omega) (by omega)]
    · rw [hcr, elementAt_writeSamples hd _ hsd _ hi hj, hcell _ _ (by omega) (by omega), hcell _ _ (by omega) (by omega),
        hcell _ _ (by omega) (by omega), hcell _ _ (by omega) (by omega)]
    · exact ((hw1.mono fun _ => .inl).trans (((hw2 _).mono fun _ h => .inr (.inl h)).trans
        ((hw3 _).mono fun _ h => .inr (.inr h)))).outside

/-- Settles O43: each pixel is the inverse form of its luma sample and the chroma samples of its 2×2 block. -/
theorem ycc2rgbCommand : Obligations.Ycc2rgbCommand := by
  refine ⟨fun y cb cr => rgb_toNat (toChannel_toNat_lt _) (toChannel_toNat_lt _) (toChannel_toNat_lt _),
    fun a b c d s => ⟨exec_faultsOnChecks _ s, ?_⟩⟩
  intro rows cols ha hb hc hd he hsb hsc hsd hap
  have hpass := passes_ycc2rgb ha hb hc hd he hsb hsc hsd hap
  have hy := samples_shaped s.lmem (e := s.desc a) (h := rows) (w := cols) ⟨rfl, rfl⟩
  have hcb := samples_shaped s.lmem hsb
  have hcr := samples_shaped s.lmem hsc
  have hpx := inverseColor_shaped he.2.2.1 he.2.2.2 hy hcb hcr
  have hwrite := writeMatrix_writes s.lmem (d := s.desc d) (by rw [hsd.1, hsd.2]; exact hpx)
  refine ⟨_, exec_setLmem hpass rfl, fun i j hi hj => ?_, hwrite.outside⟩
  rw [elementAt_writeMatrix hd s.lmem (by rw [hsd.1, hsd.2]; exact hpx) (by rw [hsd.1]; exact hi) (by rw [hsd.2]; exact hj),
    inverseColor_eq_map _ _ _ rows cols he.2.2.1 he.2.2.2 hy.1 hy.2 hcb.1 hcb.2 hcr.1 hcr.2, cellAt_map _ _ _ _ _ _ hi hj,
    cellAt_samples s.lmem ⟨rfl, rfl⟩ hi hj, cellAt_samples s.lmem hsb (by omega) (by omega),
    cellAt_samples s.lmem hsc (by omega) (by omega)]

/-- Settles O53: an output pixel is the bilinear mix of the model, channel by channel. -/
theorem scaleCommand : Obligations.ScaleCommand := by
  intro a b s inH inW outH outW
  refine ⟨exec_faultsOnChecks _ s, fun ha hb hh hw hoh how hap => ?_⟩
  have hpass : firstFault (checks (.scale a b) s) = none := by
    simp only [checks, firstFault_append_eq_none, matrixChecks_pass, firstFault_cons_eq_none, firstFault_nil,
      overlapChecks_pass_one]
    exact ⟨⟨⟨ha, hb⟩, by omega, trivial⟩, hap⟩
  have hshape := bilinear_shaped (pixelsOf s.lmem (s.desc a)) inH inW outH outW
  refine ⟨writeMatrix s.lmem (s.desc b) (bilinear (pixelsOf s.lmem (s.desc a)) inH inW outH outW),
    exec_setLmem hpass (by rw [afterChecks, checked_pure_eq_ok, pixels_readMatrix]), fun i j hi hj => ?_,
    (writeMatrix_writes s.lmem hshape).outside⟩
  rw [elementAt_writeMatrix hb s.lmem hshape hi hj, bilinear, cellAt_map _ _ _ _ _ _ hi hj]
  exact rgb_toNat (toChannel_toNat_lt _) (toChannel_toNat_lt _) (toChannel_toNat_lt _)

/-- Settles O54: CVRESET has no check, and CVSET's branches are those of its rule. -/
theorem cvresetAndCvset : Obligations.CvresetAndCvset := by
  refine ⟨fun _ => rfl, fun a s => ⟨exec_faultsOnChecks _ s, ?_⟩⟩
  intro ha rows cols
  have hmatrix := (matrixChecks_pass s (s.desc a)).mpr ha
  split
  case isTrue hcap =>
    refine exec_faultsOnChecks _ s .canvasCapacity ?_
    rw [checks, firstFault_append, hmatrix, Option.none_or]
    exact firstFault_cons_of_fails hcap
  case isFalse hcap =>
    have hpass : firstFault (checks (.cvset a) s) = none := by
      rw [checks, firstFault_append_eq_none, firstFault_cons_eq_none]
      exact ⟨hmatrix, hcap, firstFault_nil⟩
    have hexec := exec_completes hpass (checked_pure_eq_ok.mpr rfl)
    split
    case isTrue hempty =>
      rw [if_pos hempty] at hexec
      exact hexec
    case isFalse hempty =>
      rw [if_neg hempty, readMatrix_eq_wordsOf] at hexec
      exact hexec

/-- Settles O55: a window inside the canvas is a region of its rows. -/
theorem cvreadCommand : Obligations.CvreadCommand := by
  intro a y x s
  refine ⟨exec_faultsOnChecks _ s, fun hcv ha => ?_⟩
  obtain ⟨hlen, hrow, -⟩ := hcv
  have hmatrix := (matrixChecks_pass s (s.desc a)).mpr ha
  split
  case isTrue hin =>
    have hpass : firstFault (checks (.cvread a y x) s) = none := by
      rw [checks, firstFault_append_eq_none, firstFault_cons_eq_none]
      exact ⟨hmatrix, by omega, firstFault_nil⟩
    have hregion := region_eq_map s.canvas.pixels 0 y x (s.desc a).rows.toNat (s.desc a).cols.toNat _ _ hlen hrow hin.1 hin.2
    have hshape : matrixShaped (s.desc a).rows.toNat (s.desc a).cols.toNat
        (region s.canvas.pixels y x (s.desc a).rows.toNat (s.desc a).cols.toNat) := by
      rw [hregion]
      exact matrixShaped_map_range ..
    refine ⟨_, exec_setLmem hpass rfl, fun i j hi hj => ?_, (writeMatrix_writes s.lmem hshape).outside⟩
    rw [elementAt_writeMatrix ha s.lmem hshape hi hj, hregion, cellAt_map _ _ _ _ _ _ hi hj]
  case isFalse hout =>
    refine exec_faultsOnChecks _ s .dimension ?_
    rw [checks, firstFault_append, hmatrix, Option.none_or]
    exact firstFault_cons_of_fails (by omega)

end Sys2Proof
end


section
/-! Patch framing and tile payloads: PSER, PHDR, TENC, TDEC and FULL (45_patch R700-R710; 46_tilediff R755). -/

namespace Sys2Proof.Machine

/-! Bytes one after the other -/

theorem holdsBytes_append {m : Memory} {a : Nat} {xs ys : List Byte} (h : holdsBytes m a (xs ++ ys)) :
    holdsBytes m a xs ∧ holdsBytes m (a + xs.length) ys := by
  refine ⟨fun k hk => ?_, fun k hk => ?_⟩
  · rw [h k (by rw [List.length_append]; omega), List.getD_append _ _ _ _ hk]
  · rw [Nat.add_assoc, h _ (by rw [List.length_append]; omega), List.getD_append_right _ _ _ _ (Nat.le_add_right ..),
      Nat.add_sub_cancel_left]

/-- The word whose four bytes stand from an address on. -/
theorem wordAt_of_holdsBytes {m : Memory} {a : Nat} {w : Word} (h : holdsBytes m a (wordBytes w)) : wordAt m a = w := by
  have h0 := h 0 (by simp [wordBytes_length])
  rw [Nat.add_zero] at h0
  rw [wordAt, h0, h 1 (by simp [wordBytes_length]), h 2 (by simp [wordBytes_length]), h 3 (by simp [wordBytes_length])]
  exact bytesWord_wordBytes w

/-- A field of a patch stands at its address, and what follows behind it. -/
theorem wordAt_be32_append {m : Memory} {a : Nat} {v : Int} {bs : List Byte} (h : holdsBytes m a (be32 v ++ bs)) :
    wordAt m a = u32 v ∧ holdsBytes m (a + 4) bs := by
  obtain ⟨hfield, hrest⟩ := holdsBytes_append h
  rw [be32_length] at hrest
  exact ⟨wordAt_of_holdsBytes hfield, hrest⟩

/-- The five words and the payload of a patch that stands from an address on (45_patch R700). -/
theorem patchSer_holds {m : Memory} {a : Nat} {x y w h : Int} {p : List Byte} (hb : holdsBytes m a (patchSer x y w h p)) :
    wordAt m a = u32 (16 + p.length) ∧ wordAt m (a + 4) = u32 x ∧ wordAt m (a + 8) = u32 y ∧
      wordAt m (a + 12) = u32 w ∧ wordAt m (a + 16) = u32 h ∧ holdsBytes m (a + 20) p := by
  simp only [patchSer, List.append_assoc] at hb
  obtain ⟨h0, hb⟩ := wordAt_be32_append hb
  obtain ⟨h1, hb⟩ := wordAt_be32_append hb
  obtain ⟨h2, hb⟩ := wordAt_be32_append hb
  obtain ⟨h3, hb⟩ := wordAt_be32_append hb
  obtain ⟨h4, hb⟩ := wordAt_be32_append hb
  exact ⟨h0, h1, h2, h3, h4, hb⟩

/-! Results -/

theorem setResAll_toList (s : State) (vs : List Word) (n : Nat) :
    ((s.setResAll vs).advance n).res.toList = (List.range 8).map fun k => vs.getD k 0 := by
  rw [State.advance_res, State.setResAll_res]
  rfl

/-- The address of a payload. -/
theorem payloadAddress (b : Word) : BitVec.ofNat 32 (b.toNat + 20) = b + 20 := by
  apply BitVec.eq_of_toNat_eq
  simp [BitVec.toNat_add]

theorem patchResults_toList (status b : Word) (p : Patch) :
    ((List.range 8).map fun k => (patchResults status b.toNat p).getD k 0) =
      [status, BitVec.ofNat 32 p.consumed, u32 p.x, u32 p.y, u32 p.w, u32 p.h, BitVec.ofNat 32 p.payload.length,
        b + 20] := by
  rw [patchResults, payloadAddress]
  rfl

/-! Planes of blocks -/

/-- The blocks of a plane given by its samples. -/
theorem planeBlocks_of_samples (x : Nat → Nat → Int) {ph pw : Nat} (h8 : ph % 8 = 0) (w8 : pw % 8 = 0) :
    planeBlocks ((List.range ph).map fun i => (List.range pw).map fun j => x i j) ph pw =
      (List.range (ph / 8 * (pw / 8))).map fun n => (List.range 8).map fun i => (List.range 8).map fun j =>
        x (8 * (n / (pw / 8)) + i) (8 * (n % (pw / 8)) + j) := by
  obtain ⟨hlen, hrow⟩ := matrixShaped_map_range ph pw x
  rw [planeBlocks_eq_map _ ph pw h8 w8 hlen hrow]
  refine List.map_congr_left fun n hn => List.map_congr_left fun i hi => List.map_congr_left fun j hj => ?_
  have hn := List.mem_range.mp hn
  have hi := List.mem_range.mp hi
  have hj := List.mem_range.mp hj
  have hw : 0 < pw / 8 := Nat.pos_of_ne_zero fun h => by simp [h] at hn
  have hrows : n / (pw / 8) < ph / 8 := (Nat.div_lt_iff_lt_mul hw).mpr hn
  have hcols : n % (pw / 8) < pw / 8 := Nat.mod_lt _ hw
  exact cellAt_map _ _ _ _ _ _ (by omega) (by omega)

/-- One segment of a payload, from the samples of its plane (45_patch R705, R706). -/
theorem encodePlane_of_samples (emode : Word) (t : Vector F64 64) (x : Nat → Nat → Int) {ph pw : Nat} (h8 : ph % 8 = 0)
    (w8 : pw % 8 = 0) :
    encodePlane emode t ((List.range ph).map fun i => (List.range pw).map fun j => x i j) ph pw = (do
      let blocks ← mapExcept (fun n => (do
        let y ← forwardDct ((List.range 8).map fun i =>
          (List.range 8).map fun j => x (8 * (n / (pw / 8)) + i) (8 * (n % (pw / 8)) + j))
        let q ← quantize t y
        .ok (zigzagOrder.map fun k => cellAt q 0 (k / 8) (k % 8)) : Except FaultCode (List Int)))
        (List.range (ph / 8 * (pw / 8)))
      let data ← entropyEncode emode blocks
      .ok (be32 data.length ++ data)) := by
  have hblock (b : List (List Int)) : encodeBlock t b = (do
        let y ← forwardDct b
        let q ← quantize t y
        .ok (zigzagOrder.map fun k => cellAt q 0 (k / 8) (k % 8)) : Except FaultCode (List Int)) := by
    unfold encodeBlock
    cases hy : forwardDct b with
    | error e => rfl
    | ok y =>
      cases hq : quantize t y with
      | error e => simp only [bind, Except.bind, hq]
      | ok q =>
        simp only [bind, Except.bind, hq, zigzag_eq_map 0 q (perCoefficient_isBlock (forwardDct_isBlock hy) hq)]
  rw [encodePlane, planeBlocks_of_samples x h8 w8, mapExcept_map]
  simp only [hblock]
  cases mapExcept _ (List.range (ph / 8 * (pw / 8))) with
  | error e => rfl
  | ok blocks =>
    simp only [bind, Except.bind]
    cases entropyEncode emode blocks <;> rfl

theorem tileEncode_eq (k : CodecSettings) (p : List (List Word)) (h w : Nat) :
    tileEncode k p h w = (do
      let y ← encodePlane k.emode k.qtl (lumaPlane p) h w
      let cb ← encodePlane k.emode k.qtc (chromaPlane cbForm p) (h / 2) (w / 2)
      let cr ← encodePlane k.emode k.qtc (chromaPlane crForm p) (h / 2) (w / 2)
      .ok (y ++ cb ++ cr)) := rfl

/-! Decoded planes -/

theorem decodeTileBlock_eq_ok {t : Vector F64 64} {seq : List Int} {b : List (List Int)} :
    decodeTileBlock t seq = .ok b ↔ ∃ c, dequantize t (unzigzag 0 seq) = .ok c ∧ inverseDct c = .ok b := by
  unfold decodeTileBlock
  cases dequantize t (unzigzag 0 seq) <;> simp

/-- The entropy data `seg` holds the plane of samples `x`: it is read to its end, and each block is decoded to the samples
at its place (45_patch R707). -/
def planeDecodes (emode : Word) (t : Vector F64 64) (seg : List Byte) (ph pw : Nat) (x : Nat → Nat → Int) : Prop :=
  ∃ blocks, entropyDecode emode seg (ph / 8 * (pw / 8)) = .ok (blocks, seg.length) ∧
    ∀ n, n < ph / 8 * (pw / 8) → ∃ c b, dequantize t (unzigzag 0 (blocks.getD n [])) = .ok c ∧ inverseDct c = .ok b ∧
      ∀ i j, i < 8 → j < 8 → x (8 * (n / (pw / 8)) + i) (8 * (n % (pw / 8)) + j) = cellAt b 0 i j

/-- A sample of a plane put together from blocks, by the number of its block. -/
theorem cellAt_planeOfBlocks_at {bs : List (List (List Int))} {ph pw n i j : Nat} (hl : bs.length = ph / 8 * (pw / 8))
    (hb : ∀ b ∈ bs, isBlock b) (hn : n < ph / 8 * (pw / 8)) (hi : i < 8) (hj : j < 8) :
    cellAt (planeOfBlocks bs ph pw) 0 (8 * (n / (pw / 8)) + i) (8 * (n % (pw / 8)) + j) = cellAt (bs.getD n []) 0 i j := by
  have hw : 0 < pw / 8 := Nat.pos_of_ne_zero fun h => by simp [h] at hn
  rw [cellAt_planeOfBlocks bs ph pw _ _ i j hl hb ((Nat.div_lt_iff_lt_mul hw).mpr hn) (Nat.mod_lt _ hw) hi hj,
    Nat.div_add_mod']

/-- Block by block and sample by sample: a plane that decodes has the samples that its entropy data holds. -/
theorem planeDecodes_iff {emode : Word} {t : Vector F64 64} {seg : List Byte} {ph pw : Nat} {x : Nat → Nat → Int}
    (h8 : ph % 8 = 0) (w8 : pw % 8 = 0) :
    planeDecodes emode t seg ph pw x ↔
      ∃ plane, decodePlane emode t seg ph pw = some plane ∧ ∀ i j, i < ph → j < pw → x i j = cellAt plane 0 i j := by
  constructor
  · rintro ⟨blks, hd, hblocks⟩
    have hshape := entropyDecode_shaped hd
    have hall : ∀ blk ∈ blks, ∃ b, decodeTileBlock t blk = .ok b := by
      intro blk hblk
      obtain ⟨n, hn, rfl⟩ := List.mem_iff_getElem.mp hblk
      obtain ⟨c, b, hc, hb, -⟩ := hblocks n (hshape.1 ▸ hn)
      rw [List.getD_eq_getElem _ _ hn] at hc
      exact ⟨b, decodeTileBlock_eq_ok.mpr ⟨c, hc, hb⟩⟩
    obtain ⟨bs, hbs⟩ := (exists_mapExcept_iff _ _).mpr hall
    obtain ⟨hlen, hblock⟩ := decodedBlocks_shape hshape hbs
    refine ⟨_, decodePlane_eq_some.mpr ⟨blks, bs, hd, hbs, rfl⟩, fun i j hi hj => ?_⟩
    have hin : i / 8 * (pw / 8) + j / 8 < ph / 8 * (pw / 8) := by
      have hmul := Nat.mul_le_mul_right (pw / 8) (show i / 8 + 1 ≤ ph / 8 by omega)
      rw [Nat.succ_mul] at hmul
      omega
    have hcol : j / 8 < pw / 8 := by omega
    have hdiv : (i / 8 * (pw / 8) + j / 8) / (pw / 8) = i / 8 := by
      rw [Nat.mul_comm, Nat.mul_add_div (Nat.zero_lt_of_lt hcol), Nat.div_eq_of_lt hcol, Nat.add_zero]
    have hmod : (i / 8 * (pw / 8) + j / 8) % (pw / 8) = j / 8 := by
      rw [Nat.mul_comm, Nat.mul_add_mod, Nat.mod_eq_of_lt hcol]
    obtain ⟨c, b, hc, hb, hx⟩ := hblocks _ hin
    have hentry := hx (i % 8) (j % 8) (by omega) (by omega)
    have hplane := cellAt_planeOfBlocks_at hlen hblock hin (Nat.mod_lt i (by omega)) (Nat.mod_lt j (by omega))
    rw [hdiv, hmod, Nat.div_add_mod, Nat.div_add_mod] at hentry hplane
    have hn : i / 8 * (pw / 8) + j / 8 < blks.length := by rw [hshape.1]; exact hin
    have hn' : i / 8 * (pw / 8) + j / 8 < bs.length := by rw [hlen]; exact hin
    have hdec := (List.forall₂_iff_get.mp ((mapExcept_eq_ok _ _ _).mp hbs)).2 _ hn hn'
    rw [List.get_eq_getElem, List.get_eq_getElem, decodeTileBlock_eq_ok] at hdec
    obtain ⟨c', hc', hb'⟩ := hdec
    rw [List.getD_eq_getElem _ _ hn, hc'] at hc
    obtain rfl := Except.ok.inj hc
    rw [hb'] at hb
    rw [hentry, hplane, List.getD_eq_getElem _ _ hn', Except.ok.inj hb]
  · rintro ⟨plane, hp, hx⟩
    obtain ⟨blks, bs, hd, hbs, rfl⟩ := decodePlane_eq_some.mp hp
    have hshape := entropyDecode_shaped hd
    obtain ⟨hlen, hblock⟩ := decodedBlocks_shape hshape hbs
    refine ⟨blks, hd, fun n hn => ?_⟩
    have hn1 : n < blks.length := by rw [hshape.1]; exact hn
    have hn2 : n < bs.length := by rw [hlen]; exact hn
    have hdec := (List.forall₂_iff_get.mp ((mapExcept_eq_ok _ _ _).mp hbs)).2 _ hn1 hn2
    rw [List.get_eq_getElem, List.get_eq_getElem, decodeTileBlock_eq_ok] at hdec
    obtain ⟨c, hc, hb⟩ := hdec
    refine ⟨c, _, by rwa [List.getD_eq_getElem _ _ hn1], hb, fun i j hi hj => ?_⟩
    have hw : 0 < pw / 8 := Nat.pos_of_ne_zero fun h => by simp [h] at hn
    have hrows : n / (pw / 8) < ph / 8 := (Nat.div_lt_iff_lt_mul hw).mpr hn
    have hcols : n % (pw / 8) < pw / 8 := Nat.mod_lt _ hw
    rw [hx _ _ (by omega) (by omega), cellAt_planeOfBlocks_at hlen hblock hn hi hj, List.getD_eq_getElem _ _ hn2]

/-- What a payload decodes to, by the layout of 45_patch R705 and R707. -/
theorem tileDecode_iff (k : CodecSettings) (d : List Byte) {h w : Nat} (px : List (List Word)) (h16 : h % 16 = 0)
    (w16 : w % 16 = 0) :
    tileDecode k d h w = some px ↔
      ∃ (segY segCb segCr : List Byte) (y cb cr : Nat → Nat → Int),
        d = be32 segY.length ++ segY ++ be32 segCb.length ++ segCb ++ be32 segCr.length ++ segCr ∧
        segY.length < 2 ^ 32 ∧ segCb.length < 2 ^ 32 ∧ segCr.length < 2 ^ 32 ∧
        planeDecodes k.emode k.qtl segY h w y ∧ planeDecodes k.emode k.qtc segCb (h / 2) (w / 2) cb ∧
        planeDecodes k.emode k.qtc segCr (h / 2) (w / 2) cr ∧
        px = (List.range h).map fun i =>
          (List.range w).map fun j => inversePixel (y i j) (cb (i / 2) (j / 2)) (cr (i / 2) (j / 2)) := by
  have hpixels {segY segCb segCr : List Byte} {y cb cr : List (List Int)} (hy : decodePlane k.emode k.qtl segY h w = some y)
      (hcb : decodePlane k.emode k.qtc segCb (h / 2) (w / 2) = some cb)
      (hcr : decodePlane k.emode k.qtc segCr (h / 2) (w / 2) = some cr) :
      inverseColor y cb cr = (List.range h).map fun i => (List.range w).map fun j =>
        inversePixel (cellAt y 0 i j) (cellAt cb 0 (i / 2) (j / 2)) (cellAt cr 0 (i / 2) (j / 2)) := by
    have sy := decodePlane_shaped (by omega) (by omega) hy
    have scb := decodePlane_shaped (by omega) (by omega) hcb
    have scr := decodePlane_shaped (by omega) (by omega) hcr
    exact inverseColor_eq_map y cb cr h w (by omega) (by omega) sy.1 sy.2 scb.1 scb.2 scr.1 scr.2
  rw [tileDecode_eq_some]
  constructor
  · rintro ⟨segY, d1, y, segCb, d2, cb, segCr, d3, cr, h1, hy, h2, hcb, h3, hcr, rfl, rfl⟩
    obtain ⟨rfl, l1⟩ := (takeSegment_eq_some _ _ _).mp h1
    obtain ⟨rfl, l2⟩ := (takeSegment_eq_some _ _ _).mp h2
    obtain ⟨rfl, l3⟩ := (takeSegment_eq_some _ _ _).mp h3
    refine ⟨segY, segCb, segCr, cellAt y 0, cellAt cb 0, cellAt cr 0, by simp only [List.append_assoc, List.append_nil],
      l1, l2, l3, (planeDecodes_iff (by omega) (by omega)).mpr ⟨y, hy, fun _ _ _ _ => rfl⟩,
      (planeDecodes_iff (by omega) (by omega)).mpr ⟨cb, hcb, fun _ _ _ _ => rfl⟩,
      (planeDecodes_iff (by omega) (by omega)).mpr ⟨cr, hcr, fun _ _ _ _ => rfl⟩, hpixels hy hcb hcr⟩
  · rintro ⟨segY, segCb, segCr, y, cb, cr, rfl, l1, l2, l3, py, pcb, pcr, rfl⟩
    obtain ⟨Y, hy, ey⟩ := (planeDecodes_iff (by omega) (by omega)).mp py
    obtain ⟨Cb, hcb, ecb⟩ := (planeDecodes_iff (by omega) (by omega)).mp pcb
    obtain ⟨Cr, hcr, ecr⟩ := (planeDecodes_iff (by omega) (by omega)).mp pcr
    refine ⟨segY, be32 segCb.length ++ segCb ++ (be32 segCr.length ++ segCr), Y, segCb, be32 segCr.length ++ segCr, Cb,
      segCr, [], Cr, (takeSegment_eq_some _ _ _).mpr ⟨by simp only [List.append_assoc], l1⟩, hy,
      (takeSegment_eq_some _ _ _).mpr ⟨rfl, l2⟩, hcb, (takeSegment_eq_some _ _ _).mpr ⟨by rw [List.append_nil], l3⟩, hcr,
      rfl, ?_⟩
    rw [hpixels hy hcb hcr]
    refine List.map_congr_left fun i hi => List.map_congr_left fun j hj => ?_
    have hi := List.mem_range.mp hi
    have hj := List.mem_range.mp hj
    rw [ey i j hi hj, ecb _ _ (by omega) (by omega), ecr _ _ (by omega) (by omega)]

/-! The commands past their checks -/

section
variable {s : State} {a b : DescReg}

theorem passes_tenc (ha : (s.desc a).matrixOk s.cfg.lmemBytes) (hb : (s.desc b).streamOk s.cfg.lmemBytes)
    (hs : (s.desc a).tileSides) (hap : (streamFootprint (s.desc b)).apart (matrixFootprint (s.desc a))) :
    firstFault (checks (.tenc a b) s) = none := by
  simp only [checks, firstFault_append_eq_none, matrixChecks_pass, streamChecks_pass, firstFault_cons_eq_none,
    firstFault_nil, not_not, overlapChecks_pass_one]
  exact ⟨⟨⟨ha, hb⟩, hs, trivial⟩, hap⟩

theorem afterChecks_tenc : afterChecks (.tenc a b) s =
    (orDraw (streamRanges (s.desc b)) (tileEncode s.codec (pixelsOf s.lmem (s.desc a)) (s.desc a).rows.toNat
      (s.desc a).cols.toNat) >>= fun e =>
      drawWhen (e.length > (s.desc b).len.toNat) .streamOverflow (streamRanges (s.desc b)) >>= fun _ =>
      pure ((s.setLmem (writeStream s.lmem (s.desc b) e)).setRes 0 (BitVec.ofNat 32 e.length))) := by
  rw [← pixels_readMatrix]
  rfl

theorem passes_tdec (ha : (s.desc a).streamOk s.cfg.lmemBytes) (hb : (s.desc b).matrixOk s.cfg.lmemBytes)
    (hs : (s.desc b).tileSides) (hap : (matrixFootprint (s.desc b)).apart (streamFootprint (s.desc a))) :
    firstFault (checks (.tdec a b) s) = none := by
  simp only [checks, firstFault_append_eq_none, matrixChecks_pass, streamChecks_pass, firstFault_cons_eq_none,
    firstFault_nil, not_not, overlapChecks_pass_one]
  exact ⟨⟨⟨ha, hb⟩, hs, trivial⟩, hap⟩

/-- The whole of a matrix is its region at (0, 0). -/
theorem region_whole {rows : List (List Word)} {h w : Nat} (hs : matrixShaped h w rows) : region rows 0 0 h w = rows := by
  rw [region_eq_map rows 0 0 0 h w h w hs.1 hs.2 (by omega) (by omega)]
  simp only [Nat.zero_add]
  exact (eq_map_cellAt rows 0 h w hs.1 hs.2).symm

/-- What FULL computes: one patch of the whole region at (0, 0). -/
theorem afterChecks_full : afterChecks (.full a b) s =
    (orDraw (streamRanges (s.desc b)) ((tileEncode s.codec (pixelsOf s.lmem (s.desc a)) (s.desc a).rows.toNat
      (s.desc a).cols.toNat).map (patchSer 0 0 (s.desc a).cols.toNat (s.desc a).rows.toNat)) >>= fun out =>
      drawWhen (out.length > (s.desc b).len.toNat) .streamOverflow (streamRanges (s.desc b)) >>= fun _ =>
      pure ((s.setLmem (writeStream s.lmem (s.desc b) out)).setRes01 1 (BitVec.ofNat 32 out.length))) := by
  have hpatch : tilePatch s.codec (pixelsOf s.lmem (s.desc a)) ⟨0, 0, (s.desc a).rows.toNat, (s.desc a).cols.toNat⟩ =
      (tileEncode s.codec (pixelsOf s.lmem (s.desc a)) (s.desc a).rows.toNat (s.desc a).cols.toNat).map
        (patchSer 0 0 (s.desc a).cols.toNat (s.desc a).rows.toNat) := by
    rw [tilePatch, tilePixels, region_whole (pixelsOf_shaped _ _)]
    cases tileEncode s.codec (pixelsOf s.lmem (s.desc a)) (s.desc a).rows.toNat (s.desc a).cols.toNat <;> rfl
  rw [← hpatch, ← pixels_readMatrix]
  rfl

end

end Sys2Proof.Machine

namespace Sys2Proof

open Sys2Proof.Machine

/-- Settles O45: the framing words stand one after the other in front of the payload. -/
theorem pserCommand : Obligations.PserCommand := by
  intro a b x y w h s n i
  refine ⟨exec_faultsOnChecks _ s, fun ha hb hap => ?_⟩
  have hfirst : firstFault (streamChecks s.cfg.lmemBytes (s.desc a) ++ streamChecks s.cfg.lmemBytes (s.desc b) ++
      overlapChecks [streamFootprint (s.desc a)] [streamFootprint (s.desc b)]) = none := by
    simp only [firstFault_append_eq_none, streamChecks_pass, overlapChecks_pass_one]
    exact ⟨⟨ha, hb⟩, hap⟩
  split
  case isTrue hfit =>
    have hpass : firstFault (checks i s) = none := by
      rw [checks, firstFault_append_eq_none, firstFault_cons_eq_none]
      exact ⟨hfirst, by omega, firstFault_nil⟩
    have hlen : (bytesOf s.lmem (s.desc a)).length = n := by rw [bytesOf, List.length_map, List.length_range]
    have hafter : afterChecks i s = .ok ((s.setLmem (writeStream s.lmem (s.desc b)
        (patchSer x y w h (bytesOf s.lmem (s.desc a))))).setRes 0 (BitVec.ofNat 32 (20 + n))) := by
      rw [← readStream_eq_bytesOf]
      rfl
    obtain ⟨h0, h1, h2, h3, h4, hpayload⟩ := patchSer_holds
      (holdsBytes_writeStream s.lmem (s.desc b) (patchSer x y w h (bytesOf s.lmem (s.desc a))))
    rw [hlen] at h0
    have hwrites := writeStream_writesBytes s.lmem (s.desc b) (patchSer x y w h (bytesOf s.lmem (s.desc a)))
    rw [patchSer_length, hlen] at hwrites
    refine ⟨_, exec_completes hpass hafter, h0, h1, h2, h3, h4, fun k hk => ?_, hwrites.outside⟩
    refine (hpayload k (by rw [hlen]; exact hk)).trans ?_
    rw [bytesOf, List.getD_eq_getElem _ _ (by simpa using hk), List.getElem_map, List.getElem_range]
  case isFalse hshort =>
    refine exec_faultsOnChecks i s .streamOverflow ?_
    rw [checks, firstFault_append, hfirst, Option.none_or]
    exact firstFault_cons_of_fails (by omega)

/-- Settles O46: the eight results are written in every outcome of parsing. -/
theorem phdrCommand : Obligations.PhdrCommand := by
  intro a s
  refine ⟨exec_faultsOnChecks _ s, fun ha => ?_⟩
  have hpass : firstFault (checks (.phdr a) s) = none := (streamChecks_pass s (s.desc a)).mpr ha
  have hexec (vs : List Word) (h : afterChecks (.phdr a) s = .ok (s.setResAll vs)) := exec_completes hpass h
  simp only [afterChecks, readStream_eq_bytesOf] at hexec
  split
  case h_1 hp =>
    rw [hp] at hexec
    exact ⟨_, hexec _ rfl, rfl, setResAll_toList s _ _⟩
  case h_2 hp =>
    rw [hp] at hexec
    exact ⟨_, hexec _ rfl, rfl, setResAll_toList s _ _⟩
  case h_3 p hp =>
    rw [hp] at hexec
    exact ⟨_, hexec _ rfl, rfl, (setResAll_toList s _ _).trans (patchResults_toList statusOk _ p)⟩

/-- Settles O47: the payload from its samples, and TENC's ends by what the coder answers and whether it fits. -/
theorem tencCommand : Obligations.TencCommand := by
  refine ⟨fun emode qtl qtc p h w h16 w16 hlen hrow => ?_, fun a b s => ⟨exec_faultsOnChecks _ s, ?_⟩⟩
  · intro pixel chroma block segment
    rw [tileEncode_eq, lumaPlane_eq_map p h w hlen hrow, chromaPlane_eq_map cbForm p h w hlen hrow,
      chromaPlane_eq_map crForm p h w hlen hrow, encodePlane_of_samples _ _ _ (by omega) (by omega),
      encodePlane_of_samples _ _ _ (by omega) (by omega), encodePlane_of_samples _ _ _ (by omega) (by omega)]
  · intro ha hb hs hap
    have hpass := passes_tenc ha hb hs hap
    have hfault {code : FaultCode} := exec_toStream_faults hpass afterChecks_tenc (code := code)
    cases he : tileEncode s.codec (pixelsOf s.lmem (s.desc a)) (s.desc a).rows.toNat (s.desc a).cols.toNat with
    | error code =>
      rw [State.codec] at he
      rw [he]
      exact ⟨tileEncode_eq_error he, hfault (.inl he)⟩
    | ok e =>
      rw [State.codec] at he
      rw [he]
      dsimp only
      split
      case isTrue hfit =>
        exact ⟨_, exec_toStream_completes hpass afterChecks_tenc he (Nat.not_lt.mpr hfit), holdsBytes_writeStream _ _ _,
          (writeStream_writesBytes _ _ _).outside⟩
      case isFalse hlong => exact hfault (.inr ⟨rfl, e, he, Nat.not_le.mp hlong⟩)

/-- Settles O48: the payloads that decode, and TDEC's two ends. -/
theorem tdecCommand : Obligations.TdecCommand := by
  refine ⟨fun emode qtl qtc d h w px h16 w16 => tileDecode_iff ⟨emode, qtl, qtc⟩ d px h16 w16,
    fun a b s => ⟨exec_faultsOnChecks _ s, fun ha hb hs hap => ?_⟩⟩
  have hpass := passes_tdec ha hb hs hap
  have hexec (u : State) (h : afterChecks (.tdec a b) s = .ok u) := exec_completes hpass h
  simp only [afterChecks, readStream_eq_bytesOf, State.codec] at hexec
  split
  case h_1 p hp =>
    rw [hp] at hexec
    have hshape := tileDecode_shaped hs.2.2.1 hs.2.2.2 hp
    refine ⟨_, hexec _ rfl, fun i j hi hj => ?_, (writeMatrix_writes s.lmem hshape).outside⟩
    rw [Nat.zero_add, Nat.zero_add]
    exact elementAt_writeMatrix hb s.lmem hshape hi hj
  case h_2 hp =>
    rw [hp] at hexec
    exact hexec _ rfl

/-- Settles O52: FULL's ends, by what the coder answers and whether the patch fits. -/
theorem fullCommand : Obligations.FullCommand := by
  intro a b s i rows cols
  refine ⟨exec_faultsOnChecks _ s, fun ha hb hs hap => ?_⟩
  have hpass : firstFault (checks i s) = none := passes_tenc ha hb hs hap
  have hfault {code : FaultCode} := exec_toStream_faults hpass afterChecks_full (code := code)
  split
  case h_1 payload he =>
    have hr : (tileEncode s.codec (pixelsOf s.lmem (s.desc a)) rows cols).map (patchSer 0 0 cols rows) =
        .ok (patchSer 0 0 cols rows payload) := by
      rw [State.codec, he]
      rfl
    dsimp only
    split
    case isTrue hfit =>
      have hexec := exec_toStream_completes hpass afterChecks_full hr (Nat.not_lt.mpr hfit)
      rw [patchSer_length] at hexec
      exact ⟨_, hexec, holdsBytes_writeStream _ _ _, (writeStream_writesBytes _ _ _).outside⟩
    case isFalse hlong => exact hfault (.inr ⟨rfl, _, hr, Nat.not_le.mp hlong⟩)
  case h_2 code he =>
    refine ⟨tileEncode_eq_error he, hfault (.inl ?_)⟩
    rw [State.codec, he]
    rfl

end Sys2Proof
end


section
/-! The tile diff: tile hashes, dirty tiles, and the commands HASH, HCTXRST and DIFF (46_tilediff R750-R758). -/

namespace Sys2Proof.Machine

/-! Sampling -/

theorem ceilDiv_succ (n st : Nat) (hst : 1 ≤ st) : ceilDiv (n + 1) st = ceilDiv n st + if n % st = 0 then 1 else 0 := by
  unfold ceilDiv
  have hdiv := Nat.div_add_mod n st
  have hlt := Nat.mod_lt n hst
  split
  case isTrue h =>
    obtain ⟨q, rfl⟩ : ∃ q, n = st * q := ⟨n / st, by omega⟩
    rw [show st * q + 1 + st - 1 = st * (q + 1) by rw [Nat.mul_succ]; omega, Nat.mul_div_cancel_left _ hst]
    rw [show st * q + st - 1 = st * q + (st - 1) by omega, Nat.mul_add_div hst, Nat.div_eq_of_lt (by omega), Nat.add_zero]
  case isFalse h =>
    generalize n / st = q at hdiv
    generalize n % st = r at hdiv hlt h
    rw [← hdiv, show st * q + r + 1 + st - 1 = st * (q + 1) + r by rw [Nat.mul_succ]; omega,
      show st * q + r + st - 1 = st * (q + 1) + (r - 1) by rw [Nat.mul_succ]; omega, Nat.mul_add_div hst,
      Nat.mul_add_div hst, Nat.div_eq_of_lt hlt, Nat.div_eq_of_lt (by omega)]

/-- The multiples of `st` below `n`. -/
theorem filter_range_multiples (n st : Nat) (hst : 1 ≤ st) :
    ((List.range n).filter fun k => k % st == 0) = (List.range (ceilDiv n st)).map (· * st) := by
  induction n with
  | zero => rw [ceilDiv, Nat.div_eq_of_lt (by omega), List.range_zero, List.filter_nil, List.map_nil]
  | succ n ih =>
    rw [List.range_succ, List.filter_append, ih, ceilDiv_succ n st hst]
    by_cases h : n % st = 0
    · have hlast : ceilDiv n st * st = n := by
        obtain ⟨q, rfl⟩ : ∃ q, n = st * q := ⟨n / st, by have := Nat.div_add_mod n st; omega⟩
        rw [ceilDiv, show st * q + st - 1 = st * q + (st - 1) by omega, Nat.mul_add_div hst,
          Nat.div_eq_of_lt (by omega), Nat.add_zero, Nat.mul_comm]
      rw [if_pos h, List.range_succ, List.map_append]
      simp [h, hlast]
    · simp [h]

/-- Every `st`-th entry of a list given by its entry function (46_tilediff R751). -/
theorem strided_map_range {α : Type} (f : Nat → α) (n st : Nat) (hst : 1 ≤ st) :
    strided st ((List.range n).map f) = (List.range (ceilDiv n st)).map fun k => f (k * st) := by
  have hindexed : ((List.range n).map f).zipIdx = (List.range n).map fun k => (f k, k) := by
    apply List.ext_getElem
    · simp
    · intro k h1 h2
      simp
  rw [strided, hindexed, List.filter_map, List.map_map,
    show ((fun e : α × Nat => e.2 % st == 0) ∘ fun k => (f k, k)) = fun k => k % st == 0 from rfl,
    filter_range_multiples n st hst, List.map_map]
  rfl

/-! Hashes -/

/-- Adding up numbers mod 2^64. -/
theorem foldl_add_ofNat {α : Type} (g : α → Nat) (xs : List α) (acc : Nat) :
    xs.foldl (fun a q => a + BitVec.ofNat 64 (g q)) (BitVec.ofNat 64 acc) = BitVec.ofNat 64 (acc + (xs.map g).sum) := by
  induction xs generalizing acc with
  | nil => simp
  | cons x xs ih => rw [List.foldl_cons, ← BitVec.ofNat_add, ih, List.map_cons, List.sum_cons, Nat.add_assoc]

theorem sum_flatMap {α : Type} (g : α → List Nat) (xs : List α) : (xs.flatMap g).sum = (xs.map fun x => (g x).sum).sum := by
  rw [List.flatMap_def, List.sum_flatten, List.map_map]
  rfl

/-- The hash of a region given by its pixels (46_tilediff R751). -/
theorem tileHash_of_pixels (f : Nat → Nat → Word) (h w st : Nat) (hst : 1 ≤ st) :
    tileHash st ((List.range h).map fun i => (List.range w).map fun j => f i j) =
      BitVec.ofNat 64 (((List.range (ceilDiv h st)).map fun i =>
        ((List.range (ceilDiv w st)).map fun j => pixelHash (f (i * st) (j * st))).sum).sum) := by
  rw [tileHash, strided_map_range _ h st hst, List.flatMap_map]
  simp only [strided_map_range _ w st hst]
  have hsum := foldl_add_ofNat pixelHash ((List.range (ceilDiv h st)).flatMap fun i =>
    (List.range (ceilDiv w st)).map fun j => f (i * st) (j * st)) 0
  rw [Nat.zero_add, List.map_flatMap, sum_flatMap] at hsum
  simp only [List.map_map, Function.comp_def] at hsum
  exact hsum

/-! Tiles -/

/-- A tile of the grid begins inside the frame. -/
theorem mul_lt_of_lt_ceilDiv {n ts k : Nat} (h : k < ceilDiv n ts) : k * ts < n := by
  have hmul := Nat.mul_le_mul_right ts (Nat.succ_le_of_lt h)
  have hle : ceilDiv n ts * ts ≤ n + ts - 1 := Nat.div_mul_le_self _ _
  have hts : ts ≠ 0 := fun h0 => by simp [ceilDiv, h0] at h
  rw [Nat.succ_mul] at hmul
  omega

/-- The pixels of tile `n` of a matrix, from its top-left pixel on (46_tilediff R750). -/
theorem tilePixels_eq_map (m : Memory) (d : Desc) {ts n : Nat}
    (hn : n < ceilDiv d.rows.toNat ts * ceilDiv d.cols.toNat ts) :
    tilePixels (pixelsOf m d) (tileAt d.rows.toNat d.cols.toNat ts n) =
      (List.range (min ts (d.rows.toNat - n / ceilDiv d.cols.toNat ts * ts))).map fun i =>
        (List.range (min ts (d.cols.toNat - n % ceilDiv d.cols.toNat ts * ts))).map fun j =>
          pixelAt m d (n / ceilDiv d.cols.toNat ts * ts + i) (n % ceilDiv d.cols.toNat ts * ts + j) := by
  have hgc : 0 < ceilDiv d.cols.toNat ts := Nat.pos_of_ne_zero fun h => by simp [h] at hn
  have htop := mul_lt_of_lt_ceilDiv ((Nat.div_lt_iff_lt_mul hgc).mpr hn)
  have hleft := mul_lt_of_lt_ceilDiv (Nat.mod_lt n hgc)
  obtain ⟨hlen, hrow⟩ := pixelsOf_shaped m d
  rw [tilePixels, tileAt, region_eq_map _ 0 _ _ _ _ _ _ hlen hrow (by dsimp only; omega) (by dsimp only; omega)]
  refine List.map_congr_left fun i hi => List.map_congr_left fun j hj => ?_
  have hi := List.mem_range.mp hi
  have hj := List.mem_range.mp hj
  dsimp only at hi hj ⊢
  exact cellAt_map _ _ _ _ _ _ (by omega) (by omega)

/-- The patch of a tile, from its pixels (46_tilediff R753). -/
theorem tilePatch_eq_map (k : CodecSettings) (m : List (List Word)) (t : Tile) :
    tilePatch k m t = (tileEncode k (tilePixels m t) t.h t.w).map (patchSer t.x t.y t.w t.h) := by
  rw [tilePatch]
  cases tileEncode k (tilePixels m t) t.h t.w <;> rfl

/-- A tile is dirty in a fresh DIFF, or when its hash differs (46_tilediff R752, R753). -/
theorem fresh_or_differs (c : HashContext) (g : Geometry) (x y : Hash64) :
    (isFresh c g || x != y) = decide (c.valid = false ∨ c.geom ≠ g ∨ x ≠ y) := by
  rw [Bool.eq_iff_iff, decide_eq_true_iff, Bool.or_eq_true, isFresh, Bool.or_eq_true, Bool.not_eq_true', bne_iff_ne,
    bne_iff_ne, or_assoc]

/-- The dirty tiles by their numbers (46_tilediff R753). -/
theorem dirtyTiles_map_range (fresh : Bool) (old : List Hash64) (tile : Nat → Tile) (hash : Nat → Hash64) (n : Nat) :
    dirtyTiles fresh old ((List.range n).map tile) ((List.range n).map hash) =
      ((List.range n).filter fun k => fresh || hash k != old.getD k 0).map tile := by
  have hindexed : ((List.range n).map fun k => (tile k, hash k)).zipIdx =
      (List.range n).map fun k => ((tile k, hash k), k) := by
    apply List.ext_getElem
    · simp
    · intro k h1 h2
      simp
  rw [dirtyTiles, zip_map_range, hindexed, List.filter_map, List.map_map]
  rfl

/-! DIFF past its checks -/

section
variable {s : State} {a b : DescReg} {ctx : Nat}

/-- The geometry of a DIFF (46_tilediff R752). -/
def State.frameGeometry (s : State) (d : Desc) : Geometry :=
  ⟨d.rows.toNat, d.cols.toNat, s.tsize.toNat, s.hstride.toNat⟩

/-- The number of tiles of a frame. -/
def State.tileCount (s : State) (d : Desc) : Nat :=
  ceilDiv d.rows.toNat s.tsize.toNat * ceilDiv d.cols.toNat s.tsize.toNat

/-- The tile of a frame with this number. -/
def State.frameTile (s : State) (d : Desc) (n : Nat) : Tile := tileAt d.rows.toNat d.cols.toNat s.tsize.toNat n

/-- The numbers of the dirty tiles, for tile hashes `hash` (46_tilediff R753). -/
def State.dirtyNumbers (s : State) (d : Desc) (ctx : Nat) (hash : Nat → Hash64) : List Nat :=
  (List.range (s.tileCount d)).filter fun n =>
    isFresh (s.ctx ctx) (s.frameGeometry d) || hash n != (s.ctx ctx).hashes.getD n 0

/-- What DIFF leaves when its patches fit, for tile hashes `hash` (46_tilediff R754). -/
def State.afterDiff (s : State) (a b : DescReg) (ctx : Nat) (hash : Nat → Hash64) (patches : List (List Byte)) : State :=
  ((s.setLmem (writeStream s.lmem (s.desc b) patches.flatten)).setCtx ctx
    ⟨true, s.frameGeometry (s.desc a), ceilDiv (s.desc a).rows.toNat s.tsize.toNat,
      ceilDiv (s.desc a).cols.toNat s.tsize.toNat, (List.range (s.tileCount (s.desc a))).map hash⟩).setRes01
    (BitVec.ofNat 32 (s.dirtyNumbers (s.desc a) ctx hash).length) (BitVec.ofNat 32 patches.flatten.length)

/-- DIFF by tile numbers: the patch of each dirty tile, and the hash of every tile. -/
theorem afterChecks_diff {hash : Nat → Hash64} {patch : Nat → Except FaultCode (List Byte)}
    (hhash : ∀ n < s.tileCount (s.desc a),
      tileHash s.hstride.toNat (tilePixels (pixelsOf s.lmem (s.desc a)) (s.frameTile (s.desc a) n)) = hash n)
    (hpatch : ∀ n < s.tileCount (s.desc a),
      tilePatch s.codec (pixelsOf s.lmem (s.desc a)) (s.frameTile (s.desc a) n) = patch n) :
    afterChecks (.diff a b ctx) s =
      (orDraw (streamRanges (s.desc b)) (mapExcept patch (s.dirtyNumbers (s.desc a) ctx hash)) >>= fun patches =>
        drawWhen (patches.flatten.length > (s.desc b).len.toNat) .streamOverflow (streamRanges (s.desc b)) >>= fun _ =>
        pure (s.afterDiff a b ctx hash patches)) := by
  have hhashes : (tilesOf (s.desc a).rows.toNat (s.desc a).cols.toNat s.tsize.toNat).map
      (fun t => tileHash s.hstride.toNat (tilePixels (pixelsOf s.lmem (s.desc a)) t)) =
      (List.range (s.tileCount (s.desc a))).map hash := by
    rw [tilesOf, List.map_map]
    exact List.map_congr_left fun n hn => hhash n (List.mem_range.mp hn)
  have hdirty : dirtyTiles (isFresh (s.ctx ctx) (s.frameGeometry (s.desc a))) (s.ctx ctx).hashes
      (tilesOf (s.desc a).rows.toNat (s.desc a).cols.toNat s.tsize.toNat)
      ((List.range (s.tileCount (s.desc a))).map hash) =
      (s.dirtyNumbers (s.desc a) ctx hash).map (s.frameTile (s.desc a)) := dirtyTiles_map_range ..
  have hpatches : mapExcept (tilePatch s.codec (pixelsOf s.lmem (s.desc a)))
      ((s.dirtyNumbers (s.desc a) ctx hash).map (s.frameTile (s.desc a))) =
      mapExcept patch (s.dirtyNumbers (s.desc a) ctx hash) := by
    rw [mapExcept_map]
    exact mapExcept_congr fun n hn => hpatch n (List.mem_range.mp (List.mem_of_mem_filter hn))
  rw [State.frameGeometry] at hdirty
  simp only [afterChecks, pixels_readMatrix, hhashes, hdirty, hpatches, List.length_map]
  rfl

theorem passes_diff (hctx : ctx < s.cfg.nHctx) (ha : (s.desc a).matrixOk s.cfg.lmemBytes)
    (hb : (s.desc b).streamOk s.cfg.lmemBytes) (hs : (s.desc a).tileSides)
    (hcap : s.tileCount (s.desc a) ≤ s.cfg.maxTiles)
    (hap : (streamFootprint (s.desc b)).apart (matrixFootprint (s.desc a))) :
    firstFault (checks (.diff a b ctx) s) = none := by
  simp only [checks, firstFault_append_eq_none, matrixChecks_pass, streamChecks_pass, firstFault_cons_eq_none,
    firstFault_nil, not_not, overlapChecks_pass_one, Nat.not_le, Nat.not_lt]
  exact ⟨⟨⟨⟨⟨hctx, trivial⟩, ha⟩, hb⟩, hs, hcap, trivial⟩, hap⟩

theorem diff_passes (h : firstFault (checks (.diff a b ctx) s) = none) :
    ctx < s.cfg.nHctx ∧ (s.desc a).matrixOk s.cfg.lmemBytes ∧ (s.desc b).streamOk s.cfg.lmemBytes ∧
      (s.desc a).tileSides ∧ s.tileCount (s.desc a) ≤ s.cfg.maxTiles ∧
      (streamFootprint (s.desc b)).apart (matrixFootprint (s.desc a)) := by
  simp only [checks, firstFault_append_eq_none, matrixChecks_pass, streamChecks_pass, firstFault_cons_eq_none,
    firstFault_nil, not_not, overlapChecks_pass_one, Nat.not_le, Nat.not_lt] at h
  obtain ⟨⟨⟨⟨⟨hctx, -⟩, ha⟩, hb⟩, hs, hcap, -⟩, hap⟩ := h
  exact ⟨hctx, ha, hb, hs, hcap, hap⟩

/-- The model's own hash of each tile. -/
def State.tileHashes (s : State) (d : Desc) (n : Nat) : Hash64 :=
  tileHash s.hstride.toNat (tilePixels (pixelsOf s.lmem d) (s.frameTile d n))

/-- What a DIFF that completes leaves. -/
theorem diff_completed {t : State} (h : exec (.diff a b ctx) s = .next t) (ht : t.engine = .running) :
    firstFault (checks (.diff a b ctx) s) = none ∧ ∃ patches, patches.flatten.length ≤ (s.desc b).len.toNat ∧
      t = (s.afterDiff a b ctx (s.tileHashes (s.desc a)) patches).advance 4 := by
  obtain ⟨hpass, u, hu, rfl⟩ := completed_of_notFaulted h (by simp [ht])
  rw [afterChecks_diff (fun _ _ => rfl) (fun _ _ => rfl), toStream_cases] at hu
  refine ⟨hpass, ?_⟩
  split at hu
  case h_1 patches hp =>
    split at hu <;> cases hu
    case isFalse hfit => exact ⟨patches, Nat.le_of_not_lt hfit, rfl⟩
  case h_2 => cases hu

/-- With the hashes of the frame in a context of its geometry, no tile is dirty. -/
theorem dirtyNumbers_eq_nil {d : Desc} {hash : Nat → Hash64} (hv : (s.ctx ctx).valid = true)
    (hg : (s.ctx ctx).geom = s.frameGeometry d) (hh : (s.ctx ctx).hashes = (List.range (s.tileCount d)).map hash) :
    s.dirtyNumbers d ctx hash = [] := by
  rw [State.dirtyNumbers, List.filter_eq_nil_iff]
  intro n hn
  have hn := List.mem_range.mp hn
  simp [isFresh, hv, hg, hh, hn]

/-- A DIFF with no dirty tile completes with no patch and no byte written (46_tilediff R758). -/
theorem diff_of_clean (hpass : firstFault (checks (.diff a b ctx) s) = none) (hrun : s.engine = .running)
    (hclean : s.dirtyNumbers (s.desc a) ctx (s.tileHashes (s.desc a)) = []) :
    ∃ u, exec (.diff a b ctx) s = .next u ∧ u.engine = .running ∧ u.res[0] = 0 ∧ u.res[1] = 0 ∧
      ∀ x, u.lmem.read x = s.lmem.read x := by
  have hafter := afterChecks_diff (s := s) (a := a) (b := b) (ctx := ctx) (hash := s.tileHashes (s.desc a))
    (fun _ _ => rfl) (fun _ _ => rfl)
  have hexec := exec_toStream_completes hpass hafter (y := []) (by rw [hclean]; rfl) (Nat.not_lt.mpr (Nat.zero_le _))
  refine ⟨_, hexec, hrun, ?_, ?_, fun x => read_store_outside _ _ _ _ (Nat.lt_or_ge _ _)⟩
  · simp [State.afterDiff, hclean, State.setRes01, State.setRes, State.advance]
  · simp [State.afterDiff, State.setRes01, State.setRes, State.advance]

end

end Sys2Proof.Machine

namespace Sys2Proof

open Sys2Proof.Machine

/-- Settles O49: the fold of HASH is a sum mod 2^64; HCTXRST replaces one context. -/
theorem hashAndHctxrst : Obligations.HashAndHctxrst := by
  refine ⟨fun a s => ⟨exec_faultsOnChecks _ s, fun ha hst => ?_⟩, fun ctx s hfit => ?_⟩
  · have hpass : firstFault (checks (.hash a) s) = none := (matrixChecks_pass s (s.desc a)).mpr ha
    have hexec := exec_completes hpass (checked_pure_eq_ok.mpr rfl)
    rw [pixels_readMatrix, pixelsOf, tileHash_of_pixels _ _ _ _ hst] at hexec
    exact hexec
  · split
    case isTrue hctx =>
      have hpass : firstFault (checks (.hctxrst ctx) s) = none := by
        rw [checks, firstFault_cons_eq_none]
        exact ⟨by omega, firstFault_nil⟩
      have hin : ctx < s.ctxs.length := hfit.1 ▸ hctx
      refine ⟨_, exec_completes hpass rfl, rfl, ?_, ?_, fun k hk => ?_⟩
      · simp [State.ctx, hin]
      · simp
      · simp [State.ctx, List.getElem?_set_ne (Ne.symm hk)]
    case isFalse hctx =>
      exact exec_faultsOnChecks _ s .operand (firstFault_cons_of_fails (by omega))

/-- Settles O50: DIFF's ends by tile numbers, with each hash and each patch written out. -/
theorem diffCommand : Obligations.DiffCommand := by
  intro a b ctx s i d rows cols ts st gr gc geom top left height width hash dirty patch
  refine ⟨exec_faultsOnChecks _ s, fun hctx ha hb hs hcap hap hst => ?_⟩
  have hpass : firstFault (checks i s) = none := passes_diff hctx ha hb hs hcap hap
  have hhash : ∀ n < s.tileCount d, tileHash st (tilePixels (pixelsOf s.lmem d) (s.frameTile d n)) = hash n :=
    fun n hn => by
      rw [State.frameTile, tilePixels_eq_map s.lmem d hn, tileHash_of_pixels _ _ _ _ hst]
      rfl
  have hpatch : ∀ n < s.tileCount d, tilePatch s.codec (pixelsOf s.lmem d) (s.frameTile d n) = patch n :=
    fun n hn => by
      rw [tilePatch_eq_map, State.frameTile, tilePixels_eq_map s.lmem d hn]
      rfl
  have hdirty : s.dirtyNumbers d ctx hash = dirty :=
    List.filter_congr fun n _ => fresh_or_differs (s.ctx ctx) geom (hash n) _
  have hafter := afterChecks_diff (b := b) (ctx := ctx) hhash hpatch
  rw [hdirty] at hafter
  have hfault {code : FaultCode} := exec_toStream_faults hpass hafter (code := code)
  split
  case h_1 patches hp =>
    split
    case isTrue hfit =>
      have hexec := exec_toStream_completes hpass hafter hp (Nat.not_lt.mpr hfit)
      rw [State.afterDiff, hdirty] at hexec
      exact ⟨_, hexec, holdsBytes_writeStream _ _ _, (writeStream_writesBytes _ _ _).outside⟩
    case isFalse hlong => exact hfault (.inr ⟨rfl, patches, hp, Nat.not_le.mp hlong⟩)
  case h_2 code hp =>
    refine ⟨?_, hfault (.inl hp)⟩
    obtain ⟨n, hn, he⟩ := mapExcept_eq_error hp
    rw [← hpatch n (List.mem_range.mp (List.mem_of_mem_filter hn))] at he
    exact tilePatch_eq_error he

/-- Settles O51: the first DIFF leaves its context with the hashes of the frame, and the frame as it was. -/
theorem identicalFrames : Obligations.IdenticalFrames := by
  intro a b ctx s t hfit he h ht
  obtain ⟨hpass, patches, hlen, rfl⟩ := diff_completed h ht
  obtain ⟨hctx, ha, hb, hs, hcap, hap⟩ := diff_passes hpass
  have hwrites := writeStream_writes s.lmem (s.desc b) hlen
  have hpixels : pixelsOf (writeStream s.lmem (s.desc b) patches.flatten) (s.desc a) = pixelsOf s.lmem (s.desc a) := by
    refine List.map_congr_left fun i hi => List.map_congr_left fun j hj => ?_
    rw [pixelAt, pixelAt, elementAt_of_writes (hwrites.mono fun x => (inRanges_singleton _ x).mp) hap
      (List.mem_range.mp hi) (List.mem_range.mp hj)]
  have hin : ctx < s.ctxs.length := hfit.1 ▸ hctx
  set t := (s.afterDiff a b ctx (s.tileHashes (s.desc a)) patches).advance 4
  have hstored : t.ctx ctx = ⟨true, s.frameGeometry (s.desc a), ceilDiv (s.desc a).rows.toNat s.tsize.toNat,
      ceilDiv (s.desc a).cols.toNat s.tsize.toNat, (List.range (s.tileCount (s.desc a))).map (s.tileHashes (s.desc a))⟩ := by
    simp [t, State.afterDiff, State.ctx, State.setCtx, hin]
  have hhash : t.tileHashes (s.desc a) = s.tileHashes (s.desc a) :=
    funext fun n => congrArg (fun m => tileHash s.hstride.toNat (tilePixels m (s.frameTile (s.desc a) n))) hpixels
  refine diff_of_clean (s := t) (passes_diff hctx ha hb hs hcap hap) ht ?_
  change t.dirtyNumbers (s.desc a) ctx (t.tileHashes (s.desc a)) = []
  rw [hhash]
  exact dirtyNumbers_eq_nil (by rw [hstored]) (by rw [hstored]; rfl) (by rw [hstored]; rfl)

end Sys2Proof
end


section
/-! Patches laid on the canvas: the commands STITCH and APPLY (47_compositor R805, R806, R808). -/

namespace Sys2Proof.Machine

/-! One list laid over another -/

/-- An element of a list that another is laid over. -/
theorem getD_overlay {α β : Type} (f : α → β → α) {old : List α} (new : List β) (at0 : Int) {k : Nat}
    (hk : k < old.length) (d : α) (e : β) :
    (overlay f old new at0).getD k d =
      if at0 ≤ k ∧ (k : Int) < at0 + new.length then f (old.getD k d) (new.getD (k - at0).toNat e) else old.getD k d := by
  have hlen : (old.take at0.toNat ++ List.zipWith f (old.drop at0.toNat) (new.drop (-at0).toNat)).length =
      min at0.toNat old.length + min (old.length - at0.toNat) (new.length - (-at0).toNat) := by
    rw [List.length_append, List.length_take, List.length_zipWith, List.length_drop, List.length_drop]
  rw [overlay, List.getD_eq_getElem?_getD, List.getD_eq_getElem?_getD]
  split
  case isTrue h =>
    rw [List.getElem?_append_left (by omega), List.getElem?_append_right (by rw [List.length_take]; omega),
      List.length_take, Nat.min_eq_left (by omega), List.getElem?_zipWith, List.getElem?_drop, List.getElem?_drop,
      show at0.toNat + (k - at0.toNat) = k by omega, show (-at0).toNat + (k - at0.toNat) = (k - at0).toNat by omega,
      List.getElem?_eq_getElem hk, List.getElem?_eq_getElem (by omega), List.getD_eq_getElem _ _ (by omega)]
    rfl
  case isFalse h =>
    by_cases hbefore : k < at0.toNat
    · rw [List.getElem?_append_left (by omega), List.getElem?_append_left (by rw [List.length_take]; omega),
        List.getElem?_take_of_lt hbefore]
    · rw [List.getElem?_append_right (by omega), hlen, List.getElem?_drop, List.getElem?_drop, List.length_drop]
      congr 2
      omega

/-- An entry of rows that other rows are laid over from row `y`, column `x` on. -/
theorem cellAt_overlay {rows p : List (List Word)} {nh nw h w : Nat} (hs : matrixShaped nh nw rows)
    (hp : matrixShaped h w p) (x y : Int) {i j : Nat} (hi : i < nh) (hj : j < nw) :
    cellAt (overlay (fun row prow => overlay (fun _ q : Word => q) row prow x) rows p y) 0 i j =
      if y ≤ i ∧ (i : Int) < y + h ∧ x ≤ j ∧ (j : Int) < x + w then cellAt p 0 (i - y).toNat (j - x).toNat
      else cellAt rows 0 i j := by
  obtain ⟨hlen, hrow⟩ := hs
  obtain ⟨hplen, hprow⟩ := hp
  have hilen : i < rows.length := by omega
  have hjlen : j < (rows.getD i []).length := by
    rw [List.getD_eq_getElem _ _ hilen, hrow _ (List.getElem_mem _)]
    exact hj
  rw [cellAt, getD_overlay _ p y hilen [] [], hplen]
  by_cases hin : y ≤ i ∧ (i : Int) < y + h
  · have hwidth : (p.getD (i - y).toNat []).length = w := by
      rw [List.getD_eq_getElem _ _ (by omega)]
      exact hprow _ (List.getElem_mem _)
    rw [if_pos hin, getD_overlay _ _ x hjlen 0 0, hwidth]
    exact if_congr (by rw [← and_assoc, and_iff_right hin]) rfl rfl
  · rw [if_neg hin, if_neg fun h => hin ⟨h.1, h.2.1⟩]
    rfl

/-! A grown canvas -/

theorem getD_padTo {α : Type} (n : Nat) (dflt : α) (xs : List α) (k : Nat) : (padTo n dflt xs).getD k dflt = xs.getD k dflt := by
  rw [padTo, List.getD_eq_getElem?_getD, List.getD_eq_getElem?_getD, List.getElem?_append]
  split
  case isTrue => rfl
  case isFalse h =>
    rw [List.getElem?_replicate, List.getElem?_eq_none (Nat.le_of_not_lt h)]
    split <;> rfl

/-- An entry of a canvas grown with zeros (47_compositor R800). -/
theorem cellAt_grow {c : Canvas} (hl : c.pixels.length = c.h) (hc : ∀ row ∈ c.pixels, row.length = c.w) (nh nw i j : Nat) :
    cellAt (c.grow nh nw).pixels 0 i j = if i < c.h ∧ j < c.w then cellAt c.pixels 0 i j else 0 := by
  have hrow : (c.grow nh nw).pixels.getD i [] =
      ((if i < c.h then (c.pixels.map (padTo nw 0))[i]? else (List.replicate (nh - c.h) (List.replicate nw 0))[i - c.h]?).getD
        []) := by
    rw [Canvas.grow, List.getD_eq_getElem?_getD]
    dsimp only
    rw [padTo, List.getElem?_append, List.length_map, hl]
  rw [cellAt, cellAt, hrow, List.getElem?_map]
  by_cases hi : i < c.h
  · have hlen : i < c.pixels.length := hl ▸ hi
    rw [if_pos hi, List.getElem?_eq_getElem hlen, Option.map_some, Option.getD_some, getD_padTo,
      List.getD_eq_getElem _ _ hlen]
    split
    case isTrue => rfl
    case isFalse hj =>
      exact List.getD_eq_default _ _ (by rw [hc _ (List.getElem_mem _)]; exact Nat.le_of_not_lt fun h => hj ⟨hi, h⟩)
  · rw [if_neg hi, if_neg fun h => hi h.1, List.getElem?_replicate]
    split
    case isTrue => rw [Option.getD_some, List.getD_eq_getElem?_getD, List.getElem?_replicate]; split <;> rfl
    case isFalse => rfl

/-- The size of the canvas after a patch, on integers (47_compositor R808). -/
theorem grownSize_cast (size n : Nat) (at0 : Int) : (grownSize size at0 n : Int) = max (size : Int) (at0 + n) := by
  rw [grownSize]
  omega

/-- An entry of the canvas after a patch (47_compositor R808). -/
theorem cellAt_stitched {c : Canvas} (hl : c.pixels.length = c.h) (hc : ∀ row ∈ c.pixels, row.length = c.w)
    {p : List (List Word)} {h w : Nat} (hp : matrixShaped h w p) (x y : Int) {i j : Nat}
    (hi : (i : Int) < max (c.h : Int) (y + h)) (hj : (j : Int) < max (c.w : Int) (x + w)) :
    cellAt (stitched c p h w x y).pixels 0 i j =
      if y ≤ i ∧ (i : Int) < y + h ∧ x ≤ j ∧ (j : Int) < x + w then cellAt p 0 (i - y).toNat (j - x).toNat
      else if i < c.h ∧ j < c.w then cellAt c.pixels 0 i j else 0 := by
  have hshape := grow_shaped hl hc (nh := grownSize c.h y h) (nw := grownSize c.w x w) (le_max_left ..)
    (le_max_left ..)
  rw [← grownSize_cast, Int.ofNat_lt] at hi hj
  rw [stitched]
  dsimp only
  rw [cellAt_overlay hshape hp x y hi hj, cellAt_grow hl hc]

/-! Patches from a stream -/

/-- A patch lies inside the stream it was parsed from. -/
theorem patchParse_consumed_le {bs : List Byte} {p : Patch} (h : patchParse bs = .ok p) : p.consumed ≤ bs.length := by
  unfold patchParse at h
  split at h
  · cases h
  split at h
  · cases h
  split at h
  · cases h
  cases h
  dsimp only
  omega

/-- The descriptor past a patch, as one sum and one difference (47_compositor R806). -/
theorem skip_eq {d : Desc} {n : Nat} (h : n ≤ d.len.toNat) :
    d.skip n = { d with base := BitVec.ofNat 32 (d.base.toNat + n), len := BitVec.ofNat 32 (d.len.toNat - n) } := by
  have hbase : d.base + BitVec.ofNat 32 n = BitVec.ofNat 32 (d.base.toNat + n) := by
    rw [BitVec.ofNat_add, BitVec.ofNat_toNat, BitVec.setWidth_eq]
  have hlen : d.len - BitVec.ofNat 32 n = BitVec.ofNat 32 (d.len.toNat - n) := by
    have := d.len.isLt
    apply BitVec.eq_of_toNat_eq
    simp only [BitVec.toNat_sub, BitVec.toNat_ofNat]
    omega
  rw [Desc.skip, hbase, hlen]

/-- APPLY's capacity check, for a patch that parses (47_compositor R806). -/
theorem patchTooLarge_of_parsed {s : State} {d : Desc} {p : Patch} (hp : patchParse (bytesOf s.lmem d) = .ok p) :
    patchTooLarge s d = ((patchPixels s.codec p).isSome && canvasTooLarge s p.y p.x p.h.toNat p.w.toNat) := by
  rw [patchTooLarge, hp, patchPixels, State.codec]
  dsimp only
  split
  case isTrue hsides => rw [decide_eq_true hsides, Bool.true_and]
  case isFalse hsides => rw [decide_eq_false hsides, Bool.false_and, Bool.false_and, Option.isSome_none, Bool.false_and]

theorem patchTooLarge_of_unparsed {s : State} {d : Desc} {e : DecodeStop} (hp : patchParse (bytesOf s.lmem d) = .error e) :
    patchTooLarge s d = false := by
  rw [patchTooLarge, hp]

/-- The pixels of a good patch are a matrix of its size, which is positive (45_patch R707). -/
theorem patchPixels_shaped {k : CodecSettings} {p : Patch} {px : List (List Word)} (h : patchPixels k p = some px) :
    0 < p.h ∧ 0 < p.w ∧ matrixShaped p.h.toNat p.w.toNat px := by
  unfold patchPixels at h
  split at h
  case isTrue hsides =>
    obtain ⟨hw, hh, hw16, hh16⟩ := hsides
    exact ⟨hh, hw, tileDecode_shaped (by omega) (by omega) h⟩
  case isFalse => cases h

/-! The checks of STITCH and APPLY -/

theorem firstFault_stitch {a : DescReg} {x y : Int} {s : State} (hd : (s.desc a).matrixOk s.cfg.lmemBytes)
    (hrows : (s.desc a).rows.toNat ≠ 0) (hcols : (s.desc a).cols.toNat ≠ 0) :
    firstFault (checks (.stitch a x y) s) =
      if canvasTooLarge s y x (s.desc a).rows.toNat (s.desc a).cols.toNat then some .canvasCapacity else none := by
  rw [checks, firstFault_append, (matrixChecks_pass s (s.desc a)).mpr hd, Option.none_or,
    firstFault_cons_of_passes (not_or.mpr ⟨hrows, hcols⟩)]
  cases canvasTooLarge s y x (s.desc a).rows.toNat (s.desc a).cols.toNat <;> rfl

theorem firstFault_apply {a : DescReg} {s : State} (hd : (s.desc a).streamOk s.cfg.lmemBytes) :
    firstFault (checks (.apply a) s) = if patchTooLarge s (s.desc a) then some .canvasCapacity else none := by
  rw [checks, firstFault_append, (streamChecks_pass s (s.desc a)).mpr hd, Option.none_or]
  cases patchTooLarge s (s.desc a) <;> rfl

end Sys2Proof.Machine

namespace Sys2Proof

open Sys2Proof.Machine

/-- Settles O56: the capacity check, then the entries of the stitched canvas. -/
theorem stitchCommand : Obligations.StitchCommand := by
  intro a x y s
  refine ⟨exec_faultsOnChecks _ s, fun hfit hd hrows hcols => ?_⟩
  intro h w nh nw
  have hchecks := firstFault_stitch (x := x) (y := y) hd hrows hcols
  split
  case isTrue hlarge =>
    rw [canvasTooLarge, decide_eq_true hlarge] at hchecks
    exact exec_faultsOnChecks _ s .canvasCapacity hchecks
  case isFalse hroom =>
    have hsmall : canvasTooLarge s y x (s.desc a).rows.toNat (s.desc a).cols.toNat = false := decide_eq_false hroom
    rw [hsmall] at hchecks
    have ⟨hl, hc, _⟩ := hfit
    refine ⟨_, exec_completes hchecks rfl, rfl, stitched_fits hfit hsmall, grownSize_cast .., grownSize_cast ..,
      fun i j hi hj => ?_⟩
    refine (cellAt_stitched hl hc (readMatrix_shaped s.lmem (s.desc a)) x y hi hj).trans (ite_congr rfl (fun hin => ?_) fun _ => rfl)
    rw [readMatrix_eq_map]
    exact cellAt_map _ _ _ _ _ _ (by omega) (by omega)

/-- Settles O57: the parser's answer, the decoder's answer and the capacity decide in turn. -/
theorem applyCommand : Obligations.ApplyCommand := by
  intro a s
  refine ⟨exec_faultsOnChecks _ s, fun hd => ?_⟩
  have hchecks := firstFault_apply hd
  have hexec (u : State) (hpass : firstFault (checks (.apply a) s) = none) (h : afterChecks (.apply a) s = .ok u) :=
    exec_completes hpass h
  simp only [afterChecks, readStream_eq_bytesOf] at hexec
  intro d
  split
  case h_1 e hp =>
    rw [patchTooLarge_of_unparsed hp] at hchecks
    rw [hp] at hexec
    refine ⟨_, hexec _ hchecks rfl, rfl, (setResAll_toList s _ _).trans ?_⟩
    cases e <;> rfl
  case h_2 p hp =>
    rw [patchTooLarge_of_parsed hp] at hchecks
    rw [hp] at hexec
    dsimp only at hexec
    have hconsumed : p.consumed ≤ (s.desc a).len.toNat := (patchParse_consumed_le hp).trans_eq
      (by rw [bytesOf, List.length_map, List.length_range])
    intro moved results
    have hmoved : (s.desc a).skip p.consumed = moved := skip_eq hconsumed
    rw [hmoved] at hexec
    split
    case h_1 hbad =>
      change patchPixels s.codec p = none at hbad
      rw [hbad] at hchecks hexec
      exact ⟨_, hexec _ hchecks rfl, rfl, (setResAll_toList s _ 4).trans (patchResults_toList statusCorrupt _ p)⟩
    case h_2 px hgood =>
      change patchPixels s.codec p = some px at hgood
      rw [hgood, Option.isSome_some, Bool.true_and] at hchecks
      rw [hgood] at hexec
      obtain ⟨hh, hw, hshape⟩ := patchPixels_shaped hgood
      have hheight : ((p.h.toNat : Nat) : Int) = p.h := Int.toNat_of_nonneg hh.le
      have hwidth : ((p.w.toNat : Nat) : Int) = p.w := Int.toNat_of_nonneg hw.le
      rw [canvasTooLarge, hheight, hwidth] at hchecks
      intro nh nw
      split
      case isTrue hlarge =>
        rw [decide_eq_true hlarge] at hchecks
        exact exec_faultsOnChecks _ s .canvasCapacity hchecks
      case isFalse hroom =>
        rw [decide_eq_false hroom] at hchecks
        refine ⟨_, hexec _ hchecks rfl, rfl, (setResAll_toList s _ 4).trans (patchResults_toList statusOk _ p), ?_, ?_,
          fun hfits i j hi hj => ?_⟩
        · exact (grownSize_cast ..).trans (by rw [hheight])
        · exact (grownSize_cast ..).trans (by rw [hwidth])
        · obtain ⟨hl, hc, -⟩ := hfits
          have hcell := cellAt_stitched hl hc hshape p.x p.y (i := i) (j := j) (by rwa [hheight]) (by rwa [hwidth])
          rwa [hheight, hwidth] at hcell

end Sys2Proof
end


section
/-! The CSR map (10_state R120), the Huffman code tables (44_entropy R606) and `f64(n)` (00_scope R11). -/

namespace Sys2Proof.Machine

/-! CSR numbers of the table entries -/

theorem csr_ofNumber_qtlHi (k : Fin 64) : Csr.ofNumber (0x100 + 2 * k) = some (.qtlHi k) := by
  decide +revert

theorem csr_ofNumber_qtlLo (k : Fin 64) : Csr.ofNumber (0x101 + 2 * k) = some (.qtlLo k) := by
  decide +revert

theorem csr_ofNumber_qtcHi (k : Fin 64) : Csr.ofNumber (0x180 + 2 * k) = some (.qtcHi k) := by
  decide +revert

theorem csr_ofNumber_qtcLo (k : Fin 64) : Csr.ofNumber (0x181 + 2 * k) = some (.qtcLo k) := by
  decide +revert

/-- The halves of a 64-bit register make it up (10_state R121). -/
theorem highWord_lowWord (x : BitVec 64) : (highWord x).toNat * 2 ^ 32 + (lowWord x).toNat = x.toNat := by
  rw [highWord_toNat, lowWord_toNat, Nat.div_add_mod']

/-! Code tables -/

/-- The first bits of a number are the bits of a quotient. -/
theorem take_bitsOf (k n v : Nat) : (bitsOf (k + n) v).take k = bitsOf k (v / 2 ^ n) := by
  induction k with
  | zero => rfl
  | succ k ih =>
    rw [Nat.succ_add, bitsOf, List.take_succ_cons, ih, bitsOf, Nat.div_div_eq_div_mul, ← Nat.pow_add, Nat.add_comm n k]

/-- A code that starts another is not before it, nor behind it. -/
theorem not_before_of_starts {c d : HuffCode} (hpos : 0 < c.len) (hlen : d.len ≤ 16) (hc : c.code < 2 ^ c.len)
    (hd : d.code < 2 ^ d.len) (h : bitsOf c.len c.code <+: bitsOf d.len d.code) : ¬ d.before c ∧ ¬ c.before d := by
  have hle : c.len ≤ d.len := by simpa using h.length_le
  have htake : bitsOf c.len c.code = (bitsOf d.len d.code).take c.len := by
    obtain ⟨rest, hrest⟩ := h
    rw [← hrest, List.take_left' (bitsOf_length _ _)]
  rw [show d.len = c.len + (d.len - c.len) by omega, take_bitsOf] at htake
  have hquot : d.code / 2 ^ (d.len - c.len) < 2 ^ c.len :=
    Nat.div_lt_of_lt_mul (by rwa [← Nat.pow_add, Nat.sub_add_cancel hle])
  have hcode := congrArg natOfBits htake
  rw [natOfBits_bitsOf hc, natOfBits_bitsOf hquot] at hcode
  exact HuffCode.not_before_of_leadingBits hlen (n := d.len - c.len) (by omega) (by omega) hcode

/-- In a table of rising codes no code starts another (44_entropy R606). -/
theorem risingCodes.pairwise_not_starts {table : List HuffCode} (h : risingCodes table) :
    (table.map fun c => bitsOf c.len c.code).Pairwise (fun x y => ¬ x <+: y ∧ ¬ y <+: x) := by
  obtain ⟨hrising, hbounds⟩ := h
  rw [List.pairwise_map]
  refine hrising.imp_of_mem fun {c d} hc hd hcd => ?_
  obtain ⟨hcpos, hclen, hccode⟩ := hbounds c hc
  obtain ⟨hdpos, hdlen, hdcode⟩ := hbounds d hd
  exact ⟨fun hs => (not_before_of_starts hcpos hdlen hccode hdcode hs).2 hcd,
    fun hs => (not_before_of_starts hdpos hclen hdcode hccode hs).1 hcd⟩

theorem dcCodes_not_all_ones : ∀ c ∈ dcCodes, bitsOf c.len c.code ≠ List.replicate c.len true := by
  decide +kernel

theorem acCodes_not_all_ones : ∀ c ∈ acCodes, bitsOf c.len c.code ≠ List.replicate c.len true := by
  decide +kernel

end Sys2Proof.Machine

namespace Sys2Proof

open Sys2Proof.Machine

/-- Settles O27: the CSR of each number, and the halves of a 64-bit register. -/
theorem csrMap : Obligations.CsrMap := by
  intro s value halves
  have hhalves {hi lo : Nat} {cHi cLo : Csr} (x : BitVec 64) (hHi : Csr.ofNumber hi = some cHi)
      (hLo : Csr.ofNumber lo = some cLo) (hh : s.csrRead cHi = highWord x) (hl : s.csrRead cLo = lowWord x) :
      halves hi lo x := by
    refine ⟨highWord x, lowWord x, ?_, ?_, highWord_lowWord x⟩
    · rw [← hh]
      exact congrArg (Option.map s.csrRead) hHi
    · rw [← hl]
      exact congrArg (Option.map s.csrRead) hLo
  refine ⟨rfl, rfl, rfl, rfl, rfl, rfl, rfl, rfl, rfl, rfl, fun k => ?_, hhalves s.hash rfl rfl rfl rfl,
    fun k => hhalves _ (csr_ofNumber_scaleHi k) (csr_ofNumber_scaleLo k) rfl rfl,
    fun k => hhalves _ (csr_ofNumber_qtlHi k) (csr_ofNumber_qtlLo k) rfl rfl,
    fun k => hhalves _ (csr_ofNumber_qtcHi k) (csr_ofNumber_qtcLo k) rfl rfl, fun n hn => ?_⟩
  · exact congrArg (Option.map s.csrRead) (csr_ofNumber_res k)
  · exact congrArg (Option.map s.csrRead) ((csr_ofNumber_eq_none n).mpr hn)

/-- Settles O36: both tables rise, and each code is compared with its ones. -/
theorem huffmanPrefixFree : Obligations.HuffmanPrefixFree := by
  rintro table (rfl | rfl)
  · exact ⟨risingCodes_dcCodes.pairwise_not_starts, dcCodes_not_all_ones⟩
  · exact ⟨risingCodes_acCodes.pairwise_not_starts, acCodes_not_all_ones⟩

/-- Settles O59: `f64(n)` holds `n`, its significand shifted left and its exponent lowered by as much. -/
theorem integersAreExact : Obligations.IntegersAreExact := by
  intro n hn
  obtain ⟨k, hview, hneg, hpos⟩ := F64.holds_ofInt n hn
  refine ⟨_, _, _, hview, ?_⟩
  rw [signed_natAbs n _ _ hneg hpos, zpow_neg, zpow_natCast]
  push_cast
  exact mul_inv_cancel_right₀ (pow_ne_zero k two_ne_zero) _

end Sys2Proof
end


section
/-! Rounding once: the finite binary64 numbers as a rising sequence of magnitudes, the magnitude a real number rounds to,
and the four operations (00_scope R11). -/

namespace Sys2Proof.Machine

/-! Magnitudes: the 63 low bits of a binary64 number count the finite magnitudes in rising order -/

/-- The binade of a magnitude, the subnormal numbers and the first normal ones together. -/
def magBinade (k : Nat) : Nat := k / 2 ^ 52 - 1

/-- The significand of a magnitude. -/
def magSig (k : Nat) : Nat := k - magBinade k * 2 ^ 52

/-- The `k`-th magnitude, in units of the least one, 2^-1074. -/
def magUnits (k : Nat) : Nat := magSig k * 2 ^ magBinade k

/-- The 63 low bits of an infinity. -/
def magInf : Nat := 2047 * 2 ^ 52

/-- A magnitude from its binade and its significand; 2^53 is the first significand of the next binade. -/
theorem magUnits_eq {b q : Nat} (hq : q ≤ 2 ^ 53) (hb : b = 0 ∨ 2 ^ 52 ≤ q) : magUnits (b * 2 ^ 52 + q) = q * 2 ^ b := by
  rcases hq.lt_or_eq with hlt | rfl
  · have hbinade : magBinade (b * 2 ^ 52 + q) = b := by
      unfold magBinade
      omega
    rw [magUnits, magSig, hbinade, Nat.add_sub_cancel_left]
  · have hbinade : magBinade (b * 2 ^ 52 + 2 ^ 53) = b + 1 := by
      unfold magBinade
      omega
    rw [magUnits, magSig, hbinade, show b * 2 ^ 52 + 2 ^ 53 - (b + 1) * 2 ^ 52 = 2 ^ 52 by omega, pow_succ' 2 b,
      ← Nat.mul_assoc, ← Nat.pow_succ]

theorem magUnits_strictMono : StrictMono magUnits := by
  refine strictMono_nat_of_lt_succ fun k => ?_
  have hsplit : magBinade k * 2 ^ 52 + magSig k = k := by
    unfold magSig magBinade
    omega
  have hsig : magSig k < 2 ^ 53 := by
    unfold magSig magBinade
    omega
  have hnormal : magBinade k = 0 ∨ 2 ^ 52 ≤ magSig k := by
    unfold magSig magBinade
    omega
  have hnext := magUnits_eq (b := magBinade k) (q := magSig k + 1) hsig (by omega)
  rw [← Nat.add_assoc, hsplit] at hnext
  rw [hnext, magUnits]
  exact Nat.mul_lt_mul_of_pos_right (Nat.lt_succ_self _) (Nat.two_pow_pos _)

/-- What a finite number stands for, by its sign and its magnitude. -/
theorem view_ofMag_of_lt (neg : Bool) {k : Nat} (hk : k < magInf) :
    (F64.ofMag neg k).view = .fin neg (magSig k) (magBinade k - 1074) := by
  unfold magInf at hk
  unfold F64.view
  rw [F64.ofMag_toNat neg k (by omega)]
  have hbiased : ((if neg then 2 ^ 63 else 0) + k) / 2 ^ 52 % 2 ^ 11 = k / 2 ^ 52 := by split <;> omega
  have hfrac : ((if neg then 2 ^ 63 else 0) + k) % 2 ^ 52 = k % 2 ^ 52 := by split <;> omega
  have hneg : Nat.ble (2 ^ 63) ((if neg then 2 ^ 63 else 0) + k) = neg := by
    rw [Bool.eq_iff_iff, Nat.ble_eq]
    cases neg <;> simp; omega
  dsimp only
  rw [hbiased, hfrac, hneg, if_neg (by omega)]
  split
  · rw [show magSig k = k % 2 ^ 52 by unfold magSig magBinade; omega, show magBinade k = 0 by unfold magBinade; omega]
    rfl
  · rw [show magSig k = 2 ^ 52 + k % 2 ^ 52 by unfold magSig magBinade; omega,
      show ((k / 2 ^ 52 : Nat) : Int) - 1075 = magBinade k - 1074 by unfold magBinade; omega]

/-- A finite number has a magnitude. -/
theorem exists_mag_of_fin {x : F64} {neg : Bool} {m : Nat} {e : Int} (h : x.view = .fin neg m e) :
    ∃ k < magInf, x = F64.ofMag neg k := by
  have hlt := x.bits.isLt
  have hfinite : x.bits.toNat / 2 ^ 52 % 2 ^ 11 ≠ 2047 := fun hbiased => by
    unfold F64.view at h
    dsimp only at h
    rw [if_pos hbiased] at h
    split at h <;> cases h
  have hneg : Nat.ble (2 ^ 63) x.bits.toNat = neg := by
    unfold F64.view at h
    dsimp only at h
    rw [if_neg hfinite] at h
    split at h <;> cases h <;> rfl
  have hk : x.bits.toNat % 2 ^ 63 < magInf := by
    unfold magInf
    omega
  refine ⟨x.bits.toNat % 2 ^ 63, hk, congrArg F64.mk (BitVec.eq_of_toNat_eq ?_)⟩
  change _ = (F64.ofMag neg (x.bits.toNat % 2 ^ 63)).bits.toNat
  rw [F64.ofMag_toNat neg _ (Nat.mod_lt _ (by omega))]
  rw [Bool.eq_iff_iff, Nat.ble_eq] at hneg
  split <;> simp_all <;> omega

/-! Values -/

/-- −1 or 1. -/
def signUnit (neg : Bool) : ℚ := if neg then -1 else 1

theorem signed_cast (neg : Bool) (m : Nat) : (signed neg m : ℚ) = signUnit neg * m := by
  cases neg <;> simp [signed, signUnit]

theorem signUnit_xor (a b : Bool) : signUnit (a ^^ b) = signUnit a * signUnit b := by
  cases a <;> cases b <;> simp [signUnit]

theorem signUnit_mul_self (a : Bool) : signUnit a * signUnit a = 1 := by
  cases a <;> simp [signUnit]

/-- `x` is finite and its exact value is `p` (00_scope R11). -/
def IsValue (x : F64) (p : ℚ) : Prop := ∃ neg m e, x.view = .fin neg m e ∧ p = (signed neg m : ℚ) * (2 : ℚ) ^ e

/-- The value of a finite number by its magnitude. -/
theorem isValue_ofMag (neg : Bool) {k : Nat} (hk : k < magInf) :
    IsValue (F64.ofMag neg k) (signUnit neg * (magUnits k * (2 : ℚ) ^ (-1074 : Int))) := by
  refine ⟨neg, _, _, view_ofMag_of_lt neg hk, ?_⟩
  rw [signed_cast, magUnits, sub_eq_add_neg, zpow_add₀ two_ne_zero, zpow_natCast]
  generalize (2 : ℚ) ^ (-1074 : Int) = u
  push_cast
  ring

theorem IsValue.unique {x : F64} {p q : ℚ} (hp : IsValue x p) (hq : IsValue x q) : p = q := by
  obtain ⟨a, m, e, hx, rfl⟩ := hp
  obtain ⟨b, n, f, hy, rfl⟩ := hq
  rw [hx] at hy
  cases hy
  rfl

/-- Every value is that of a sign and a magnitude. -/
theorem IsValue.exists_mag {x : F64} {p : ℚ} (h : IsValue x p) :
    ∃ neg, ∃ k < magInf, x = F64.ofMag neg k ∧ p = signUnit neg * (magUnits k * (2 : ℚ) ^ (-1074 : Int)) := by
  obtain ⟨neg, m, e, hx, -⟩ := id h
  obtain ⟨k, hk, rfl⟩ := exists_mag_of_fin hx
  exact ⟨neg, k, hk, rfl, h.unique (isValue_ofMag neg hk)⟩

/-! The magnitude that a number rounds to -/

/-- `k` is the magnitude that `a` units round to: `a` lies between the points half-way to the magnitudes on both sides,
and on one of them only when `k` is even. -/
def RoundsToMag (a : ℚ) (k : Nat) : Prop :=
  (∀ j < k, (magUnits j + magUnits k : ℚ) ≤ 2 * a ∧ ((magUnits j + magUnits k : ℚ) = 2 * a → k % 2 = 0)) ∧
  ∀ j, k < j → 2 * a ≤ (magUnits k + magUnits j : ℚ) ∧ (2 * a = (magUnits k + magUnits j : ℚ) → k % 2 = 0)

theorem RoundsToMag.nearest {a : ℚ} {k : Nat} (h : RoundsToMag a k) (j : Nat) :
    |magUnits k - a| ≤ |magUnits j - a| ∧ (|magUnits k - a| = |magUnits j - a| → j ≠ k → k % 2 = 0) := by
  obtain ⟨hbelow, habove⟩ := h
  rcases lt_trichotomy j k with hjk | rfl | hkj
  · obtain ⟨hhalf, htie⟩ := hbelow j hjk
    have hlt : (magUnits j : ℚ) < magUnits k := Nat.cast_lt.mpr (magUnits_strictMono hjk)
    have hj : |(magUnits j : ℚ) - a| = a - magUnits j := by rw [abs_sub_comm, abs_of_pos (by linarith)]
    rw [hj]
    refine ⟨abs_le.mpr ⟨by linarith, by linarith⟩, fun heq _ => ?_⟩
    rcases eq_or_eq_neg_of_abs_eq heq with heq | heq
    · exact htie (by linarith)
    · linarith
  · exact ⟨le_rfl, fun _ h => absurd rfl h⟩
  · obtain ⟨hhalf, htie⟩ := habove j hkj
    have hlt : (magUnits k : ℚ) < magUnits j := Nat.cast_lt.mpr (magUnits_strictMono hkj)
    have hj : |(magUnits j : ℚ) - a| = magUnits j - a := abs_of_pos (by linarith)
    rw [hj]
    refine ⟨abs_le.mpr ⟨by linarith, by linarith⟩, fun heq _ => ?_⟩
    rcases eq_or_eq_neg_of_abs_eq heq with heq | heq
    · linarith
    · exact htie (by linarith)

theorem magUnits_zero : magUnits 0 = 0 := rfl

/-- 0 rounds to 0 alone. -/
theorem RoundsToMag.eq_zero {k : Nat} (h : RoundsToMag 0 k) : k = 0 := by
  by_contra hk
  have hpos : (0 : ℚ) < magUnits k := Nat.cast_pos.mpr (magUnits_strictMono (Nat.pos_of_ne_zero hk))
  have := (h.1 0 (Nat.pos_of_ne_zero hk)).1
  rw [magUnits_zero, Nat.cast_zero] at this
  linarith

/-- No number of either sign is nearer. -/
theorem RoundsToMag.nearest_signed {a : ℚ} (ha : 0 ≤ a) {k : Nat} (h : RoundsToMag a k) (opposite : Bool) (j : Nat) :
    |magUnits k - a| ≤ |signUnit opposite * magUnits j - a| ∧
      (|magUnits k - a| = |signUnit opposite * magUnits j - a| → signUnit opposite * magUnits j ≠ magUnits k →
        k % 2 = 0) := by
  cases opposite with
  | false =>
    obtain ⟨hle, htie⟩ := h.nearest j
    simp only [signUnit, Bool.false_eq_true, if_false, one_mul]
    exact ⟨hle, fun heq hne => htie heq fun hjk => hne (by rw [hjk])⟩
  | true =>
    obtain ⟨hle, -⟩ := h.nearest 0
    rw [magUnits_zero, Nat.cast_zero, zero_sub, abs_neg, abs_of_nonneg ha] at hle
    have hj : (0 : ℚ) ≤ magUnits j := Nat.cast_nonneg _
    have hfar : |signUnit true * magUnits j - a| = magUnits j + a := by
      rw [signUnit, if_pos rfl, abs_of_nonpos (by linarith)]
      ring
    rw [hfar]
    refine ⟨by linarith, fun heq hne => ?_⟩
    have hj0 : j = 0 := magUnits_strictMono.injective (by
      have : (magUnits j : ℚ) = 0 := by linarith
      exact_mod_cast this)
    subst hj0
    exact (h.nearest 0).2 (by rw [heq, magUnits_zero, Nat.cast_zero, zero_sub, abs_neg, abs_of_nonneg ha, zero_add])
      fun hk => hne (by rw [← hk, magUnits_zero, Nat.cast_zero, mul_zero])

/-- Twice the half-way point from the largest significand of a binade to the next magnitude, in units. -/
theorem magUnits_last_add_next (b : Nat) :
    (magUnits (b * 2 ^ 52 + (2 ^ 53 - 1)) + magUnits (b * 2 ^ 52 + 2 ^ 53) : ℚ) = (2 ^ 54 - 1) * 2 ^ b := by
  rw [magUnits_eq (by omega) (by omega), magUnits_eq le_rfl (by omega), Nat.cast_mul, Nat.cast_mul, ← add_mul,
    Nat.cast_pow 2 b]
  norm_num

theorem magUnits_overflow : (magUnits (magInf - 1) + magUnits magInf : ℚ) = (2 ^ 54 - 1) * 2 ^ 2045 :=
  magUnits_last_add_next 2045

/-- A number rounds to a finite magnitude when it is below the overflow threshold, and only then. -/
theorem RoundsToMag.lt_magInf_iff {a : ℚ} {k : Nat} (h : RoundsToMag a k) : k < magInf ↔ 2 * a < (2 ^ 54 - 1) * 2 ^ 2045 := by
  obtain ⟨hbelow, habove⟩ := h
  rw [← magUnits_overflow]
  constructor
  · intro hk
    obtain ⟨hhalf, htie⟩ := habove magInf hk
    have hle : (magUnits k : ℚ) ≤ magUnits (magInf - 1) := Nat.cast_le.mpr (magUnits_strictMono.monotone (by omega))
    refine lt_of_le_of_ne (by linarith) fun heq => ?_
    have heven := htie (by linarith)
    have hlast : k = magInf - 1 := magUnits_strictMono.injective (by
      have : (magUnits k : ℚ) = magUnits (magInf - 1) := by linarith
      exact_mod_cast this)
    unfold magInf at hlast
    omega
  · intro ha
    by_contra hk
    have hprev : magInf - 1 < k := by unfold magInf at hk ⊢; omega
    obtain ⟨hhalf, -⟩ := hbelow (magInf - 1) hprev
    have hle : (magUnits magInf : ℚ) ≤ magUnits k := Nat.cast_le.mpr (magUnits_strictMono.monotone (by omega))
    linarith

/-! Rounding a scaled number -/

/-- A quotient rounded to nearest, ties to even, in whole numbers. -/
theorem roundShift_bounds (m sh : Nat) :
    (2 * roundShift m sh * 2 ^ sh ≤ 2 * m + 2 ^ sh ∧
      (2 * roundShift m sh * 2 ^ sh = 2 * m + 2 ^ sh → roundShift m sh % 2 = 0)) ∧
    (2 * m ≤ 2 * roundShift m sh * 2 ^ sh + 2 ^ sh ∧
      (2 * m = 2 * roundShift m sh * 2 ^ sh + 2 ^ sh → roundShift m sh % 2 = 0)) := by
  have hsplit := Nat.div_add_mod' m (2 ^ sh)
  have hmod := Nat.mod_lt m (Nat.two_pow_pos sh)
  have hup : 2 * (m / 2 ^ sh + 1) * 2 ^ sh = 2 * (m / 2 ^ sh * 2 ^ sh) + 2 * 2 ^ sh := by ring
  have hdown : 2 * (m / 2 ^ sh) * 2 ^ sh = 2 * (m / 2 ^ sh * 2 ^ sh) := by ring
  unfold roundShift
  dsimp only
  split
  case isTrue hbelow => rw [hdown]; omega
  case isFalse =>
    split
    case isTrue habove => rw [hup]; omega
    case isFalse =>
      split
      case isTrue heven => rw [hdown]; omega
      case isFalse hodd => rw [hup]; omega

/-- The whole number `m` stands for `y` when it is rounded: they are equal, or `m` has many bits and the two compare alike
with every even number. -/
def StandsFor (m : Nat) (y : ℚ) : Prop :=
  y = m ∨ (2 ^ 54 ≤ m ∧ 0 ≤ y ∧ ∀ c : Nat, (2 * c ≤ m ↔ 2 * (c : ℚ) ≤ y) ∧ (m ≤ 2 * c ↔ y ≤ 2 * (c : ℚ)))

/-- A quotient rounded to nearest, ties to even, for what its numerator stands for. -/
theorem roundShift_bounds_of_standsFor {m sh : Nat} {y : ℚ} (h : StandsFor m y) (hsh : y = m ∨ 2 ≤ sh) :
    ((2 * roundShift m sh - 1 : ℚ) * 2 ^ sh ≤ 2 * y ∧
      ((2 * roundShift m sh - 1 : ℚ) * 2 ^ sh = 2 * y → roundShift m sh % 2 = 0)) ∧
    (2 * y ≤ (2 * roundShift m sh + 1 : ℚ) * 2 ^ sh ∧
      (2 * y = (2 * roundShift m sh + 1 : ℚ) * 2 ^ sh → roundShift m sh % 2 = 0)) := by
  have hbounds := roundShift_bounds m sh
  generalize roundShift m sh = q at hbounds ⊢
  obtain ⟨⟨hlow, hlowTie⟩, hhigh, hhighTie⟩ := hbounds
  have hexact (hy : y = m) : ((2 * q - 1 : ℚ) * 2 ^ sh ≤ 2 * y ∧ ((2 * q - 1 : ℚ) * 2 ^ sh = 2 * y → q % 2 = 0)) ∧
      (2 * y ≤ (2 * q + 1 : ℚ) * 2 ^ sh ∧ (2 * y = (2 * q + 1 : ℚ) * 2 ^ sh → q % 2 = 0)) := by
    subst hy
    have hlowQ : (2 * q * 2 ^ sh : ℚ) ≤ 2 * m + 2 ^ sh := by exact_mod_cast hlow
    have hhighQ : (2 * m : ℚ) ≤ 2 * q * 2 ^ sh + 2 ^ sh := by exact_mod_cast hhigh
    refine ⟨⟨by linarith, fun heq => hlowTie ?_⟩, by linarith, fun heq => hhighTie ?_⟩
    · have : (2 * q * 2 ^ sh : ℚ) = 2 * m + 2 ^ sh := by linarith
      exact_mod_cast this
    · have : (2 * m : ℚ) = 2 * q * 2 ^ sh + 2 ^ sh := by linarith
      exact_mod_cast this
  rcases hsh with hy | hsh
  · exact hexact hy
  rcases h with hy | ⟨-, hpos, hcompare⟩
  · exact hexact hy
  obtain ⟨n, rfl⟩ := Nat.exists_eq_add_of_le hsh
  have hpow : 2 ^ (2 + n) = 4 * 2 ^ n := by rw [Nat.pow_add]
  have hpowQ : (2 : ℚ) ^ (2 + n) = 4 * 2 ^ n := by exact_mod_cast hpow
  rw [hpow] at hlow hlowTie hhigh hhighTie
  rw [hpowQ]
  constructor
  · rcases Nat.eq_zero_or_pos q with rfl | hq
    · have hneg : (2 * ((0 : Nat) : ℚ) - 1) * (4 * 2 ^ n) < 0 := by
        have : (0 : ℚ) < 2 ^ n := by positivity
        rw [Nat.cast_zero]
        linarith
      exact ⟨by linarith, fun _ => rfl⟩
    · obtain ⟨p, rfl⟩ : ∃ p, q = p + 1 := ⟨q - 1, by omega⟩
      have hcast : (2 * ((p + 1 : Nat) : ℚ) - 1) * (4 * 2 ^ n) = 2 * (2 * (((2 * p + 1) * 2 ^ n : Nat) : ℚ)) := by
        push_cast
        ring
      have hnat : 2 * (p + 1) * (4 * 2 ^ n) = 2 * (2 * ((2 * p + 1) * 2 ^ n)) + 4 * 2 ^ n := by ring
      obtain ⟨hle, hge⟩ := hcompare ((2 * p + 1) * 2 ^ n)
      rw [hnat] at hlow hlowTie
      rw [hcast]
      refine ⟨by linarith [hle.mp (by omega)], fun heq => hlowTie ?_⟩
      have := hge.mpr (by linarith)
      omega
  · have hcast : (2 * (q : ℚ) + 1) * (4 * 2 ^ n) = 2 * (2 * (((2 * q + 1) * 2 ^ n : Nat) : ℚ)) := by
      push_cast
      ring
    have hnat : 2 * q * (4 * 2 ^ n) + 4 * 2 ^ n = 2 * (2 * ((2 * q + 1) * 2 ^ n)) := by ring
    obtain ⟨hle, hge⟩ := hcompare ((2 * q + 1) * 2 ^ n)
    rw [hnat] at hhigh hhighTie
    rw [hcast]
    refine ⟨by linarith [hge.mp (by omega)], fun heq => hhighTie ?_⟩
    have := hle.mpr (by linarith)
    omega

/-- A number `x` in units of binade `b`, of at most 53 bits before the point, rounds to the magnitude of that binade whose
significand it rounds to. -/
theorem roundsToMag_of_binade {b q : Nat} {x : ℚ}
    (hlow : 2 * (q : ℚ) - 1 ≤ 2 * x ∧ (2 * (q : ℚ) - 1 = 2 * x → q % 2 = 0))
    (hhigh : 2 * x ≤ 2 * (q : ℚ) + 1 ∧ (2 * x = 2 * (q : ℚ) + 1 → q % 2 = 0))
    (hx : x < 2 ^ 53) (hb : b = 0 ∨ 2 ^ 52 ≤ x) : RoundsToMag (x * 2 ^ b) (b * 2 ^ 52 + q) := by
  obtain ⟨hlow, hlowTie⟩ := hlow
  obtain ⟨hhigh, hhighTie⟩ := hhigh
  have hunit : (0 : ℚ) < 2 ^ b := by positivity
  have hq : q ≤ 2 ^ 53 := by
    have : (2 * q : ℚ) < 2 * 2 ^ 53 + 1 := by linarith
    have : 2 * q < 2 * 2 ^ 53 + 1 := by exact_mod_cast this
    omega
  have hqb : b = 0 ∨ 2 ^ 52 ≤ q := hb.imp_right fun hx => by
    have : (2 * 2 ^ 52 : ℚ) ≤ 2 * q + 1 := by linarith
    have : 2 * 2 ^ 52 ≤ 2 * q + 1 := by exact_mod_cast this
    omega
  have hparity : (b * 2 ^ 52 + q) % 2 = q % 2 := by omega
  have hmag : (magUnits (b * 2 ^ 52 + q) : ℚ) = q * 2 ^ b := by
    rw [magUnits_eq hq hqb]
    push_cast
    rfl
  rw [RoundsToMag, hmag, hparity]
  constructor
  · intro j hj
    by_cases hfirst : b = 0 ∨ 2 ^ 52 < q
    · have hle : magUnits j ≤ (q - 1) * 2 ^ b := by
        rw [← magUnits_eq (b := b) (q := q - 1) (by omega) (by omega)]
        exact magUnits_strictMono.monotone (by omega)
      have hleQ : (magUnits j : ℚ) ≤ (q - 1) * 2 ^ b := by
        have := (Nat.cast_le (α := ℚ)).mpr hle
        rwa [Nat.cast_mul, Nat.cast_pred (by omega), Nat.cast_pow, Nat.cast_ofNat] at this
      have hscaled := mul_le_mul_of_nonneg_right hlow hunit.le
      refine ⟨by linarith, fun heq => hlowTie ?_⟩
      exact mul_right_cancel₀ hunit.ne' (by linarith)
    · have hlt : (magUnits j : ℚ) < q * 2 ^ b := by
        rw [← hmag]
        exact Nat.cast_lt.mpr (magUnits_strictMono hj)
      have hqx : (q : ℚ) ≤ x := by
        obtain rfl : q = 2 ^ 52 := by omega
        push_cast
        exact hb.resolve_left (by omega)
      have hscaled := mul_le_mul_of_nonneg_right hqx hunit.le
      exact ⟨by linarith, fun heq => absurd heq (by linarith)⟩
  · intro j hj
    rcases hq.lt_or_eq with hlt | rfl
    · have hge : (q + 1) * 2 ^ b ≤ magUnits j := by
        rw [← magUnits_eq (b := b) (q := q + 1) (by omega) (by omega)]
        exact magUnits_strictMono.monotone (by omega)
      have hgeQ : ((q : ℚ) + 1) * 2 ^ b ≤ magUnits j := by exact_mod_cast hge
      have hscaled := mul_le_mul_of_nonneg_right hhigh hunit.le
      refine ⟨by linarith, fun heq => hhighTie ?_⟩
      exact mul_right_cancel₀ hunit.ne' (by linarith)
    · have hgt : ((2 ^ 53 : Nat) : ℚ) * 2 ^ b < magUnits j := by
        rw [← hmag]
        exact Nat.cast_lt.mpr (magUnits_strictMono hj)
      have hscaled := mul_lt_mul_of_pos_right hx hunit
      push_cast at hgt ⊢
      exact ⟨by linarith, fun heq => absurd heq (by linarith)⟩

end Sys2Proof.Machine
end


section
/-! The four operations round their exact result once (00_scope R11). -/

namespace Sys2Proof.Machine

/-! `F64.ofScaled` -/

/-- What a number stands for lies between the same powers of 2. -/
theorem StandsFor.bounds {m : Nat} {y : ℚ} (h : StandsFor m y) (hm : m ≠ 0) :
    (2 : ℚ) ^ Nat.log2 m ≤ y ∧ y < 2 ^ (Nat.log2 m + 1) := by
  have hlow : 2 ^ Nat.log2 m ≤ m := Nat.log2_self_le hm
  have hhigh : m < 2 ^ (Nat.log2 m + 1) := Nat.lt_log2_self
  rcases h with rfl | ⟨hlarge, -, hcompare⟩
  · exact ⟨by exact_mod_cast hlow, by exact_mod_cast hhigh⟩
  · obtain ⟨n, hn⟩ : ∃ n, Nat.log2 m = n + 1 := ⟨Nat.log2 m - 1, by
      have := (Nat.le_log2 hm).mpr hlarge
      omega⟩
    rw [hn] at hlow hhigh ⊢
    constructor
    · have := (hcompare (2 ^ n)).1.mp (by rwa [← pow_succ'])
      rwa [Nat.cast_pow, Nat.cast_ofNat, ← pow_succ'] at this
    · have := mt (hcompare (2 ^ (n + 1))).1.mpr (by rw [← pow_succ']; omega)
      rwa [Nat.cast_pow, Nat.cast_ofNat, ← pow_succ', not_le] at this

/-- A number shifted to the unit `2^t` and rounded there. -/
theorem roundShift_scaled {m : Nat} {e t : Int} {y : ℚ} (h : StandsFor m y) (ht : y = m ∨ e + 2 ≤ t) :
    (2 * (roundShift (m * 2 ^ (e - t).toNat) (t - e).toNat : ℚ) - 1 ≤ 2 * (y * 2 ^ (e - t)) ∧
      (2 * (roundShift (m * 2 ^ (e - t).toNat) (t - e).toNat : ℚ) - 1 = 2 * (y * 2 ^ (e - t)) →
        roundShift (m * 2 ^ (e - t).toNat) (t - e).toNat % 2 = 0)) ∧
    (2 * (y * 2 ^ (e - t)) ≤ 2 * (roundShift (m * 2 ^ (e - t).toNat) (t - e).toNat : ℚ) + 1 ∧
      (2 * (y * 2 ^ (e - t)) = 2 * (roundShift (m * 2 ^ (e - t).toNat) (t - e).toNat : ℚ) + 1 →
        roundShift (m * 2 ^ (e - t).toNat) (t - e).toNat % 2 = 0)) := by
  have hshifted : StandsFor (m * 2 ^ (e - t).toNat) (y * 2 ^ (e - t).toNat) := by
    rcases ht with rfl | ht
    · exact .inl (by push_cast; rfl)
    · rwa [show (e - t).toNat = 0 by omega, pow_zero, pow_zero, Nat.mul_one, mul_one]
  have hbounds := roundShift_bounds_of_standsFor (sh := (t - e).toNat) hshifted
    (ht.imp (fun h => by rw [h]; push_cast; rfl) fun h => by omega)
  generalize roundShift (m * 2 ^ (e - t).toNat) (t - e).toNat = q at hbounds ⊢
  have hunit : (0 : ℚ) < 2 ^ (t - e).toNat := by positivity
  have hscale : y * 2 ^ (e - t).toNat = y * 2 ^ (e - t) * 2 ^ (t - e).toNat := by
    rw [mul_assoc, ← zpow_natCast, ← zpow_natCast, ← zpow_add₀ two_ne_zero]
    congr 2
    omega
  rw [hscale, ← mul_assoc] at hbounds
  simpa only [mul_le_mul_iff_left₀ hunit, mul_left_inj' hunit.ne'] using hbounds

/-- The magnitude of `ofScaled` is the one its number rounds to. -/
theorem ofScaled_roundsToMag (neg : Bool) {m : Nat} (e : Int) {y : ℚ} (h : StandsFor m y) :
    ∃ k, F64.ofScaled neg m e = F64.ofMag neg (min k magInf) ∧ RoundsToMag (y * 2 ^ e * 2 ^ (1074 : Int)) k := by
  by_cases hm : m = 0
  · subst hm
    have hy : y = 0 := h.elim (fun h => h.trans Nat.cast_zero) fun h => absurd h.1 (by omega)
    refine ⟨0, if_pos rfl, fun j hj => absurd hj (Nat.not_lt_zero j), fun j _ => ⟨?_, fun _ => rfl⟩⟩
    rw [hy, zero_mul, zero_mul, mul_zero]
    positivity
  · obtain ⟨hlow, hhigh⟩ := h.bounds hm
    unfold F64.ofScaled
    rw [if_neg hm]
    dsimp only
    generalize ht : max (e + (Nat.log2 m : Int) - 52) (-1074) = t
    have hpos : (0 : ℚ) < 2 ^ (e - t) := by positivity
    have hround := roundShift_scaled (e := e) (t := t) h (h.imp id fun hlarge => by
      have := (Nat.le_log2 hm).mpr hlarge.1
      omega)
    refine ⟨_, rfl, ?_⟩
    have hvalue : y * 2 ^ e * 2 ^ (1074 : Int) = y * 2 ^ (e - t) * 2 ^ (t + 1074).toNat := by
      rw [mul_assoc, mul_assoc, ← zpow_natCast, ← zpow_add₀ two_ne_zero, ← zpow_add₀ two_ne_zero]
      congr 2
      omega
    rw [hvalue]
    refine roundsToMag_of_binade hround.1 hround.2 ?_ ?_
    · calc y * 2 ^ (e - t) < 2 ^ (Nat.log2 m + 1) * 2 ^ (e - t) := mul_lt_mul_of_pos_right hhigh hpos
        _ = (2 : ℚ) ^ (((Nat.log2 m + 1 : Nat) : Int) + (e - t)) := by rw [zpow_add₀ two_ne_zero, zpow_natCast]
        _ ≤ 2 ^ (53 : Int) := zpow_le_zpow_right₀ one_le_two (by omega)
        _ = 2 ^ 53 := by norm_cast
    · by_cases hsub : t = -1074
      · exact .inl (by omega)
      · refine .inr ?_
        calc (2 : ℚ) ^ 52 = 2 ^ ((Nat.log2 m : Int) + (e - t)) := by
              rw [show (Nat.log2 m : Int) + (e - t) = (52 : Nat) by omega, zpow_natCast]
          _ = 2 ^ Nat.log2 m * 2 ^ (e - t) := by rw [zpow_add₀ two_ne_zero, zpow_natCast]
          _ ≤ y * 2 ^ (e - t) := mul_le_mul_of_nonneg_right hlow hpos.le

/-! Rounding a signed number -/

/-- `z` is `r` rounded: of the sign of `r`, with the magnitude that `|r|` rounds to, or an infinity. -/
def RoundsTo (z : F64) (r : ℚ) : Prop :=
  ∃ neg a k, 0 ≤ a ∧ r = signUnit neg * a ∧ z = F64.ofMag neg (min k magInf) ∧ RoundsToMag (a * 2 ^ (1074 : Int)) k

theorem ofScaled_roundsTo (neg : Bool) {m : Nat} (e : Int) {y : ℚ} (h : StandsFor m y) :
    RoundsTo (F64.ofScaled neg m e) (signUnit neg * (y * 2 ^ e)) := by
  obtain ⟨k, hz, hround⟩ := ofScaled_roundsToMag neg e h
  have hy : 0 ≤ y := h.elim (fun h => h ▸ Nat.cast_nonneg m) fun h => h.2.1
  exact ⟨neg, y * 2 ^ e, k, by positivity, rfl, hz, hround⟩

/-- The overflow threshold in units of 2^-1074. -/
theorem lt_overflow_iff (a : ℚ) : a < (2 ^ 54 - 1) * 2 ^ 970 ↔ 2 * (a * 2 ^ (1074 : Int)) < (2 ^ 54 - 1) * 2 ^ 2045 := by
  have hsplit : (2 : ℚ) ^ 2045 = 2 ^ 970 * (2 * 2 ^ (1074 : Int)) := by
    rw [zpow_ofNat, ← pow_succ']
    exact pow_add 2 970 1075
  have hpos : (0 : ℚ) < 2 * 2 ^ (1074 : Int) := by positivity
  rw [hsplit, mul_left_comm, ← mul_assoc (2 ^ 54 - 1 : ℚ), mul_lt_mul_iff_left₀ hpos]

theorem abs_signUnit_mul (neg : Bool) (a : ℚ) : |signUnit neg * a| = |a| := by
  cases neg <;> simp [signUnit]

theorem ofMag_parity (neg : Bool) {k : Nat} (hk : k < magInf) : (F64.ofMag neg k).bits.toNat % 2 = k % 2 := by
  unfold magInf at hk
  rw [F64.ofMag_toNat neg k (by omega)]
  split <;> omega

/-- A number below the overflow threshold rounds to the nearest of all finite numbers, with an even last bit in a tie. -/
theorem RoundsToMag.nearest_value {neg : Bool} {a : ℚ} {k : Nat} (ha : 0 ≤ a) (hk : k < magInf)
    (hround : RoundsToMag (a * 2 ^ (1074 : Int)) k) {w : F64} {u : ℚ} (hu : IsValue w u) :
    |signUnit neg * (magUnits k * 2 ^ (-1074 : Int)) - signUnit neg * a| ≤ |u - signUnit neg * a| ∧
      (|signUnit neg * (magUnits k * 2 ^ (-1074 : Int)) - signUnit neg * a| = |u - signUnit neg * a| →
        u ≠ signUnit neg * (magUnits k * 2 ^ (-1074 : Int)) → (F64.ofMag neg k).bits.toNat % 2 = 0) := by
  obtain ⟨other, j, -, -, rfl⟩ := hu.exists_mag
  have hpos : (0 : ℚ) < 2 ^ (1074 : Int) := by positivity
  have hunit : (0 : ℚ) < 2 ^ (-1074 : Int) := by positivity
  have hscaled : a = a * 2 ^ (1074 : Int) * 2 ^ (-1074 : Int) := by
    rw [mul_assoc, ← zpow_add₀ two_ne_zero, add_neg_cancel, zpow_zero, mul_one]
  obtain ⟨hle, htie⟩ := hround.nearest_signed (mul_nonneg ha hpos.le) (neg ^^ other) j
  rw [ofMag_parity neg hk]
  generalize a * 2 ^ (1074 : Int) = units at *
  generalize (2 : ℚ) ^ (-1074 : Int) = unit at *
  rw [hscaled]
  have hsame : |signUnit neg * (magUnits k * unit) - signUnit neg * (units * unit)| = |magUnits k - units| * unit := by
    rw [← mul_sub, ← sub_mul, abs_signUnit_mul, abs_mul, abs_of_pos hunit]
  have hsign : signUnit other = signUnit neg * signUnit (neg ^^ other) := by
    rw [signUnit_xor, ← mul_assoc, signUnit_mul_self, one_mul]
  have hother : |signUnit other * (magUnits j * unit) - signUnit neg * (units * unit)| =
      |signUnit (neg ^^ other) * magUnits j - units| * unit := by
    rw [hsign, mul_assoc, ← mul_sub, ← mul_assoc, ← sub_mul, abs_signUnit_mul, abs_mul, abs_of_pos hunit]
  rw [hsame, hother]
  refine ⟨mul_le_mul_of_nonneg_right hle hunit.le, fun heq hne => htie (mul_right_cancel₀ hunit.ne' heq) fun hsig => hne ?_⟩
  rw [hsign, mul_assoc, ← mul_assoc _ (magUnits j : ℚ), hsig]

/-- A rounded number is the nearest of all finite ones, with an even last bit in a tie, or the infinity of its sign
(00_scope R11; log 27). -/
theorem RoundsTo.nearest {z : F64} {r : ℚ} (h : RoundsTo z r) :
    if |r| < (2 ^ 54 - 1) * 2 ^ 970 then
      ∃ v, IsValue z v ∧ ∀ w u, IsValue w u → |v - r| ≤ |u - r| ∧ (|v - r| = |u - r| → u ≠ v → z.bits.toNat % 2 = 0)
    else z = F64.inf (decide (r < 0)) := by
  obtain ⟨neg, a, k, ha, rfl, rfl, hround⟩ := h
  have hfinite : |signUnit neg * a| < (2 ^ 54 - 1) * 2 ^ 970 ↔ k < magInf := by
    rw [abs_signUnit_mul, abs_of_nonneg ha, lt_overflow_iff, hround.lt_magInf_iff]
  split
  case isTrue hk =>
    have hk := hfinite.mp hk
    rw [Nat.min_eq_left hk.le]
    exact ⟨_, isValue_ofMag neg hk, fun w u hu => hround.nearest_value ha hk hu⟩
  case isFalse hk =>
    have hk := mt hfinite.mpr hk
    rw [Nat.min_eq_right (Nat.le_of_not_lt hk)]
    have hpos : 0 < a := lt_of_le_of_ne ha fun h0 => hk (by
      rw [← h0, zero_mul] at hround
      rw [hround.eq_zero]
      decide)
    cases neg with
    | false => rw [decide_eq_false (by simpa [signUnit] using ha)]; rfl
    | true => rw [decide_eq_true (by simpa [signUnit] using hpos)]; rfl

/-! The operations -/

/-- A significand shifted left, its exponent lowered as much. -/
theorem signed_shift (neg : Bool) (m : Nat) {e g : Int} (h : g ≤ e) :
    (signed neg (m * 2 ^ (e - g).toNat) : ℚ) * 2 ^ g = (signed neg m : ℚ) * 2 ^ e := by
  have hpow : (2 : ℚ) ^ e = 2 ^ (e - g).toNat * 2 ^ g := by
    rw [← zpow_natCast, ← zpow_add₀ two_ne_zero]
    congr 1
    omega
  rw [signed_cast, signed_cast, hpow]
  push_cast
  ring

theorem signUnit_natAbs (v : Int) : signUnit (decide (v < 0)) * (v.natAbs : ℚ) = v := by
  rw [← signed_cast]
  have := signed_natAbs v (decide (v < 0)) 1 (by simp) (by simp; omega)
  rw [Nat.mul_one] at this
  rw [this, Nat.cast_one, mul_one]

theorem add_roundsTo {x y : F64} {p q : ℚ} (hx : IsValue x p) (hy : IsValue y q) : RoundsTo (F64.add x y) (p + q) := by
  obtain ⟨a, m, e, hx, rfl⟩ := hx
  obtain ⟨b, n, f, hy, rfl⟩ := hy
  unfold F64.add
  rw [hx, hy]
  dsimp only
  rw [← signed_shift a m (Int.min_le_left e f), ← signed_shift b n (Int.min_le_right e f), ← add_mul, ← Int.cast_add]
  generalize signed a (m * 2 ^ (e - min e f).toNat) + signed b (n * 2 ^ (f - min e f).toNat) = v
  split
  case isTrue hv =>
    have hzero := ofScaled_roundsTo (a && b) 0 (.inl rfl : StandsFor 0 (0 : Nat))
    rw [Nat.cast_zero, zero_mul, mul_zero] at hzero
    rw [hv, Int.cast_zero, zero_mul]
    exact hzero
  case isFalse =>
    have hrounds := ofScaled_roundsTo (decide (v < 0)) (min e f) (.inl rfl : StandsFor v.natAbs v.natAbs)
    rwa [← mul_assoc, signUnit_natAbs] at hrounds

theorem IsValue.neg {x : F64} {p : ℚ} (h : IsValue x p) : IsValue x.neg (-p) := by
  obtain ⟨a, m, e, hx, rfl⟩ := h
  refine ⟨!a, m, e, F64.view_neg x a m e hx, ?_⟩
  rw [← neg_mul]
  cases a <;> simp [signed]

theorem sub_roundsTo {x y : F64} {p q : ℚ} (hx : IsValue x p) (hy : IsValue y q) : RoundsTo (F64.sub x y) (p - q) := by
  rw [sub_eq_add_neg]
  exact add_roundsTo hx hy.neg

theorem mul_roundsTo {x y : F64} {p q : ℚ} (hx : IsValue x p) (hy : IsValue y q) : RoundsTo (F64.mul x y) (p * q) := by
  obtain ⟨a, m, e, hx, rfl⟩ := hx
  obtain ⟨b, n, f, hy, rfl⟩ := hy
  unfold F64.mul
  rw [hx, hy]
  dsimp only
  have hrounds := ofScaled_roundsTo (a ^^ b) (e + f) (.inl rfl : StandsFor (m * n) (m * n : Nat))
  have hvalue : signUnit (a ^^ b) * (((m * n : Nat) : ℚ) * 2 ^ (e + f)) =
      (signed a m : ℚ) * 2 ^ e * ((signed b n : ℚ) * 2 ^ f) := by
    rw [signUnit_xor, signed_cast, signed_cast, zpow_add₀ two_ne_zero]
    push_cast
    ring
  rwa [hvalue] at hrounds

/-- A significand has at most 53 bits. -/
theorem significand_lt {x : F64} {neg : Bool} {m : Nat} {e : Int} (h : x.view = .fin neg m e) : m < 2 ^ 53 := by
  obtain ⟨k, hk, rfl⟩ := exists_mag_of_fin h
  rw [view_ofMag_of_lt neg hk] at h
  cases h
  unfold magSig magBinade
  omega

/-- A quotient with a last bit that tells whether a remainder is left stands for the exact quotient. -/
theorem standsFor_quotient {m n : Nat} (hn : n ≠ 0) (hn53 : n < 2 ^ 53) :
    StandsFor (2 * (m * 2 ^ 120 / n) + (if m * 2 ^ 120 % n = 0 then 0 else 1)) (2 * ((m * 2 ^ 120 : Nat) / n : ℚ)) := by
  have hpos : 0 < n := Nat.pos_of_ne_zero hn
  have hposQ : (0 : ℚ) < n := Nat.cast_pos.mpr hpos
  rcases Nat.eq_zero_or_pos m with rfl | hm
  · refine .inl ?_
    rw [Nat.zero_mul, Nat.zero_div, Nat.zero_mod, if_pos rfl]
    simp
  · have hlarge : 2 ^ 54 ≤ m * 2 ^ 120 / n := by
      rw [Nat.le_div_iff_mul_le hpos]
      omega
    generalize m * 2 ^ 120 = num at hlarge ⊢
    refine .inr ⟨by omega, by positivity, fun c => ⟨?_, ?_⟩⟩
    · have hfloor : c ≤ num / n ↔ (c : ℚ) ≤ num / n := by
        rw [Nat.le_div_iff_mul_le hpos, le_div_iff₀ hposQ]
        exact_mod_cast Iff.rfl
      rw [mul_le_mul_iff_right₀ two_pos, ← hfloor]
      split <;> omega
    · have hceil : num ≤ c * n ↔ (num / n : ℚ) ≤ c := by
        rw [div_le_iff₀ hposQ]
        exact_mod_cast Iff.rfl
      rw [mul_le_mul_iff_right₀ two_pos, ← hceil]
      split
      case isTrue hexact =>
        obtain ⟨quot, rfl⟩ := Nat.dvd_of_mod_eq_zero hexact
        rw [Nat.mul_div_cancel_left _ hpos, Nat.mul_comm c n, Nat.mul_le_mul_left_iff hpos]
        omega
      case isFalse hrem =>
        have hne : num ≠ c * n := fun h => hrem (by rw [h, Nat.mul_mod_left])
        have hlt := Nat.div_lt_iff_lt_mul (x := num) (y := c) hpos
        omega

theorem div_roundsTo {x y : F64} {p q : ℚ} (hx : IsValue x p) (hy : IsValue y q) (hq : q ≠ 0) :
    RoundsTo (F64.div x y) (p / q) := by
  obtain ⟨a, m, e, hx, rfl⟩ := hx
  obtain ⟨b, n, f, hy, rfl⟩ := hy
  have hn : n ≠ 0 := fun h => hq (by rw [h]; cases b <;> simp [signed])
  unfold F64.div
  rw [hx, hy]
  dsimp only
  rw [if_neg hn]
  have hrounds := ofScaled_roundsTo (a ^^ b) (e - f - 121) (standsFor_quotient (m := m) hn (significand_lt hy))
  have hvalue : signUnit (a ^^ b) * (2 * (((m * 2 ^ 120 : Nat) : ℚ) / n) * 2 ^ (e - f - 121)) =
      (signed a m : ℚ) * 2 ^ e / ((signed b n : ℚ) * 2 ^ f) := by
    have hinv : (signUnit b)⁻¹ = signUnit b := inv_eq_of_mul_eq_one_right (signUnit_mul_self b)
    have hbits : (2 : ℚ) * 2 ^ 120 * 2 ^ (-121 : Int) = 1 := by norm_num
    rw [signUnit_xor, signed_cast, signed_cast, sub_eq_add_neg, zpow_add₀ two_ne_zero, zpow_sub₀ two_ne_zero,
      div_eq_mul_inv _ (_ * _), mul_inv, mul_inv, hinv]
    push_cast
    linear_combination (signUnit a * signUnit b * m * (n : ℚ)⁻¹ * 2 ^ e * ((2 : ℚ) ^ f)⁻¹) * hbits
  rwa [hvalue] at hrounds

end Sys2Proof.Machine

namespace Sys2Proof

open Sys2Proof.Machine

/-- Settles O60: each operation rounds its exact result, and a rounded number is the nearest. -/
theorem arithmeticRoundsOnce : Obligations.ArithmeticRoundsOnce := by
  intro x y z p q r hx hy hop
  rcases hop with ⟨rfl, rfl⟩ | ⟨rfl, rfl⟩ | ⟨rfl, rfl⟩ | ⟨hq, rfl, rfl⟩
  · exact (add_roundsTo hx hy).nearest
  · exact (sub_roundsTo hx hy).nearest
  · exact (mul_roundsTo hx hy).nearest
  · exact (div_roundsTo hx hy hq).nearest

end Sys2Proof
end
